-- ==== Sys2Proof/Word.lean ====
section
/-! DEFINITION. The word types of the EB416: the widths the book gives its identifiers, addresses and counters,
and the saturating addition of its 32-bit counters. -/

namespace Sys2Proof

/-- A byte of a ring entry, a block, a fragment or a frame. -/
abbrev Byte := BitVec 8

/-- A register of the window, a check (CRC-32) or a counter (chapter 9, R137, R164). -/
abbrev Word := BitVec 32

/-- A stripe id: any 64-bit value (section 1.2). -/
abbrev StripeId := BitVec 64

/-- A rack id, 0 to 255 (R52): one byte wide wherever it is carried. -/
abbrev RackId := BitVec 8

/-- The number of a fetch context, 0 to 255 (R101). -/
abbrev Tag := BitVec 8

/-- A slot of the Repair Table, 0 to 2047 (R1). -/
abbrev Slot := Fin 2048

/-- A slab of the Staging Pool, 0 to 3583 (R44). -/
abbrev Slab := Fin 3584

/-- A request id (section 9.3). -/
abbrev ReqId := BitVec 16

/-- A 16-byte network address, its first byte the most significant (chapter 11: network order). -/
abbrev NetAddr := BitVec 128

/-- A 6-byte link address, its first byte the most significant (chapter 11: network order). -/
abbrev LinkAddr := BitVec 48

/-- R164: every counter is 32 bits wide and saturates. -/
def satAdd (a b : Word) : Word :=
  if a.toNat + b.toNat ≤ 0xFFFFFFFF then a + b else 0xFFFFFFFF#32

end Sys2Proof
end

