-- ==== Sys2Proof/Config.lean ====
section
/-! DEFINITION. What the part fixes: its capacities and fixed times (R163, R71), the defaults of the settings
(R161), and the two values the book leaves open and the log names (entries 6 and 7). The book leaves no RESULT of a command open, so
there is no free value. -/

namespace Sys2Proof.Config

/-- R163: the Repair Table's slots. -/
def slots : Nat := 2048

/-- R163: the Staging Pool's slabs. -/
def slabs : Nat := 3584

/-- R163: the fetch contexts. -/
def contexts : Nat := 256

/-- R163: the racks. -/
def racks : Nat := 256

/-- R163: the largest k. -/
def largestK : Nat := 12

/-- R163: the largest n. -/
def largestN : Nat := 16

/-- R163, R95: the largest SPAN payload in bytes. -/
def largestSpan : Nat := 8192

/-- R163: the revision code of the part the book describes. -/
def revision : Nat := 1

/-- R44: a slab is 1 MiB. -/
def slabBytes : Nat := 1048576

/-- A granule is 512 bytes (R110). -/
def granule : Nat := 512

/-- R71: the refill interval, in µs. -/
def refillInterval : Nat := 100

/-- R67: the most SWEEP_DONE notices a sweep's end may leave pending. -/
def sweepDoneRoom : Nat := 2048

/-- What a byte of staging DRAM that nothing has written reads as. DESIGN CHOICE (entry 7), unsafe: the book gives no
power-on contents of the slabs. -/
def dramByte : Byte := 0#8

/-- The link state of both ports in `State.reset`. DESIGN CHOICE (entry 6), unsafe: R89 gives the link state no reset
value, and PORT_LINK_CHANGE brings a link up. -/
def linkAtReset : Bool := false

end Sys2Proof.Config
end

