-- ==== Sys2Proof/Syntax.lean ====
section
/-! DEFINITION. The commands of the EB416: one constructor for each row of spec/opcode_table.json, in the
table's order. An operand is what comes from outside the part with the command: the value of a register write, the
bytes a DMA read returned, the outcome of a DMA write, a received frame. -/

namespace Sys2Proof

/-- One of the two fabric ports (R86). -/
inductive PortNo where
  | p0 | p1
  deriving DecidableEq, Repr

/-- How a DMA write of the part into host memory ended. -/
inductive Dma where
  | ok | failed
  deriving DecidableEq, Repr

/-- The three placement registers of a ring: low and high base words and the size code (section 9.1). -/
inductive RingReg where
  | baseLow | baseHigh | sizeCode
  deriving DecidableEq, Repr

/-- The 64 bytes of a request entry as the DMA read of it returned them (section 11.2). -/
abbrev Entry := Vector Byte 64

/-- The commands of the part. `cw` is the outcome of the DMA write of the Completion Ring entry that the command
writes (R165). `block` is the readable bytes of host memory from the request's block address on: a DMA read that goes
past its end fails (entry 23). -/
inductive Instr where
  /-- POWER_ON_RESET (R153). -/
  | powerOnReset
  /-- FUNCTION_LEVEL_RESET (R153). -/
  | functionLevelReset
  /-- CONTROLLER_RESET (R154): a write of `value`, bit 1 set, to Control. -/
  | controllerReset (value : Word)
  /-- WRITE_RUN (R150): a write of `value`, bit 1 clear, to Control. -/
  | writeRun (value : Word)
  /-- WRITE_REQUEST_RING_PLACEMENT (R152). -/
  | writeRequestRingPlacement (reg : RingReg) (value : Word)
  /-- WRITE_COMPLETION_RING_PLACEMENT (R165). -/
  | writeCompletionRingPlacement (reg : RingReg) (value : Word)
  /-- REQUEST_RING_TAIL (R155). -/
  | requestRingTail (value : Word)
  /-- COMPLETION_RING_HEAD (R165). -/
  | completionRingHead (value : Word)
  /-- ATTENTION_ARM (R172). -/
  | attentionArm (value : Word)
  /-- REGISTER_WRITE (R149): a write of `value` at `offset` of the register window. -/
  | registerWrite (offset : BitVec 12) (value : Word)
  /-- PORT_LINK_CHANGE (R89). -/
  | portLinkChange (port : PortNo) (up : Bool)
  /-- INTAKE_RESERVATION (R156). -/
  | intakeReservation
  /-- ENTRY_READ_FAULT (R157). -/
  | entryReadFault (cw : Dma)
  /-- BAD_REQUEST (R157). -/
  | badRequest (entry : Entry) (cw : Dma)
  /-- OPEN (R24). -/
  | openRecord (entry : Entry) (block : List Byte) (cw : Dma)
  /-- CANCEL (R25). -/
  | cancel (entry : Entry) (cw : Dma)
  /-- RETIRE (R26). -/
  | retire (entry : Entry) (cw : Dma)
  /-- QUERY (R28). -/
  | query (entry : Entry) (cw : Dma)
  /-- REPRIORITIZE (R41). -/
  | reprioritize (entry : Entry) (cw : Dma)
  /-- RACK_DOWN (R57). -/
  | rackDown (entry : Entry) (cw : Dma)
  /-- RACK_UP (R58). -/
  | rackUp (entry : Entry) (cw : Dma)
  /-- RACK_CLASS (R59). -/
  | rackClass (entry : Entry) (cw : Dma)
  /-- HOLD (R127). -/
  | hold (entry : Entry) (cw : Dma)
  /-- RELEASE (R130). -/
  | release (entry : Entry) (cw : Dma)
  /-- AMEND (R132). -/
  | amend (entry : Entry) (cw : Dma)
  /-- REPLAN (R122). -/
  | replan (entry : Entry) (block : List Byte) (cw : Dma)
  /-- QUIESCE (R159). -/
  | quiesce (entry : Entry) (cw : Dma)
  /-- SET_PARAMS (R161). -/
  | setParams (entry : Entry) (block : List Byte) (cw : Dma)
  /-- IDENTIFY (R163). -/
  | identify (entry : Entry) (cw : Dma)
  /-- REPORT (R164). -/
  | report (entry : Entry) (cw : Dma)
  /-- BUFFER_WRITE_DONE (R156): the buffer's DMA write ended as `bw` says. -/
  | bufferWriteDone (bw : Dma) (cw : Dma)
  /-- NOTICE_WRITE (R170). -/
  | noticeWrite (cw : Dma)
  /-- ACTIVATION (R47). -/
  | activation
  /-- ISSUE (R81). -/
  | issue
  /-- REFILL (R72). -/
  | refill
  /-- STALL_EXPIRY (R35). -/
  | stallExpiry (slot : Slot)
  /-- HOLDOFF_EXPIRY (R84). -/
  | holdoffExpiry (slot : Slot) (pos : Nat)
  /-- IDLE_EXPIRY (R116). -/
  | idleExpiry (tag : Tag)
  /-- SPAN_ARRIVAL (R108): `frame` is the Ethernet frame received on `port`. -/
  | spanArrival (port : PortNo) (frame : List Byte)
  /-- END_ARRIVAL (R112). -/
  | endArrival (port : PortNo) (frame : List Byte)
  /-- NEIGHBOUR_SOLICITATION (R88). -/
  | neighbourSolicitation (port : PortNo) (frame : List Byte)
  /-- FRAME_DISCARD (R88). -/
  | frameDiscard (port : PortNo) (frame : List Byte)
  /-- SWEEP_VISIT (R64). -/
  | sweepVisit
  /-- SWEEP_END (R67). -/
  | sweepEnd
  /-- PASS_START (R139). -/
  | passStart
  /-- PASS_END (R143). -/
  | passEnd
  /-- LANDING_FAULT (R142). -/
  | landingFault
  /-- LANDING_WRITE_COMPLETE (R140). -/
  | landingWriteComplete
  deriving DecidableEq, Repr

end Sys2Proof
end

