-- ==== Sys2Proof/WellFormed.lean ====
section
/-! DEFINITION. When a command is one of its row: the Control bit its name speaks of, an offset that no other row
writes, the opcode of its request, a survivor position that exists, and a frame long enough to be an Ethernet frame. -/

namespace Sys2Proof

/-- Section 11.2: the opcodes that name a request of the part. -/
def knownOpcodes : List Byte :=
  [0x01#8, 0x02#8, 0x03#8, 0x04#8, 0x05#8, 0x06#8, 0x07#8, 0x08#8, 0x09#8, 0x0A#8, 0x0B#8, 0x0C#8,
   0x10#8, 0x11#8, 0x12#8, 0x13#8]

/-- Section 9.1: the offsets of the registers that other rows of the table write. -/
def namedOffsets : List (BitVec 12) :=
  [0x000#12, 0x008#12, 0x00C#12, 0x010#12, 0x014#12, 0x020#12, 0x024#12, 0x028#12, 0x030#12, 0x034#12]

/-- Whether the command's operands are ones that its row of the table can carry. -/
def Instr.wellFormed : Instr → Bool
  | .powerOnReset => true
  | .functionLevelReset => true
  | .controllerReset value => value.getLsbD 1
  | .writeRun value => !value.getLsbD 1
  | .writeRequestRingPlacement _ _ => true
  | .writeCompletionRingPlacement _ _ => true
  | .requestRingTail _ => true
  | .completionRingHead _ => true
  | .attentionArm _ => true
  | .registerWrite offset _ => offset.toNat % 4 == 0 && !namedOffsets.contains offset
  | .portLinkChange _ _ => true
  | .intakeReservation => true
  | .entryReadFault _ => true
  | .badRequest entry _ => !knownOpcodes.contains entry[0]
  | .openRecord entry _ _ => entry[0] == 0x01#8
  | .cancel entry _ => entry[0] == 0x02#8
  | .retire entry _ => entry[0] == 0x03#8
  | .query entry _ => entry[0] == 0x04#8
  | .reprioritize entry _ => entry[0] == 0x05#8
  | .rackDown entry _ => entry[0] == 0x06#8
  | .rackUp entry _ => entry[0] == 0x07#8
  | .rackClass entry _ => entry[0] == 0x08#8
  | .hold entry _ => entry[0] == 0x09#8
  | .release entry _ => entry[0] == 0x0A#8
  | .amend entry _ => entry[0] == 0x0B#8
  | .replan entry _ _ => entry[0] == 0x0C#8
  | .quiesce entry _ => entry[0] == 0x10#8
  | .setParams entry _ _ => entry[0] == 0x11#8
  | .identify entry _ => entry[0] == 0x12#8
  | .report entry _ => entry[0] == 0x13#8
  | .bufferWriteDone _ _ => true
  | .noticeWrite _ => true
  | .activation => true
  | .issue => true
  | .refill => true
  | .stallExpiry _ => true
  | .holdoffExpiry _ pos => pos < 15
  | .idleExpiry _ => true
  | .spanArrival _ frame => 14 ≤ frame.length
  | .endArrival _ frame => 14 ≤ frame.length
  | .neighbourSolicitation _ frame => 14 ≤ frame.length
  | .frameDiscard _ frame => 14 ≤ frame.length
  | .sweepVisit => true
  | .sweepEnd => true
  | .passStart => true
  | .passEnd => true
  | .landingFault => true
  | .landingWriteComplete => true

end Sys2Proof
end

