-- ==== Sys2Proof/Decode.lean ====
section
/-! DEFINITION. The command that a word spells by the opcode table's bits. The EB416 is a block: its table gives
no row any bits (its requests are read from 64-byte ring entries, whose layout is in Machine/Operands.lean), so no word
spells a command. -/

namespace Sys2Proof

/-- No row of spec/opcode_table.json gives bits, so no word spells a command (entry 28). -/
def decodeTableWord (_nbits _w : Nat) : Option Instr := none

end Sys2Proof
end

