-- ==== Sys2Proof/Machine/Bytes.lean ====
section
/-! DEFINITION. Byte order (chapter 11, R173): host-side structures little-endian, fabric messages and addresses in
network order. Bytes past the end of a list read as zero, so that every function is total. -/

namespace Sys2Proof.Machine

/-- The `len` bytes of `l` from `off` on. -/
def field (l : List Byte) (off len : Nat) : List Byte := (List.range len).map fun i => l.getD (off + i) 0#8

/-- The number that bytes stand for, least significant byte first. -/
def leValue (l : List Byte) : Nat := l.foldr (fun b acc => b.toNat + 256 * acc) 0

/-- The number that bytes stand for, most significant byte first. -/
def beValue (l : List Byte) : Nat := leValue l.reverse

/-- The little-endian field of `len` bytes at `off`. -/
def leAt (l : List Byte) (off len : Nat) : Nat := leValue (field l off len)

/-- The network-order field of `len` bytes at `off`. -/
def beAt (l : List Byte) (off len : Nat) : Nat := beValue (field l off len)

/-- The byte at `off`. -/
def byteAt (l : List Byte) (off : Nat) : Byte := l.getD off 0#8

/-- `x` in `len` bytes, least significant byte first. -/
def leBytes : (len : Nat) → (x : Nat) → List Byte
  | 0, _ => []
  | len + 1, x => BitVec.ofNat 8 x :: leBytes len (x / 256)

/-- `x` in `len` bytes, most significant byte first. -/
def beBytes (len x : Nat) : List Byte := (leBytes len x).reverse

/-- `len` padding bytes (R174). -/
def zeros (len : Nat) : List Byte := List.replicate len 0#8

/-- The first `len` bytes of `l`, padded with zero. -/
def padTo (len : Nat) (l : List Byte) : List Byte := l.take len ++ zeros (len - l.length)

/-- One byte holding a number. -/
def numByte (x : Nat) : Byte := BitVec.ofNat 8 x

/-- One byte holding a flag in bit 0. -/
def flagByte (b : Bool) : Byte := if b then 1#8 else 0#8

/-- `x` rounded up to a multiple of 8 (section 11.3). -/
def roundUp8 (x : Nat) : Nat := (x + 7) / 8 * 8

end Sys2Proof.Machine
end

