-- ==== Sys2Proof/Machine/Arith.lean ====
section
/-! DEFINITION. The arithmetic of the Combine Engine and of the fabric: GF(2^8) (R135), the CRC-32 check (R95,
R137), and the 16-bit one's complement checksum that UDP and ICMPv6 carry (R87, R88). -/

namespace Sys2Proof.Machine

/-- R135: the product of a byte and 0x02, reduced modulo 0x11D. -/
def gfDouble (a : Byte) : Byte := if a.msb then (a <<< 1) ^^^ 0x1D#8 else a <<< 1

/-- The exclusive-or of the products of `a` with the powers of two set in the low `n` bits of `c` from bit `b` on. -/
def gfMulFrom (c : Byte) : (n b : Nat) → (a : Byte) → Byte
  | 0, _, _ => 0#8
  | n + 1, b, a => (if c.getLsbD b then a else 0#8) ^^^ gfMulFrom c n (b + 1) (gfDouble a)

/-- R135: the product of two elements. -/
def gfMul (c a : Byte) : Byte := gfMulFrom c 8 0 a

/-- One bit of the reflected CRC with polynomial 0x82F63B78. -/
def crcBit (r : Word) : Word := if r.getLsbD 0 then (r >>> 1) ^^^ 0x82F63B78#32 else r >>> 1

/-- One byte of the reflected CRC. -/
def crcByte (r : Word) (b : Byte) : Word :=
  crcBit (crcBit (crcBit (crcBit (crcBit (crcBit (crcBit (crcBit (r ^^^ b.setWidth 32))))))))

/-- R95, R137: the check of bytes in offset order. -/
def check (l : List Byte) : Word := (l.foldl crcByte 0xFFFFFFFF#32) ^^^ 0xFFFFFFFF#32

/-- The sum of the 16-bit network-order words of `l`, an odd last byte padded with zero. -/
def wordSum : List Byte → Nat
  | [] => 0
  | [a] => a.toNat * 256
  | a :: b :: rest => a.toNat * 256 + b.toNat + wordSum rest

/-- The one's complement of the one's complement sum of `l` (PRESUMED, entry 8: the Internet checksum). -/
def inetChecksum (l : List Byte) : Nat :=
  let sum := wordSum l
  0xFFFF - (if sum % 0xFFFF = 0 ∧ sum ≠ 0 then 0xFFFF else sum % 0xFFFF)

end Sys2Proof.Machine
end

