-- ==== Sys2Proof/Machine/State.lean ====
section
/-! DEFINITION. The state of the EB416 as plain data, grouped by the blocks that own it (the table "Blocks of the
EB416" of spec/00_scope.md), and the state after power-on reset. -/

namespace Sys2Proof.Machine

/-! ## Names that are not bits -/

/-- The statuses a completion may carry (section 9.4). -/
inductive Status where
  | ok | tableFull | duplicate | notFound | badShape | badPlan | unrecoverable | wrongState | notHeld | sweepActive
  | hostFault | badRequest
  deriving DecidableEq, Repr

/-- R1: the states of an occupied slot's record. -/
inductive RecState where
  | queued | fetching | planWait | combining | delivered | faulted | lost
  deriving DecidableEq, Repr

/-- R126: the hold state. A hold that is REQUESTED keeps the request id of the HOLD that asked for it. -/
inductive Hold where
  | none | requested (id : ReqId) | granted
  deriving DecidableEq, Repr

/-- Why a survivor is FAILED (R18). -/
inductive FailCause where
  | timeoutLimit | notHeld | corrupt
  deriving DecidableEq, Repr

/-- R17: the survivor states. R6: a fail reason is present exactly in FAILED and GONE, and R19: a GONE survivor's
reason is RACK_DOWN, so the reason is part of the state. -/
inductive SurvState where
  | available | pulling | staged | failed (cause : FailCause) | gone
  deriving DecidableEq, Repr

/-- R8: the fault detail of a FAULTED record. -/
inductive FaultDetail where
  | checkMismatch (target : Nat) | landingFault
  deriving DecidableEq, Repr

/-- R54: the budget classes. -/
inductive BudgetClass where
  | full | reduced | trickle | halted
  deriving DecidableEq, Repr

/-- R168, R169: an entry of the Notice Queue, its kind and its subject. -/
inductive Notice where
  | planNeeded (slot : Slot)
  | delivered (slot : Slot)
  | faulted (slot : Slot)
  | lost (slot : Slot)
  | holdGranted (slot : Slot) (id : ReqId)
  | sweepDone (id : ReqId) (rack : RackId)
  deriving DecidableEq, Repr

/-! ## The repair record (chapter 1) -/

/-- R5: a target entry. -/
structure Target where
  /-- Fragment index of the lost fragment. -/
  frag : Nat
  /-- Landing address in host memory. -/
  landing : BitVec 64
  /-- The check the host expects. -/
  expected : Word
  /-- The check a combine pass computed, absent until then. -/
  computed : Option Word
  deriving DecidableEq, Repr

/-- R6: the slab number and the coverage map, which are present together. -/
structure Staging where
  /-- The slab. -/
  slab : Slab
  /-- One mark for each granule of the fragment (R110), granule 0 first. -/
  cover : List Bool
  deriving DecidableEq, Repr

/-- R6: a survivor entry. Whether it is selected is read from the plan (R120). -/
structure Survivor where
  /-- Fragment index. -/
  frag : Nat
  /-- The rack. -/
  rack : RackId
  /-- The holder's network address. -/
  addr : NetAddr
  /-- The holder's service port. -/
  svc : BitVec 16
  /-- Survivor state with its fail reason. -/
  state : SurvState
  /-- Slab number and coverage map. -/
  staging : Option Staging
  /-- Retries used, 0 to 7. -/
  retries : Nat
  /-- Holdoff-until time, in µs of the part's time. -/
  holdoff : Option Nat
  /-- The fault offset an END CORRUPT gave. -/
  faultOffset : Option (BitVec 32)
  deriving DecidableEq, Repr

/-- Section 1.2: the repair record. Its survivor count s is the length of `survs`, its t targets are `targets`,
and danger is read from the margin (R33). -/
structure Record where
  /-- Stripe id. -/
  stripe : StripeId
  /-- Fragments needed. -/
  k : Nat
  /-- Fragments in the stripe. -/
  n : Nat
  /-- Fragment length code (R21): 0 stands for 256 units of 4 KiB. -/
  lcode : Byte
  /-- Boost, 0 to 3. -/
  boost : Nat
  /-- Admission serial (R3). -/
  serial : BitVec 32
  /-- The order of admission, the model's own total count (R40, entry 15). -/
  order : Nat
  /-- Record state. -/
  state : RecState
  /-- Active flag (R9). -/
  active : Bool
  /-- Hold state (R126). -/
  hold : Hold
  /-- The stored margin (R30); below 0 only in LOST. -/
  margin : Int
  /-- Age, 0 to 15 (R35). -/
  age : Nat
  /-- The stored score (R39), frozen in a terminal record (R32). -/
  score : Nat
  /-- The stall timer: the time its period ends when running, absent when stopped (R34). -/
  stall : Option Nat
  /-- Fault detail (R8). -/
  fault : Option FaultDetail
  /-- The targets, in the Open Block's order (R5). -/
  targets : List Target
  /-- The survivors by position (R6). -/
  survs : List Survivor
  /-- The plan's k positions in plan order (R7). -/
  plan : List Nat
  /-- The plan's t rows of k coefficients (R7). -/
  rows : List (List Byte)
  deriving DecidableEq, Repr

/-- R1 to R3: the Repair Table. -/
structure RepairTable where
  /-- The 2048 slots; a FREE slot holds no record. -/
  slots : Vector (Option Record) 2048
  /-- The Stripe Index (R2). -/
  index : List (StripeId × Slot)
  /-- The 32-bit admission serial counter (R3). -/
  serial : BitVec 32
  /-- Admissions since the last reset, the model's own count behind R40's total order (entry 15). -/
  admitted : Nat
  deriving DecidableEq, Repr

/-! ## The Activation Arbiter (chapter 2) -/

/-- R42, R44: the Ready List, its head first, and the free slabs in ascending order. The free count is its length. -/
structure Activation where
  ready : List Slot
  free : List Slab
  deriving DecidableEq, Repr

/-! ## Rack Table and Sweep Unit (chapter 3) -/

/-- R52: a rack entry. -/
structure Rack where
  /-- Rack state: DOWN or UP. -/
  down : Bool
  /-- Budget class. -/
  cls : BudgetClass
  /-- Credit in grains. -/
  credit : Int
  /-- Outstanding count. -/
  outstanding : Nat
  deriving DecidableEq, Repr

/-- R61: the sweep state. -/
structure Sweep where
  running : Bool
  /-- The down set, in order of arrival. -/
  downSet : List RackId
  /-- The next slot to visit; 2048 means past slot 2047. -/
  position : Nat
  endPoint : Nat
  wrapMark : Bool
  /-- RACK_DOWN request id and rack id, in order of arrival. -/
  waiting : List (ReqId × RackId)
  deriving DecidableEq, Repr

/-- The Rack Table and the Sweep Unit. -/
structure RackUnit where
  racks : Vector Rack 256
  sweep : Sweep
  deriving DecidableEq, Repr

/-! ## The Fetch Engine (chapters 5 and 6) -/

/-- R101: the fields of an OPEN fetch context. -/
structure Ctx where
  slot : Slot
  pos : Nat
  port : PortNo
  serial : BitVec 16
  /-- Start offset in bytes. -/
  start : Nat
  /-- Requested span size in bytes. -/
  span : Nat
  verify : Bool
  badCheck : Bool
  /-- Idle deadline, in µs of the part's time. -/
  deadline : Nat
  deriving DecidableEq, Repr

/-- R87: a PULL handed to a port and not yet sent: its destination and its message. The port's own addresses are read
when the frame leaves (R91, entry 11). -/
structure QueuedPull where
  addr : NetAddr
  svc : BitVec 16
  message : List Byte
  deriving DecidableEq, Repr

/-- R87, R89: a fabric port's link state and the PULLs handed to it, oldest first. -/
structure FabricPort where
  linkUp : Bool
  queue : List QueuedPull
  deriving DecidableEq, Repr

/-- R101, R103, R111: the Fetch Engine. A FREE context is absent. -/
structure FetchEngine where
  ctxs : Vector (Option Ctx) 256
  pullSerial : BitVec 16
  /-- One verify mark for each slab. -/
  verify : Vector Bool 3584
  port0 : FabricPort
  port1 : FabricPort
  deriving DecidableEq, Repr

/-! ## The Combine Engine (chapter 8) -/

/-- R140: the combine pass in flight. -/
structure Pass where
  slot : Slot
  /-- The target it is working on. -/
  target : Nat
  /-- The computed checks of the targets it has finished, target 0 first. -/
  checks : List Word
  /-- The lowest-numbered target whose check differed, if any has. -/
  mismatch : Option Nat
  deriving DecidableEq, Repr

/-- R138 to R140: the Combine Queue, its head first, and the pass in flight. -/
structure CombineEngine where
  queue : List Slot
  pass : Option Pass
  deriving DecidableEq, Repr

/-! ## Settings and counters -/

/-- R86: a port's address settings. -/
structure PortSettings where
  link : LinkAddr
  svc : BitVec 16
  net : NetAddr
  nextHop : LinkAddr
  deriving DecidableEq, Repr

/-- R161: the settings. -/
structure Settings where
  spanCode : Nat
  idleTimeout : Nat
  retryLimit : Nat
  stallCode : Nat
  baseRate : Nat
  outLimit : Nat
  bucketDepth : Nat
  reserve : Nat
  busyFloor : Nat
  port0 : PortSettings
  port1 : PortSettings
  deriving DecidableEq, Repr

/-- R164: the nine counters. -/
structure Counters where
  pullsSent : Word
  accepted : Word
  stale : Word
  badCheck : Word
  malformed : Word
  retries : Word
  delivered : Word
  faulted : Word
  lost : Word
  deriving DecidableEq, Repr

/-! ## The Request Port (chapters 9 and 10) -/

/-- The DMA write of a returned buffer that a taken QUERY, IDENTIFY or REPORT has begun (R156), with what its
completion will carry. -/
structure BufferJob where
  reqId : ReqId
  ringPos : Nat
  slot : Nat
  stripe : StripeId
  addr : BitVec 64
  bytes : List Byte
  /-- R164: the counters a clearing REPORT copied, to be added back if the write fails. -/
  restore : Option Counters
  deriving DecidableEq, Repr

/-- R156: the intake under way, if any. An intake that is not idle holds one reserved Completion Ring entry (R166). -/
inductive Intake where
  /-- No intake is under way. -/
  | idle
  /-- An entry is reserved, and the entry at the head and its block are being read. -/
  | reading
  /-- The request is taken, and its buffer is being written. -/
  | writing (job : BufferJob)
  deriving DecidableEq, Repr

/-- The register window, the intake, the Notice Queue, the arm state and the quiesce flag (R149, R156, R159, R168, R172). -/
structure RequestPort where
  run : Bool
  reqBase : BitVec 64
  reqSize : Nat
  reqTail : Nat
  reqHead : Nat
  cplBase : BitVec 64
  cplSize : Nat
  producer : Nat
  cplHead : Nat
  armed : Bool
  quiesce : Bool
  intake : Intake
  notices : List Notice
  deriving DecidableEq, Repr

/-! ## What leaves the part -/

/-- One thing the part has done to the outside: a DMA read of host memory begun, a DMA write into host memory, host bytes
whose contents the book calls undefined from here on, an Ethernet frame sent, an MSI raised (entries 5 and 27). -/
inductive Output where
  | hostRead (addr : Nat) (len : Nat)
  | hostWrite (addr : Nat) (bytes : List Byte)
  | hostUndefined (addr : Nat) (len : Nat)
  | frame (port : PortNo) (bytes : List Byte)
  | msi
  deriving DecidableEq, Repr

/-! ## The machine -/

/-- The EB416. `now`, `outputs` and `pending` are the model's own: the part's time in µs, the list of what has left the
part (oldest first), and the commands that wait (first in, first out). `dram` is the staging DRAM as a list of address and
byte pairs, in the canonical form of `Memory.wf`. -/
structure State where
  port : RequestPort
  table : RepairTable
  act : Activation
  rackUnit : RackUnit
  refillAt : Nat
  fetch : FetchEngine
  comb : CombineEngine
  settings : Settings
  counters : Counters
  dram : List Host.Cell
  now : Nat
  outputs : List Output
  pending : List Instr
  deriving DecidableEq, Repr

/-- The part has no fault: the book describes no command that stops it, so this type has no constructor, and nothing
raises one. -/
inductive Fault where
  deriving DecidableEq, Repr

/-- Why a command has no meaning. -/
inductive Refusal where
  /-- Raised by `exec` for a row that the model gives no meaning; safe. No row of this model is refused. -/
  | notModelled (mnemonic : String)
  deriving DecidableEq, Repr

/-! ## Reset -/

/-- R86: the address settings after power-on reset. -/
def PortSettings.zero : PortSettings := { link := 0, svc := 0, net := 0, nextHop := 0 }

/-- R153, R161: the settings' defaults. -/
def Settings.default : Settings :=
  { spanCode := 16, idleTimeout := 20, retryLimit := 3, stallCode := 20, baseRate := 16, outLimit := 4
    bucketDepth := 512, reserve := 96, busyFloor := 5, port0 := .zero, port1 := .zero }

/-- R164: the counters after each reset. -/
def Counters.zero : Counters :=
  { pullsSent := 0, accepted := 0, stale := 0, badCheck := 0, malformed := 0, retries := 0, delivered := 0
    faulted := 0, lost := 0 }

/-- R52: a rack entry after a reset, with the cap that the bucket depth `depth` gives. -/
def Rack.fresh (depth : Nat) : Rack := { down := false, cls := .full, credit := depth * 32, outstanding := 0 }

/-- R61: the sweep state after each reset and at a sweep's end. -/
def Sweep.idle : Sweep :=
  { running := false, downSet := [], position := 0, endPoint := 2048, wrapMark := false, waiting := [] }

/-- R1 to R3: the Repair Table after each reset. -/
def RepairTable.empty : RepairTable :=
  { slots := Vector.replicate 2048 none, index := [], serial := 0, admitted := 0 }

/-- R51: the Activation Arbiter after each reset. -/
def Activation.fresh : Activation := { ready := [], free := List.finRange 3584 }

/-- R52, R61: Rack Table and Sweep Unit after a reset under the bucket depth `depth`. -/
def RackUnit.fresh (depth : Nat) : RackUnit := { racks := Vector.replicate 256 (Rack.fresh depth), sweep := .idle }

/-- R119: the Fetch Engine after a reset, with the pull serial and the link states given. -/
def FetchEngine.fresh (pullSerial : BitVec 16) (link0 link1 : Bool) : FetchEngine :=
  { ctxs := Vector.replicate 256 none, pullSerial, verify := Vector.replicate 3584 false
    port0 := { linkUp := link0, queue := [] }, port1 := { linkUp := link1, queue := [] } }

/-- R148: the Combine Engine after each reset. -/
def CombineEngine.fresh : CombineEngine := { queue := [], pass := none }

/-- R149, R154: the Request Port after a reset, with the ring bases and size codes given. -/
def RequestPort.fresh (reqBase : BitVec 64) (reqSize : Nat) (cplBase : BitVec 64) (cplSize : Nat) : RequestPort :=
  { run := false, reqBase, reqSize, reqTail := 0, reqHead := 0, cplBase, cplSize, producer := 0, cplHead := 0
    armed := false, quiesce := false, intake := .idle, notices := [] }

/-- The part right after power-on reset (R153). -/
def State.reset : State :=
  { port := .fresh 0 6 0 6
    table := .empty
    act := .fresh
    rackUnit := .fresh 512
    refillAt := Config.refillInterval
    fetch := .fresh 0 Config.linkAtReset Config.linkAtReset
    comb := .fresh
    settings := .default
    counters := .zero
    dram := []
    now := 0
    outputs := []
    pending := [] }

end Sys2Proof.Machine
end

