-- ==== Sys2Proof/Machine/Table.lean ====
section
/-! DEFINITION. The tables of the part, element by element: vectors mapped and listed by recursion on lists (so
that Lean's kernel evaluates them), and the one place where a record, a rack, a fetch context or a verify mark is read
or written. -/

namespace Sys2Proof.Machine

/-- A vector with a function applied to each element. -/
def mapVec {α β : Type} {n : Nat} (f : α → β) (v : Vector α n) : Vector β n :=
  ⟨⟨v.toList.map f⟩, by simp⟩

/-- A vector with a function of the index and the element applied to each element. -/
def mapVecIdx {α β : Type} {n : Nat} (f : Fin n → α → β) (v : Vector α n) : Vector β n :=
  ⟨⟨List.zipWith f (List.finRange n) v.toList⟩, by simp⟩

/-- The indices of a vector, each with its element, in rising order. -/
def listVec {α : Type} {n : Nat} (v : Vector α n) : List (Fin n × α) := (List.finRange n).zip v.toList

/-- The record in a slot, absent when the slot is FREE (R1). -/
def State.recAt (s : State) (slot : Slot) : Option Record := s.table.slots[slot]

/-- Put a record into a slot, or free the slot. -/
def State.setRec (s : State) (slot : Slot) (r : Option Record) : State :=
  { s with table := { s.table with slots := s.table.slots.set slot.val r slot.isLt } }

/-- A rack's entry (R52). -/
def State.rackAt (s : State) (rack : RackId) : Rack := s.rackUnit.racks[rack.toNat]'rack.isLt

/-- Write a rack's entry. -/
def State.setRack (s : State) (rack : RackId) (e : Rack) : State :=
  { s with rackUnit := { s.rackUnit with racks := s.rackUnit.racks.set rack.toNat e rack.isLt } }

/-- A fetch context, absent when FREE (R101). -/
def State.ctxAt (s : State) (tag : Tag) : Option Ctx := s.fetch.ctxs[tag.toNat]'tag.isLt

/-- Open or free a fetch context. -/
def State.setCtx (s : State) (tag : Tag) (c : Option Ctx) : State :=
  { s with fetch := { s.fetch with ctxs := s.fetch.ctxs.set tag.toNat c tag.isLt } }

/-- R111: a slab's verify mark. -/
def State.verifyAt (s : State) (slab : Slab) : Bool := s.fetch.verify[slab]

/-- Set or clear a slab's verify mark. -/
def State.setVerify (s : State) (slab : Slab) (mark : Bool) : State :=
  { s with fetch := { s.fetch with verify := s.fetch.verify.set slab.val mark slab.isLt } }

/-- Clear the verify marks of several slabs. -/
def State.clearVerify (s : State) (slabs : List Slab) : State :=
  { s with fetch := { s.fetch with verify := mapVecIdx (fun i m => if i ∈ slabs then false else m) s.fetch.verify } }

/-- A fabric port (R86, R89). -/
def State.portAt (s : State) : PortNo → FabricPort
  | .p0 => s.fetch.port0
  | .p1 => s.fetch.port1

/-- Write a fabric port. -/
def State.setPort (s : State) (p : PortNo) (f : FabricPort) : State :=
  match p with
  | .p0 => { s with fetch := { s.fetch with port0 := f } }
  | .p1 => { s with fetch := { s.fetch with port1 := f } }

/-- A port's address settings (R86). -/
def State.portSettings (s : State) : PortNo → PortSettings
  | .p0 => s.settings.port0
  | .p1 => s.settings.port1

/-- R2: the slot the Stripe Index gives for a stripe id. -/
def State.slotOf (s : State) (stripe : StripeId) : Option Slot :=
  (s.table.index.find? fun e => e.1 == stripe).map (·.2)

/-- R2: the record that a stripe id names, with its slot. -/
def State.lookup (s : State) (stripe : StripeId) : Option (Slot × Record) :=
  (s.slotOf stripe).bind fun slot => (s.recAt slot).map fun r => (slot, r)

/-- R3: the lowest-numbered FREE slot. -/
def State.lowestFreeSlot (s : State) : Option Slot :=
  ((listVec s.table.slots).find? fun e => e.2.isNone).map (·.1)

/-- R102: the lowest-numbered FREE fetch context. -/
def State.lowestFreeTag (s : State) : Option Tag :=
  ((listVec s.fetch.ctxs).find? fun e => e.2.isNone).map fun e => BitVec.ofFin e.1

/-- R159: the number of OPEN fetch contexts. -/
def State.openCtxs (s : State) : Nat := s.fetch.ctxs.toList.countP (·.isSome)

/-- Something leaves the part. -/
def State.emit (s : State) (o : List Output) : State := { s with outputs := s.outputs ++ o }

end Sys2Proof.Machine
end

