-- ==== Sys2Proof/Machine/Flags.lean ====
section
/-! DEFINITION. What is computed from a record, a rack, the rings and the settings and held nowhere: usability,
margin, danger and score (chapter 2), the stall period (R37), credit caps and multipliers (chapter 4), ring fill and room
(R165, R166), and the bits of the Status register (R151). -/

namespace Sys2Proof.Machine

/-! ## Survivors and their records -/

/-- R30: a survivor is usable in AVAILABLE, PULLING and STAGED. -/
def Survivor.usable (v : Survivor) : Bool :=
  match v.state with
  | .available | .pulling | .staged => true
  | .failed _ | .gone => false

/-- A survivor that is FAILED or GONE. -/
def Survivor.isLost (v : Survivor) : Bool := !v.usable

/-- R20, R110: the survivor with its coverage map, if present, unmarked. -/
def Survivor.uncover (v : Survivor) : Survivor :=
  { v with staging := v.staging.map fun h => { h with cover := h.cover.map fun _ => false } }

/-- R110: the smallest uncovered granule; 0 for a survivor that holds no slab. -/
def Survivor.lowestUncovered (v : Survivor) : Nat :=
  match v.staging with
  | none => 0
  | some h => h.cover.findIdx (fun b => !b)

/-- The slab a survivor holds. -/
def Survivor.slab (v : Survivor) : Option Slab := v.staging.map (·.slab)

/-- R84, R78: whether a BUSY holdoff bars the survivor at time `now`. -/
def Survivor.heldOff (v : Survivor) (now : Nat) : Bool :=
  match v.holdoff with
  | none => false
  | some t => now < t

/-- R21: the fragment length L in bytes that the length code gives. -/
def fragLength (lcode : Byte) : Nat := (if lcode = 0#8 then 256 else lcode.toNat) * 4096

/-- The fragment length L. -/
def Record.length (r : Record) : Nat := fragLength r.lcode

/-- The number of granules of a fragment (R110). -/
def Record.granules (r : Record) : Nat := r.length / Config.granule

/-- The number of targets t. -/
def Record.t (r : Record) : Nat := r.targets.length

/-- The survivor count s. -/
def Record.s (r : Record) : Nat := r.survs.length

/-- R120: whether the survivor at a position is selected. -/
def Record.selected (r : Record) (pos : Nat) : Bool := r.plan.contains pos

/-- The survivor at a position with a function applied to it. -/
def Record.modSurv (r : Record) (pos : Nat) (f : Survivor → Survivor) : Record :=
  { r with survs := r.survs.modify pos f }

/-- R30: the number of usable survivors. -/
def Record.usableCount (r : Record) : Nat := r.survs.countP Survivor.usable

/-- R30: the margin that the survivor states give as they stand. -/
def Record.freshMargin (r : Record) : Int := (r.usableCount : Int) - r.k

/-- R33: danger, 3 minus the margin. -/
def Record.danger (r : Record) : Nat := (3 - r.margin).toNat

/-- R39: danger × 64 + boost × 16 + age. -/
def Record.freshScore (r : Record) : Nat := r.danger * 64 + r.boost * 16 + r.age

/-- R39: the record with its score computed anew. -/
def Record.rescore (r : Record) : Record := { r with score := r.freshScore }

/-- R40: whether record `a` comes before record `b`: the higher score first, then the one admitted earlier. -/
def Record.before (a b : Record) : Bool := decide (b.score < a.score) || (a.score == b.score && decide (a.order < b.order))

/-- R11, R65: whether a selected survivor is FAILED or GONE. -/
def Record.selectedLost (r : Record) : Bool := r.plan.any fun p => (r.survs[p]?).any Survivor.isLost

/-- R13: whether every selected survivor is STAGED. -/
def Record.allStaged (r : Record) : Bool := r.plan.all fun p => (r.survs[p]?).any fun v => v.state == .staged

/-- The slabs a record holds, by survivor position. -/
def Record.slabs (r : Record) : List Slab := r.survs.filterMap Survivor.slab

/-- R136: the slabs of the selected survivors in plan order, one for each column. -/
def Record.columns (r : Record) : List (Option Slab) := r.plan.map fun p => (r.survs[p]?).bind Survivor.slab

/-- Whether the record is QUEUED, FETCHING or PLAN_WAIT: the states in which a margin is recomputed (R31). -/
def Record.live (r : Record) : Bool :=
  match r.state with
  | .queued | .fetching | .planWait => true
  | .combining | .delivered | .faulted | .lost => false

/-- Whether the record is DELIVERED, FAULTED or LOST. -/
def Record.terminal (r : Record) : Bool :=
  match r.state with
  | .delivered | .faulted | .lost => true
  | .queued | .fetching | .planWait | .combining => false

/-! ## The stall timer -/

/-- R37: the stall period of a code, in µs; absent for code 0. -/
def stallPeriod (code : Nat) : Option Nat :=
  if code = 0 then none
  else if code ≤ 200 then some (code * 10000)
  else if code ≤ 250 then some ((code - 200) * 1000000)
  else if code = 251 then some 75000000
  else if code = 252 then some 120000000
  else if code = 253 then some 300000000
  else if code = 254 then some 1200000000
  else some 3600000000

/-- R34: the first two conditions of a running stall timer: QUEUED or FETCHING, and hold NONE. -/
def Record.mayStall (r : Record) : Bool := (r.state == .queued || r.state == .fetching) && r.hold == .none

/-- R34: the stall timer starts a fresh period if its conditions hold, and is stopped otherwise. -/
def Record.restartStall (r : Record) (code now : Nat) : Record :=
  { r with stall := if r.mayStall then (stallPeriod code).map (now + ·) else none }

/-! ## Rack credit -/

/-- R72: the multiplier of a budget class. -/
def BudgetClass.multiplier : BudgetClass → Nat
  | .full => 32
  | .reduced => 8
  | .trickle => 1
  | .halted => 0

/-- R74: the cap of every rack's credit, in grains. -/
def Settings.cap (g : Settings) : Int := g.bucketDepth * 32

/-- R75: the cost in grains of a PULL that asks for `bytes` bytes. -/
def pullCost (bytes : Nat) : Nat := (bytes + 4095) / 4096 * 32

/-! ## The rings -/

/-- R155: the number of entries in a ring of size code `c` from `head` up to the position before `tail`. -/
def ringFill (c head tail : Nat) : Nat := (tail + 2 ^ c - head % 2 ^ c) % 2 ^ c

/-- R165: the fill of the Completion Ring. -/
def State.fill (s : State) : Nat := ringFill s.port.cplSize s.port.cplHead s.port.producer

/-- R166: the number of reserved Completion Ring entries. -/
def State.reserved (s : State) : Nat := if s.port.intake = .idle then 0 else 1

/-- R166: the room of the Completion Ring. -/
def State.room (s : State) : Nat := 2 ^ s.port.cplSize - 1 - s.fill - s.reserved

/-- The position after `q` in a ring of size code `c`. -/
def ringNext (c q : Nat) : Nat := (q + 1) % 2 ^ c

/-! ## Status -/

/-- R150: RUNNING: RUN is 1, or an intake is under way. -/
def State.runningBit (s : State) : Bool := s.port.run || s.port.intake != .idle

/-- R151: the Status register. -/
def State.status (s : State) : Word :=
  BitVec.ofNat 32 ((if s.runningBit then 1 else 0) + (if s.port.quiesce then 2 else 0)
    + (if s.rackUnit.sweep.running then 4 else 0) + (if s.fetch.port0.linkUp then 8 else 0)
    + (if s.fetch.port1.linkUp then 16 else 0))

/-- R149: what a read of the register window at an offset returns. -/
def State.readRegister (s : State) (offset : BitVec 12) : Word :=
  match offset.toNat with
  | 0x000 => if s.port.run then 1 else 0
  | 0x004 => s.status
  | 0x008 => s.port.reqBase.setWidth 32
  | 0x00C => (s.port.reqBase >>> 32).setWidth 32
  | 0x010 => BitVec.ofNat 32 s.port.reqSize
  | 0x014 => BitVec.ofNat 32 s.port.reqTail
  | 0x018 => BitVec.ofNat 32 s.port.reqHead
  | 0x020 => s.port.cplBase.setWidth 32
  | 0x024 => (s.port.cplBase >>> 32).setWidth 32
  | 0x028 => BitVec.ofNat 32 s.port.cplSize
  | 0x02C => BitVec.ofNat 32 s.port.producer
  | 0x030 => BitVec.ofNat 32 s.port.cplHead
  | 0x034 => if s.port.armed then 1 else 0
  | _ => 0

/-- R168: the SWEEP_DONE notices pending. -/
def State.sweepDonePending (s : State) : Nat :=
  s.port.notices.countP fun n => match n with
    | .sweepDone _ _ => true
    | _ => false

end Sys2Proof.Machine
end

