-- ==== Sys2Proof/Machine/Operands.lean ====
section
/-! DEFINITION. Reading what comes in, by the layouts of chapter 11: request entries, Open, Plan and Settings
Blocks, received frames and the messages in them (R88, R173 to R175). -/

namespace Sys2Proof.Machine

/-! ## Request entries (section 11.2) -/

/-- The opcode. -/
def opcodeOf (e : Entry) : Byte := byteAt e.toList 0

/-- The clear flag of a REPORT. -/
def clearFlagOf (e : Entry) : Bool := (byteAt e.toList 1).getLsbD 0

/-- The request id. -/
def reqIdOf (e : Entry) : ReqId := BitVec.ofNat 16 (leAt e.toList 2 2)

/-- The block or buffer length. -/
def lengthOf (e : Entry) : Nat := leAt e.toList 4 4

/-- The stripe id. -/
def stripeOf (e : Entry) : StripeId := BitVec.ofNat 64 (leAt e.toList 8 8)

/-- The block or buffer host address. -/
def addressOf (e : Entry) : BitVec 64 := BitVec.ofNat 64 (leAt e.toList 16 8)

/-- The inline operand byte at an offset of the entry. -/
def operandOf (e : Entry) (off : Nat) : Byte := byteAt e.toList off

/-- AMEND's service port operand, in network order. -/
def amendPortOf (e : Entry) : BitVec 16 := BitVec.ofNat 16 (beAt e.toList 28 2)

/-- AMEND's holder network address operand, in network order. -/
def amendAddrOf (e : Entry) : NetAddr := BitVec.ofNat 128 (beAt e.toList 32 16)

/-! ## Parameter blocks (section 11.3) -/

/-- R21, R122, R161: the DMA read of a parameter block. `readable` is the host memory from the block address on, up to
where a DMA read fails; `header` is the size of the fixed header, and `size` the full size it implies. -/
def readBlock (header : Nat) (size : List Byte → Nat) (blockLen : Nat) (readable : List Byte) : Except Status (List Byte) :=
  if blockLen < header then .error .badShape
  else if readable.length < header then .error .hostFault
  else if blockLen < size readable then .error .badShape
  else if readable.length < size readable then .error .hostFault
  else .ok (readable.take (size readable))

/-- The full size of an Open Block with the header that `b` begins with. -/
def openBlockSize (b : List Byte) : Nat :=
  let k := (byteAt b 0).toNat
  let t := (byteAt b 2).toNat
  let s := (byteAt b 3).toNat
  16 + 16 * t + 24 * s + roundUp8 k + roundUp8 (t * k)

/-- The full size of a Plan Block with the header that `b` begins with. -/
def planBlockSize (b : List Byte) : Nat :=
  let k := (byteAt b 0).toNat
  let t := (byteAt b 1).toNat
  8 + roundUp8 k + roundUp8 (t * k)

/-- The k plan positions from `off` on. -/
def readPositions (b : List Byte) (off k : Nat) : List Nat := (List.range k).map fun i => (byteAt b (off + i)).toNat

/-- The t coefficient rows of k bytes from `off` on. -/
def readRows (b : List Byte) (off t k : Nat) : List (List Byte) := (List.range t).map fun j => field b (off + j * k) k

/-- What an Open Block gives. -/
structure OpenBlock where
  k : Nat
  n : Nat
  lcode : Byte
  boost : Nat
  targets : List Target
  /-- The survivors as listed, each AVAILABLE. -/
  survs : List Survivor
  plan : List Nat
  rows : List (List Byte)
  deriving DecidableEq, Repr

/-- The target entry at an offset of an Open Block. -/
def readTarget (b : List Byte) (off : Nat) : Target :=
  { frag := (byteAt b off).toNat, landing := BitVec.ofNat 64 (leAt b (off + 8) 8)
    expected := BitVec.ofNat 32 (leAt b (off + 4) 4), computed := none }

/-- A survivor as OPEN and AMEND enter it: AVAILABLE, retries used 0, everything else absent. -/
def Survivor.entered (frag : Nat) (rack : RackId) (addr : NetAddr) (svc : BitVec 16) : Survivor :=
  { frag, rack, addr, svc, state := .available, staging := none, retries := 0, holdoff := none, faultOffset := none }

/-- The survivor entry at an offset of an Open Block. -/
def readSurvivor (b : List Byte) (off : Nat) : Survivor :=
  .entered (byteAt b off).toNat (byteAt b (off + 1)) (BitVec.ofNat 128 (beAt b (off + 4) 16))
    (BitVec.ofNat 16 (beAt b (off + 2) 2))

/-- Read an Open Block. -/
def readOpenBlock (b : List Byte) : OpenBlock :=
  let k := (byteAt b 0).toNat
  let t := (byteAt b 2).toNat
  let s := (byteAt b 3).toNat
  { k, n := (byteAt b 1).toNat, lcode := byteAt b 4, boost := min (byteAt b 5).toNat 3
    targets := (List.range t).map fun j => readTarget b (16 + 16 * j)
    survs := (List.range s).map fun i => readSurvivor b (16 + 16 * t + 24 * i)
    plan := readPositions b (16 + 16 * t + 24 * s) k
    rows := readRows b (16 + 16 * t + 24 * s + roundUp8 k) t k }

/-- R22: the shape test. -/
def OpenBlock.shapeOk (o : OpenBlock) : Bool :=
  let t := o.targets.length
  let s := o.survs.length
  decide (2 ≤ o.k ∧ o.k ≤ 12 ∧ o.k + 1 ≤ o.n ∧ o.n ≤ o.k + 4 ∧ o.n ≤ 16
    ∧ 1 ≤ t ∧ t ≤ o.n - o.k ∧ o.k ≤ s ∧ s ≤ o.n - t
    ∧ (∀ g ∈ o.targets, g.frag < o.n) ∧ (o.targets.map (·.frag)).Nodup
    ∧ (∀ v ∈ o.survs, v.frag < o.n) ∧ (o.survs.map (·.frag)).Nodup
    ∧ (∀ v ∈ o.survs, ∀ g ∈ o.targets, v.frag ≠ g.frag)
    ∧ (∀ g ∈ o.targets, g.landing.toNat % 4096 = 0))

/-- R23, R122: the plan test over a survivor list: every position in it, no two equal, each named survivor usable. -/
def planOk (survs : List Survivor) (plan : List Nat) : Bool :=
  decide plan.Nodup && plan.all fun p => (survs[p]?).any Survivor.usable

/-- `x` brought into the range `lo` to `hi`. -/
def clampTo (lo hi x : Nat) : Nat := min hi (max lo x)

/-- The address settings at an offset of a Settings Block. -/
def readPortSettings (b : List Byte) (off : Nat) : PortSettings :=
  { link := BitVec.ofNat 48 (beAt b off 6), svc := BitVec.ofNat 16 (beAt b (off + 6) 2)
    net := BitVec.ofNat 128 (beAt b (off + 8) 16), nextHop := BitVec.ofNat 48 (beAt b (off + 24) 6) }

/-- Section 11.3: the settings as the Settings Block gives them, before they are brought into range. -/
def readSettings (b : List Byte) : Settings :=
  { spanCode := (byteAt b 0).toNat, idleTimeout := (byteAt b 1).toNat, retryLimit := (byteAt b 2).toNat
    stallCode := (byteAt b 3).toNat, baseRate := (byteAt b 4).toNat, outLimit := (byteAt b 5).toNat
    bucketDepth := leAt b 6 2, reserve := leAt b 8 2, busyFloor := (byteAt b 10).toNat
    port0 := readPortSettings b 16, port1 := readPortSettings b 48 }

/-- R161: each setting brought into its range. -/
def Settings.clamped (g : Settings) : Settings :=
  { g with
    spanCode := clampTo 1 16 g.spanCode, idleTimeout := clampTo 1 255 g.idleTimeout
    retryLimit := clampTo 0 7 g.retryLimit, stallCode := clampTo 0 255 g.stallCode
    baseRate := clampTo 1 64 g.baseRate, outLimit := clampTo 1 32 g.outLimit
    bucketDepth := clampTo 1 4095 g.bucketDepth, reserve := clampTo 0 1024 g.reserve
    busyFloor := clampTo 1 100 g.busyFloor }

/-- Section 11.2: one bit for each setting brought into range, in Settings Block order from the span size code (bit 0)
to the busy holdoff floor (bit 8). -/
def Settings.changedBits (given stored : Settings) : Nat :=
  (if given.spanCode = stored.spanCode then 0 else 1) + (if given.idleTimeout = stored.idleTimeout then 0 else 2)
    + (if given.retryLimit = stored.retryLimit then 0 else 4) + (if given.stallCode = stored.stallCode then 0 else 8)
    + (if given.baseRate = stored.baseRate then 0 else 16) + (if given.outLimit = stored.outLimit then 0 else 32)
    + (if given.bucketDepth = stored.bucketDepth then 0 else 64) + (if given.reserve = stored.reserve then 0 else 128)
    + (if given.busyFloor = stored.busyFloor then 0 else 256)

/-! ## Received frames (R88)

The places of the Ethernet, IPv6, UDP and ICMPv6 header fields are those of the standards the book names (PRESUMED,
entry 8): link addresses at 0 and 6, type at 12, IPv6 header at 14, UDP or ICMPv6 at 54, UDP payload at 62. -/

/-- The link address made of 0x33, 0x33, 0xFF and the last three bytes of a network address. -/
def solicitedLink (net : NetAddr) : LinkAddr := 0x3333FF#24 ++ net.setWidth 24

/-- The solicited-node address of a network address. -/
def solicitedNode (net : NetAddr) : NetAddr := 0xFF0200000000000000000001FF#104 ++ net.setWidth 24

/-- The all-nodes address. -/
def allNodes : NetAddr := 0xFF020000000000000000000000000001#128

/-- Whether a frame's Ethernet type is IPv6. -/
def isIPv6 (f : List Byte) : Bool := beAt f 12 2 == 0x86DD

/-- The frame's destination link address. -/
def frameDst (f : List Byte) : LinkAddr := BitVec.ofNat 48 (beAt f 0 6)

/-- The IPv6 next header. -/
def nextHeader (f : List Byte) : Nat := (byteAt f 20).toNat

/-- The IPv6 source. -/
def ipSrc (f : List Byte) : NetAddr := BitVec.ofNat 128 (beAt f 22 16)

/-- The IPv6 destination. -/
def ipDst (f : List Byte) : NetAddr := BitVec.ofNat 128 (beAt f 38 16)

/-- The payload of the UDP datagram a frame carries: as many bytes after the UDP header as the UDP length names and the
frame holds (PRESUMED, entry 9). -/
def udpPayload (f : List Byte) : List Byte := (f.drop 62).take (beAt f 58 2 - 8)

/-- What a port makes of a received frame. -/
inductive Received where
  | span (message : List Byte)
  | fin (message : List Byte)
  | solicitation
  | discarded
  deriving DecidableEq, Repr

/-- R88: whether a port with the settings `g` takes the frame as a protocol message. -/
def isMessage (g : PortSettings) (f : List Byte) : Bool :=
  frameDst f == g.link && isIPv6 f && nextHeader f == 17 && ipDst f == g.net
    && BitVec.ofNat 16 (beAt f 56 2) == g.svc && 8 ≤ (udpPayload f).length && byteAt (udpPayload f) 0 == 1#8

/-- R88: whether a port with the settings `g` takes the frame as a neighbour solicitation. -/
def isSolicitation (g : PortSettings) (f : List Byte) : Bool :=
  78 ≤ f.length && (frameDst f == g.link || frameDst f == solicitedLink g.net) && isIPv6 f && nextHeader f == 58
    && (ipDst f == g.net || ipDst f == solicitedNode g.net) && byteAt f 54 == 135#8 && byteAt f 55 == 0#8
    && BitVec.ofNat 128 (beAt f 62 16) == g.net

/-- R88: what a port with the settings `g` makes of a received frame. -/
def classify (g : PortSettings) (f : List Byte) : Received :=
  if isMessage g f && byteAt (udpPayload f) 1 == 2#8 then .span (udpPayload f)
  else if isMessage g f && byteAt (udpPayload f) 1 == 3#8 then .fin (udpPayload f)
  else if isSolicitation g f then .solicitation
  else .discarded

/-! ## Messages (section 11.5) -/

/-- The tag. -/
def messageTag (m : List Byte) : Tag := byteAt m 2

/-- The serial. -/
def messageSerial (m : List Byte) : BitVec 16 := BitVec.ofNat 16 (beAt m 4 2)

/-- A SPAN's offset. -/
def spanOffset (m : List Byte) : Nat := beAt m 8 4

/-- A SPAN's payload length field. -/
def spanLength (m : List Byte) : Nat := beAt m 12 2

/-- A SPAN's payload check. -/
def spanCheck (m : List Byte) : Word := BitVec.ofNat 32 (beAt m 16 4)

/-- R175: a SPAN's payload is every byte of the datagram from offset 20. -/
def spanPayload (m : List Byte) : List Byte := m.drop 20

/-- R106, R175: whether a SPAN is malformed for a fragment of length `len`. -/
def spanMalformed (m : List Byte) (len : Nat) : Bool :=
  decide (m.length < 20 ∨ spanLength m ≠ (spanPayload m).length ∨ spanLength m % 512 ≠ 0 ∨ spanLength m < 512
    ∨ 8192 < spanLength m ∨ spanOffset m % 512 ≠ 0 ∨ len < spanOffset m + spanLength m)

/-- R97: the status of an END. -/
inductive EndStatus where
  | ok | notHeld | busy | corrupt
  deriving DecidableEq, Repr

/-- R97, R175: the status of an END message; absent for an unknown code and for a datagram shorter than 16 bytes. -/
def endStatus (m : List Byte) : Option EndStatus :=
  if m.length < 16 then none
  else match (byteAt m 8).toNat with
    | 0 => some .ok
    | 1 => some .notHeld
    | 2 => some .busy
    | 3 => some .corrupt
    | _ => none

/-- R97: the holdoff hint, in ms. -/
def endHint (m : List Byte) : Nat := beAt m 10 2

/-- R97: the fault offset. -/
def endFaultOffset (m : List Byte) : BitVec 32 := BitVec.ofNat 32 (beAt m 12 4)

end Sys2Proof.Machine
end

