-- ==== Sys2Proof/Machine/Formats.lean ====
section
/-! DEFINITION. Writing what goes out, by the layouts of chapter 11: Completion Ring entries, the returned
buffers, PULL messages and the frames that carry them, and neighbour advertisements (R87, R88, R173 to R175). -/

namespace Sys2Proof.Machine

/-! ## Codes (section 11.1) -/

/-- The code of a status. -/
def Status.code : Status → Byte
  | .ok => 0#8
  | .tableFull => 1#8
  | .duplicate => 2#8
  | .notFound => 3#8
  | .badShape => 4#8
  | .badPlan => 5#8
  | .unrecoverable => 6#8
  | .wrongState => 7#8
  | .notHeld => 8#8
  | .sweepActive => 9#8
  | .hostFault => 10#8
  | .badRequest => 11#8

/-- The code of a record state; FREE is 0. -/
def RecState.code : RecState → Byte
  | .queued => 1#8
  | .fetching => 2#8
  | .planWait => 3#8
  | .combining => 4#8
  | .delivered => 5#8
  | .faulted => 6#8
  | .lost => 7#8

/-- The code of a hold state. -/
def Hold.code : Hold → Byte
  | .none => 0#8
  | .requested _ => 1#8
  | .granted => 2#8

/-- The code of a survivor state. -/
def SurvState.code : SurvState → Byte
  | .available => 0#8
  | .pulling => 1#8
  | .staged => 2#8
  | .failed _ => 3#8
  | .gone => 4#8

/-- The code of the fail reason that a survivor state carries. -/
def SurvState.reasonCode : SurvState → Byte
  | .failed .timeoutLimit => 1#8
  | .failed .notHeld => 2#8
  | .failed .corrupt => 3#8
  | .gone => 4#8
  | .available | .pulling | .staged => 0#8

/-- The codes of a fault detail: its kind and its mismatching target. -/
def faultCodes : Option FaultDetail → List Byte
  | none => [0#8, 0#8]
  | some (.checkMismatch target) => [1#8, numByte target]
  | some .landingFault => [2#8, 0#8]

/-- The code of a rack state. -/
def Rack.stateCode (e : Rack) : Byte := flagByte e.down

/-- The code of a budget class. -/
def BudgetClass.code : BudgetClass → Byte
  | .full => 0#8
  | .reduced => 1#8
  | .trickle => 2#8
  | .halted => 3#8

/-- R59: the class a code names, a code above 3 clamped to 3. -/
def BudgetClass.ofCode (c : Byte) : BudgetClass :=
  match c.toNat with
  | 0 => .full
  | 1 => .reduced
  | 2 => .trickle
  | _ => .halted

/-- Section 11.1: a margin as a signed byte, −1 for a margin below 0. -/
def marginByte (m : Int) : Byte := if m < 0 then 0xFF#8 else numByte m.toNat

/-- Section 11.1: danger, 4 for LOST. -/
def dangerByte (m : Int) : Byte := if m < 0 then 4#8 else numByte (3 - m).toNat

/-! ## Completion Ring entries (section 11.2) -/

/-- The fields of a Completion Ring entry. -/
structure CplEntry where
  kind : Byte
  status : Byte
  reqId : ReqId
  ringPos : Nat
  slot : Nat
  stripe : StripeId
  results : List Byte
  deriving DecidableEq, Repr

/-- The 32 bytes of a Completion Ring entry. -/
def CplEntry.bytes (c : CplEntry) : List Byte :=
  [c.kind, c.status] ++ leBytes 2 c.reqId.toNat ++ leBytes 2 c.ringPos ++ leBytes 2 c.slot ++ leBytes 8 c.stripe.toNat
    ++ padTo 16 c.results

/-- What a completion carries besides its request id and ring position. -/
structure Answer where
  status : Status
  slot : Nat
  stripe : StripeId
  results : List Byte
  deriving DecidableEq, Repr

/-- The entry of a completion (R167). -/
def Answer.entry (a : Answer) (reqId : ReqId) (ringPos : Nat) : CplEntry :=
  { kind := 0x01#8, status := a.status.code, reqId, ringPos, slot := a.slot, stripe := a.stripe, results := a.results }

/-- An answer that names no record: zero in the slot and the stripe id. -/
def Answer.plain (status : Status) (results : List Byte) : Answer := { status, slot := 0, stripe := 0, results }

/-- An answer about a record. -/
def Answer.about (status : Status) (slot : Slot) (r : Record) (results : List Byte) : Answer :=
  { status, slot := slot.val, stripe := r.stripe, results }

/-- Section 11.2: a refusal of a request that reads a stripe id: no result; the slot the id names, else 0xFFFF. -/
def State.refusal (s : State) (status : Status) (stripe : StripeId) : Answer :=
  { status, slot := ((s.slotOf stripe).map (·.val)).getD 0xFFFF, stripe, results := [] }

/-- R169: a notice of a record kind, its values read from the record in the slot. -/
def State.recordNotice (s : State) (kind : Byte) (slot : Slot) (reqId : ReqId) (results : Record → List Byte) : CplEntry :=
  { kind, status := 0#8, reqId, ringPos := 0, slot := slot.val
    stripe := ((s.recAt slot).map (·.stripe)).getD 0, results := ((s.recAt slot).map results).getD [] }

/-- R169: the entry of a notice as it is written. -/
def State.noticeEntry (s : State) : Notice → CplEntry
  | .planNeeded slot => s.recordNotice 0x10#8 slot 0 fun r => [0#8, r.state.code, marginByte r.margin]
  | .delivered slot => s.recordNotice 0x11#8 slot 0 fun r => [0#8, r.state.code]
  | .faulted slot => s.recordNotice 0x12#8 slot 0 fun r => [0#8, r.state.code, 0#8, 0#8] ++ faultCodes r.fault
  | .lost slot => s.recordNotice 0x13#8 slot 0 fun r => [0#8, r.state.code]
  | .holdGranted slot id => s.recordNotice 0x14#8 slot id fun r => [0#8, r.state.code]
  | .sweepDone id rack =>
    { kind := 0x15#8, status := Status.ok.code, reqId := id, ringPos := 0, slot := 0, stripe := 0, results := [rack] }

/-! ## Returned buffers (section 11.4) -/

/-- A target entry of the snapshot, 24 bytes. -/
def Target.snapshot (g : Target) : List Byte :=
  [numByte g.frag, flagByte g.computed.isSome, 0#8, 0#8] ++ leBytes 4 g.expected.toNat
    ++ leBytes 4 ((g.computed.map (·.toNat)).getD 0) ++ zeros 4 ++ leBytes 8 g.landing.toNat

/-- R29: the tag of the OPEN context of the survivor at a position, when it is PULLING. -/
def State.tagOf (s : State) (slot : Slot) (pos : Nat) : Option Tag :=
  ((listVec s.fetch.ctxs).find? fun e => e.2.any fun c => c.slot == slot && c.pos == pos).map fun e => BitVec.ofFin e.1

/-- A survivor entry of the snapshot, 40 bytes. -/
def State.survSnapshot (s : State) (slot : Slot) (r : Record) (pos : Nat) (v : Survivor) : List Byte :=
  let tag := if v.state = .pulling then s.tagOf slot pos else none
  let left := (v.holdoff.filter fun t => decide (s.now < t)).map (· - s.now)
  let flags := (if r.selected pos then 1 else 0) + (if v.staging.isSome then 2 else 0) + (if tag.isSome then 4 else 0)
    + (if left.isSome then 8 else 0) + (if v.faultOffset.isSome then 16 else 0)
  [numByte v.frag, v.rack] ++ beBytes 2 v.svc.toNat ++ beBytes 16 v.addr.toNat
    ++ [v.state.code, numByte flags, numByte v.retries, v.state.reasonCode]
    ++ leBytes 2 ((v.staging.map (·.slab.val)).getD 0)
    ++ leBytes 2 ((v.staging.map fun h => h.cover.countP id).getD 0)
    ++ [tag.getD 0#8] ++ zeros 3 ++ leBytes 4 (left.getD 0) ++ leBytes 4 ((v.faultOffset.map (·.toNat)).getD 0)

/-- R140: whether the pass in flight is that of the record in a slot. -/
def State.inPass (s : State) (slot : Slot) : Bool := s.comb.pass.any fun p => p.slot == slot

/-- R28, R29: the QUERY snapshot, 824 bytes. -/
def State.snapshot (s : State) (slot : Slot) (r : Record) : List Byte :=
  let flags := (if r.active then 1 else 0) + (if r.stall.isSome then 2 else 0) + (if s.inPass slot then 4 else 0)
  leBytes 2 slot.val ++ [numByte r.k, numByte r.n, numByte r.t, numByte r.s, r.lcode, numByte r.boost]
    ++ leBytes 8 r.stripe.toNat ++ leBytes 4 r.serial.toNat
    ++ [r.state.code, numByte flags, r.hold.code, marginByte r.margin, dangerByte r.margin, numByte r.age, numByte r.score]
    ++ faultCodes r.fault ++ zeros 35
    ++ padTo 96 (r.targets.flatMap Target.snapshot)
    ++ padTo 600 (r.survs.zipIdx.flatMap fun e => s.survSnapshot slot r e.2 e.1)
    ++ padTo 16 (r.plan.map numByte)
    ++ padTo 48 (r.rows.flatMap (padTo 12))

/-- R163: the IDENTIFY block, 16 bytes. -/
def identifyBlock : List Byte :=
  leBytes 2 Config.slots ++ leBytes 2 Config.slabs ++ leBytes 2 Config.contexts ++ leBytes 2 Config.racks
    ++ [numByte Config.largestK, numByte Config.largestN] ++ leBytes 2 Config.largestSpan ++ leBytes 2 Config.revision
    ++ zeros 2

/-- A port's part of the Settings Block, 32 bytes. -/
def PortSettings.bytes (g : PortSettings) : List Byte :=
  beBytes 6 g.link.toNat ++ beBytes 2 g.svc.toNat ++ beBytes 16 g.net.toNat ++ beBytes 6 g.nextHop.toNat ++ zeros 2

/-- The settings in the Settings Block layout, 80 bytes. -/
def Settings.bytes (g : Settings) : List Byte :=
  [numByte g.spanCode, numByte g.idleTimeout, numByte g.retryLimit, numByte g.stallCode, numByte g.baseRate,
    numByte g.outLimit] ++ leBytes 2 g.bucketDepth ++ leBytes 2 g.reserve ++ [numByte g.busyFloor] ++ zeros 5
    ++ g.port0.bytes ++ g.port1.bytes

/-- The nine counters in REPORT's order, 36 bytes. -/
def Counters.bytes (c : Counters) : List Byte :=
  leBytes 4 c.pullsSent.toNat ++ leBytes 4 c.accepted.toNat ++ leBytes 4 c.stale.toNat ++ leBytes 4 c.badCheck.toNat
    ++ leBytes 4 c.malformed.toNat ++ leBytes 4 c.retries.toNat ++ leBytes 4 c.delivered.toNat
    ++ leBytes 4 c.faulted.toNat ++ leBytes 4 c.lost.toNat

/-- R164: the REPORT block, 128 bytes. It holds the number of OPEN contexts, which R101 calls "not reported as such"
(entry 34). -/
def State.reportBlock (s : State) : List Byte :=
  s.counters.bytes ++ zeros 4 ++ s.settings.bytes ++ leBytes 2 s.act.free.length ++ leBytes 2 s.openCtxs
    ++ [numByte ((if s.comb.pass.isSome then 1 else 0) + (if s.port.quiesce then 2 else 0))] ++ zeros 3

/-! ## What the ports send -/

/-- R92, R175: the 28 bytes of a PULL. -/
def pullMessage (tag : Tag) (serial : BitVec 16) (stripe : StripeId) (frag start length span : Nat) (urgent verify : Bool) :
    List Byte :=
  [1#8, 1#8, tag, numByte ((if urgent then 1 else 0) + (if verify then 2 else 0))] ++ beBytes 2 serial.toNat ++ zeros 2
    ++ beBytes 8 stripe.toNat ++ beBytes 4 start ++ beBytes 4 length ++ beBytes 2 span ++ [numByte frag, 0#8]

/-- The pseudo-header that the UDP and ICMPv6 checksums cover (PRESUMED, entry 8). -/
def pseudoHeader (src dst : NetAddr) (len next : Nat) : List Byte :=
  beBytes 16 src.toNat ++ beBytes 16 dst.toNat ++ beBytes 4 len ++ zeros 3 ++ [numByte next]

/-- An Ethernet frame of IPv6 type with traffic class 0, flow label 0 and no extension header (R87, R88). -/
def ipv6Frame (g : PortSettings) (dst : NetAddr) (next hopLimit : Nat) (payload : List Byte) : List Byte :=
  beBytes 6 g.nextHop.toNat ++ beBytes 6 g.link.toNat ++ [0x86#8, 0xDD#8]
    ++ [0x60#8, 0#8, 0#8, 0#8] ++ beBytes 2 payload.length ++ [numByte next, numByte hopLimit]
    ++ beBytes 16 g.net.toNat ++ beBytes 16 dst.toNat ++ payload

/-- R87: the UDP datagram that carries a PULL, with its checksum. A checksum of 0 is carried as 0xFFFF (PRESUMED,
entry 8). -/
def udpDatagram (g : PortSettings) (q : QueuedPull) : List Byte :=
  let len := 8 + q.message.length
  let head := beBytes 2 g.svc.toNat ++ beBytes 2 q.svc.toNat ++ beBytes 2 len
  let sum := inetChecksum (pseudoHeader g.net q.addr len 17 ++ head ++ zeros 2 ++ q.message)
  head ++ beBytes 2 (if sum = 0 then 0xFFFF else sum) ++ q.message

/-- R87: the frame that carries a PULL. -/
def pullFrame (g : PortSettings) (q : QueuedPull) : List Byte := ipv6Frame g q.addr 17 64 (udpDatagram g q)

/-- R88: the ICMPv6 message of a neighbour advertisement to `dst`, 32 bytes. -/
def advertisement (g : PortSettings) (dst : NetAddr) : List Byte :=
  let tail := [if dst = allNodes then 0x20#8 else 0x60#8] ++ zeros 3 ++ beBytes 16 g.net.toNat ++ [2#8, 1#8]
    ++ beBytes 6 g.link.toNat
  let sum := inetChecksum (pseudoHeader g.net dst 32 58 ++ [136#8, 0#8, 0#8, 0#8] ++ tail)
  [136#8, 0#8] ++ beBytes 2 sum ++ tail

/-- R88: where the answer to a solicitation from `src` goes. -/
def advertisementTo (src : NetAddr) : NetAddr := if src = 0#128 then allNodes else src

/-- R88: the frame that answers a neighbour solicitation. -/
def advertisementFrame (g : PortSettings) (solicitation : List Byte) : List Byte :=
  let dst := advertisementTo (ipSrc solicitation)
  ipv6Frame g dst 58 255 (advertisement g dst)

end Sys2Proof.Machine
end

