-- ==== Sys2Proof/Machine/Memory.lean ====
section
/-! DEFINITION. The staging DRAM (R44): 3584 slabs of 1 MiB, slab n from address n × 1 MiB on. It is a list of
address and byte pairs in one canonical form: addresses strictly rising, and no entry equal to what an unlisted address
reads as. -/

namespace Sys2Proof.Machine

/-- The canonical form: addresses strictly rising, no entry holding the byte that an unlisted address reads as. -/
abbrev Memory.wf (m : List Host.Cell) : Prop :=
  m.Pairwise (fun x y => x.1 < y.1) ∧ ∀ c ∈ m, c.2 ≠ Config.dramByte

/-- Read one byte. -/
def Memory.read (m : List Host.Cell) (a : Nat) : Byte :=
  ((m.find? fun c => c.1 == a).map (·.2)).getD Config.dramByte

/-- The listed cells of `bytes` placed from address `a` on. -/
def Memory.cells : (a : Nat) → List Byte → List Host.Cell
  | _, [] => []
  | a, b :: rest => if b = Config.dramByte then Memory.cells (a + 1) rest else (a, b) :: Memory.cells (a + 1) rest

/-- Write `bytes` from address `a` on. -/
def Memory.write (m : List Host.Cell) (a : Nat) (bytes : List Byte) : List Host.Cell :=
  m.filter (fun c => decide (c.1 < a)) ++ Memory.cells a bytes ++ m.filter (fun c => decide (a + bytes.length ≤ c.1))

/-- R108: the DRAM address of the byte at `off` within a slab. -/
def slabAddr (slab : Slab) (off : Nat) : Nat := slab.val * Config.slabBytes + off

end Sys2Proof.Machine
end

