-- ==== Sys2Proof/Machine/Ops.lean ====
section
/-! DEFINITION. The operations that several commands share, each written once: the Ready List, the Staging Pool,
notices, freeing fetch contexts, entry to PLAN_WAIT and LOST, the margin recomputation and its outcome, the writing of a
Completion Ring entry, the frame of a request's taking, and the resets. -/

namespace Sys2Proof.Machine

/-! ## Records -/

/-- The record in a slot, if any, with a function applied to it. -/
def State.modRec (s : State) (slot : Slot) (f : Record → Record) : State :=
  match s.recAt slot with
  | none => s
  | some r => s.setRec slot (some (f r))

/-- The survivor at a position of the record in a slot, with a function applied to it. -/
def State.modSurv (s : State) (slot : Slot) (pos : Nat) (f : Survivor → Survivor) : State :=
  s.modRec slot fun r => r.modSurv pos f

/-! ## The Ready List (R42, R43) -/

/-- R40: whether the record in slot `a` comes before the record in slot `b`. -/
def State.before (s : State) (a b : Slot) : Bool :=
  match s.recAt a, s.recAt b with
  | some x, some y => x.before y
  | _, _ => false

/-- Place a slot in a list ordered by `before`: ahead of the first entry that it comes before. -/
def placeBy (before : Slot → Slot → Bool) (a : Slot) : List Slot → List Slot
  | [] => [a]
  | b :: rest => if before a b then a :: b :: rest else b :: placeBy before a rest

/-- R43: the record in a slot leaves the Ready List. -/
def State.delist (s : State) (slot : Slot) : State :=
  { s with act := { s.act with ready := s.act.ready.filter (· ≠ slot) } }

/-- R43: the record in a slot joins the Ready List, or moves in it, to the place that R40 gives it. -/
def State.enlist (s : State) (slot : Slot) : State :=
  { s with act := { s.act with ready := placeBy s.before slot (s.act.ready.filter (· ≠ slot)) } }

/-- R43: a listed record moves to the place its score gives it; one that is not listed stays out. -/
def State.relist (s : State) (slot : Slot) : State := if slot ∈ s.act.ready then s.enlist slot else s

/-! ## The Staging Pool (R44 to R46) -/

/-- Put a slab into an ascending list of slabs. -/
def insertSlab (x : Slab) : List Slab → List Slab
  | [] => [x]
  | y :: rest => if x < y then x :: y :: rest else if x = y then y :: rest else y :: insertSlab x rest

/-- Slabs in ascending order. -/
def sortSlabs (l : List Slab) : List Slab := l.foldr insertSlab []

/-- R46, R111: slabs return to the pool, and their verify marks are cleared. -/
def State.releaseSlabs (s : State) (slabs : List Slab) : State :=
  { s.clearVerify slabs with act := { s.act with free := slabs.foldr insertSlab s.act.free } }

/-- R46: the survivors of a record whose slabs are released: every slab number and coverage map absent. -/
def Record.withoutSlabs (r : Record) : Record :=
  { r with active := false, survs := r.survs.map fun v => { v with staging := none } }

/-- R6, R110: a slab as it passes to a survivor: its coverage map has no granule marked. -/
def Record.freshStaging (r : Record) (slab : Slab) : Staging := { slab, cover := List.replicate r.granules false }

/-! ## Notices (R168) -/

/-- The slot a notice of a record kind names. -/
def Notice.slot : Notice → Option Slot
  | .planNeeded a | .delivered a | .faulted a | .lost a | .holdGranted a _ => some a
  | .sweepDone _ _ => none

/-- Whether two notices are of one record kind and for one slot. -/
def Notice.sameKindAndSlot : Notice → Notice → Bool
  | .planNeeded a, .planNeeded b => a == b
  | .delivered a, .delivered b => a == b
  | .faulted a, .faulted b => a == b
  | .lost a, .lost b => a == b
  | .holdGranted a _, .holdGranted b _ => a == b
  | _, _ => false

/-- R168: place a notice at the tail, unless one of its kind for its slot is pending. -/
def State.notify (s : State) (n : Notice) : State :=
  if s.port.notices.any n.sameKindAndSlot then s
  else { s with port := { s.port with notices := s.port.notices ++ [n] } }

/-- R171: remove every notice whose subject is a slot. -/
def State.dropNotices (s : State) (slot : Slot) : State :=
  { s with port := { s.port with notices := s.port.notices.filter fun n => n.slot ≠ some slot } }

/-! ## Fetch contexts (R104) -/

/-- R55: the rack of a context: that of the survivor it names. -/
def State.ctxRack (s : State) (c : Ctx) : Option RackId :=
  (s.recAt c.slot).bind fun r => (r.survs[c.pos]?).map (·.rack)

/-- The rack's entry with its outstanding count lowered. -/
def Rack.freed (e : Rack) (count : Nat) : Rack := { e with outstanding := e.outstanding - count }

/-- R104: free the context with a tag: it becomes FREE, and its rack's outstanding count falls by one. -/
def State.freeCtx (s : State) (tag : Tag) : State :=
  match s.ctxAt tag with
  | none => s
  | some c =>
    match s.ctxRack c with
    | none => s.setCtx tag none
    | some k => (s.setCtx tag none).setRack k ((s.rackAt k).freed 1)

/-- The number of OPEN contexts that satisfy `p` and belong to a rack. -/
def State.ctxCount (s : State) (p : Ctx → Bool) (rack : RackId) : Nat :=
  s.fetch.ctxs.toList.countP fun o => o.any fun c => p c && decide (s.ctxRack c = some rack)

/-- R104: free every OPEN context that satisfies `p`; each rack's outstanding count falls by the number of its
contexts freed. -/
def State.freeCtxs (s : State) (p : Ctx → Bool) : State :=
  { s with
    fetch := { s.fetch with ctxs := mapVec (fun o => o.filter fun c => !p c) s.fetch.ctxs }
    rackUnit := { s.rackUnit with
      racks := mapVecIdx (fun i e => e.freed (s.ctxCount p (BitVec.ofFin i))) s.rackUnit.racks } }

/-! ## Margin and its outcome (R11, R12, R31) -/

/-- R12: the record in LOST: PULLING survivors AVAILABLE, slabs gone, timer stopped. -/
def Record.asLost (r : Record) (margin : Int) : Record :=
  { r.withoutSlabs with
    state := .lost, margin, stall := none
    survs := r.survs.map fun v =>
      { v with staging := none, state := if v.state = .pulling then .available else v.state } }

/-- R12: entry to LOST of the record `r` in a slot, whose margin is `margin`. -/
def State.enterLost (s : State) (slot : Slot) (r : Record) (margin : Int) : State :=
  let s := ((s.freeCtxs fun c => c.slot == slot).setRec slot (some (r.asLost margin))).releaseSlabs r.slabs
  let s := (s.delist slot).notify (.lost slot)
  { s with counters := { s.counters with lost := satAdd s.counters.lost 1 } }

/-- R11: entry to PLAN_WAIT of the record `r` in a slot. The form, active or not, is the record's active flag. -/
def State.enterPlanWait (s : State) (slot : Slot) (r : Record) : State :=
  ((s.setRec slot (some { r with state := .planWait, stall := none })).delist slot).notify (.planNeeded slot)

/-- R31, R65, R113, R133: recompute the margin of the record in a slot and decide the outcome. `lostSelected` says
whether the event that calls for it made a selected survivor FAILED or GONE. -/
def State.reckon (s : State) (slot : Slot) (lostSelected : Bool) : State :=
  match s.recAt slot with
  | none => s
  | some r =>
    if r.live = false then s
    else if r.freshMargin < 0 then s.enterLost slot r r.freshMargin
    else
      let r' := ({ r with margin := r.freshMargin } : Record).rescore
      if r.state = .planWait then
        let s := s.setRec slot (some r')
        if lostSelected then s.notify (.planNeeded slot) else s
      else if r.selectedLost then s.enterPlanWait slot r'
      else (s.setRec slot (some r')).relist slot

/-- R13: a FETCHING record with hold NONE whose selected survivors are all STAGED enters COMBINING at the tail of the
Combine Queue, and its stall timer stops. -/
def State.enterCombining (s : State) (slot : Slot) (r : Record) : State :=
  { s.setRec slot (some { r with state := .combining, stall := none }) with
    comb := { s.comb with queue := s.comb.queue ++ [slot] } }

/-! ## Completion Ring entries (R165, R172) -/

/-- R165, R172: write an entry at the producer position; the producer advances, and an armed part raises one MSI and
disarms. A failed DMA write leaves the entry's bytes undefined (entry 13). -/
def State.writeEntry (s : State) (c : CplEntry) (cw : Dma) : State :=
  let addr := s.port.cplBase.toNat + 32 * s.port.producer
  let wrote := match cw with
    | .ok => Output.hostWrite addr c.bytes
    | .failed => Output.hostUndefined addr 32
  let s' := s.emit (wrote :: if s.port.armed then [.msi] else [])
  { s' with port := { s.port with producer := ringNext s.port.cplSize s.port.producer, armed := false } }

/-! ## The taking of a request (R156, R160, R167) -/

/-- R21, R122, R161: the DMA reads of a parameter block that a request begins, the header first and then what is left of the
full size: none for a block length short of the header, and no second one where the first fails, where the block length is
short of the full size, or where nothing is left. -/
def blockReads (header : Nat) (size : List Byte → Nat) (blockLen : Nat) (readable : List Byte) (addr : Nat) : List Output :=
  if blockLen < header then []
  else .hostRead addr header ::
    if readable.length < header ∨ blockLen < size readable ∨ size readable ≤ header then []
    else [.hostRead (addr + header) (size readable - header)]

/-- The state with the reads of a request's parameter block begun. -/
def State.readsBlock (s : State) (header : Nat) (size : List Byte → Nat) (e : Entry) (block : List Byte) : State :=
  s.emit (blockReads header size (lengthOf e) block (addressOf e).toNat)

/-- How a taking ends. -/
inductive Reply where
  /-- A completion is written at the taking. -/
  | answer (a : Answer)
  /-- The answer is deferred to a notice, and the reservation ends (R166). -/
  | deferred
  /-- A buffer's DMA write begins, and the completion comes at its end. -/
  | buffer (job : BufferJob)
  deriving DecidableEq, Repr

/-- R156: whether the request that is being read is one of opcode `op`. -/
def State.takes (s : State) (e : Entry) (op : Byte) : Bool := s.port.intake == .reading && opcodeOf e == op

/-- R160: a state-changing request clears the quiesce flag before its own effect. -/
def State.clearQuiesce (s : State) : State := { s with port := { s.port with quiesce := false } }

/-- R156: the head advances past the entry taken, and the intake ends or goes on to its buffer. -/
def State.advanceHead (s : State) (intake : Intake) : State :=
  { s with port := { s.port with reqHead := ringNext s.port.reqSize s.port.reqHead, intake } }

/-- R156, R166, R167: the end of a taking. A deferred answer ends the intake and its reservation, as R166 says; the phase table of
R156 says that the taking keeps the reservation for it (DESIGN CHOICE, entry 38). A completion written at the taking stands before
a notice that the same taking places (an AMEND's PLAN_NEEDED or LOST), where R167 lets either be first (DESIGN CHOICE, entry 39). -/
def State.finishTaking (s : State) (e : Entry) (cw : Dma) : Reply → State
  | .answer a => (s.advanceHead .idle).writeEntry (a.entry (reqIdOf e) s.port.reqHead) cw
  | .deferred => s.advanceHead .idle
  | .buffer job => s.advanceHead (.writing job)

/-- The taking of a state-changing request (R160): `body` is its own rule. -/
def State.takeChanging (s : State) (e : Entry) (op : Byte) (cw : Dma) (body : State → State × Reply) : State :=
  let u := s.clearQuiesce
  if s.takes e op then (body u).1.finishTaking e cw (body u).2 else s

/-- The taking of QUIESCE, QUERY, IDENTIFY or REPORT, which leave the quiesce flag as it is (R160). -/
def State.takeReading (s : State) (e : Entry) (op : Byte) (cw : Dma) (body : State → State × Reply) : State :=
  if s.takes e op then (body s).1.finishTaking e cw (body s).2 else s

/-! ## Freeing a slot (R25, R26) -/

/-- R2, R171: the slot becomes FREE, its stripe id leaves the index, and its notices leave the queue. -/
def State.freeSlot (s : State) (slot : Slot) : State :=
  let s := (s.setRec slot none).dropNotices slot
  { s with table := { s.table with index := s.table.index.filter fun e => e.2 ≠ slot } }

/-! ## The combine pass and its abort (R147) -/

/-- R147: the landing areas of a record, undefined to the host after an abort. -/
def Record.landingUndefined (r : Record) : List Output :=
  r.targets.map fun g => .hostUndefined g.landing.toNat r.length

/-- R147: what an abort of the pass in flight, if any, leaves undefined in host memory. -/
def State.passUndefined (s : State) : List Output :=
  ((s.comb.pass.bind fun p => s.recAt p.slot).map Record.landingUndefined).getD []

/-- R153, R154: what an abandoned intake leaves undefined in host memory. -/
def State.bufferUndefined (s : State) : List Output :=
  match s.port.intake with
  | .writing job => [.hostUndefined job.addr.toNat job.bytes.length]
  | .idle | .reading => []

/-! ## Resets (R153, R154) -/

/-- R153: power-on and function-level reset: every piece of state at its power-on value. The links stay as they are
(R89); time, what has left the part and the waiting commands are the model's own (entry 33). -/
def State.powerOn (s : State) : State :=
  { State.reset with
    refillAt := s.now + Config.refillInterval
    fetch := .fresh 0 s.fetch.port0.linkUp s.fetch.port1.linkUp
    now := s.now
    outputs := s.outputs ++ s.passUndefined ++ s.bufferUndefined
    pending := s.pending }

/-- R154: controller reset: every block's working state at its reset value; the settings, the ring placement, the pull
serial and the DRAM contents kept. -/
def State.controllerReset (s : State) : State :=
  { port := .fresh s.port.reqBase s.port.reqSize s.port.cplBase s.port.cplSize
    table := .empty
    act := .fresh
    rackUnit := .fresh s.settings.bucketDepth
    refillAt := s.now + Config.refillInterval
    fetch := .fresh s.fetch.pullSerial s.fetch.port0.linkUp s.fetch.port1.linkUp
    comb := .fresh
    settings := s.settings
    counters := .zero
    dram := s.dram
    now := s.now
    outputs := s.outputs ++ s.passUndefined ++ s.bufferUndefined
    pending := s.pending }

/-- R150, R154: a write to Control: RUN is stored, and a set RESET bit takes a controller reset, which leaves RUN 0. -/
def State.writeControl (s : State) (value : Word) : State :=
  if value.getLsbD 1 then s.controllerReset else { s with port := { s.port with run := value.getLsbD 0 } }

end Sys2Proof.Machine
end

