-- ==== Sys2Proof/Machine/Settle.lean ====
section
/-! DEFINITION. What the part does of itself, with no time and nothing from outside needed: the activation of the head of the
Ready List (R45, R47), the issue of a PULL (R75 to R84, R90, R102), the start of a combine pass (R139) and the beginning of an
intake (R155, R156); and the state in which all that has been done (R48, R81, R82, R139, R156), on which every other event
acts. -/

namespace Sys2Proof.Machine

/-! ## Activation (R45, R47, R48) -/

/-- R47: whether the free count lets a head that needs `k` slabs at margin `margin` be activated. -/
def State.mayActivate (s : State) (r : Record) : Bool :=
  decide (s.settings.reserve + r.k ≤ s.act.free.length ∨ (r.margin = 0 ∧ r.k ≤ s.act.free.length))

/-- R45: the record with the granted slabs assigned to its selected survivors in plan order. -/
def Record.granted (r : Record) (slabs : List Slab) : Record :=
  { r with
    active := true, state := .fetching, age := 0
    survs := r.survs.mapIdx fun p v =>
      match r.plan.idxOf? p with
      | none => v
      | some i => match slabs[i]? with
        | none => v
        | some slab => { v with staging := some (r.freshStaging slab) } }

/-- R47: the effects of the activation of the record `r` in a slot. -/
def State.activate (s : State) (slot : Slot) (r : Record) : State :=
  let slabs := s.act.free.take r.k
  let r' := (r.granted slabs).rescore.restartStall s.settings.stallCode s.now
  let s' := ((s.setRec slot (some r')).clearVerify slabs).delist slot
  { s' with act := { s'.act with free := s.act.free.drop r.k } }

/-- R47: the head of the Ready List with its record, where the free count admits it; absent where the list is empty or
its head waits. -/
def State.headToActivate (s : State) : Option (Slot × Record) :=
  match s.act.ready with
  | [] => none
  | slot :: _ => match s.recAt slot with
    | none => none
    | some r => if s.mayActivate r then some (slot, r) else none

/-- R48: a run of at most `n` activations, each of the head that the one before it leaves. -/
def State.activateHeads : (n : Nat) → State → State
  | 0, s => s
  | n + 1, s => match s.headToActivate with
    | none => s
    | some (slot, r) => (s.activate slot r).activateHeads n

/-- R48: the state with the run of activations made, until the list is empty or its head waits; each activation takes a
record out of the list. -/
def State.headsServed (s : State) : State := s.activateHeads s.act.ready.length

/-! ## Issue (R75 to R84, R90, R102) -/

/-- R79: the first three gates. -/
def State.partGates (s : State) : Bool :=
  !s.port.quiesce && s.lowestFreeTag.isSome && (s.fetch.port0.linkUp || s.fetch.port1.linkUp)

/-- R79: the four rack gates. -/
def State.rackGates (s : State) (k : RackId) : Bool :=
  !(s.rackAt k).down && (s.rackAt k).cls != .halted && decide (0 < (s.rackAt k).credit)
    && decide ((s.rackAt k).outstanding < s.settings.outLimit)

/-- R78: whether the survivor at a position of a record is a candidate. -/
def State.candidate (s : State) (r : Record) (pos : Nat) : Bool :=
  r.state == .fetching && r.hold == .none && r.selected pos
    && (r.survs[pos]?).any fun v => v.state == .available && !v.heldOff s.now

/-- R78, R79: whether the survivor at a position of a record may be issued. -/
def State.issuable (s : State) (r : Record) (pos : Nat) : Bool :=
  s.candidate r pos && (r.survs[pos]?).any fun v => s.rackGates v.rack

/-- R80: the slots of the FETCHING records in the record order of R40. -/
def State.fetchOrder (s : State) : List Slot :=
  ((listVec s.table.slots).filterMap fun e => if e.2.any (fun r => r.state == .fetching) then some e.1 else none).foldr
    (placeBy s.before) []

/-- R80: the first candidate whose rack gates are open: its slot and position. -/
def State.firstIssue (s : State) : Option (Slot × Nat) :=
  s.fetchOrder.findSome? fun slot => (s.recAt slot).bind fun r =>
    (r.plan.find? fun pos => s.issuable r pos).map fun pos => (slot, pos)

/-- R90: the port number of a rack id modulo 2. -/
def preferredPort (k : RackId) : PortNo := if k.toNat % 2 = 0 then .p0 else .p1

/-- The other port. -/
def otherPort : PortNo → PortNo
  | .p0 => .p1
  | .p1 => .p0

/-- R90: the port of an issue. -/
def State.portFor (s : State) (k : RackId) : PortNo :=
  if (s.portAt (preferredPort k)).linkUp then preferredPort k else otherPort (preferredPort k)

/-- R110: the start offset of a PULL for a survivor. -/
def Survivor.start (v : Survivor) : Nat := v.lowestUncovered * Config.granule

/-- R102: the fetch context of an issue. -/
def State.newCtx (s : State) (slot : Slot) (pos : Nat) (v : Survivor) : Ctx :=
  { slot, pos, port := s.portFor v.rack, serial := s.fetch.pullSerial, start := v.start
    span := s.settings.spanCode * 512, verify := (v.slab.map s.verifyAt).getD false, badCheck := false
    deadline := s.now + s.settings.idleTimeout * 1000 }

/-- R92: the PULL of a context. -/
def Ctx.pull (c : Ctx) (tag : Tag) (r : Record) (v : Survivor) : QueuedPull :=
  { addr := v.addr, svc := v.svc
    message := pullMessage tag c.serial r.stripe v.frag c.start (r.length - c.start) c.span (r.danger == 3) c.verify }

/-- R81: the rack's entry after an issue that asks for `bytes` bytes. -/
def Rack.charged (e : Rack) (bytes : Nat) : Rack :=
  { e with credit := e.credit - pullCost bytes, outstanding := e.outstanding + 1 }

/-- R81: the issue of the survivor `v` at a position of the record `r` in a slot, with the context `tag`. The holdoff,
which has passed, is absent from then on (entry 18). -/
def State.issueTo (s : State) (tag : Tag) (slot : Slot) (r : Record) (pos : Nat) (v : Survivor) : State :=
  let c := s.newCtx slot pos v
  let s1 := (s.setCtx tag (some c)).setRack v.rack ((s.rackAt v.rack).charged (r.length - c.start))
  let s2 := s1.setRec slot (some (r.modSurv pos fun v => { v with state := .pulling, holdoff := none }))
  let s3 := s2.setPort c.port { s2.portAt c.port with queue := (s2.portAt c.port).queue ++ [c.pull tag r v] }
  { s3 with
    fetch := { s3.fetch with pullSerial := s3.fetch.pullSerial + 1 }
    counters := { s3.counters with pullsSent := satAdd s3.counters.pullsSent 1 } }

/-- R80: the choice of a decision: a FREE tag, and the candidate with its record and survivor. -/
def State.decision (s : State) : Option (Tag × Slot × Record × Nat × Survivor) :=
  if s.partGates then
    s.lowestFreeTag.bind fun tag => s.firstIssue.bind fun c => (s.recAt c.1).bind fun r =>
      (r.survs[c.2]?).map fun v => (tag, c.1, r, c.2, v)
  else none

/-- R81: a run of at most `n` issues, each of the candidate that its own decision finds. -/
def State.issueRun : (n : Nat) → State → State
  | 0, s => s
  | n + 1, s => match s.decision with
    | none => s
    | some (tag, slot, r, pos, v) => (s.issueTo tag slot r pos v).issueRun n

/-- R81: the state with the run of issues made, until a decision finds no candidate that passes; each issue opens a context. -/
def State.candidatesServed (s : State) : State := s.issueRun Config.contexts

/-! ## The start of a combine pass (R139) -/

/-- R139: whether the start conditions hold: the Combine Queue is not empty, no pass is in flight and the quiesce flag is
clear. -/
def State.mayStartPass (s : State) : Bool := !s.comb.queue.isEmpty && s.comb.pass.isNone && !s.port.quiesce

/-- R139: the pass of the head of the Combine Queue, where the start conditions hold. -/
def State.passStarted (s : State) : State :=
  if s.mayStartPass then
    match s.comb.queue with
    | [] => s
    | slot :: rest =>
      { s with comb := { queue := rest, pass := some { slot, target := 0, checks := [], mismatch := none } } }
  else s

/-! ## The beginning of an intake (R155, R156) -/

/-- R156, R166: an intake begins when RUN is 1, the ring is not empty, no intake is under way and the room is 1 or
more. -/
def State.mayReserve (s : State) : Bool :=
  s.port.run && s.port.reqHead != s.port.reqTail && s.port.intake == .idle && 1 ≤ s.room

/-- R155: the host address of the entry at the head of the Request Ring: entry position q lies at the base plus 64 × q. -/
def State.headEntryAddr (s : State) : Nat := s.port.reqBase.toNat + 64 * s.port.reqHead

/-- R156: an entry of the Completion Ring is reserved, and the DMA read of the 64-byte entry at the head begins. -/
def State.beginIntake (s : State) : State :=
  { s.emit [.hostRead s.headEntryAddr 64] with port := { s.port with intake := .reading } }

/-- R156: an intake begun, where its conditions hold. -/
def State.intakeBegun (s : State) : State := if s.mayReserve then s.beginIntake else s

/-! ## What every other event finds done -/

/-- R48, R81, R82, R139, R144: the state in which the three arbiters have done what the events so far let them do: the run of
activations, the start of a pass and the run of issues, in that order (DESIGN CHOICE, entry 37). None of the three opens anything for the
one before it. -/
def State.arbitersServed (s : State) : State := s.headsServed.passStarted.candidatesServed

/-- R156: the same with the intake begun that the events so far let begin. -/
def State.settled (s : State) : State := s.arbitersServed.intakeBegun

/-- An event, whose own effect is `f`: the examinations that R48, R82, R139 and R156 fix after each of the events before it
have been made by then (DEDUCED, entry 36). -/
def State.event (s : State) (f : State → State) : Host.Outcome State Fault Refusal := .next (f s.settled)

end Sys2Proof.Machine
end

