-- ==== Sys2Proof/Machine/Arbiters.lean ====
section
/-! DEFINITION. The Activation Arbiter, the Issue Arbiter and the timers: ACTIVATION, ISSUE, REFILL, STALL_EXPIRY
and HOLDOFF_EXPIRY (R35, R47, R72, R81, R84). -/

namespace Sys2Proof.Machine

/-! ## Activation -/

/-- ACTIVATION (R47): the head of the Ready List, if the free count admits it. -/
def execActivation (s : State) : Host.Outcome State Fault Refusal :=
  .next (match s.headToActivate with
    | none => s
    | some (slot, r) => s.activate slot r)

/-! ## Issue -/

/-- ISSUE (R81): one decision of the Issue Arbiter. -/
def execIssue (s : State) : Host.Outcome State Fault Refusal :=
  .next (match s.decision with
    | none => s
    | some (tag, slot, r, pos, v) => s.issueTo tag slot r pos v)

/-! ## Timers -/

/-- R72: a rack's entry after a refill event. -/
def Rack.refilled (base : Nat) (cap : Int) (e : Rack) : Rack :=
  { e with credit := min (e.credit + (base * e.cls.multiplier : Nat)) cap }

/-- REFILL (R72): the refill timer has expired. The next period follows on the one that ended (R71). -/
def execRefill (s : State) : Host.Outcome State Fault Refusal :=
  s.event fun s =>
    if s.refillAt ≤ s.now then
      { s with
        refillAt := s.refillAt + Config.refillInterval
        rackUnit := { s.rackUnit with
          racks := mapVec (Rack.refilled s.settings.baseRate s.settings.cap) s.rackUnit.racks } }
    else s

/-- R35: the record after its stall period has expired. -/
def Record.older (r : Record) (code now : Nat) : Record :=
  ({ r with age := min 15 (r.age + 1), stall := (stallPeriod code).map (now + ·) } : Record).rescore

/-- Whether a time that may be absent has come. -/
def hasCome (t : Option Nat) (now : Nat) : Bool := t.any fun t => decide (t ≤ now)

/-- STALL_EXPIRY (R35). -/
def execStallExpiry (slot : Slot) (s : State) : Host.Outcome State Fault Refusal :=
  s.event fun s => match s.recAt slot with
    | none => s
    | some r =>
      if hasCome r.stall s.now then (s.setRec slot (some (r.older s.settings.stallCode s.now))).relist slot else s

/-- HOLDOFF_EXPIRY (R84). -/
def execHoldoffExpiry (slot : Slot) (pos : Nat) (s : State) : Host.Outcome State Fault Refusal :=
  s.event fun s => s.modSurv slot pos fun v => if hasCome v.holdoff s.now then { v with holdoff := none } else v

end Sys2Proof.Machine
end

