-- ==== Sys2Proof/Machine/Combine.lean ====
section
/-! DEFINITION. The Combine Engine: PASS_START, LANDING_WRITE_COMPLETE, PASS_END and LANDING_FAULT (R136 to R144). -/

namespace Sys2Proof.Machine

/-- R136: the byte at offset `off` of the target with the coefficient row `row`, the columns' slabs being `cols`. A
column without a slab, which no run reaches, contributes nothing (entry 20). -/
def State.targetByte (s : State) (row : List Byte) (cols : List (Option Slab)) (off : Nat) : Byte :=
  (row.zip cols).foldl (fun acc e =>
    acc ^^^ (match e.2 with
      | none => 0#8
      | some slab => gfMul e.1 (Memory.read s.dram (slabAddr slab off)))) 0#8

/-- R136: the L bytes of target `j` of a record. -/
def State.targetBytes (s : State) (r : Record) (j : Nat) : List Byte :=
  (List.range r.length).map (s.targetByte (r.rows.getD j []) r.columns)

/-- R140: the pass with target `g`, whose computed check is `c`, finished. -/
def Pass.finished (p : Pass) (g : Target) (c : Word) : Pass :=
  { p with
    target := p.target + 1, checks := p.checks ++ [c]
    mismatch := if p.mismatch.isNone ∧ c ≠ g.expected then some p.target else p.mismatch }

/-- R141: the landing write of a target's bytes. -/
def Target.landingWrite (g : Target) (bytes : List Byte) : Output := .hostWrite g.landing.toNat bytes

/-- R143: the targets of a record with the computed checks of a pass entered. -/
def Record.withChecks (r : Record) (checks : List Word) : Record :=
  { r with targets := r.targets.mapIdx fun j g =>
      match checks[j]? with
      | none => g
      | some c => { g with computed := some c } }

/-- R14, R129: the hold of a record after its pass ends. -/
def Hold.afterPass : Hold → Hold
  | .requested _ => .granted
  | h => h

/-- R143, R144: the record after a pass that computed `checks` ends with the fault detail `detail`. -/
def Record.passed (r : Record) (checks : List Word) (detail : Option FaultDetail) : Record :=
  { (r.withChecks checks).withoutSlabs with
    state := if detail.isNone then .delivered else .faulted, fault := detail, hold := r.hold.afterPass, stall := none }

/-- R129: the HOLD_GRANTED notice of a record whose hold was REQUESTED. -/
def State.grantNotice (s : State) (slot : Slot) : Hold → State
  | .requested id => s.notify (.holdGranted slot id)
  | .none | .granted => s

/-- R148: the records delivered or records faulted counter rises by one. -/
def Counters.outcome (c : Counters) (detail : Option FaultDetail) : Counters :=
  if detail.isNone then { c with delivered := satAdd c.delivered 1 } else { c with faulted := satAdd c.faulted 1 }

/-- R143, R144: the end of the pass of the record `r` in a slot. -/
def State.endPass (s : State) (slot : Slot) (r : Record) (checks : List Word) (detail : Option FaultDetail) : State :=
  let s1 := (s.setRec slot (some (r.passed checks detail))).releaseSlabs r.slabs
  let s2 := (s1.notify (if detail.isNone then .delivered slot else .faulted slot)).grantNotice slot r.hold
  { s2 with comb := { s2.comb with pass := none }, counters := s2.counters.outcome detail }

/-- The pass in flight with its record and the target it is working on. -/
def State.passTarget (s : State) : Option (Pass × Record × Target) :=
  s.comb.pass.bind fun p => (s.recAt p.slot).bind fun r => (r.targets[p.target]?).map fun g => (p, r, g)

/-- R143: the fault detail of a pass that wrote its last target. -/
def Pass.detail (p : Pass) : Option FaultDetail := p.mismatch.map .checkMismatch

/-- PASS_START (R139). -/
def execPassStart (s : State) : Host.Outcome State Fault Refusal := .next s.passStarted

/-- LANDING_WRITE_COMPLETE (R140): the landing write of a target other than the last. -/
def execLandingWriteComplete (s : State) : Host.Outcome State Fault Refusal :=
  s.event fun s => match s.passTarget with
    | none => s
    | some (p, r, g) =>
      if p.target + 1 < r.t then
        let bytes := s.targetBytes r p.target
        let s' := s.emit [g.landingWrite bytes]
        { s' with comb := { s'.comb with pass := some (p.finished g (check bytes)) } }
      else s

/-- PASS_END (R143): the landing write of the last target. The start of the next pass (R139, R144, R146) is the next
thing that happens at the Combine Engine: every event but ACTIVATION, ISSUE and INTAKE_RESERVATION finds it made
(`State.settled`). -/
def execPassEnd (s : State) : Host.Outcome State Fault Refusal :=
  s.event fun s => match s.passTarget with
    | none => s
    | some (p, r, g) =>
      if p.target + 1 = r.t then
        let bytes := s.targetBytes r p.target
        let p' := p.finished g (check bytes)
        (s.emit [g.landingWrite bytes]).endPass p.slot r p'.checks p'.detail
      else s

/-- R142: what a landing fault at target `g` leaves undefined to the host: its landing area, and that of every target whose
area overlaps it. -/
def Record.faultUndefined (r : Record) (g : Target) : List Output :=
  (r.targets.filter fun h =>
    decide (h.landing.toNat < g.landing.toNat + r.length ∧ g.landing.toNat < h.landing.toNat + r.length)).map fun h =>
      .hostUndefined h.landing.toNat r.length

/-- LANDING_FAULT (R142). -/
def execLandingFault (s : State) : Host.Outcome State Fault Refusal :=
  s.event fun s => match s.passTarget with
    | none => s
    | some (p, r, g) => (s.emit (r.faultUndefined g)).endPass p.slot r p.checks (some .landingFault)

end Sys2Proof.Machine
end

