-- ==== Sys2Proof/Machine/Fabric.lean ====
section
/-! DEFINITION. What arrives on the fabric, and the silence of a holder: SPAN_ARRIVAL, END_ARRIVAL, IDLE_EXPIRY,
NEIGHBOUR_SOLICITATION and FRAME_DISCARD (R88, R105 to R117). -/

namespace Sys2Proof.Machine

/-- The record and the survivor that a context names. -/
def State.ctxSurvivor (s : State) (c : Ctx) : Option (Record × Survivor) :=
  (s.recAt c.slot).bind fun r => (r.survs[c.pos]?).map fun v => (r, v)

/-- R105, R112: the OPEN context that a message's tag and serial match. -/
def State.matching (s : State) (m : List Byte) : Option Ctx :=
  (s.ctxAt (messageTag m)).filter fun c => c.serial == messageSerial m

/-- What a port makes of a received frame; a port whose link is down receives nothing (R89). -/
def State.receive (s : State) (p : PortNo) (f : List Byte) : Received :=
  if (s.portAt p).linkUp then classify (s.portSettings p) f else .discarded

/-! ## SPAN (R105 to R109) -/

/-- R108: the coverage map with the granules of `len` bytes from `off` on marked. -/
def markCover (cover : List Bool) (off len : Nat) : List Bool :=
  cover.mapIdx fun g b => b || decide (off / Config.granule ≤ g ∧ g < (off + len) / Config.granule)

/-- R110: whether a coverage map is complete. -/
def coverComplete (cover : List Bool) : Bool := cover.all id

/-- R108: the write of an accepted payload into the survivor's slab. -/
def State.writeSpan (s : State) (v : Survivor) (off : Nat) (payload : List Byte) : State :=
  match v.slab with
  | none => s
  | some slab => { s with dram := Memory.write s.dram (slabAddr slab off) payload }

/-- R108: the survivor with the granules of an accepted SPAN marked. -/
def Survivor.cover (v : Survivor) (off len : Nat) : Survivor :=
  { v with staging := v.staging.map fun h => { h with cover := markCover h.cover off len } }

/-- R109: whether a survivor's coverage map is present and complete. -/
def Survivor.complete (v : Survivor) : Bool := v.staging.any fun h => coverComplete h.cover

/-- R109, R13, R36: the record in a slot learns of a staging. -/
def State.stagedIn (s : State) (slot : Slot) : State :=
  match s.recAt slot with
  | none => s
  | some r =>
    if r.state = .fetching ∧ r.hold = .none then
      if r.allStaged then s.enterCombining slot r
      else s.setRec slot (some (if r.stall.isSome then r.restartStall s.settings.stallCode s.now else r))
    else s

/-- R109: the survivor of a context is staged: the context is freed and the slab's verify mark cleared. -/
def State.stage (s : State) (tag : Tag) (c : Ctx) (v : Survivor) : State :=
  (((s.freeCtx tag).modSurv c.slot c.pos fun v => { v with state := .staged }).clearVerify v.slab.toList).stagedIn c.slot

/-- R108, R109: the effects of an accepted SPAN on the survivor `v` of the context `c`. -/
def State.acceptSpan (s : State) (tag : Tag) (c : Ctx) (v : Survivor) (off : Nat) (payload : List Byte) : State :=
  let v' := v.cover off payload.length
  let s1 := (s.writeSpan v off payload).modSurv c.slot c.pos fun v => v.cover off payload.length
  let s2 := s1.setCtx tag (some { c with deadline := s.now + s.settings.idleTimeout * 1000 })
  let s3 := { s2 with counters := { s2.counters with accepted := satAdd s2.counters.accepted 1 } }
  if v'.complete then s3.stage tag c v' else s3

/-- R105: a stale SPAN is counted, and nothing else changes. -/
def State.countStale (s : State) : State :=
  { s with counters := { s.counters with stale := satAdd s.counters.stale 1 } }

/-- R106: a malformed SPAN is counted, and nothing else changes. -/
def State.countMalformed (s : State) : State :=
  { s with counters := { s.counters with malformed := satAdd s.counters.malformed 1 } }

/-- R107: a SPAN with a bad check is counted, and its context is marked. -/
def State.badSpan (s : State) (tag : Tag) (c : Ctx) : State :=
  let s := s.setCtx tag (some { c with badCheck := true })
  { s with counters := { s.counters with badCheck := satAdd s.counters.badCheck 1 } }

/-- R105 to R108: the three tests of a SPAN and its acceptance. A context whose survivor the table does not hold, which
no run reaches, makes the SPAN stale (entry 20). -/
def State.spanArrives (s : State) (m : List Byte) : State :=
  match s.matching m with
  | none => s.countStale
  | some c => match s.ctxSurvivor c with
    | none => s.countStale
    | some (r, v) =>
      if (s.rackAt v.rack).down then s.countStale
      else if spanMalformed m r.length then s.countMalformed
      else if check (spanPayload m) ≠ spanCheck m then s.badSpan (messageTag m) c
      else s.acceptSpan (messageTag m) c v (spanOffset m) (spanPayload m)

/-- SPAN_ARRIVAL (R108). -/
def execSpanArrival (port : PortNo) (frame : List Byte) (s : State) : Host.Outcome State Fault Refusal :=
  s.event fun s => match s.receive port frame with
    | .span m => s.spanArrives m
    | .fin _ | .solicitation | .discarded => s

/-! ## The end of a context (R111 to R117) -/

/-- R111: the slab's verify mark follows the context's bad-check mark. -/
def State.passMark (s : State) (v : Survivor) (c : Ctx) : State :=
  match v.slab with
  | none => s
  | some slab => s.setVerify slab c.badCheck

/-- R111, R116: the survivor returns to AVAILABLE, its coverage kept, `f` saying what else changes in it. -/
def State.backToAvailable (s : State) (c : Ctx) (v : Survivor) (f : Survivor → Survivor) : State :=
  (s.passMark v c).modSurv c.slot c.pos fun v => f { v with state := .available }

/-- R20, R111, R113: the survivor becomes FAILED or GONE: its coverage is cleared, the slab kept, and the slab's verify
mark cleared; `f` says what else changes in it. -/
def State.loseSurvivor (s : State) (c : Ctx) (v : Survivor) (st : SurvState) (f : Survivor → Survivor) : State :=
  (s.clearVerify v.slab.toList).modSurv c.slot c.pos fun v => f { v.uncover with state := st }

/-- R117: a retry is counted against the survivor `v` of the record `r`. -/
def State.countRetry (s : State) (c : Ctx) (r : Record) (v : Survivor) : State :=
  let s := { s with counters := { s.counters with retries := satAdd s.counters.retries 1 } }
  if v.retries < s.settings.retryLimit then s.backToAvailable c v fun v => { v with retries := v.retries + 1 }
  else (s.loseSurvivor c v (.failed .timeoutLimit) id).reckon c.slot (r.selected c.pos)

/-- R114: the holdoff-until time that a hint gives, now plus the hint clamped to the floor and 1000 ms. -/
def State.holdoffUntil (s : State) (hint : Nat) : Nat := s.now + clampTo s.settings.busyFloor 1000 hint * 1000

/-- R112 to R114: what an END of each status makes of the survivor of the context it has ended. -/
def State.endOutcome (s : State) (m : List Byte) (c : Ctx) (r : Record) (v : Survivor) : EndStatus → State
  | .ok => s.countRetry c r v
  | .notHeld =>
    (s.loseSurvivor c v (.failed .notHeld) fun v => { v with holdoff := none }).reckon c.slot (r.selected c.pos)
  | .corrupt =>
    (s.loseSurvivor c v (.failed .corrupt) fun v =>
      { v with holdoff := none, faultOffset := some (endFaultOffset m) }).reckon c.slot (r.selected c.pos)
  | .busy => s.backToAvailable c v fun v => { v with holdoff := some (s.holdoffUntil (endHint m)) }

/-- R112: an END of status `st` arrives. -/
def State.endArrives (s : State) (m : List Byte) (st : EndStatus) : State :=
  match s.matching m with
  | none => s
  | some c => match s.ctxSurvivor c with
    | none => s.freeCtx (messageTag m)
    | some (r, v) => (s.freeCtx (messageTag m)).endOutcome m c r v st

/-- END_ARRIVAL (R112). -/
def execEndArrival (port : PortNo) (frame : List Byte) (s : State) : Host.Outcome State Fault Refusal :=
  s.event fun s => match s.receive port frame with
    | .fin m => match endStatus m with
      | none => s
      | some st => s.endArrives m st
    | .span _ | .solicitation | .discarded => s

/-- R116: what the expiry of the context `c`, which has been freed, makes of its survivor: the first case that applies. A
survivor turned GONE has no margin recomputed and places no PLAN_NEEDED notice, in PLAN_WAIT neither, where R121 can be read
otherwise (entry 35). -/
def State.expiryOutcome (s : State) (c : Ctx) (r : Record) (v : Survivor) : State :=
  if (s.rackAt v.rack).down then s.loseSurvivor c v .gone id
  else if (s.portAt c.port).linkUp = false ∨ s.port.quiesce then s.backToAvailable c v id
  else s.countRetry c r v

/-- IDLE_EXPIRY (R116). -/
def execIdleExpiry (tag : Tag) (s : State) : Host.Outcome State Fault Refusal :=
  s.event fun s => match s.ctxAt tag with
    | none => s
    | some c =>
      if c.deadline ≤ s.now then
        match s.ctxSurvivor c with
        | none => s.freeCtx tag
        | some (r, v) => (s.freeCtx tag).expiryOutcome c r v
      else s

/-! ## Other frames (R88) -/

/-- NEIGHBOUR_SOLICITATION (R88): the port answers with one neighbour advertisement, which leaves in this step
(entry 12). -/
def execNeighbourSolicitation (port : PortNo) (frame : List Byte) (s : State) : Host.Outcome State Fault Refusal :=
  s.event fun s => match s.receive port frame with
    | .solicitation => s.emit [.frame port (advertisementFrame (s.portSettings port) frame)]
    | .span _ | .fin _ | .discarded => s

/-- FRAME_DISCARD (R88): every other frame is discarded without being counted. -/
def execFrameDiscard (_port : PortNo) (_frame : List Byte) (s : State) : Host.Outcome State Fault Refusal := s.event id

end Sys2Proof.Machine
end

