-- ==== Sys2Proof/Machine/HoldRequests.lean ====
section
/-! DEFINITION. The requests on a record's hold, survivors and plan: HOLD, RELEASE, AMEND and REPLAN (chapter 7). -/

namespace Sys2Proof.Machine

/-! ## HOLD and RELEASE -/

/-- R127: the completion of a HOLD that is granted at once. -/
def holdAnswer (slot : Slot) (r : Record) : Answer := .about .ok slot r [Hold.granted.code, r.state.code]

/-- HOLD's rule (R127). A granted record's stall timer stops; a QUEUED record leaves the Ready List. -/
def holdBody (e : Entry) (s : State) : State × Reply :=
  match s.lookup (stripeOf e) with
  | none => (s, .answer (s.refusal .notFound (stripeOf e)))
  | some (slot, r) =>
    if r.hold ≠ .none then (s, .answer (s.refusal .wrongState (stripeOf e)))
    else if r.state = .combining then
      (s.setRec slot (some { r with hold := .requested (reqIdOf e) }), .deferred)
    else
      let s' := s.setRec slot (some { r with hold := .granted, stall := none })
      (if r.state = .queued then s'.delist slot else s', .answer (holdAnswer slot r))

/-- HOLD (R127). -/
def execHold (entry : Entry) (cw : Dma) (s : State) : Host.Outcome State Fault Refusal :=
  s.event (·.takeChanging entry 0x09#8 cw (holdBody entry))

/-- R130: the effects of a RELEASE on the record `r` in a slot. -/
def State.releaseRecord (s : State) (slot : Slot) (r : Record) : State :=
  let r' : Record := { r with hold := .none }
  if r.hold = .granted then
    match r.state with
    | .queued => (s.setRec slot (some (r'.restartStall s.settings.stallCode s.now))).enlist slot
    | .fetching =>
      if r.allStaged then s.enterCombining slot r'
      else s.setRec slot (some (r'.restartStall s.settings.stallCode s.now))
    | .planWait | .combining | .delivered | .faulted | .lost => s.setRec slot (some r')
  else s.setRec slot (some r')

/-- R130: the completion: the hold state before, and the record state after. -/
def releaseAnswer (slot : Slot) (r : Record) : Answer :=
  .about .ok slot r [r.hold.code,
    (if r.hold = .granted ∧ r.state = .fetching ∧ r.allStaged then RecState.combining else r.state).code]

/-- RELEASE's rule (R130). -/
def releaseBody (e : Entry) (s : State) : State × Reply :=
  match s.lookup (stripeOf e) with
  | none => (s, .answer (s.refusal .notFound (stripeOf e)))
  | some (slot, r) =>
    if r.hold = .none then (s, .answer (s.refusal .wrongState (stripeOf e)))
    else (s.releaseRecord slot r, .answer (releaseAnswer slot r))

/-- RELEASE (R130). -/
def execRelease (entry : Entry) (cw : Dma) (s : State) : Host.Outcome State Fault Refusal :=
  s.event (·.takeChanging entry 0x0A#8 cw (releaseBody entry))

/-! ## AMEND -/

/-- AMEND's position operand. -/
def amendPosOf (e : Entry) : Nat := (operandOf e 24).toNat

/-- R131: the tests of an AMEND in their order, after the index lookup; absent when all pass. -/
def testAmend (e : Entry) (r : Record) : Option Status :=
  let pos := amendPosOf e
  let frag := (operandOf e 25).toNat
  if r.hold ≠ .granted then some .notHeld
  else if r.live = false then some .wrongState
  else if r.s < pos ∨ (pos = r.s ∧ r.n - r.t ≤ r.s) then some .badShape
  else if pos = r.s then
    if r.n ≤ frag ∨ frag ∈ r.survs.map (·.frag) ∨ frag ∈ r.targets.map (·.frag) then some .badShape else none
  else match r.survs[pos]? with
    | none => some .badShape
    | some v => if v.state = .pulling ∨ v.state = .staged then some .wrongState else none

/-- R132: the survivor state that a rack gives. -/
def State.rackGives (s : State) (k : RackId) : SurvState := if (s.rackAt k).down then .gone else .available

/-- R132: the survivor re-pointed to a new rack and holder. It keeps its coverage only where it stays AVAILABLE. -/
def State.repoint (s : State) (e : Entry) (v : Survivor) : Survivor :=
  let k := operandOf e 26
  let v' : Survivor :=
    { v with rack := k, addr := amendAddrOf e, svc := amendPortOf e, state := s.rackGives k, retries := 0, holdoff := none
             faultOffset := none }
  if v.state = .available ∧ v'.state = .available then v' else v'.uncover

/-- R132: the survivor that an AMEND adds. -/
def State.addedSurvivor (s : State) (e : Entry) : Survivor :=
  { Survivor.entered (operandOf e 25).toNat (operandOf e 26) (amendAddrOf e) (amendPortOf e) with
    state := s.rackGives (operandOf e 26) }

/-- R132: the record with its survivor list amended. -/
def State.amendRecord (s : State) (e : Entry) (r : Record) : Record :=
  if amendPosOf e = r.s then { r with survs := r.survs ++ [s.addedSurvivor e] }
  else r.modSurv (amendPosOf e) (s.repoint e)

/-- R132: the slab whose verify mark is cleared: that of a re-pointed survivor that becomes GONE. -/
def State.amendClears (s : State) (e : Entry) (r : Record) : List Slab :=
  if s.rackGives (operandOf e 26) = .gone then ((r.survs[amendPosOf e]?).bind Survivor.slab).toList else []

/-- R132, R133: the effects of an accepted AMEND. -/
def State.amendSlot (s : State) (e : Entry) (slot : Slot) (r : Record) : State :=
  ((s.setRec slot (some (s.amendRecord e r))).clearVerify (s.amendClears e r)).reckon slot
    (decide (s.rackGives (operandOf e 26) = .gone) && r.selected (amendPosOf e))

/-- R133: the completion: the record state, the margin and s after the step. -/
def State.amendAnswer (s : State) (slot : Slot) (r : Record) : Answer :=
  .about .ok slot r (((s.recAt slot).map fun r' => [0#8, r'.state.code, marginByte r'.margin, numByte r'.s]).getD [])

/-- AMEND's rule (R131 to R133). -/
def amendBody (e : Entry) (s : State) : State × Reply :=
  match s.lookup (stripeOf e) with
  | none => (s, .answer (s.refusal .notFound (stripeOf e)))
  | some (slot, r) =>
    match testAmend e r with
    | some st => (s, .answer (s.refusal st (stripeOf e)))
    | none => (s.amendSlot e slot r, .answer ((s.amendSlot e slot r).amendAnswer slot r))

/-- AMEND (R132). -/
def execAmend (entry : Entry) (cw : Dma) (s : State) : Host.Outcome State Fault Refusal :=
  s.event (·.takeChanging entry 0x0B#8 cw (amendBody entry))

/-! ## REPLAN -/

/-- R122: the tests of a REPLAN after its block is read: the record with its slot, or the status. -/
def State.testReplan (s : State) (e : Entry) (b : List Byte) : Except Status (Slot × Record) :=
  match s.lookup (stripeOf e) with
  | none => .error .notFound
  | some (slot, r) =>
    if r.live = false then .error .wrongState
    else if (byteAt b 0).toNat ≠ r.k ∨ (byteAt b 1).toNat ≠ r.t then .error .badShape
    else if planOk r.survs (readPositions b 8 r.k) = false then .error .badPlan
    else .ok (slot, r)

/-- R123: the positions that a new plan drops. -/
def Record.dropped (r : Record) (plan : List Nat) : List Nat := r.plan.filter fun p => !plan.contains p

/-- R123: the positions that a new plan newly selects, in its order. -/
def Record.newlySelected (r : Record) (plan : List Nat) : List Nat := plan.filter fun p => !r.plan.contains p

/-- R123: the slabs that the dropped survivors give up, ascending. -/
def Record.givenUp (r : Record) (plan : List Nat) : List Slab :=
  sortSlabs ((r.dropped plan).filterMap fun p => (r.survs[p]?).bind Survivor.slab)

/-- R123: a dropped survivor: PULLING and STAGED become AVAILABLE, and its slab and coverage map become absent. -/
def Survivor.drop (v : Survivor) : Survivor :=
  { v with staging := none, state := if v.state = .pulling ∨ v.state = .staged then .available else v.state }

/-- R123: the survivor at position `p` after its record takes the new plan. -/
def Record.movedSurvivor (r : Record) (plan : List Nat) (p : Nat) (v : Survivor) : Survivor :=
  if p ∈ r.dropped plan then v.drop
  else match (r.newlySelected plan).idxOf? p with
    | none => v
    | some i => match (r.givenUp plan)[i]? with
      | none => v
      | some slab => { v with staging := some (r.freshStaging slab) }

/-- R123: the record with its plan replaced and its survivors moved. -/
def Record.withPlan (r : Record) (plan : List Nat) (rows : List (List Byte)) : Record :=
  { r with plan, rows, survs := r.survs.mapIdx fun p v => r.movedSurvivor plan p v }

/-- R124: the record state after an accepted REPLAN. -/
def Record.replanState (r : Record) : RecState :=
  if r.state = .planWait then (if r.active then .fetching else .queued) else r.state

/-- R123, R124: the effects of an accepted REPLAN. -/
def State.replanSlot (s : State) (slot : Slot) (r : Record) (plan : List Nat) (rows : List (List Byte)) : State :=
  let r' : Record := { r.withPlan plan rows with state := r.replanState }
  let s' := (s.freeCtxs fun c => c.slot == slot && (r.dropped plan).contains c.pos).clearVerify (r.givenUp plan)
  if r.state = .planWait then
    let s'' := s'.setRec slot (some (r'.restartStall s.settings.stallCode s.now))
    if r.active = false ∧ r.hold = .none then s''.enlist slot else s''
  else s'.setRec slot (some r')

/-- REPLAN's rule (R122 to R124). -/
def replanBody (e : Entry) (block : List Byte) (s : State) : State × Reply :=
  let s := s.readsBlock 8 planBlockSize e block
  match readBlock 8 planBlockSize (lengthOf e) block with
  | .error st => (s, .answer (s.refusal st (stripeOf e)))
  | .ok b =>
    match s.testReplan e b with
    | .error st => (s, .answer (s.refusal st (stripeOf e)))
    | .ok (slot, r) =>
      (s.replanSlot slot r (readPositions b 8 r.k) (readRows b (8 + roundUp8 r.k) r.t r.k),
        .answer (.about .ok slot r [0#8, r.replanState.code]))

/-- REPLAN (R122). -/
def execReplan (entry : Entry) (block : List Byte) (cw : Dma) (s : State) : Host.Outcome State Fault Refusal :=
  s.event (·.takeChanging entry 0x0C#8 cw (replanBody entry block))

end Sys2Proof.Machine
end

