-- ==== Sys2Proof/Machine/Intake.lean ====
section
/-! DEFINITION. The Request Port's own steps: INTAKE_RESERVATION, ENTRY_READ_FAULT, BAD_REQUEST,
BUFFER_WRITE_DONE and NOTICE_WRITE (R156, R157, R164, R166, R170), and the end of a sweep, which a notice's writing may
bring about (R67). -/

namespace Sys2Proof.Machine

/-! ## The end of the sweep (R67) -/

/-- R63, R67: the sweep runs and stands at its end point with the wrap mark clear. -/
def State.sweepAtEnd (s : State) : Bool :=
  s.rackUnit.sweep.running && !s.rackUnit.sweep.wrapMark && s.rackUnit.sweep.position == s.rackUnit.sweep.endPoint

/-- R67: the SWEEP_DONE notices pending and the entries of the waiting list, together. -/
def State.sweepDoneLoad (s : State) : Nat := s.sweepDonePending + s.rackUnit.sweep.waiting.length

/-- R67: the sweep ends: a SWEEP_DONE notice for each waiting RACK_DOWN in order, and the sweep state at rest. -/
def State.endSweep (s : State) : State :=
  let s := { s with port := { s.port with
    notices := s.port.notices ++ s.rackUnit.sweep.waiting.map fun (w : ReqId × RackId) => Notice.sweepDone w.1 w.2 } }
  { s with rackUnit := { s.rackUnit with sweep := .idle } }

/-! ## The steps -/

/-- INTAKE_RESERVATION (R156). -/
def execIntakeReservation (s : State) : Host.Outcome State Fault Refusal :=
  .next s.intakeBegun

/-- ENTRY_READ_FAULT (R157): the head advances, and a HOST_FAULT completion with request id 0 is written. -/
def execEntryReadFault (cw : Dma) (s : State) : Host.Outcome State Fault Refusal :=
  s.event fun s =>
    if s.port.intake = .reading then
      (s.advanceHead .idle).writeEntry ((Answer.plain .hostFault []).entry 0 s.port.reqHead) cw
    else s

/-- R157: whether the request that is being read has an opcode that names no request. -/
def State.takesUnknown (s : State) (e : Entry) : Bool :=
  s.port.intake == .reading && !knownOpcodes.contains (opcodeOf e)

/-- BAD_REQUEST (R157). -/
def execBadRequest (entry : Entry) (cw : Dma) (s : State) : Host.Outcome State Fault Refusal :=
  s.event fun s => if s.takesUnknown entry then s.finishTaking entry cw (.answer (.plain .badRequest [])) else s

/-- R164: each copied value is added back to its counter, saturating. -/
def Counters.addBack (c copied : Counters) : Counters :=
  { pullsSent := satAdd c.pullsSent copied.pullsSent, accepted := satAdd c.accepted copied.accepted
    stale := satAdd c.stale copied.stale, badCheck := satAdd c.badCheck copied.badCheck
    malformed := satAdd c.malformed copied.malformed, retries := satAdd c.retries copied.retries
    delivered := satAdd c.delivered copied.delivered, faulted := satAdd c.faulted copied.faulted
    lost := satAdd c.lost copied.lost }

/-- R28, R163, R164: the end of a buffer's DMA write, before the completion is written. -/
def State.bufferEnd (s : State) (job : BufferJob) (bw : Dma) : State :=
  let s := { s with port := { s.port with intake := .idle } }
  match bw with
  | .ok => s.emit [.hostWrite job.addr.toNat job.bytes]
  | .failed =>
    let s := s.emit [.hostUndefined job.addr.toNat job.bytes.length]
    match job.restore with
    | none => s
    | some copied => { s with counters := s.counters.addBack copied }

/-- The completion of a request that returns a buffer. -/
def BufferJob.entry (job : BufferJob) (bw : Dma) : CplEntry :=
  Answer.entry { status := match bw with | .ok => .ok | .failed => .hostFault
                 slot := job.slot, stripe := job.stripe, results := [] } job.reqId job.ringPos

/-- BUFFER_WRITE_DONE (R156). -/
def execBufferWriteDone (bw cw : Dma) (s : State) : Host.Outcome State Fault Refusal :=
  s.event fun s => match s.port.intake with
    | .writing job => (s.bufferEnd job bw).writeEntry (job.entry bw) cw
    | .idle | .reading => s

/-- R170: write the head notice `n`, `rest` being the notices behind it. -/
def State.writeNotice (s : State) (n : Notice) (rest : List Notice) (cw : Dma) : State :=
  { s with port := { s.port with notices := rest } }.writeEntry (s.noticeEntry n) cw

/-- R67, R170: the writing of the head notice, where there is one and the ring has room. A sweep that waits at its end point
ends in the step that brings the SWEEP_DONE load down to 2048. -/
def State.headNoticeWritten (s : State) (cw : Dma) : State :=
  match s.port.notices with
  | [] => s
  | n :: rest =>
    if 1 ≤ s.room then
      let s' := s.writeNotice n rest cw
      if s.sweepAtEnd && decide (Config.sweepDoneRoom < s.sweepDoneLoad ∧ s'.sweepDoneLoad ≤ Config.sweepDoneRoom) then
        s'.endSweep
      else s'
    else s

/-- NOTICE_WRITE (R170). A notice and a waiting intake may take a freed entry in either order, so this event finds the
arbiters served, and the intake begun only if a command has begun it. -/
def execNoticeWrite (cw : Dma) (s : State) : Host.Outcome State Fault Refusal :=
  .next (s.arbitersServed.headNoticeWritten cw)

end Sys2Proof.Machine
end

