-- ==== Sys2Proof/Machine/PartRequests.lean ====
section
/-! DEFINITION. The requests on the part as a whole: QUIESCE, SET_PARAMS, IDENTIFY and REPORT (R159 to R164). -/

namespace Sys2Proof.Machine

/-- QUIESCE's rule (R159). The completion carries the number of OPEN contexts, which R101 calls "not reported as such"
(entry 34). -/
def quiesceBody (s : State) : State × Reply :=
  ({ s with port := { s.port with quiesce := true } },
    .answer (.plain .ok (leBytes 2 s.openCtxs ++ [flagByte s.comb.pass.isSome])))

/-- QUIESCE (R159). -/
def execQuiesce (entry : Entry) (cw : Dma) (s : State) : Host.Outcome State Fault Refusal :=
  s.event (·.takeReading entry 0x10#8 cw quiesceBody)

/-- R74: a rack's credit under a lowered cap. -/
def Rack.clampCredit (cap : Int) (e : Rack) : Rack := { e with credit := min e.credit cap }

/-- R38: every record's stall timer under a changed stall period code. -/
def State.restartTimers (s : State) (code : Nat) : State :=
  { s with table := { s.table with
    slots := mapVec (fun o => o.map fun r => r.restartStall code s.now) s.table.slots } }

/-- R162: the step that stores the settings `g`. -/
def State.storeSettings (s : State) (g : Settings) : State :=
  let s1 := if g.bucketDepth < s.settings.bucketDepth then
      { s with rackUnit := { s.rackUnit with racks := mapVec (Rack.clampCredit g.cap) s.rackUnit.racks } }
    else s
  let s2 := if g.stallCode ≠ s.settings.stallCode then s1.restartTimers g.stallCode else s1
  { s2 with settings := g }

/-- SET_PARAMS's rule (R161). -/
def setParamsBody (e : Entry) (block : List Byte) (s : State) : State × Reply :=
  let s := s.readsBlock 80 (fun _ => 80) e block
  match readBlock 80 (fun _ => 80) (lengthOf e) block with
  | .error st => (s, .answer (.plain st []))
  | .ok b =>
    let given := readSettings b
    (s.storeSettings given.clamped, .answer (.plain .ok (leBytes 2 (given.changedBits given.clamped))))

/-- SET_PARAMS (R161). -/
def execSetParams (entry : Entry) (block : List Byte) (cw : Dma) (s : State) : Host.Outcome State Fault Refusal :=
  s.event (·.takeChanging entry 0x11#8 cw (setParamsBody entry block))

/-- A buffer job of a request that names no record. -/
def plainJob (e : Entry) (ringPos : Nat) (bytes : List Byte) (restore : Option Counters) : BufferJob :=
  { reqId := reqIdOf e, ringPos, slot := 0, stripe := 0, addr := addressOf e, bytes, restore }

/-- IDENTIFY's rule (R163). -/
def identifyBody (e : Entry) (s : State) : State × Reply :=
  if lengthOf e < 16 then (s, .answer (.plain .badShape []))
  else (s, .buffer (plainJob e s.port.reqHead identifyBlock none))

/-- IDENTIFY (R163). -/
def execIdentify (entry : Entry) (cw : Dma) (s : State) : Host.Outcome State Fault Refusal :=
  s.event (·.takeReading entry 0x12#8 cw (identifyBody entry))

/-- REPORT's rule (R164). -/
def reportBody (e : Entry) (s : State) : State × Reply :=
  if lengthOf e < 128 then (s, .answer (.plain .badShape []))
  else if clearFlagOf e then
    ({ s with counters := .zero }, .buffer (plainJob e s.port.reqHead s.reportBlock (some s.counters)))
  else (s, .buffer (plainJob e s.port.reqHead s.reportBlock none))

/-- REPORT (R164). -/
def execReport (entry : Entry) (cw : Dma) (s : State) : Host.Outcome State Fault Refusal :=
  s.event (·.takeReading entry 0x13#8 cw (reportBody entry))

end Sys2Proof.Machine
end

