-- ==== Sys2Proof/Machine/RackRequests.lean ====
section
/-! DEFINITION. The rack requests: RACK_DOWN, RACK_UP and RACK_CLASS (R57 to R59, R62). -/

namespace Sys2Proof.Machine

/-- The rack operand of a rack request (section 11.2). -/
def rackOf (e : Entry) : RackId := operandOf e 24

/-- Section 3.2: the completion of a rack request: rack id, and the rack's state and class as they stand after it. -/
def State.rackAnswer (s : State) (status : Status) (k : RackId) : Answer :=
  .plain status [k, (s.rackAt k).stateCode, (s.rackAt k).cls.code]

/-- R62: the sweep with a rack that goes down: started at slot 0, or lengthened by a full lap from its position. -/
def Sweep.join (w : Sweep) (id : ReqId) (k : RackId) : Sweep :=
  if w.running then
    { w with downSet := w.downSet ++ [k], waiting := w.waiting ++ [(id, k)], endPoint := w.position, wrapMark := true }
  else
    { running := true, downSet := w.downSet ++ [k], position := 0, endPoint := 2048, wrapMark := false
      waiting := w.waiting ++ [(id, k)] }

/-- R57: the effects of a RACK_DOWN on an UP rack. -/
def State.declareDown (s : State) (id : ReqId) (k : RackId) : State :=
  let s' := s.setRack k { s.rackAt k with down := true }
  { s' with rackUnit := { s'.rackUnit with sweep := s.rackUnit.sweep.join id k } }

/-- RACK_DOWN's rule (R57). -/
def rackDownBody (e : Entry) (s : State) : State × Reply :=
  let k := rackOf e
  if (s.rackAt k).down then (s, .answer (s.rackAnswer .ok k)) else (s.declareDown (reqIdOf e) k, .deferred)

/-- RACK_DOWN (R57). -/
def execRackDown (entry : Entry) (cw : Dma) (s : State) : Host.Outcome State Fault Refusal :=
  s.event (·.takeChanging entry 0x06#8 cw (rackDownBody entry))

/-- RACK_UP's rule (R58). Section 11.2: a refusal carries no result, and zero in the slot and the stripe id. -/
def rackUpBody (e : Entry) (s : State) : State × Reply :=
  let k := rackOf e
  if s.rackUnit.sweep.running && s.rackUnit.sweep.downSet.contains k then (s, .answer (.plain .sweepActive []))
  else
    let s' := s.setRack k { s.rackAt k with down := false }
    (s', .answer (s'.rackAnswer .ok k))

/-- RACK_UP (R58). -/
def execRackUp (entry : Entry) (cw : Dma) (s : State) : Host.Outcome State Fault Refusal :=
  s.event (·.takeChanging entry 0x07#8 cw (rackUpBody entry))

/-- RACK_CLASS's rule (R59). -/
def rackClassBody (e : Entry) (s : State) : State × Reply :=
  let k := rackOf e
  let s' := s.setRack k { s.rackAt k with cls := .ofCode (operandOf e 25) }
  (s', .answer (s'.rackAnswer .ok k))

/-- RACK_CLASS (R59). -/
def execRackClass (entry : Entry) (cw : Dma) (s : State) : Host.Outcome State Fault Refusal :=
  s.event (·.takeChanging entry 0x08#8 cw (rackClassBody entry))

end Sys2Proof.Machine
end

