-- ==== Sys2Proof/Machine/SweepUnit.lean ====
section
/-! DEFINITION. The Sweep Unit: SWEEP_VISIT and SWEEP_END (R63 to R67). -/

namespace Sys2Proof.Machine

/-- R63: a running sweep has a visit to make unless it stands at its end point with the wrap mark clear. -/
def State.mayVisit (s : State) : Bool := s.rackUnit.sweep.running && !s.sweepAtEnd

/-- R61, R62: the sweep state as a visit finds it: a position past slot 2047 with the wrap mark set, which a RACK_DOWN at
the end point leaves, passes to slot 0 (entry 17). -/
def Sweep.wrapped (w : Sweep) : Sweep :=
  if 2048 ≤ w.position ∧ w.wrapMark then { w with position := 0, wrapMark := false } else w

/-- R63: the sweep state after a visit. -/
def Sweep.advanced (w : Sweep) : Sweep :=
  if w.position + 1 = 2048 ∧ w.wrapMark then { w with position := 0, wrapMark := false }
  else { w with position := w.position + 1 }

/-- R64: whether a visit turns a survivor GONE. -/
def Sweep.hits (w : Sweep) (v : Survivor) : Bool :=
  (v.state == .available || v.state == .pulling) && w.downSet.contains v.rack

/-- R64: the survivor after a visit. -/
def Sweep.touch (w : Sweep) (v : Survivor) : Survivor := if w.hits v then { v.uncover with state := .gone } else v

/-- Whether a visit turns the survivor at a position of a record GONE. -/
def Sweep.hitsAt (w : Sweep) (r : Record) (pos : Nat) : Bool := (r.survs[pos]?).any w.hits

/-- R64, R65: the effects of a visit on the QUEUED, FETCHING or PLAN_WAIT record `r` in a slot. -/
def State.visitRecord (s : State) (w : Sweep) (slot : Slot) (r : Record) : State :=
  let s1 := s.freeCtxs fun c => c.slot == slot && w.hitsAt r c.pos
  let s2 := s1.setRec slot (some { r with survs := r.survs.map w.touch })
  (s2.clearVerify ((r.survs.filter w.hits).filterMap Survivor.slab)).reckon slot (r.plan.any (w.hitsAt r))

/-- R64 to R66: a visit to a slot. -/
def State.visit (s : State) (w : Sweep) (slot : Slot) : State :=
  match s.recAt slot with
  | none => s
  | some r => if r.live then s.visitRecord w slot r else s

/-- SWEEP_VISIT (R64). -/
def execSweepVisit (s : State) : Host.Outcome State Fault Refusal :=
  s.event fun s =>
    if s.mayVisit then
      let w := s.rackUnit.sweep.wrapped
      if h : w.position < 2048 then
        let s' := s.visit w ⟨w.position, h⟩
        { s' with rackUnit := { s'.rackUnit with sweep := w.advanced } }
      else s
    else s

/-- SWEEP_END (R67). -/
def execSweepEnd (s : State) : Host.Outcome State Fault Refusal :=
  s.event fun s => if s.sweepAtEnd && decide (s.sweepDoneLoad ≤ Config.sweepDoneRoom) then s.endSweep else s

end Sys2Proof.Machine
end

