-- ==== Sys2Proof/Machine/TableRequests.lean ====
section
/-! DEFINITION. The requests of the Repair Table and of the Activation Arbiter: OPEN, CANCEL, RETIRE, QUERY and
REPRIORITIZE (R21 to R28, R41). -/

namespace Sys2Proof.Machine

/-! ## OPEN -/

/-- R17: a survivor as it enters the record, GONE when its rack is DOWN. -/
def State.admitSurvivor (s : State) (v : Survivor) : Survivor :=
  if (s.rackAt v.rack).down then { v with state := .gone } else v

/-- R24: the record that an accepted OPEN makes. -/
def State.admitRecord (s : State) (stripe : StripeId) (o : OpenBlock) : Record :=
  let r : Record :=
    { stripe, k := o.k, n := o.n, lcode := o.lcode, boost := o.boost, serial := s.table.serial
      order := s.table.admitted, state := .queued, active := false, hold := .none, margin := 0, age := 0, score := 0
      stall := none, fault := none, targets := o.targets, survs := o.survs.map s.admitSurvivor, plan := o.plan
      rows := o.rows }
  ({ r with margin := r.freshMargin } : Record).rescore.restartStall s.settings.stallCode s.now

/-- R21 to R23: the tests of an OPEN in their order: the slot and the block of one that passes, or the status. -/
def State.testOpen (s : State) (e : Entry) (block : List Byte) : Except Status (Slot × OpenBlock) :=
  match readBlock 16 openBlockSize (lengthOf e) block with
  | .error st => .error st
  | .ok b =>
    let o := readOpenBlock b
    let survs := o.survs.map s.admitSurvivor
    if o.shapeOk = false then .error .badShape
    else if (s.slotOf (stripeOf e)).isSome then .error .duplicate
    else match s.lowestFreeSlot with
      | none => .error .tableFull
      | some slot =>
        if planOk survs o.plan = false then .error .badPlan
        else if survs.countP Survivor.usable < o.k then .error .unrecoverable
        else .ok (slot, o)

/-- R24: the effects of an accepted OPEN. -/
def State.admitAt (s : State) (slot : Slot) (stripe : StripeId) (o : OpenBlock) : State :=
  let s' := s.setRec slot (some (s.admitRecord stripe o))
  { s' with table := { s'.table with
      index := s.table.index ++ [(stripe, slot)], serial := s.table.serial + 1, admitted := s.table.admitted + 1 } }.enlist slot

/-- OPEN's rule. A refusal's slot field is 0xFFFF (section 11.2). -/
def openBody (e : Entry) (block : List Byte) (s : State) : State × Reply :=
  let s := s.readsBlock 16 openBlockSize e block
  match s.testOpen e block with
  | .error st => (s, .answer { status := st, slot := 0xFFFF, stripe := stripeOf e, results := [] })
  | .ok (slot, o) =>
    (s.admitAt slot (stripeOf e) o,
      .answer { status := .ok, slot := slot.val, stripe := stripeOf e, results := leBytes 4 s.table.serial.toNat })

/-- OPEN (R24). -/
def execOpen (entry : Entry) (block : List Byte) (cw : Dma) (s : State) : Host.Outcome State Fault Refusal :=
  s.event (·.takeChanging entry 0x01#8 cw (openBody entry block))

/-! ## CANCEL and RETIRE -/

/-- R147: a CANCEL aborts the pass in flight of its record. -/
def State.abortPass (s : State) (slot : Slot) (r : Record) : State :=
  if s.inPass slot then { s.emit r.landingUndefined with comb := { s.comb with pass := none } } else s

/-- R25: the effects of a CANCEL on the record `r` in a slot. -/
def State.cancelRecord (s : State) (slot : Slot) (r : Record) : State :=
  let s := (s.abortPass slot r).delist slot
  let s := { s with comb := { s.comb with queue := s.comb.queue.filter (· ≠ slot) } }
  ((s.freeCtxs fun c => c.slot == slot).releaseSlabs r.slabs).freeSlot slot

/-- CANCEL's rule. -/
def cancelBody (e : Entry) (s : State) : State × Reply :=
  match s.lookup (stripeOf e) with
  | none => (s, .answer (s.refusal .notFound (stripeOf e)))
  | some (slot, r) => (s.cancelRecord slot r, .answer (.about .ok slot r []))

/-- CANCEL (R25). -/
def execCancel (entry : Entry) (cw : Dma) (s : State) : Host.Outcome State Fault Refusal :=
  s.event (·.takeChanging entry 0x02#8 cw (cancelBody entry))

/-- RETIRE's rule (R26). -/
def retireBody (e : Entry) (s : State) : State × Reply :=
  match s.lookup (stripeOf e) with
  | none => (s, .answer (s.refusal .notFound (stripeOf e)))
  | some (slot, r) =>
    if r.terminal then (s.freeSlot slot, .answer (.about .ok slot r []))
    else (s, .answer (s.refusal .wrongState (stripeOf e)))

/-- RETIRE (R26). -/
def execRetire (entry : Entry) (cw : Dma) (s : State) : Host.Outcome State Fault Refusal :=
  s.event (·.takeChanging entry 0x03#8 cw (retireBody entry))

/-! ## QUERY -/

/-- QUERY's rule (R28). -/
def queryBody (e : Entry) (s : State) : State × Reply :=
  match s.lookup (stripeOf e) with
  | none => (s, .answer (s.refusal .notFound (stripeOf e)))
  | some (slot, r) =>
    if lengthOf e < 824 then (s, .answer (s.refusal .badShape (stripeOf e)))
    else (s, .buffer { reqId := reqIdOf e, ringPos := s.port.reqHead, slot := slot.val, stripe := r.stripe
                       addr := addressOf e, bytes := s.snapshot slot r, restore := none })

/-- QUERY (R28). -/
def execQuery (entry : Entry) (cw : Dma) (s : State) : Host.Outcome State Fault Refusal :=
  s.event (·.takeReading entry 0x04#8 cw (queryBody entry))

/-! ## REPRIORITIZE -/

/-- R41: the record with a new boost; its score follows unless the record is terminal. -/
def Record.withBoost (r : Record) (boost : Nat) : Record :=
  if r.terminal then { r with boost } else ({ r with boost } : Record).rescore

/-- REPRIORITIZE's rule (R41). -/
def reprioritizeBody (e : Entry) (s : State) : State × Reply :=
  match s.lookup (stripeOf e) with
  | none => (s, .answer (s.refusal .notFound (stripeOf e)))
  | some (slot, r) =>
    let boost := min (operandOf e 24).toNat 3
    ((s.setRec slot (some (r.withBoost boost))).relist slot, .answer (.about .ok slot r [numByte boost]))

/-- REPRIORITIZE (R41). -/
def execReprioritize (entry : Entry) (cw : Dma) (s : State) : Host.Outcome State Fault Refusal :=
  s.event (·.takeChanging entry 0x05#8 cw (reprioritizeBody entry))

end Sys2Proof.Machine
end

