-- ==== Sys2Proof/Machine/Window.lean ====
section
/-! DEFINITION. The resets, the register window and the port links: POWER_ON_RESET to PORT_LINK_CHANGE of the
table (R89, R149, R150, R152 to R155, R165, R172). -/

namespace Sys2Proof.Machine

/-- R149: a size code brought into 6 to 12. -/
def sizeCodeOf (value : Word) : Nat := clampTo 6 12 value.toNat

/-- R149: a base register with its low word written: the low 12 bits are ignored. -/
def withLowWord (base : BitVec 64) (value : Word) : BitVec 64 :=
  base.extractLsb' 32 32 ++ (value &&& 0xFFFFF000#32)

/-- R149: a base register with its high word written. -/
def withHighWord (base : BitVec 64) (value : Word) : BitVec 64 := value ++ base.extractLsb' 0 32

/-- R152: whether a write to a ring's base or size code is taken: RUN is 0 and RUNNING is clear. -/
def State.placementOpen (s : State) : Bool := !s.runningBit

/-- R152: a taken write to the Request Ring placement sets its head and tail to 0. -/
def State.placeRequestRing (s : State) (reg : RingReg) (value : Word) : State :=
  if s.placementOpen then
    let p := { s.port with reqHead := 0, reqTail := 0 }
    { s with port := match reg with
      | .baseLow => { p with reqBase := withLowWord p.reqBase value }
      | .baseHigh => { p with reqBase := withHighWord p.reqBase value }
      | .sizeCode => { p with reqSize := sizeCodeOf value } }
  else s

/-- R165: a taken write to the Completion Ring placement sets its producer and head to 0. -/
def State.placeCompletionRing (s : State) (reg : RingReg) (value : Word) : State :=
  if s.placementOpen then
    let p := { s.port with producer := 0, cplHead := 0 }
    { s with port := match reg with
      | .baseLow => { p with cplBase := withLowWord p.cplBase value }
      | .baseHigh => { p with cplBase := withHighWord p.cplBase value }
      | .sizeCode => { p with cplSize := sizeCodeOf value } }
  else s

/-- R149, R155: the tail is stored modulo the ring's size. -/
def State.writeTail (s : State) (value : Word) : State :=
  { s with port := { s.port with reqTail := value.toNat % 2 ^ s.port.reqSize } }

/-- R149, R165: the Completion Ring head is stored modulo the ring's size. -/
def State.writeCplHead (s : State) (value : Word) : State :=
  { s with port := { s.port with cplHead := value.toNat % 2 ^ s.port.cplSize } }

/-- R172: a write of 1 arms, or raises one MSI at once and disarms when the producer differs from the head; one while
already armed raises its MSI by the same test and leaves the part armed. A write of 0 disarms. -/
def State.writeArm (s : State) (value : Word) : State :=
  if value.getLsbD 0 then
    if s.port.producer ≠ s.port.cplHead then s.emit [.msi]
    else { s with port := { s.port with armed := true } }
  else { s with port := { s.port with armed := false } }

/-- R149: a write of the register window; one to Status, the Request Ring head, the Completion Ring producer or an
offset that holds no register is ignored. -/
def State.writeRegister (s : State) (offset : BitVec 12) (value : Word) : State :=
  match offset.toNat with
  | 0x000 => s.writeControl value
  | 0x008 => s.placeRequestRing .baseLow value
  | 0x00C => s.placeRequestRing .baseHigh value
  | 0x010 => s.placeRequestRing .sizeCode value
  | 0x014 => s.writeTail value
  | 0x020 => s.placeCompletionRing .baseLow value
  | 0x024 => s.placeCompletionRing .baseHigh value
  | 0x028 => s.placeCompletionRing .sizeCode value
  | 0x030 => s.writeCplHead value
  | 0x034 => s.writeArm value
  | _ => s

/-- R87, R89: a port's link changes; a port whose link goes down drops the PULLs it has not sent. -/
def State.linkChange (s : State) (p : PortNo) (up : Bool) : State :=
  s.setPort p { linkUp := up, queue := if up then (s.portAt p).queue else [] }

/-- POWER_ON_RESET (R153). -/
def execPowerOnReset (s : State) : Host.Outcome State Fault Refusal := s.event State.powerOn

/-- FUNCTION_LEVEL_RESET (R153). -/
def execFunctionLevelReset (s : State) : Host.Outcome State Fault Refusal := s.event State.powerOn

/-- CONTROLLER_RESET (R154): a write of Control. -/
def execControllerReset (value : Word) (s : State) : Host.Outcome State Fault Refusal := s.event (·.writeControl value)

/-- WRITE_RUN (R150): a write of Control. -/
def execWriteRun (value : Word) (s : State) : Host.Outcome State Fault Refusal := s.event (·.writeControl value)

/-- WRITE_REQUEST_RING_PLACEMENT (R152). -/
def execWriteRequestRingPlacement (reg : RingReg) (value : Word) (s : State) : Host.Outcome State Fault Refusal :=
  s.event (·.placeRequestRing reg value)

/-- WRITE_COMPLETION_RING_PLACEMENT (R165). -/
def execWriteCompletionRingPlacement (reg : RingReg) (value : Word) (s : State) : Host.Outcome State Fault Refusal :=
  s.event (·.placeCompletionRing reg value)

/-- REQUEST_RING_TAIL (R155). -/
def execRequestRingTail (value : Word) (s : State) : Host.Outcome State Fault Refusal := s.event (·.writeTail value)

/-- COMPLETION_RING_HEAD (R165). -/
def execCompletionRingHead (value : Word) (s : State) : Host.Outcome State Fault Refusal := s.event (·.writeCplHead value)

/-- ATTENTION_ARM (R172). -/
def execAttentionArm (value : Word) (s : State) : Host.Outcome State Fault Refusal := s.event (·.writeArm value)

/-- REGISTER_WRITE (R149). -/
def execRegisterWrite (offset : BitVec 12) (value : Word) (s : State) : Host.Outcome State Fault Refusal :=
  s.event (·.writeRegister offset value)

/-- PORT_LINK_CHANGE (R89). -/
def execPortLinkChange (port : PortNo) (up : Bool) (s : State) : Host.Outcome State Fault Refusal :=
  s.event (·.linkChange port up)

end Sys2Proof.Machine
end

