-- ==== Sys2Proof/Machine/Dispatch.lean ====
section
/-! DEFINITION. Which meaning each command has: one arm per row of the opcode table, in its order. -/

namespace Sys2Proof.Machine

/-- The effect of a command on everything but the queue of waiting commands. -/
def exec (i : Instr) (s : State) : Host.Outcome State Fault Refusal :=
  match i with
  | .powerOnReset => Sys2Proof.Machine.execPowerOnReset s
  | .functionLevelReset => Sys2Proof.Machine.execFunctionLevelReset s
  | .controllerReset value => Sys2Proof.Machine.execControllerReset value s
  | .writeRun value => Sys2Proof.Machine.execWriteRun value s
  | .writeRequestRingPlacement reg value => Sys2Proof.Machine.execWriteRequestRingPlacement reg value s
  | .writeCompletionRingPlacement reg value => Sys2Proof.Machine.execWriteCompletionRingPlacement reg value s
  | .requestRingTail value => Sys2Proof.Machine.execRequestRingTail value s
  | .completionRingHead value => Sys2Proof.Machine.execCompletionRingHead value s
  | .attentionArm value => Sys2Proof.Machine.execAttentionArm value s
  | .registerWrite offset value => Sys2Proof.Machine.execRegisterWrite offset value s
  | .portLinkChange port up => Sys2Proof.Machine.execPortLinkChange port up s
  | .intakeReservation => Sys2Proof.Machine.execIntakeReservation s
  | .entryReadFault cw => Sys2Proof.Machine.execEntryReadFault cw s
  | .badRequest entry cw => Sys2Proof.Machine.execBadRequest entry cw s
  | .openRecord entry block cw => Sys2Proof.Machine.execOpen entry block cw s
  | .cancel entry cw => Sys2Proof.Machine.execCancel entry cw s
  | .retire entry cw => Sys2Proof.Machine.execRetire entry cw s
  | .query entry cw => Sys2Proof.Machine.execQuery entry cw s
  | .reprioritize entry cw => Sys2Proof.Machine.execReprioritize entry cw s
  | .rackDown entry cw => Sys2Proof.Machine.execRackDown entry cw s
  | .rackUp entry cw => Sys2Proof.Machine.execRackUp entry cw s
  | .rackClass entry cw => Sys2Proof.Machine.execRackClass entry cw s
  | .hold entry cw => Sys2Proof.Machine.execHold entry cw s
  | .release entry cw => Sys2Proof.Machine.execRelease entry cw s
  | .amend entry cw => Sys2Proof.Machine.execAmend entry cw s
  | .replan entry block cw => Sys2Proof.Machine.execReplan entry block cw s
  | .quiesce entry cw => Sys2Proof.Machine.execQuiesce entry cw s
  | .setParams entry block cw => Sys2Proof.Machine.execSetParams entry block cw s
  | .identify entry cw => Sys2Proof.Machine.execIdentify entry cw s
  | .report entry cw => Sys2Proof.Machine.execReport entry cw s
  | .bufferWriteDone bw cw => Sys2Proof.Machine.execBufferWriteDone bw cw s
  | .noticeWrite cw => Sys2Proof.Machine.execNoticeWrite cw s
  | .activation => Sys2Proof.Machine.execActivation s
  | .issue => Sys2Proof.Machine.execIssue s
  | .refill => Sys2Proof.Machine.execRefill s
  | .stallExpiry slot => Sys2Proof.Machine.execStallExpiry slot s
  | .holdoffExpiry slot pos => Sys2Proof.Machine.execHoldoffExpiry slot pos s
  | .idleExpiry tag => Sys2Proof.Machine.execIdleExpiry tag s
  | .spanArrival port frame => Sys2Proof.Machine.execSpanArrival port frame s
  | .endArrival port frame => Sys2Proof.Machine.execEndArrival port frame s
  | .neighbourSolicitation port frame => Sys2Proof.Machine.execNeighbourSolicitation port frame s
  | .frameDiscard port frame => Sys2Proof.Machine.execFrameDiscard port frame s
  | .sweepVisit => Sys2Proof.Machine.execSweepVisit s
  | .sweepEnd => Sys2Proof.Machine.execSweepEnd s
  | .passStart => Sys2Proof.Machine.execPassStart s
  | .passEnd => Sys2Proof.Machine.execPassEnd s
  | .landingFault => Sys2Proof.Machine.execLandingFault s
  | .landingWriteComplete => Sys2Proof.Machine.execLandingWriteComplete s

end Sys2Proof.Machine
end

