-- ==== Sys2Proof/Machine/Time.lean ====
section
/-! DEFINITION. What happens while no command waits: the part's time goes on, and each port whose link is up sends
the oldest PULL handed to it (R87). The table has no row for either, so both stand in the step on an empty queue
(DESIGN CHOICE, entry 2). -/

namespace Sys2Proof.Machine

/-- R87: a port sends the oldest PULL handed to it, if it has one and its link is up. -/
def State.sendOne (s : State) (p : PortNo) : State :=
  match (s.portAt p).linkUp, (s.portAt p).queue with
  | true, q :: rest =>
    (s.setPort p { s.portAt p with queue := rest }).emit [.frame p (pullFrame (s.portSettings p) q)]
  | _, _ => s

/-- One µs with no command: the part has done by its start what it does of itself (DEDUCED, entry 36), each port may send one
frame, port 0 first, and the time goes on. -/
def State.tick (s : State) : State :=
  let s' := (s.settled.sendOne .p0).sendOne .p1
  { s' with now := s'.now + 1 }

end Sys2Proof.Machine
end

