-- ==== Sys2Proof/Safety.lean ====
section
/-! DEFINITION. The terms the claims are stated in: what it means that a request is being read, that it was
answered or refused, and the invariants of the part (R2, R9, R16, R17, R22, R30, R39, R40, R42, R44, R55, R70, R138, R149, R161, R168). -/

namespace Sys2Proof.Machine

/-! ## Requests -/

/-- The entry `e`, of opcode `op`, is being read: its taking is the next phase of the intake (R156). -/
def State.reading (s : State) (e : Entry) (op : Byte) : Prop := s.port.intake = .reading ∧ opcodeOf e = op

/-- R165, R172: what leaves the part when it writes the Completion Ring entry `c`: the entry at the producer position, or
undefined bytes there if the DMA write failed, and one MSI if the part was armed, failed or not (entry 13). -/
def State.entryOutputs (s : State) (c : CplEntry) (cw : Dma) : List Output :=
  (match cw with
    | .ok => .hostWrite (s.port.cplBase.toNat + 32 * s.port.producer) c.bytes
    | .failed => .hostUndefined (s.port.cplBase.toNat + 32 * s.port.producer) 32)
  :: (if s.port.armed then [.msi] else [])

/-- R156, R165 to R167, R172: from `s` to `t` the request that was being read was taken and answered with `c`: the head
advanced, the intake ended, the entry was written at the producer position and the producer advanced, and an armed part
raised one MSI and disarmed. `before` is what left the part ahead of the entry, and `quiesce` the quiesce flag after the
taking. Nothing else of the Request Port changed but the Notice Queue. -/
def Answered (s t : State) (before : List Output) (c : CplEntry) (cw : Dma) (quiesce : Bool) : Prop :=
  t.port = { s.port with
    reqHead := (s.port.reqHead + 1) % 2 ^ s.port.reqSize
    producer := (s.port.producer + 1) % 2 ^ s.port.cplSize
    intake := .idle, armed := false, quiesce, notices := t.port.notices }
  ∧ t.outputs = s.outputs ++ before ++ s.entryOutputs c cw

/-- R21, R122, R161: the DMA reads that a request begins of a parameter block with a header of `header` bytes and a full
size of `size`, at the address `addr`, of which the first `readable` bytes can be read: none where the block length
`blockLen` is short of the header; the header; and what follows it, unless the first read failed or the block length is
short of the full size. -/
def readsBegun (header size blockLen readable addr : Nat) : List Output :=
  if blockLen < header then []
  else [.hostRead addr header]
    ++ if readable < header ∨ blockLen < size ∨ size = header then [] else [.hostRead (addr + header) (size - header)]

/-- A refusal with nothing else: the request is answered with the status, slot, stripe id and results of `a`, and apart from
that and the quiesce flag, which becomes `quiesce`, nothing changes. `before` is what left the part ahead of the completion. -/
def Refused (s t : State) (before : List Output) (e : Entry) (a : Answer) (cw : Dma) (quiesce : Bool) : Prop :=
  Answered s t before
    { kind := 0x01#8, status := a.status.code, reqId := reqIdOf e, ringPos := s.port.reqHead, slot := a.slot
      stripe := a.stripe, results := a.results } cw quiesce
  ∧ t = { s with port := t.port, outputs := t.outputs } ∧ t.port.notices = s.port.notices

/-- Every slot but one keeps its record. -/
def OnlySlot (s t : State) (slot : Slot) : Prop := ∀ b, b ≠ slot → t.recAt b = s.recAt b

/-- Every rack but one keeps its entry. -/
def OnlyRack (s t : State) (k : RackId) : Prop := ∀ j, j ≠ k → t.rackAt j = s.rackAt j

/-! ## What several claims say -/

/-- R168: the Notice Queue after a notice is placed: at the tail, unless one of its kind for its slot is pending. -/
def placed (queue : List Notice) (n : Notice) : List Notice :=
  if queue.any n.sameKindAndSlot then queue else queue ++ [n]

/-- R104: from `s` to `t` exactly the contexts that satisfy `p` were freed, and each rack's outstanding count fell by the
number of them whose survivor lies on it; nothing else of a rack or of the Fetch Engine changed but verify marks. -/
def ContextsFreed (s t : State) (p : Ctx → Bool) : Prop :=
  (∀ tag, t.ctxAt tag = (s.ctxAt tag).filter fun c => !p c)
  ∧ (∀ k, t.rackAt k = { s.rackAt k with outstanding := (s.rackAt k).outstanding - s.ctxCount p k })
  ∧ t.rackUnit = { s.rackUnit with racks := t.rackUnit.racks }
  ∧ t.fetch = { s.fetch with ctxs := t.fetch.ctxs, verify := t.fetch.verify }

/-- R104: from `s` to `t` exactly the context `tag` was freed, and the outstanding count of the rack `k` fell by one;
nothing else of a rack or of the Fetch Engine changed but verify marks. -/
def ContextEnded (s t : State) (tag : Tag) (k : RackId) : Prop :=
  (∀ u, t.ctxAt u = if u = tag then none else s.ctxAt u)
  ∧ (∀ j, t.rackAt j = if j = k then { s.rackAt k with outstanding := (s.rackAt k).outstanding - 1 } else s.rackAt j)
  ∧ t.rackUnit = { s.rackUnit with racks := t.rackUnit.racks }
  ∧ t.fetch = { s.fetch with ctxs := t.fetch.ctxs, verify := t.fetch.verify }

/-- R111: from `s` to `t` the verify marks of the slabs `l` became clear, and no other changed. -/
def VerifyCleared (s t : State) (l : List Slab) : Prop :=
  ∀ x, t.verifyAt x = if x ∈ l then false else s.verifyAt x

/-- R46: from `s` to `t` the slabs `l` joined the free slabs. -/
def SlabsFreed (s t : State) (l : List Slab) : Prop := ∀ x, x ∈ t.act.free ↔ x ∈ l ∨ x ∈ s.act.free

/-- R12: the record `r` in LOST. Its stored margin is the one computed, below 0 (entry 16). -/
def Record.lost (r : Record) : Record :=
  { r with
    state := .lost, active := false, margin := r.freshMargin, stall := none
    survs := r.survs.map fun v =>
      { v with staging := none, state := if v.state = .pulling then .available else v.state } }

/-- R33, R39: the record with the margin its survivors give, and the score that follows. -/
def Record.remeasured (r : Record) : Record :=
  { r with margin := r.freshMargin, score := (3 - r.freshMargin).toNat * 64 + r.boost * 16 + r.age }

/-- R11, R12, R31, R65, R133: from `u`, in which the slot holds the QUEUED, FETCHING or PLAN_WAIT record `r`, to `t` the
record's margin was recomputed and the outcome decided. `lostSelected` says whether the event made a selected survivor FAILED or
GONE. A Ready List place is not said here: `State.readyOrdered` says it of every state. -/
def Reckoned (u t : State) (slot : Slot) (r : Record) (lostSelected : Bool) : Prop :=
  OnlySlot u t slot
  ∧ (if r.freshMargin < 0 then
      t.recAt slot = some r.lost
      ∧ (∀ a, a ∈ t.act.ready ↔ a ∈ u.act.ready ∧ a ≠ slot)
      ∧ ContextsFreed u t (fun c => c.slot == slot)
      ∧ SlabsFreed u t r.slabs ∧ VerifyCleared u t r.slabs
      ∧ t.port = { u.port with notices := placed u.port.notices (.lost slot) }
      ∧ t = { u with
          port := t.port, table := { u.table with slots := t.table.slots }, act := t.act, rackUnit := t.rackUnit
          fetch := t.fetch, counters := { u.counters with lost := satAdd u.counters.lost 1 } }
    else if r.state = .planWait then
      t.recAt slot = some r.remeasured
      ∧ t.port = { u.port with
          notices := if lostSelected then placed u.port.notices (.planNeeded slot) else u.port.notices }
      ∧ t = { u with port := t.port, table := { u.table with slots := t.table.slots } }
    else if r.selectedLost then
      t.recAt slot = some { r.remeasured with state := .planWait, stall := none }
      ∧ (∀ a, a ∈ t.act.ready ↔ a ∈ u.act.ready ∧ a ≠ slot)
      ∧ t.port = { u.port with notices := placed u.port.notices (.planNeeded slot) }
      ∧ t = { u with
          port := t.port, table := { u.table with slots := t.table.slots }
          act := { u.act with ready := t.act.ready } }
    else
      t.recAt slot = some r.remeasured
      ∧ (∀ a, a ∈ t.act.ready ↔ a ∈ u.act.ready)
      ∧ t = { u with
          table := { u.table with slots := t.table.slots }, act := { u.act with ready := t.act.ready } })

/-- R34, R37: the stall timer as a fresh period under the stall period code `code` from `now` on leaves it. -/
def freshPeriod (code now : Nat) : Option Nat := (stallPeriod code).map (now + ·)

/-- R104, R111, R116: from `s` to `t` the context `c`, of tag `tag`, ended and its survivor `v` of the record `r` became `v'`,
which is AVAILABLE: its slab's verify mark took the value of the context's bad-check mark. Counters are said beside this. -/
def WentBack (s t : State) (tag : Tag) (c : Ctx) (r : Record) (v v' : Survivor) : Prop :=
  ContextEnded s t tag v.rack ∧ OnlySlot s t c.slot
  ∧ t.recAt c.slot = some { r with survs := r.survs.set c.pos v' }
  ∧ (∀ x, t.verifyAt x = if v.slab = some x then c.badCheck else s.verifyAt x)
  ∧ t = { s with
      table := { s.table with slots := t.table.slots }, rackUnit := t.rackUnit, fetch := t.fetch, counters := t.counters }

/-- R104, R111: from `s` to `t` the context `c`, of tag `tag`, ended and its survivor `v` of the record `r` became `v'`, which
is FAILED or GONE: its slab's verify mark was cleared. Counters are said beside this. -/
def WasLost (s t : State) (tag : Tag) (c : Ctx) (r : Record) (v v' : Survivor) : Prop :=
  ContextEnded s t tag v.rack ∧ OnlySlot s t c.slot
  ∧ t.recAt c.slot = some { r with survs := r.survs.set c.pos v' }
  ∧ VerifyCleared s t v.slab.toList
  ∧ t = { s with
      table := { s.table with slots := t.table.slots }, rackUnit := t.rackUnit, fetch := t.fetch, counters := t.counters }

/-- R117: from `s` to `t` the context `c`, of tag `tag`, ended short with a retry counted against its survivor `v` of the
record `r`: below the limit the survivor goes back to AVAILABLE, and at it the survivor is FAILED and the margin recomputed. -/
def RetryCounted (s t : State) (tag : Tag) (c : Ctx) (r : Record) (v : Survivor) : Prop :=
  if v.retries < s.settings.retryLimit then
    WentBack s t tag c r v { v with state := .available, retries := v.retries + 1 }
    ∧ t.counters = { s.counters with retries := satAdd s.counters.retries 1 }
  else ∃ u, WasLost s u tag c r v { v.uncover with state := .failed .timeoutLimit }
    ∧ u.counters = { s.counters with retries := satAdd s.counters.retries 1 }
    ∧ Reckoned u t c.slot { r with survs := r.survs.set c.pos { v.uncover with state := .failed .timeoutLimit } }
        (r.selected c.pos)

/-- R78, R79: the survivor `v` at a position of the record `r` in a slot is a candidate, and its rack's gates are open. -/
def State.MayPull (s : State) (slot : Slot) (r : Record) (pos : Nat) (v : Survivor) : Prop :=
  s.recAt slot = some r ∧ r.survs[pos]? = some v
  ∧ r.state = .fetching ∧ r.hold = .none ∧ pos ∈ r.plan ∧ v.state = .available
  ∧ (∀ until_, v.holdoff = some until_ → until_ ≤ s.now)
  ∧ (s.rackAt v.rack).down = false ∧ (s.rackAt v.rack).cls ≠ .halted
  ∧ 0 < (s.rackAt v.rack).credit ∧ (s.rackAt v.rack).outstanding < s.settings.outLimit

/-- R142 to R144: from `s` to `t` the pass of the record `r` in a slot ended with the computed checks `checks` and the
fault detail `detail`, the landing output `out` having left the part. -/
def PassEnded (s t : State) (slot : Slot) (r : Record) (checks : List Word) (detail : Option FaultDetail)
    (out : List Output) : Prop :=
  OnlySlot s t slot
  ∧ t.recAt slot = some { r with
      state := if detail = none then .delivered else .faulted
      fault := detail, active := false, stall := none
      hold := match r.hold with | .requested _ => .granted | h => h
      survs := r.survs.map fun v => { v with staging := none }
      targets := r.targets.mapIdx fun j g => { g with computed := (checks[j]?).or g.computed } }
  ∧ SlabsFreed s t r.slabs ∧ VerifyCleared s t r.slabs
  ∧ t.comb = { s.comb with pass := none }
  ∧ t.port = { s.port with
      notices := match r.hold with
        | .requested id =>
          placed (placed s.port.notices (if detail = none then .delivered slot else .faulted slot)) (.holdGranted slot id)
        | _ => placed s.port.notices (if detail = none then .delivered slot else .faulted slot) }
  ∧ t.counters = (if detail = none then { s.counters with delivered := satAdd s.counters.delivered 1 }
      else { s.counters with faulted := satAdd s.counters.faulted 1 })
  ∧ t.outputs = s.outputs ++ out
  ∧ t = { s with
      port := t.port, table := { s.table with slots := t.table.slots }, act := { s.act with free := t.act.free }
      fetch := { s.fetch with verify := t.fetch.verify }, comb := t.comb, counters := t.counters, outputs := t.outputs }

/-! ## Invariants -/

/-- R161: every setting is in its range. -/
def Settings.inRange (g : Settings) : Prop :=
  1 ≤ g.spanCode ∧ g.spanCode ≤ 16 ∧ 1 ≤ g.idleTimeout ∧ g.idleTimeout ≤ 255 ∧ g.retryLimit ≤ 7 ∧ g.stallCode ≤ 255
  ∧ 1 ≤ g.baseRate ∧ g.baseRate ≤ 64 ∧ 1 ≤ g.outLimit ∧ g.outLimit ≤ 32 ∧ 1 ≤ g.bucketDepth ∧ g.bucketDepth ≤ 4095
  ∧ g.reserve ≤ 1024 ∧ 1 ≤ g.busyFloor ∧ g.busyFloor ≤ 100

/-- R149: the window's registers hold what they can hold: bases multiples of 4096, size codes 6 to 12, and positions
within their rings. -/
def State.windowLegal (s : State) : Prop :=
  s.port.reqBase.toNat % 4096 = 0 ∧ s.port.cplBase.toNat % 4096 = 0
  ∧ 6 ≤ s.port.reqSize ∧ s.port.reqSize ≤ 12 ∧ 6 ≤ s.port.cplSize ∧ s.port.cplSize ≤ 12
  ∧ s.port.reqTail < 2 ^ s.port.reqSize ∧ s.port.reqHead < 2 ^ s.port.reqSize
  ∧ s.port.producer < 2 ^ s.port.cplSize ∧ s.port.cplHead < 2 ^ s.port.cplSize

/-- R70: every rack's credit stays within −8191 and the cap. -/
def State.creditBounded (s : State) : Prop :=
  ∀ k, -8191 ≤ (s.rackAt k).credit ∧ (s.rackAt k).credit ≤ s.settings.bucketDepth * 32

/-- R2: the Stripe Index holds exactly the ids of the occupied slots, each stripe id once. -/
def State.indexExact (s : State) : Prop :=
  (∀ id slot, (id, slot) ∈ s.table.index ↔ ∃ r, s.recAt slot = some r ∧ r.stripe = id)
  ∧ (s.table.index.map (·.1)).Nodup

/-- R16, R42, R126, R138: the Ready List holds exactly the QUEUED records with hold NONE; a record is COMBINING exactly
when it is in the Combine Queue or its pass is in flight, and not both; the queue holds each once; a REQUESTED hold
belongs to a COMBINING record, and a GRANTED hold does not. -/
def State.listsExact (s : State) : Prop :=
  (∀ a, a ∈ s.act.ready ↔ ∃ r, s.recAt a = some r ∧ r.state = .queued ∧ r.hold = .none)
  ∧ (∀ a, (a ∈ s.comb.queue ∨ ∃ p, s.comb.pass = some p ∧ p.slot = a)
      ↔ ∃ r, s.recAt a = some r ∧ r.state = .combining)
  ∧ s.comb.queue.Nodup
  ∧ (∀ p, s.comb.pass = some p → p.slot ∉ s.comb.queue)
  ∧ (∀ a r, s.recAt a = some r →
      (∀ id, r.hold = .requested id → r.state = .combining) ∧ (r.hold = .granted → r.state ≠ .combining))

/-- R17: every open fetch context belongs to a PULLING selected survivor of an active record in FETCHING or PLAN_WAIT,
and every PULLING survivor has exactly one. -/
def State.contextsExact (s : State) : Prop :=
  (∀ tag c, s.ctxAt tag = some c → ∃ r v, s.recAt c.slot = some r ∧ r.survs[c.pos]? = some v ∧ v.state = .pulling
      ∧ c.pos ∈ r.plan ∧ r.active = true ∧ (r.state = .fetching ∨ r.state = .planWait))
  ∧ (∀ a r p v, s.recAt a = some r → r.survs[p]? = some v → v.state = .pulling →
      ∃ tag c, s.ctxAt tag = some c ∧ c.slot = a ∧ c.pos = p)
  ∧ (∀ tag tag' c c', s.ctxAt tag = some c → s.ctxAt tag' = some c' → c.slot = c'.slot → c.pos = c'.pos → tag = tag')

/-- R55: each rack's outstanding count is the number of open contexts whose survivor lies on it. -/
def State.outstandingExact (s : State) : Prop :=
  ∀ k, (s.rackAt k).outstanding = s.fetch.ctxs.toList.countP fun o => o.any fun c => decide (s.ctxRack c = some k)

/-- R5 to R7, R22, R23: the shape of a record: k, n, t and s in their ranges; fragment indices below n, none twice; landing
addresses multiples of 4096; a plan of k distinct positions; and t rows of k coefficients. -/
def Record.wellShaped (r : Record) : Prop :=
  2 ≤ r.k ∧ r.k ≤ 12 ∧ r.k + 1 ≤ r.n ∧ r.n ≤ r.k + 4 ∧ r.n ≤ 16 ∧ 1 ≤ r.t ∧ r.t ≤ r.n - r.k ∧ r.k ≤ r.s ∧ r.s ≤ r.n - r.t
  ∧ (∀ g ∈ r.targets, g.frag < r.n ∧ g.landing.toNat % 4096 = 0) ∧ (∀ v ∈ r.survs, v.frag < r.n)
  ∧ (r.targets.map (·.frag) ++ r.survs.map (·.frag)).Nodup
  ∧ r.plan.length = r.k ∧ r.plan.Nodup ∧ (∀ p ∈ r.plan, p < r.s)
  ∧ r.rows.length = r.t ∧ (∀ row ∈ r.rows, row.length = r.k)

/-- R4, R22, R30, R35, R39: a record's shape, its boost and age in range, its margin from 0 to 3 and its score as R39 gives
it until it is terminal. -/
def Record.inBounds (r : Record) : Prop :=
  r.wellShaped ∧ r.boost ≤ 3 ∧ r.age ≤ 15
  ∧ (r.terminal = false → 0 ≤ r.margin ∧ r.margin ≤ 3 ∧ r.score = (3 - r.margin).toNat * 64 + r.boost * 16 + r.age)

/-- R30, R39: every record is in bounds. -/
def State.recordsInBounds (s : State) : Prop := ∀ a r, s.recAt a = some r → r.inBounds

/-- R9: a FETCHING or COMBINING record is active, and a QUEUED or terminal record is not. -/
def State.activeExact (s : State) : Prop :=
  ∀ a r, s.recAt a = some r →
    (r.state = .fetching ∨ r.state = .combining → r.active = true)
    ∧ (r.state = .queued ∨ r.terminal = true → r.active = false)

/-- The survivor at a position of the record in a slot holds a slab. -/
def State.heldBy (s : State) (x : Slab) (a : Slot) (pos : Nat) : Prop :=
  ∃ r v, s.recAt a = some r ∧ r.survs[pos]? = some v ∧ v.slab = some x

/-- R6, R9, R44: a survivor has a slab and a coverage map exactly when it is selected in an active record; a plan names k
distinct positions; a slab is free or held, and held once; and the free slabs stand in ascending order. -/
def State.slabsExact (s : State) : Prop :=
  (∀ a r pos v, s.recAt a = some r → r.survs[pos]? = some v →
    (v.staging.isSome = true ↔ r.active = true ∧ pos ∈ r.plan))
  ∧ (∀ a r, s.recAt a = some r → r.plan.Nodup ∧ r.plan.length = r.k ∧ ∀ p ∈ r.plan, p < r.s)
  ∧ (∀ x, x ∈ s.act.free ↔ ∀ a pos, ¬ s.heldBy x a pos)
  ∧ (∀ x a b p q, s.heldBy x a p → s.heldBy x b q → a = b ∧ p = q)
  ∧ s.act.free.Pairwise (· < ·)

/-- R40, R42, R43: no two records have one place in the order of admission, later records stand behind earlier ones in it, and
the Ready List is ordered by score and then by admission. -/
def State.readyOrdered (s : State) : Prop :=
  (∀ a b x y, s.recAt a = some x → s.recAt b = some y → a ≠ b → x.order ≠ y.order)
  ∧ (∀ a x, s.recAt a = some x → x.order < s.table.admitted)
  ∧ s.act.ready.Pairwise (fun a b => ∃ x y, s.recAt a = some x ∧ s.recAt b = some y
      ∧ (y.score < x.score ∨ (x.score = y.score ∧ x.order < y.order)))

/-- R67, R168, R171: no two pending notices are of one kind for one slot; a record notice names an occupied slot; one of
the end of a record names a record in that end state; and at most 2048 SWEEP_DONE notices are pending. -/
def State.noticesExact (s : State) : Prop :=
  s.port.notices.Pairwise (fun m n => m.sameKindAndSlot n = false)
  ∧ (∀ n ∈ s.port.notices, ∀ slot, n.slot = some slot → (s.recAt slot).isSome = true)
  ∧ (∀ slot r, s.recAt slot = some r →
      (.delivered slot ∈ s.port.notices → r.state = .delivered)
      ∧ (.faulted slot ∈ s.port.notices → r.state = .faulted)
      ∧ (.lost slot ∈ s.port.notices → r.state = .lost))
  ∧ s.sweepDonePending ≤ 2048

end Sys2Proof.Machine
end

