-- ==== Sys2Proof/Certificates/Slice0/Obligations.lean ====
section
/-! DEFINITION. The statements for the provers: what each command of the EB416 does and leaves unchanged, and the
invariants that every step keeps. OBLIGATIONS.json lists them. A request's statement is about the state in which its
entry is being read (`State.reading`), and a record's about the slot and record that its stripe id names (`State.lookup`). Where a
command meets the state `s₀`, its statement is about `s₀.settled`: the examinations that R48, R82, R139 and R156 fix after each
event have been made, so a head that can be activated has been, a pass that can start has, a candidate that can be issued has
been, and an intake that can begin has. `ActivationAndServedArbiters` says what that state is. That the examinations are over by
then is DEDUCED (log entry 36). ACTIVATION, ISSUE, PASS_START and INTAKE_RESERVATION act on `s₀` itself, and NOTICE_WRITE on
`s₀.arbitersServed`, since a notice and a waiting intake may come in either order (R170). -/

open Sys2Proof Sys2Proof.Machine

/-! ## Steps -/

/-- A step runs the command at the front of the queue on the rest of the queue. -/
def Obligations.StepTakesTheFrontCommand : Prop :=
  ∀ (c : Instr) (rest : List Instr) (s : State),
    step { s with pending := c :: rest } = exec c { s with pending := rest }

/-- The model's choice (log entry 1): every command answers a next state in every state, also where its row's conditions do
not hold. It leaves the waiting commands (log entry 28) and the part's time (log entry 3) as they are. -/
def Obligations.EveryCommandCompletes : Prop :=
  ∀ (c : Instr) (s : State), ∃ t, exec c s = .next t ∧ t.pending = s.pending ∧ t.now = s.now

/-- The model's choice (log entry 2): a step on an empty queue is one µs in which each port whose link is up sends the oldest
PULL handed to it, port 0 first. R87 gives the order of a port's PULLs. -/
def Obligations.IdleStepSendsAndAdvancesTime : Prop :=
  ∀ s₀ : State,
    let s := s₀.settled
    s₀.pending = [] → ∃ t, step s₀ = .next t
    ∧ (∀ p, t.portAt p = { s.portAt p with
        queue := if (s.portAt p).linkUp then (s.portAt p).queue.tail else (s.portAt p).queue })
    ∧ t.outputs = s.outputs ++ [PortNo.p0, PortNo.p1].flatMap (fun p =>
        if (s.portAt p).linkUp then
          (s.portAt p).queue.head?.toList.map fun q => .frame p (pullFrame (s.portSettings p) q)
        else [])
    ∧ t = { s with
        now := s.now + 1, outputs := t.outputs
        fetch := { s.fetch with port0 := t.portAt .p0, port1 := t.portAt .p1 } }

/-! ## Resets -/

/-- The values that power-on reset leaves. The link states of the ports (log entry 6) and the staging DRAM's contents (log
entry 7) have none and are not named here. -/
def Obligations.ResetValues : Prop :=
  (∀ offset : BitVec 12, offset ≠ 0x004#12 →
    State.reset.readRegister offset = if offset = 0x010#12 ∨ offset = 0x028#12 then 6 else 0)
  ∧ (∀ i : Nat, i < 3 → (State.reset.readRegister 0x004#12).getLsbD i = false)
  ∧ (∀ a, State.reset.recAt a = none) ∧ State.reset.table.index = [] ∧ State.reset.table.serial = 0
  ∧ State.reset.act.ready = [] ∧ State.reset.act.free.length = 3584 ∧ (∀ x, x ∈ State.reset.act.free)
  ∧ (∀ k, State.reset.rackAt k = { down := false, cls := .full, credit := 16384, outstanding := 0 })
  ∧ State.reset.rackUnit.sweep =
      { running := false, downSet := [], position := 0, endPoint := 2048, wrapMark := false, waiting := [] }
  ∧ (∀ tag, State.reset.ctxAt tag = none) ∧ State.reset.fetch.pullSerial = 0
  ∧ (∀ x, State.reset.verifyAt x = false)
  ∧ State.reset.comb.queue = [] ∧ State.reset.comb.pass = none ∧ State.reset.port.notices = []
  ∧ State.reset.counters =
      { pullsSent := 0, accepted := 0, stale := 0, badCheck := 0, malformed := 0, retries := 0, delivered := 0
        faulted := 0, lost := 0 }
  ∧ State.reset.settings =
      { spanCode := 16, idleTimeout := 20, retryLimit := 3, stallCode := 20, baseRate := 16, outLimit := 4
        bucketDepth := 512, reserve := 96, busyFloor := 5
        port0 := { link := 0, svc := 0, net := 0, nextHop := 0 }, port1 := { link := 0, svc := 0, net := 0, nextHop := 0 } }

/-- R153, R154: POWER_ON_RESET and FUNCTION_LEVEL_RESET bring every block to its power-on state; CONTROLLER_RESET keeps the
settings, the ring placement and the pull serial. All keep the link states, start a fresh refill period and leave the landing
areas of the pass in flight and the buffer in writing undefined. The model's choices: that these host areas and no others
become undefined (log entry 22), that the staging DRAM reads as 0 after the first two and is kept by CONTROLLER_RESET (log
entry 7), and that all three keep the part's time and what has left it (log entries 3, 27 and 33). -/
def Obligations.ResetCommands : Prop :=
  ∀ s₀ : State,
    let s := s₀.settled
    let links (f : FetchEngine) : FetchEngine :=
      { f with
        port0 := { linkUp := s.fetch.port0.linkUp, queue := [] }
        port1 := { linkUp := s.fetch.port1.linkUp, queue := [] } }
    let undefinedAreas : List Output :=
      (match s.comb.pass with
        | none => []
        | some p => match s.recAt p.slot with
          | none => []
          | some r => r.targets.map fun g => .hostUndefined g.landing.toNat r.length)
      ++ (match s.port.intake with
        | .writing job => [.hostUndefined job.addr.toNat job.bytes.length]
        | _ => [])
    let fromReset : State :=
      { State.reset with
        refillAt := s.now + 100, fetch := links State.reset.fetch, now := s.now, pending := s.pending
        outputs := s.outputs ++ undefinedAreas }
    exec .powerOnReset s₀ = .next fromReset
    ∧ exec .functionLevelReset s₀ = .next fromReset
    ∧ ∀ value : Word, value.getLsbD 1 = true →
        exec (.controllerReset value) s₀ = .next { fromReset with
          port := { State.reset.port with
            reqBase := s.port.reqBase, reqSize := s.port.reqSize, cplBase := s.port.cplBase, cplSize := s.port.cplSize }
          rackUnit := { State.reset.rackUnit with
            racks := Vector.replicate 256
              { down := false, cls := .full, credit := s.settings.bucketDepth * 32, outstanding := 0 } }
          fetch := { links State.reset.fetch with pullSerial := s.fetch.pullSerial }
          settings := s.settings, dram := s.dram }

/-! ## The register window and the links -/

/-- R149, R150: WRITE_RUN stores RUN and nothing else changes, so an intake under way goes on. REGISTER_WRITE to Status, the
Request Ring head, the Completion Ring producer or an offset that holds no register is ignored: the offsets that other rows
write are spelled out. -/
def Obligations.WriteRunAndIgnoredWrites : Prop :=
  (∀ (value : Word) (s₀ : State),
     let s := s₀.settled
     value.getLsbD 1 = false → ∃ t, exec (.writeRun value) s₀ = .next t
       ∧ t = { s with port := { s.port with run := value.getLsbD 0 } }
       ∧ t.readRegister 0x000#12 = (if value.getLsbD 0 then 1 else 0))
  ∧ (∀ (offset : BitVec 12) (value : Word) (s₀ : State), 
       offset ∉ [0x000#12, 0x008#12, 0x00C#12, 0x010#12, 0x014#12, 0x020#12, 0x024#12, 0x028#12, 0x030#12, 0x034#12] →
       exec (.registerWrite offset value) s₀ = .next s₀.settled)

/-- R151: the five conditions that Status shows, and no other bit. -/
def Obligations.StatusShowsFiveConditions : Prop :=
  ∀ (s : State) (i : Nat),
    (s.readRegister 0x004#12).getLsbD i =
      ((i == 0 && (s.port.run || s.port.intake != .idle)) || (i == 1 && s.port.quiesce)
        || (i == 2 && s.rackUnit.sweep.running) || (i == 3 && s.fetch.port0.linkUp) || (i == 4 && s.fetch.port1.linkUp))

/-- R149, R152, R165: WRITE_REQUEST_RING_PLACEMENT and WRITE_COMPLETION_RING_PLACEMENT are taken while RUN is 0 and RUNNING is
clear: they set a base's low or high word, or the size code held within 6 to 12, and bring the ring's two positions to 0. They
are ignored otherwise. Each of the six registers reads as what is stored. -/
def Obligations.RingPlacementWrites : Prop :=
  (∀ (value : Word) (s₀ : State),
     let s := s₀.settled
     (s.port.run = false → s.port.intake = .idle →
       (∃ t, exec (.writeRequestRingPlacement .baseLow value) s₀ = .next t
         ∧ t.readRegister 0x008#12 = (value &&& 0xFFFFF000#32) ∧ t.readRegister 0x00C#12 = s.readRegister 0x00C#12
         ∧ t = { s with port := { s.port with reqBase := t.port.reqBase, reqHead := 0, reqTail := 0 } })
       ∧ (∃ t, exec (.writeRequestRingPlacement .baseHigh value) s₀ = .next t
         ∧ t.readRegister 0x008#12 = s.readRegister 0x008#12 ∧ t.readRegister 0x00C#12 = value
         ∧ t = { s with port := { s.port with reqBase := t.port.reqBase, reqHead := 0, reqTail := 0 } })
       ∧ exec (.writeRequestRingPlacement .sizeCode value) s₀ = .next { s with port := { s.port with
           reqSize := if value.toNat < 6 then 6 else if 12 < value.toNat then 12 else value.toNat
           reqHead := 0, reqTail := 0 } })
     ∧ (s.port.run = true ∨ s.port.intake ≠ .idle → ∀ reg, exec (.writeRequestRingPlacement reg value) s₀ = .next s))
  ∧ (∀ (value : Word) (s₀ : State),
       let s := s₀.settled
       (s.port.run = false → s.port.intake = .idle →
         (∃ t, exec (.writeCompletionRingPlacement .baseLow value) s₀ = .next t
           ∧ t.readRegister 0x020#12 = (value &&& 0xFFFFF000#32) ∧ t.readRegister 0x024#12 = s.readRegister 0x024#12
           ∧ t = { s with port := { s.port with cplBase := t.port.cplBase, producer := 0, cplHead := 0 } })
         ∧ (∃ t, exec (.writeCompletionRingPlacement .baseHigh value) s₀ = .next t
           ∧ t.readRegister 0x020#12 = s.readRegister 0x020#12 ∧ t.readRegister 0x024#12 = value
           ∧ t = { s with port := { s.port with cplBase := t.port.cplBase, producer := 0, cplHead := 0 } })
         ∧ exec (.writeCompletionRingPlacement .sizeCode value) s₀ = .next { s with port := { s.port with
             cplSize := if value.toNat < 6 then 6 else if 12 < value.toNat then 12 else value.toNat
             producer := 0, cplHead := 0 } })
       ∧ (s.port.run = true ∨ s.port.intake ≠ .idle → ∀ reg, exec (.writeCompletionRingPlacement reg value) s₀ = .next s))
  ∧ ∀ s : State,
      (s.readRegister 0x008#12).toNat + 2 ^ 32 * (s.readRegister 0x00C#12).toNat = s.port.reqBase.toNat
      ∧ (s.readRegister 0x020#12).toNat + 2 ^ 32 * (s.readRegister 0x024#12).toNat = s.port.cplBase.toNat
      ∧ s.readRegister 0x010#12 = BitVec.ofNat 32 s.port.reqSize ∧ s.readRegister 0x028#12 = BitVec.ofNat 32 s.port.cplSize

/-- R149, R155, R165: REQUEST_RING_TAIL and COMPLETION_RING_HEAD store their value modulo the ring's size; the fill is the
producer minus the head modulo that size, and the room is what R166 gives. The four position registers read as the
positions. -/
def Obligations.RingPositionsWrap : Prop :=
  (∀ (value : Word) (s₀ : State),
    let s := s₀.settled
    exec (.requestRingTail value) s₀ =
      .next { s with port := { s.port with reqTail := value.toNat % 2 ^ s.port.reqSize } }
    ∧ exec (.completionRingHead value) s₀ =
      .next { s with port := { s.port with cplHead := value.toNat % 2 ^ s.port.cplSize } })
  ∧ (∀ s : State, s.port.producer < 2 ^ s.port.cplSize →
    s.fill < 2 ^ s.port.cplSize
    ∧ (s.port.cplHead + s.fill) % 2 ^ s.port.cplSize = s.port.producer
    ∧ s.room = 2 ^ s.port.cplSize - 1 - s.fill - (if s.port.intake = .idle then 0 else 1))
  ∧ (∀ s : State,
      s.readRegister 0x014#12 = BitVec.ofNat 32 s.port.reqTail ∧ s.readRegister 0x018#12 = BitVec.ofNat 32 s.port.reqHead
      ∧ s.readRegister 0x02C#12 = BitVec.ofNat 32 s.port.producer
      ∧ s.readRegister 0x030#12 = BitVec.ofNat 32 s.port.cplHead)

/-- R172: a write of 1 to Attention Arm arms; where the producer differs from the head it raises one MSI at once, and the part
then stands as before the write, disarmed again or armed still. A write of 0 disarms. A read returns the arm state. -/
def Obligations.AttentionArmWrite : Prop :=
  ∀ (value : Word) (s₀ : State),
    let s := s₀.settled
    (value.getLsbD 0 = true → s.port.producer ≠ s.port.cplHead → exec (.attentionArm value) s₀ =
      .next { s with outputs := s.outputs ++ [.msi] })
    ∧ (value.getLsbD 0 = true → s.port.producer = s.port.cplHead → exec (.attentionArm value) s₀ =
      .next { s with port := { s.port with armed := true } })
    ∧ (value.getLsbD 0 = false → exec (.attentionArm value) s₀ =
      .next { s with port := { s.port with armed := false } })
    ∧ s.readRegister 0x034#12 = (if s.port.armed then 1 else 0)

/-- R87, R89: PORT_LINK_CHANGE sets a port's link state; a link that goes down drops the PULLs not yet sent, and the other
port and everything else stay. -/
def Obligations.PortLinkChange : Prop :=
  ∀ (p : PortNo) (up : Bool) (s₀ : State),
    let s := s₀.settled
    ∃ t, exec (.portLinkChange p up) s₀ = .next t
    ∧ t.portAt p = { linkUp := up, queue := if up then (s.portAt p).queue else [] }
    ∧ (∀ q, q ≠ p → t.portAt q = s.portAt q)
    ∧ t = { s with fetch := { s.fetch with port0 := t.fetch.port0, port1 := t.fetch.port1 } }

/-! ## Intake, completions and notices -/

/-- R155, R156, R166: INTAKE_RESERVATION begins an intake exactly when RUN is 1, the ring is not empty, none is under way and
the room is 1 or more: the read of the 64 bytes at the base plus 64 × the head begins, and the room falls by one. R157: an
intake whose entry read fails ends with HOST_FAULT, request id 0 and the entry's ring position, and an entry of an opcode other
than the sixteen with BAD_REQUEST and its request id; the head advances, and the quiesce flag and everything else stay. That the
slot and the stripe id of the BAD_REQUEST completion are zero is DEDUCED (log entry 14). -/
def Obligations.IntakesBeginAndFaultsEndThem : Prop :=
  (∀ s : State,
     (s.port.run = true → s.port.reqHead ≠ s.port.reqTail → s.port.intake = .idle → 1 ≤ s.room →
       ∃ t, exec .intakeReservation s = .next t
         ∧ t = { s with
             port := { s.port with intake := .reading }
             outputs := s.outputs ++ [.hostRead (s.port.reqBase.toNat + 64 * s.port.reqHead) 64] }
         ∧ t.room = s.room - 1)
     ∧ (s.port.run = false ∨ s.port.reqHead = s.port.reqTail ∨ s.port.intake ≠ .idle ∨ s.room = 0 →
       exec .intakeReservation s = .next s))
  ∧ (∀ (e : Entry) (cw : Dma) (s₀ : State),
       let s := s₀.settled
       s.port.intake = .reading →
       (∃ t, exec (.entryReadFault cw) s₀ = .next t
         ∧ Answered s t [] { kind := 0x01#8, status := 10#8, reqId := 0, ringPos := s.port.reqHead, slot := 0, stripe := 0
                             results := [] } cw s.port.quiesce
         ∧ t.port.notices = s.port.notices ∧ t = { s with port := t.port, outputs := t.outputs })
       ∧ (opcodeOf e ∉ [0x01#8, 0x02#8, 0x03#8, 0x04#8, 0x05#8, 0x06#8, 0x07#8, 0x08#8, 0x09#8, 0x0A#8, 0x0B#8, 0x0C#8, 0x10#8,
           0x11#8, 0x12#8, 0x13#8] → ∃ t, exec (.badRequest e cw) s₀ = .next t
         ∧ Answered s t [] { kind := 0x01#8, status := 11#8, reqId := reqIdOf e, ringPos := s.port.reqHead, slot := 0
                             stripe := 0, results := [] } cw s.port.quiesce
         ∧ t.port.notices = s.port.notices ∧ t = { s with port := t.port, outputs := t.outputs }))

/-- R28, R156, R163, R164: BUFFER_WRITE_DONE ends the intake of QUERY, IDENTIFY or REPORT: OK with the bytes copied at the
taking, or HOST_FAULT with the buffer undefined and a cleared REPORT's counters added back, saturating. A failed write leaves
its area undefined to the host (log entry 22). R164: a counter saturates at its 32 bits. -/
def Obligations.BufferWriteDone : Prop :=
  (∀ a b : Word, (satAdd a b).toNat = min (a.toNat + b.toNat) 0xFFFFFFFF)
  ∧ ∀ (job : BufferJob) (bw cw : Dma) (s₀ : State),
    let s := s₀.settled
    s.port.intake = .writing job →
    ∃ t, exec (.bufferWriteDone bw cw) s₀ = .next t
      ∧ t.port = { s.port with
          producer := (s.port.producer + 1) % 2 ^ s.port.cplSize, intake := .idle, armed := false }
      ∧ t.outputs = s.outputs
          ++ [if bw = .ok then .hostWrite job.addr.toNat job.bytes
              else .hostUndefined job.addr.toNat job.bytes.length]
          ++ s.entryOutputs { kind := 0x01#8, status := if bw = .ok then 0#8 else 10#8, reqId := job.reqId
                              ringPos := job.ringPos, slot := job.slot, stripe := job.stripe, results := [] } cw
      ∧ t.counters = (match bw, job.restore with
          | .failed, some c =>
            { pullsSent := satAdd s.counters.pullsSent c.pullsSent, accepted := satAdd s.counters.accepted c.accepted
              stale := satAdd s.counters.stale c.stale, badCheck := satAdd s.counters.badCheck c.badCheck
              malformed := satAdd s.counters.malformed c.malformed, retries := satAdd s.counters.retries c.retries
              delivered := satAdd s.counters.delivered c.delivered, faulted := satAdd s.counters.faulted c.faulted
              lost := satAdd s.counters.lost c.lost }
          | _, _ => s.counters)
      ∧ t = { s with port := t.port, outputs := t.outputs, counters := t.counters }

/-- R169: what each kind of notice carries, its values read from the record as it stands. R170, R172: NOTICE_WRITE writes the
head notice when the room is 1 or more, and an armed part raises one MSI; otherwise nothing happens. R67: a sweep that waits
at its end point ends in the step whose notice brings the SWEEP_DONE load to 2048. -/
def Obligations.NoticeWrite : Prop :=
  (∀ (s : State) (slot : Slot) (r : Record), s.recAt slot = some r →
     s.noticeEntry (.planNeeded slot) =
       { kind := 0x10#8, status := 0#8, reqId := 0, ringPos := 0, slot := slot.val, stripe := r.stripe
         results := [0#8, r.state.code, if r.margin < 0 then 0xFF#8 else BitVec.ofNat 8 r.margin.toNat] }
     ∧ s.noticeEntry (.delivered slot) =
       { kind := 0x11#8, status := 0#8, reqId := 0, ringPos := 0, slot := slot.val, stripe := r.stripe
         results := [0#8, r.state.code] }
     ∧ s.noticeEntry (.faulted slot) =
       { kind := 0x12#8, status := 0#8, reqId := 0, ringPos := 0, slot := slot.val, stripe := r.stripe
         results := [0#8, r.state.code, 0#8, 0#8] ++ (match r.fault with
         | none => [0#8, 0#8]
         | some (.checkMismatch j) => [1#8, BitVec.ofNat 8 j]
         | some .landingFault => [2#8, 0#8]) }
     ∧ s.noticeEntry (.lost slot) =
       { kind := 0x13#8, status := 0#8, reqId := 0, ringPos := 0, slot := slot.val, stripe := r.stripe
         results := [0#8, r.state.code] }
     ∧ (∀ id, s.noticeEntry (.holdGranted slot id) =
       { kind := 0x14#8, status := 0#8, reqId := id, ringPos := 0, slot := slot.val, stripe := r.stripe
         results := [0#8, r.state.code] }))
  ∧ (∀ (s : State) (id : ReqId) (k : RackId), s.noticeEntry (.sweepDone id k) =
       { kind := 0x15#8, status := 0#8, reqId := id, ringPos := 0, slot := 0, stripe := 0, results := [k] })
  ∧ (∀ (n : Notice) (rest : List Notice) (cw : Dma) (s₀ : State),
       let s := s₀.arbitersServed
       (s.port.notices = n :: rest → 1 ≤ s.room → ∃ t, exec (.noticeWrite cw) s₀ = .next t
         ∧ t.outputs = s.outputs ++ s.entryOutputs (s.noticeEntry n) cw
         ∧ (if s.rackUnit.sweep.running = true ∧ s.rackUnit.sweep.wrapMark = false
               ∧ s.rackUnit.sweep.position = s.rackUnit.sweep.endPoint
               ∧ 2048 < s.sweepDonePending + s.rackUnit.sweep.waiting.length
               ∧ { s with port := { s.port with notices := rest } }.sweepDonePending + s.rackUnit.sweep.waiting.length ≤ 2048
             then
               t.rackUnit.sweep = { running := false, downSet := [], position := 0, endPoint := 2048, wrapMark := false
                                    waiting := [] }
               ∧ t.port.notices = rest ++ s.rackUnit.sweep.waiting.map fun w => .sweepDone w.1 w.2
             else t.rackUnit.sweep = s.rackUnit.sweep ∧ t.port.notices = rest)
         ∧ t.port = { s.port with
             producer := (s.port.producer + 1) % 2 ^ s.port.cplSize, armed := false, notices := t.port.notices }
         ∧ t = { s with
             port := t.port, outputs := t.outputs, rackUnit := { s.rackUnit with sweep := t.rackUnit.sweep } })
       ∧ (s.port.notices = [] ∨ s.room = 0 → exec (.noticeWrite cw) s₀ = .next s))

/-! ## Formats -/

/-- Chapter 11: the byte orders and the codes, and the places of the fields of a Completion Ring entry. R173, R174: the IDENTIFY
and REPORT blocks, and the sizes of Settings Blocks and PULLs. R159, R164: the OPEN contexts are the tags whose context is not
FREE (that they are reported is the model's choice, log entry 34). -/
def Obligations.WrittenBlocks : Prop :=
  (∀ (l : List Byte) (off len : Nat),
     byteAt l off = l.getD off 0#8
     ∧ leAt l off len = ∑ i ∈ Finset.range len, (l.getD (off + i) 0#8).toNat * 256 ^ i
     ∧ beAt l off len = ∑ i ∈ Finset.range len, (l.getD (off + i) 0#8).toNat * 256 ^ (len - 1 - i))
  ∧ (∀ len x : Nat, (leBytes len x).length = len ∧ leAt (leBytes len x) 0 len = x % 256 ^ len)
  ∧ [Status.ok, .tableFull, .duplicate, .notFound, .badShape, .badPlan, .unrecoverable, .wrongState, .notHeld, .sweepActive,
      .hostFault, .badRequest].map Status.code = (List.range 12).map (BitVec.ofNat 8)
  ∧ [RecState.queued, .fetching, .planWait, .combining, .delivered, .faulted, .lost].map RecState.code =
      [1#8, 2#8, 3#8, 4#8, 5#8, 6#8, 7#8]
  ∧ (∀ id, [Hold.none, .requested id, .granted].map Hold.code = [0#8, 1#8, 2#8])
  ∧ (∀ c, [SurvState.available, .pulling, .staged, .failed c, .gone].map SurvState.code = [0#8, 1#8, 2#8, 3#8, 4#8])
  ∧ [SurvState.available, .pulling, .staged, .failed .timeoutLimit, .failed .notHeld, .failed .corrupt, .gone].map
      SurvState.reasonCode = [0#8, 0#8, 0#8, 1#8, 2#8, 3#8, 4#8]
  ∧ faultCodes none = [0#8, 0#8] ∧ (∀ j, faultCodes (some (.checkMismatch j)) = [1#8, BitVec.ofNat 8 j])
  ∧ faultCodes (some .landingFault) = [2#8, 0#8]
  ∧ [BudgetClass.full, .reduced, .trickle, .halted].map BudgetClass.code = [0#8, 1#8, 2#8, 3#8]
  ∧ (∀ c : CplEntry, c.bytes.length = 32
      ∧ byteAt c.bytes 0 = c.kind ∧ byteAt c.bytes 1 = c.status ∧ leAt c.bytes 2 2 = c.reqId.toNat
      ∧ leAt c.bytes 4 2 = c.ringPos % 65536 ∧ leAt c.bytes 6 2 = c.slot % 65536 ∧ leAt c.bytes 8 8 = c.stripe.toNat
      ∧ ∀ i, i < 16 → byteAt c.bytes (16 + i) = c.results.getD i 0#8)
  ∧ identifyBlock = [0x00#8, 0x08#8, 0x00#8, 0x0E#8, 0x00#8, 0x01#8, 0x00#8, 0x01#8, 12#8, 16#8, 0x00#8, 0x20#8, 0x01#8,
      0x00#8, 0x00#8, 0x00#8]
  ∧ (∀ g : Settings, g.bytes.length = 80)
  ∧ (∀ tag serial stripe frag start length span urgent verify,
      (pullMessage tag serial stripe frag start length span urgent verify).length = 28)
  ∧ ∀ s : State, s.openCtxs = ((List.range 256).filter fun i => s.ctxAt (BitVec.ofNat 8 i) ≠ none).length
    ∧ s.reportBlock.length = 128
    ∧ leAt s.reportBlock 0 4 = s.counters.pullsSent.toNat ∧ leAt s.reportBlock 4 4 = s.counters.accepted.toNat
    ∧ leAt s.reportBlock 8 4 = s.counters.stale.toNat ∧ leAt s.reportBlock 12 4 = s.counters.badCheck.toNat
    ∧ leAt s.reportBlock 16 4 = s.counters.malformed.toNat ∧ leAt s.reportBlock 20 4 = s.counters.retries.toNat
    ∧ leAt s.reportBlock 24 4 = s.counters.delivered.toNat ∧ leAt s.reportBlock 28 4 = s.counters.faulted.toNat
    ∧ leAt s.reportBlock 32 4 = s.counters.lost.toNat ∧ leAt s.reportBlock 36 4 = 0
    ∧ field s.reportBlock 40 80 = s.settings.bytes
    ∧ leAt s.reportBlock 120 2 = s.act.free.length % 65536 ∧ leAt s.reportBlock 122 2 = s.openCtxs
    ∧ byteAt s.reportBlock 124 = BitVec.ofNat 8 ((if s.comb.pass.isSome then 1 else 0) + (if s.port.quiesce then 2 else 0))
    ∧ leAt s.reportBlock 125 3 = 0

/-- R29, R173, R174: each field of the QUERY snapshot stands at the place that chapter 11 gives it, and every padding byte,
every entry past t and s, and every place of the plan and the rows past k and t is zero. (The codes: `WrittenBlocks`.) A tag
shown is that of an OPEN context of the survivor, and a PULLING survivor has one. -/
def Obligations.SnapshotLayout : Prop :=
  ∀ (s : State) (slot : Slot) (r : Record),
    let b := s.snapshot slot r
    b.length = 824
    ∧ leAt b 0 2 = slot.val ∧ byteAt b 2 = BitVec.ofNat 8 r.k ∧ byteAt b 3 = BitVec.ofNat 8 r.n
    ∧ byteAt b 4 = BitVec.ofNat 8 r.t ∧ byteAt b 5 = BitVec.ofNat 8 r.s ∧ byteAt b 6 = r.lcode
    ∧ byteAt b 7 = BitVec.ofNat 8 r.boost ∧ leAt b 8 8 = r.stripe.toNat ∧ leAt b 16 4 = r.serial.toNat
    ∧ byteAt b 20 = r.state.code
    ∧ byteAt b 21 = BitVec.ofNat 8 ((if r.active then 1 else 0) + (if r.stall.isSome then 2 else 0)
        + (if s.inPass slot then 4 else 0))
    ∧ byteAt b 22 = r.hold.code
    ∧ byteAt b 23 = (if r.margin < 0 then 0xFF#8 else BitVec.ofNat 8 r.margin.toNat)
    ∧ byteAt b 24 = (if r.margin < 0 then 4#8 else BitVec.ofNat 8 (3 - r.margin).toNat)
    ∧ byteAt b 25 = BitVec.ofNat 8 r.age ∧ byteAt b 26 = BitVec.ofNat 8 r.score
    ∧ field b 27 2 = faultCodes r.fault ∧ field b 29 35 = List.replicate 35 0#8
    ∧ (∀ j g, r.targets[j]? = some g → j < 4 →
        byteAt b (64 + 24 * j) = BitVec.ofNat 8 g.frag
        ∧ byteAt b (64 + 24 * j + 1) = (if g.computed.isSome then 1#8 else 0#8)
        ∧ leAt b (64 + 24 * j + 4) 4 = g.expected.toNat
        ∧ leAt b (64 + 24 * j + 8) 4 = (g.computed.getD 0).toNat
        ∧ leAt b (64 + 24 * j + 16) 8 = g.landing.toNat
        ∧ field b (64 + 24 * j + 2) 2 = [0#8, 0#8] ∧ field b (64 + 24 * j + 12) 4 = [0#8, 0#8, 0#8, 0#8])
    ∧ (∀ j, r.t ≤ j → j < 4 → field b (64 + 24 * j) 24 = List.replicate 24 0#8)
    ∧ (∀ pos v, r.survs[pos]? = some v → pos < 15 →
        let left := (v.holdoff.filter fun u => decide (s.now < u)).map (· - s.now)
        let tag := if v.state = .pulling then s.tagOf slot pos else none
        byteAt b (160 + 40 * pos) = BitVec.ofNat 8 v.frag ∧ byteAt b (160 + 40 * pos + 1) = v.rack
        ∧ beAt b (160 + 40 * pos + 2) 2 = v.svc.toNat ∧ beAt b (160 + 40 * pos + 4) 16 = v.addr.toNat
        ∧ byteAt b (160 + 40 * pos + 20) = v.state.code
        ∧ byteAt b (160 + 40 * pos + 21) = BitVec.ofNat 8 ((if pos ∈ r.plan then 1 else 0)
            + (if v.staging.isSome then 2 else 0) + (if tag.isSome then 4 else 0) + (if left.isSome then 8 else 0)
            + (if v.faultOffset.isSome then 16 else 0))
        ∧ byteAt b (160 + 40 * pos + 22) = BitVec.ofNat 8 v.retries
        ∧ byteAt b (160 + 40 * pos + 23) = v.state.reasonCode
        ∧ leAt b (160 + 40 * pos + 24) 2 = (v.staging.map (·.slab.val)).getD 0
        ∧ leAt b (160 + 40 * pos + 26) 2 = (v.staging.map (·.cover.count true)).getD 0 % 65536
        ∧ byteAt b (160 + 40 * pos + 28) = tag.getD 0#8
        ∧ leAt b (160 + 40 * pos + 32) 4 = left.getD 0 % 2 ^ 32
        ∧ leAt b (160 + 40 * pos + 36) 4 = (v.faultOffset.getD 0).toNat
        ∧ field b (160 + 40 * pos + 29) 3 = [0#8, 0#8, 0#8])
    ∧ (∀ pos, r.s ≤ pos → pos < 15 → field b (160 + 40 * pos) 40 = List.replicate 40 0#8)
    ∧ (∀ i p, r.plan[i]? = some p → i < 16 → byteAt b (760 + i) = BitVec.ofNat 8 p)
    ∧ (∀ j row i c, r.rows[j]? = some row → row[i]? = some c → j < 4 → i < 12 → byteAt b (776 + 12 * j + i) = c)
    ∧ (∀ i, r.plan.length ≤ i → i < 16 → byteAt b (760 + i) = 0#8)
    ∧ (∀ j i, j < 4 → i < 12 → (r.rows.getD j []).length ≤ i → byteAt b (776 + 12 * j + i) = 0#8)
    ∧ (s.inPass slot = true ↔ ∃ p, s.comb.pass = some p ∧ p.slot = slot)
    ∧ (∀ pos tag, s.tagOf slot pos = some tag → ∃ c, s.ctxAt tag = some c ∧ c.slot = slot ∧ c.pos = pos)
    ∧ (s.contextsExact →
        (∀ tag c, s.ctxAt tag = some c → c.slot = slot → s.tagOf slot c.pos = some tag)
        ∧ ∀ pos v, s.recAt slot = some r → r.survs[pos]? = some v → v.state = .pulling → (s.tagOf slot pos).isSome = true)

/-- R161, R173, R174: the places of the settings in the Settings Block, as SET_PARAMS reads them and REPORT writes them, with
its padding; and a Settings Block that gives settings in range is read back as those settings, with none brought into
range. -/
def Obligations.SettingsBlockRoundTrips : Prop :=
  (∀ b : List Byte,
     let g := readSettings b
     g.spanCode = (byteAt b 0).toNat ∧ g.idleTimeout = (byteAt b 1).toNat ∧ g.retryLimit = (byteAt b 2).toNat
     ∧ g.stallCode = (byteAt b 3).toNat ∧ g.baseRate = (byteAt b 4).toNat ∧ g.outLimit = (byteAt b 5).toNat
     ∧ g.bucketDepth = leAt b 6 2 ∧ g.reserve = leAt b 8 2 ∧ g.busyFloor = (byteAt b 10).toNat
     ∧ ∀ p off, (p, off) ∈ [(g.port0, 16), (g.port1, 48)] →
       p.link.toNat = beAt b off 6 ∧ p.svc.toNat = beAt b (off + 6) 2 ∧ p.net.toNat = beAt b (off + 8) 16
       ∧ p.nextHop.toNat = beAt b (off + 24) 6)
  ∧ ∀ g : Settings,
    field g.bytes 11 5 = List.replicate 5 0#8 ∧ field g.bytes 46 2 = [0#8, 0#8] ∧ field g.bytes 78 2 = [0#8, 0#8]
    ∧ (g.inRange →
      readSettings g.bytes = g ∧ g.clamped = g
      ∧ ∀ (e : Entry) (cw : Dma) (s₀ : State), s₀.settled.reading e 0x11#8 → 80 ≤ lengthOf e →
        ∃ t, exec (.setParams e g.bytes cw) s₀ = .next t ∧ t.settings = g)

/-- R87, R92: the frame that carries a PULL: its addresses, ports and hop limit, a correct checksum, and the PULL as its
payload, whose fields stand at their places. R175: the places of tag and serial in every message. The places of the Ethernet,
IPv6 and UDP fields, the pseudo-header and the checksum's arithmetic are PRESUMED (log entry 8). -/
def Obligations.PullFrameCarriesThePull : Prop :=
  (∀ l : List Byte, wordSum l = ∑ i ∈ Finset.range ((l.length + 1) / 2), beAt l (2 * i) 2)
  ∧ (∀ (src dst : NetAddr) (len next : Nat), len < 2 ^ 32 → next < 256 →
      let h := pseudoHeader src dst len next
      h.length = 40 ∧ beAt h 0 16 = src.toNat ∧ beAt h 16 16 = dst.toNat ∧ beAt h 32 4 = len ∧ beAt h 36 4 = next)
  ∧ (∀ l : List Byte, messageTag l = byteAt l 2 ∧ (messageSerial l).toNat = beAt l 4 2)
  ∧ ∀ (g : PortSettings) (addr : NetAddr) (svc : BitVec 16) (tag : Tag) (serial : BitVec 16) (stripe : StripeId)
    (frag start length span : Nat) (urgent verify : Bool),
    frag < 256 → start < 2 ^ 32 → length < 2 ^ 32 → span < 65536 →
    let m := pullMessage tag serial stripe frag start length span urgent verify
    let f := pullFrame g { addr, svc, message := m }
    frameDst f = g.nextHop ∧ beAt f 6 6 = g.link.toNat ∧ isIPv6 f = true
    ∧ field f 14 4 = [0x60#8, 0#8, 0#8, 0#8] ∧ beAt f 18 2 = 36 ∧ nextHeader f = 17 ∧ byteAt f 21 = 64#8
    ∧ ipSrc f = g.net ∧ ipDst f = addr ∧ beAt f 54 2 = g.svc.toNat ∧ beAt f 56 2 = svc.toNat ∧ beAt f 58 2 = 36
    ∧ wordSum (pseudoHeader g.net addr 36 17 ++ f.drop 54) % 0xFFFF = 0
    ∧ udpPayload f = m ∧ f.length = 90
    ∧ byteAt m 0 = 1#8 ∧ byteAt m 1 = 1#8 ∧ messageTag m = tag ∧ messageSerial m = serial
    ∧ byteAt m 2 = tag ∧ beAt m 4 2 = serial.toNat
    ∧ (byteAt m 3).getLsbD 0 = urgent ∧ (byteAt m 3).getLsbD 1 = verify ∧ (byteAt m 3) >>> 2 = 0#8
    ∧ beAt m 6 2 = 0 ∧ beAt m 8 8 = stripe.toNat ∧ beAt m 16 4 = start ∧ beAt m 20 4 = length ∧ beAt m 24 2 = span
    ∧ byteAt m 26 = BitVec.ofNat 8 frag ∧ byteAt m 27 = 0#8

/-! ## OPEN, CANCEL, RETIRE and QUERY -/

/-- R3, R17, R21 to R24: an OPEN whose block is read, whose shape passes, whose stripe id is not indexed, with a FREE slot and
a plan of distinct positions on UP racks, is admitted into the lowest FREE slot as R24 gives. (R23: no such OPEN is
UNRECOVERABLE.) R21: the fragment length of each length code. R173: the places of the request entry's fields and of the Open
Block's. The count `order` beside the serial is
the model's own (log entry 15). -/
def Obligations.OpenAdmits : Prop :=
  (∀ r : Record, r.length = (if r.lcode = 0#8 then 1048576 else r.lcode.toNat * 4096)
     ∧ r.t = r.targets.length ∧ r.s = r.survs.length)
  ∧ (∀ e : Entry,
     let b := e.toList
     opcodeOf e = byteAt b 0 ∧ clearFlagOf e = (byteAt b 1).getLsbD 0 ∧ (reqIdOf e).toNat = leAt b 2 2 ∧ lengthOf e = leAt b 4 4
     ∧ (stripeOf e).toNat = leAt b 8 8 ∧ (addressOf e).toNat = leAt b 16 8)
  ∧ (∀ b : List Byte,
     let o := readOpenBlock b
     let k := (byteAt b 0).toNat
     let t := (byteAt b 2).toNat
     let s := (byteAt b 3).toNat
     let planAt := 16 + 16 * t + 24 * s
     let rowsAt := planAt + (k + 7) / 8 * 8
     openBlockSize b = rowsAt + (t * k + 7) / 8 * 8
     ∧ o.k = k ∧ o.n = (byteAt b 1).toNat ∧ o.lcode = byteAt b 4 ∧ o.boost = min (byteAt b 5).toNat 3
     ∧ o.targets.length = t ∧ o.survs.length = s ∧ o.plan.length = k ∧ o.rows.length = t
     ∧ (∀ j, j < t → ∃ g, o.targets[j]? = some g ∧ g.frag = (byteAt b (16 + 16 * j)).toNat
         ∧ g.expected.toNat = leAt b (16 + 16 * j + 4) 4 ∧ g.landing.toNat = leAt b (16 + 16 * j + 8) 8 ∧ g.computed = none)
     ∧ (∀ i, i < s → ∃ v, o.survs[i]? = some v ∧ v.frag = (byteAt b (16 + 16 * t + 24 * i)).toNat
         ∧ v.rack = byteAt b (16 + 16 * t + 24 * i + 1) ∧ v.svc.toNat = beAt b (16 + 16 * t + 24 * i + 2) 2
         ∧ v.addr.toNat = beAt b (16 + 16 * t + 24 * i + 4) 16)
     ∧ (∀ i, i < k → o.plan[i]? = some (byteAt b (planAt + i)).toNat)
     ∧ (∀ j, j < t → ∃ row, o.rows[j]? = some row ∧ row.length = k
         ∧ ∀ i, i < k → row[i]? = some (byteAt b (rowsAt + j * k + i))))
  ∧ ∀ (e : Entry) (block : List Byte) (cw : Dma) (s₀ : State) (slot : Slot),
    let s := s₀.settled
    let o := readOpenBlock (block.take (openBlockSize block))
    s.reading e 0x01#8 → 16 ≤ lengthOf e → openBlockSize block ≤ lengthOf e → openBlockSize block ≤ block.length →
    o.shapeOk = true → (∀ a, (stripeOf e, a) ∉ s.table.index) →
    s.recAt slot = none → (∀ a, a < slot → s.recAt a ≠ none) →
    o.plan.Nodup → (∀ p ∈ o.plan, ∃ v, o.survs[p]? = some v ∧ (s.rackAt v.rack).down = false) →
    ∃ t r, exec (.openRecord e block cw) s₀ = .next t
      ∧ t.recAt slot = some r ∧ OnlySlot s t slot
      ∧ r = { stripe := stripeOf e, k := o.k, n := o.n, lcode := o.lcode, boost := o.boost, serial := s.table.serial
              order := s.table.admitted, state := .queued, active := false, hold := .none
              margin := (o.survs.countP fun v => !(s.rackAt v.rack).down : Nat) - (o.k : Int)
              age := 0, score := (3 - r.margin).toNat * 64 + o.boost * 16
              stall := freshPeriod s.settings.stallCode s.now, fault := none, targets := o.targets
              survs := o.survs.map fun v => if (s.rackAt v.rack).down then { v with state := .gone } else v
              plan := o.plan, rows := o.rows }
      ∧ (∀ g ∈ r.targets, g.computed = none) ∧ r.boost ≤ 3 ∧ 0 ≤ r.margin
      ∧ (∀ v ∈ r.survs, v.state = (if (s.rackAt v.rack).down then .gone else .available) ∧ v.staging = none
          ∧ v.retries = 0 ∧ v.holdoff = none ∧ v.faultOffset = none)
      ∧ t.table = { s.table with
          slots := t.table.slots, index := s.table.index ++ [(stripeOf e, slot)]
          serial := s.table.serial + 1, admitted := s.table.admitted + 1 }
      ∧ (∀ a, a ∈ t.act.ready ↔ a = slot ∨ a ∈ s.act.ready)
      ∧ Answered s t
          [.hostRead (addressOf e).toNat 16, .hostRead ((addressOf e).toNat + 16) (openBlockSize block - 16)]
          { kind := 0x01#8, status := 0#8, reqId := reqIdOf e, ringPos := s.port.reqHead, slot := slot.val
            stripe := stripeOf e, results := leBytes 4 s.table.serial.toNat } cw false
      ∧ t.port.notices = s.port.notices
      ∧ t = { s with
          port := t.port, table := t.table, act := { s.act with ready := t.act.ready }, outputs := t.outputs }

/-- R21 to R23: the tests of OPEN in their order; the first that fails gives the status, with 0xFFFF in the slot field, and
nothing changes apart from the quiesce flag. R22's shape test is spelled out. (A block is the readable bytes from its address
on: log entry 23.) -/
def Obligations.OpenRefusals : Prop :=
  (∀ o : OpenBlock, o.shapeOk = true ↔
     2 ≤ o.k ∧ o.k ≤ 12 ∧ o.k + 1 ≤ o.n ∧ o.n ≤ o.k + 4 ∧ o.n ≤ 16
     ∧ 1 ≤ o.targets.length ∧ o.targets.length ≤ o.n - o.k
     ∧ o.k ≤ o.survs.length ∧ o.survs.length ≤ o.n - o.targets.length
     ∧ (∀ g ∈ o.targets, g.frag < o.n ∧ g.landing.toNat % 4096 = 0) ∧ (∀ v ∈ o.survs, v.frag < o.n)
     ∧ (o.targets.map (·.frag) ++ o.survs.map (·.frag)).Nodup)
  ∧ ∀ (e : Entry) (block : List Byte) (cw : Dma) (s₀ : State) (st : Status),
    let s := s₀.settled
    let o := readOpenBlock (block.take (openBlockSize block))
    s.reading e 0x01#8 →
    ((if lengthOf e < 16 then some .badShape
      else if block.length < 16 then some .hostFault
      else if lengthOf e < openBlockSize block then some .badShape
      else if block.length < openBlockSize block then some .hostFault
      else if o.shapeOk = false then some .badShape
      else if ∃ a, (stripeOf e, a) ∈ s.table.index then some .duplicate
      else if ∀ a, s.recAt a ≠ none then some .tableFull
      else if ¬ (o.plan.Nodup ∧ ∀ p ∈ o.plan, ∃ v, o.survs[p]? = some v ∧ (s.rackAt v.rack).down = false) then
        some .badPlan
      else none) = some st) →
    ∃ t, exec (.openRecord e block cw) s₀ = .next t
      ∧ Refused s t (readsBegun 16 (openBlockSize block) (lengthOf e) block.length (addressOf e).toNat)
          e { status := st, slot := 0xFFFF, stripe := stripeOf e, results := [] } cw false

/-- R2: where the Stripe Index is exact, a stripe id names the record that carries it, and no other. Each of the eight
requests that name a record is refused NOT_FOUND, with 0xFFFF in the slot field, when the stripe id is not in the Stripe
Index; nothing changes apart from the quiesce flag. R122: a REPLAN whose block is short or cannot be read is refused BAD_SHAPE or
HOST_FAULT before the index is looked up, and its slot field is 0xFFFF too. -/
def Obligations.StripeIdsNameRecords : Prop :=
  (∀ (s : State) (id : StripeId), s.indexExact →
     (∀ slot r, s.lookup id = some (slot, r) ↔ s.recAt slot = some r ∧ r.stripe = id)
     ∧ (s.lookup id = none ↔ ∀ a, (id, a) ∉ s.table.index))
  ∧ (∀ (e : Entry) (cw : Dma) (s₀ : State),
       let s := s₀.settled
       (∀ a, (stripeOf e, a) ∉ s.table.index) →
       let a : Answer := { status := .notFound, slot := 0xFFFF, stripe := stripeOf e, results := [] }
       (s.reading e 0x02#8 → ∃ t, exec (.cancel e cw) s₀ = .next t ∧ Refused s t [] e a cw false)
       ∧ (s.reading e 0x03#8 → ∃ t, exec (.retire e cw) s₀ = .next t ∧ Refused s t [] e a cw false)
       ∧ (s.reading e 0x04#8 → ∃ t, exec (.query e cw) s₀ = .next t ∧ Refused s t [] e a cw s.port.quiesce)
       ∧ (s.reading e 0x05#8 → ∃ t, exec (.reprioritize e cw) s₀ = .next t ∧ Refused s t [] e a cw false)
       ∧ (s.reading e 0x09#8 → ∃ t, exec (.hold e cw) s₀ = .next t ∧ Refused s t [] e a cw false)
       ∧ (s.reading e 0x0A#8 → ∃ t, exec (.release e cw) s₀ = .next t ∧ Refused s t [] e a cw false)
       ∧ (s.reading e 0x0B#8 → ∃ t, exec (.amend e cw) s₀ = .next t ∧ Refused s t [] e a cw false)
       ∧ (∀ block, s.reading e 0x0C#8 → 8 ≤ lengthOf e → planBlockSize block ≤ lengthOf e →
           planBlockSize block ≤ block.length →
           ∃ t, exec (.replan e block cw) s₀ = .next t
             ∧ Refused s t (readsBegun 8 (planBlockSize block) (lengthOf e) block.length (addressOf e).toNat) e a cw false)
       ∧ (∀ block st, s.reading e 0x0C#8 →
           (if lengthOf e < 8 then some .badShape
            else if block.length < 8 then some .hostFault
            else if lengthOf e < planBlockSize block then some .badShape
            else if block.length < planBlockSize block then some .hostFault
            else none) = some st →
           ∃ t, exec (.replan e block cw) s₀ = .next t
             ∧ Refused s t (readsBegun 8 (planBlockSize block) (lengthOf e) block.length (addressOf e).toNat)
                 e { a with status := st } cw false))

/-- R25, R46, R104, R147, R171: CANCEL frees the slot whatever the record's state: it leaves the Ready List and the Combine
Queue, its pass in flight is aborted with every landing area undefined, its contexts, slabs and notices go, and no counter
changes. -/
def Obligations.CancelFreesTheSlot : Prop :=
  ∀ (e : Entry) (cw : Dma) (s₀ : State) (slot : Slot) (r : Record),
    let s := s₀.settled
    s.reading e 0x02#8 → s.lookup (stripeOf e) = some (slot, r) →
    ∃ t, exec (.cancel e cw) s₀ = .next t
      ∧ t.recAt slot = none ∧ OnlySlot s t slot
      ∧ t.table = { s.table with slots := t.table.slots, index := s.table.index.filter fun x => x.2 ≠ slot }
      ∧ t.act.ready = s.act.ready.filter (· ≠ slot)
      ∧ t.comb = { queue := s.comb.queue.filter (· ≠ slot)
                   pass := if s.comb.pass.map (·.slot) = some slot then none else s.comb.pass }
      ∧ ContextsFreed s t (fun c => c.slot == slot) ∧ SlabsFreed s t r.slabs ∧ VerifyCleared s t r.slabs
      ∧ t.port.notices = s.port.notices.filter (fun n => n.slot ≠ some slot)
      ∧ Answered s t
          (if s.comb.pass.map (·.slot) = some slot then
            r.targets.map fun g => .hostUndefined g.landing.toNat r.length
          else [])
          { kind := 0x01#8, status := 0#8, reqId := reqIdOf e, ringPos := s.port.reqHead, slot := slot.val
            stripe := r.stripe, results := [] } cw false
      ∧ t = { s with
          port := t.port, table := t.table, act := t.act, rackUnit := t.rackUnit, fetch := t.fetch, comb := t.comb
          outputs := t.outputs }

/-- R26, R171: RETIRE frees the slot of a DELIVERED, FAULTED or LOST record and removes its notices; of any other record it is
refused WRONG_STATE. -/
def Obligations.RetireFreesATerminalRecord : Prop :=
  ∀ (e : Entry) (cw : Dma) (s₀ : State) (slot : Slot) (r : Record),
    let s := s₀.settled
    s.reading e 0x03#8 → s.lookup (stripeOf e) = some (slot, r) →
    (r.state = .delivered ∨ r.state = .faulted ∨ r.state = .lost → ∃ t, exec (.retire e cw) s₀ = .next t
      ∧ t.recAt slot = none ∧ OnlySlot s t slot
      ∧ t.table = { s.table with slots := t.table.slots, index := s.table.index.filter fun x => x.2 ≠ slot }
      ∧ t.port.notices = s.port.notices.filter (fun n => n.slot ≠ some slot)
      ∧ Answered s t [] { kind := 0x01#8, status := 0#8, reqId := reqIdOf e, ringPos := s.port.reqHead, slot := slot.val
                          stripe := r.stripe, results := [] } cw false
      ∧ t = { s with port := t.port, table := t.table, outputs := t.outputs })
    ∧ (r.state = .queued ∨ r.state = .fetching ∨ r.state = .planWait ∨ r.state = .combining →
      ∃ t, exec (.retire e cw) s₀ = .next t
        ∧ Refused s t [] e { status := .wrongState, slot := slot.val, stripe := stripeOf e, results := [] } cw false)

/-- R28, R156, R163, R164: QUERY, IDENTIFY and REPORT copy their buffer at the taking and begin its DMA write; a REPORT with
the clear flag sets the nine counters to 0. A buffer length below the block's size is refused BAD_SHAPE and nothing is
copied. -/
def Obligations.BufferRequestsCopyAtTheTaking : Prop :=
  ∀ (e : Entry) (cw : Dma) (s₀ : State),
    let s := s₀.settled
    let taken (job : BufferJob) : RequestPort :=
      { s.port with reqHead := (s.port.reqHead + 1) % 2 ^ s.port.reqSize, intake := .writing job }
    (∀ slot r, s.reading e 0x04#8 → s.lookup (stripeOf e) = some (slot, r) →
      (824 ≤ lengthOf e → exec (.query e cw) s₀ = .next { s with
        port := taken
          ({ reqId := reqIdOf e, ringPos := s.port.reqHead, slot := slot.val, stripe := r.stripe, addr := addressOf e
             bytes := s.snapshot slot r, restore := none }) })
      ∧ (lengthOf e < 824 → ∃ t, exec (.query e cw) s₀ = .next t
        ∧ Refused s t [] e { status := .badShape, slot := slot.val, stripe := stripeOf e, results := [] } cw s.port.quiesce))
    ∧ (s.reading e 0x12#8 →
      (16 ≤ lengthOf e → exec (.identify e cw) s₀ = .next { s with
        port := taken
          ({ reqId := reqIdOf e, ringPos := s.port.reqHead, slot := 0, stripe := 0, addr := addressOf e
             bytes := identifyBlock, restore := none }) })
      ∧ (lengthOf e < 16 → ∃ t, exec (.identify e cw) s₀ = .next t
        ∧ Refused s t [] e { status := .badShape, slot := 0, stripe := 0, results := [] } cw s.port.quiesce))
    ∧ (s.reading e 0x13#8 →
      (128 ≤ lengthOf e → exec (.report e cw) s₀ = .next { s with
        port := taken
          ({ reqId := reqIdOf e, ringPos := s.port.reqHead, slot := 0, stripe := 0, addr := addressOf e
             bytes := s.reportBlock, restore := if clearFlagOf e then some s.counters else none })
        counters := if clearFlagOf e then State.reset.counters else s.counters })
      ∧ (lengthOf e < 128 → ∃ t, exec (.report e cw) s₀ = .next t
        ∧ Refused s t [] e { status := .badShape, slot := 0, stripe := 0, results := [] } cw s.port.quiesce))

/-! ## Priority, racks and the part as a whole -/

/-- R41: REPRIORITIZE sets the boost, saturated to 3, in every record state; the score follows unless the record is terminal,
a listed record stays listed, and nothing else changes. -/
def Obligations.ReprioritizeSetsTheBoost : Prop :=
  ∀ (e : Entry) (cw : Dma) (s₀ : State) (slot : Slot) (r : Record),
    let s := s₀.settled
    s.reading e 0x05#8 → s.lookup (stripeOf e) = some (slot, r) →
    ∃ t, exec (.reprioritize e cw) s₀ = .next t
      ∧ t.recAt slot = some { r with
          boost := min (byteAt e.toList 24).toNat 3
          score := if r.state = .delivered ∨ r.state = .faulted ∨ r.state = .lost then r.score
            else (3 - r.margin).toNat * 64 + min (byteAt e.toList 24).toNat 3 * 16 + r.age }
      ∧ OnlySlot s t slot
      ∧ (∀ a, a ∈ t.act.ready ↔ a ∈ s.act.ready)
      ∧ Answered s t [] { kind := 0x01#8, status := 0#8, reqId := reqIdOf e, ringPos := s.port.reqHead, slot := slot.val
                          stripe := r.stripe
                          results := [BitVec.ofNat 8 (min (byteAt e.toList 24).toNat 3)] } cw false
      ∧ t.port.notices = s.port.notices
      ∧ t = { s with
          port := t.port, table := { s.table with slots := t.table.slots }, act := { s.act with ready := t.act.ready }
          outputs := t.outputs }

/-- R57, R62, R166: RACK_DOWN of an UP rack makes it DOWN, adds it to the down set and the waiting list, starts the sweep at
slot 0 or lengthens it by a full lap from its position, and defers its answer; no record is touched. That the reservation ends
at the taking (R166 against R156) is the model's choice (log entry 38). -/
def Obligations.RackDownStartsOrLengthensTheSweep : Prop :=
  ∀ (e : Entry) (cw : Dma) (s₀ : State),
    let s := s₀.settled
    let k := byteAt e.toList 24
    s.reading e 0x06#8 → (s.rackAt k).down = false →
    ∃ t, exec (.rackDown e cw) s₀ = .next t
      ∧ t.rackAt k = { s.rackAt k with down := true } ∧ OnlyRack s t k
      ∧ t.rackUnit.sweep =
          { running := true, downSet := s.rackUnit.sweep.downSet ++ [k]
            position := if s.rackUnit.sweep.running then s.rackUnit.sweep.position else 0
            endPoint := if s.rackUnit.sweep.running then s.rackUnit.sweep.position else 2048
            wrapMark := s.rackUnit.sweep.running
            waiting := s.rackUnit.sweep.waiting ++ [(reqIdOf e, k)] }
      ∧ t = { s with
          rackUnit := t.rackUnit
          port := { s.port with
            reqHead := (s.port.reqHead + 1) % 2 ^ s.port.reqSize, intake := .idle, quiesce := false } }

/-- R57 to R59: RACK_DOWN of a DOWN rack completes OK and changes nothing; RACK_UP is refused SWEEP_ACTIVE while a running
sweep has the rack in its down set, and makes it UP otherwise; RACK_CLASS stores the class, a code above 3 taken as HALTED.
Credit, outstanding count and every record stay. -/
def Obligations.RackUpAndClass : Prop :=
  ∀ (e : Entry) (cw : Dma) (s₀ : State),
    let s := s₀.settled
    let k := byteAt e.toList 24
    let ok (results : List Byte) : CplEntry :=
      { kind := 0x01#8, status := 0#8, reqId := reqIdOf e, ringPos := s.port.reqHead, slot := 0, stripe := 0, results }
    let inSweep : Prop := s.rackUnit.sweep.running = true ∧ k ∈ s.rackUnit.sweep.downSet
    (s.reading e 0x06#8 → (s.rackAt k).down = true → ∃ t, exec (.rackDown e cw) s₀ = .next t
      ∧ Answered s t [] (ok [k, 1#8, (s.rackAt k).cls.code]) cw false
      ∧ t.port.notices = s.port.notices ∧ t = { s with port := t.port, outputs := t.outputs })
    ∧ (s.reading e 0x07#8 → inSweep → ∃ t, exec (.rackUp e cw) s₀ = .next t
      ∧ Refused s t [] e { status := .sweepActive, slot := 0, stripe := 0, results := [] } cw false)
    ∧ (s.reading e 0x07#8 → ¬ inSweep → ∃ t, exec (.rackUp e cw) s₀ = .next t
      ∧ t.rackAt k = { s.rackAt k with down := false } ∧ OnlyRack s t k
      ∧ Answered s t [] (ok [k, 0#8, (s.rackAt k).cls.code]) cw false
      ∧ t.port.notices = s.port.notices
      ∧ t = { s with
          port := t.port, outputs := t.outputs, rackUnit := { s.rackUnit with racks := t.rackUnit.racks } })
    ∧ (s.reading e 0x08#8 → ∃ t cls, exec (.rackClass e cw) s₀ = .next t
      ∧ BudgetClass.code cls = (if (byteAt e.toList 25).toNat ≤ 3 then byteAt e.toList 25 else 3#8)
      ∧ t.rackAt k = { s.rackAt k with cls } ∧ OnlyRack s t k
      ∧ Answered s t [] (ok [k, if (s.rackAt k).down then 1#8 else 0#8, cls.code]) cw false
      ∧ t.port.notices = s.port.notices
      ∧ t = { s with
          port := t.port, outputs := t.outputs, rackUnit := { s.rackUnit with racks := t.rackUnit.racks } })

/-- R159: QUIESCE sets the flag and answers the OPEN contexts and whether a pass is in flight. R160: each of the twelve
state-changing requests clears it at its taking, accepted or refused; QUERY, IDENTIFY and REPORT leave it. That the completion of
QUIESCE carries the number of OPEN contexts (R159 against R101) is the model's choice (log entry 34). -/
def Obligations.QuiesceFlag : Prop :=
  ∀ (e : Entry) (block : List Byte) (cw : Dma) (s₀ : State),
    let s := s₀.settled
    (s.reading e 0x10#8 → ∃ t, exec (.quiesce e cw) s₀ = .next t
      ∧ Answered s t [] { kind := 0x01#8, status := 0#8, reqId := reqIdOf e, ringPos := s.port.reqHead, slot := 0, stripe := 0
                          results := leBytes 2 s.openCtxs ++ [if s.comb.pass.isSome then 1#8 else 0#8] } cw true
      ∧ t.port.notices = s.port.notices ∧ t = { s with port := t.port, outputs := t.outputs })
    ∧ (∀ c op, (c, op) ∈ [(Instr.openRecord e block cw, 0x01#8), (.cancel e cw, 0x02#8), (.retire e cw, 0x03#8),
          (.reprioritize e cw, 0x05#8), (.rackDown e cw, 0x06#8), (.rackUp e cw, 0x07#8), (.rackClass e cw, 0x08#8),
          (.hold e cw, 0x09#8), (.release e cw, 0x0A#8), (.amend e cw, 0x0B#8), (.replan e block cw, 0x0C#8),
          (.setParams e block cw, 0x11#8)] →
        s.reading e op → ∃ t, exec c s₀ = .next t ∧ t.port.quiesce = false ∧ t.port.intake = .idle)
    ∧ (∀ c op, (c, op) ∈ [(Instr.query e cw, 0x04#8), (.identify e cw, 0x12#8), (.report e cw, 0x13#8)] →
        s.reading e op → ∃ t, exec c s₀ = .next t ∧ t.port.quiesce = s.port.quiesce)

/-- R38, R74, R161, R162: SET_PARAMS brings each value into its range and stores every setting; a lowered bucket depth clamps
every credit, a changed stall period code restarts every timer, and nothing else of a record or a rack changes. A short block
length is refused BAD_SHAPE and a failed read HOST_FAULT. -/
def Obligations.SetParamsStoresTheSettings : Prop :=
  ∀ (e : Entry) (block : List Byte) (cw : Dma) (s₀ : State),
    let s := s₀.settled
    let given := readSettings (block.take 80)
    let bring (lo hi x : Nat) : Nat := if x < lo then lo else if hi < x then hi else x
    let stored : Settings :=
      { given with
        spanCode := bring 1 16 given.spanCode, idleTimeout := bring 1 255 given.idleTimeout
        retryLimit := bring 0 7 given.retryLimit, stallCode := given.stallCode, baseRate := bring 1 64 given.baseRate
        outLimit := bring 1 32 given.outLimit, bucketDepth := bring 1 4095 given.bucketDepth
        reserve := bring 0 1024 given.reserve, busyFloor := bring 1 100 given.busyFloor }
    s.reading e 0x11#8 →
    (80 ≤ lengthOf e → 80 ≤ block.length → ∃ t changed, exec (.setParams e block cw) s₀ = .next t
      ∧ t.settings = stored ∧ changed < 512
      ∧ (∀ i x y, (x, y, i) ∈ [(given.spanCode, stored.spanCode, 0), (given.idleTimeout, stored.idleTimeout, 1),
            (given.retryLimit, stored.retryLimit, 2), (given.stallCode, stored.stallCode, 3),
            (given.baseRate, stored.baseRate, 4), (given.outLimit, stored.outLimit, 5),
            (given.bucketDepth, stored.bucketDepth, 6), (given.reserve, stored.reserve, 7),
            (given.busyFloor, stored.busyFloor, 8)] → Nat.testBit changed i = decide (x ≠ y))
      ∧ (∀ k, t.rackAt k = { s.rackAt k with
          credit := if stored.bucketDepth < s.settings.bucketDepth then
              min (s.rackAt k).credit (stored.bucketDepth * 32)
            else (s.rackAt k).credit })
      ∧ (∀ a, t.recAt a = (s.recAt a).map fun r => { r with
          stall := if stored.stallCode = s.settings.stallCode then r.stall
            else if (r.state = .queued ∨ r.state = .fetching) ∧ r.hold = .none then freshPeriod stored.stallCode s.now
            else none })
      ∧ Answered s t [.hostRead (addressOf e).toNat 80]
          { kind := 0x01#8, status := 0#8, reqId := reqIdOf e, ringPos := s.port.reqHead, slot := 0, stripe := 0
            results := leBytes 2 changed } cw false
      ∧ t.port.notices = s.port.notices
      ∧ t = { s with
          port := t.port, outputs := t.outputs, settings := stored
          rackUnit := { s.rackUnit with racks := t.rackUnit.racks }
          table := { s.table with slots := t.table.slots } })
    ∧ (lengthOf e < 80 → ∃ t, exec (.setParams e block cw) s₀ = .next t
      ∧ Refused s t [] e { status := .badShape, slot := 0, stripe := 0, results := [] } cw false)
    ∧ (80 ≤ lengthOf e → block.length < 80 → ∃ t, exec (.setParams e block cw) s₀ = .next t
      ∧ Refused s t [.hostRead (addressOf e).toNat 80] e { status := .hostFault, slot := 0, stripe := 0, results := [] }
          cw false)

/-! ## HOLD, RELEASE, AMEND and REPLAN -/

/-- R127: HOLD of a record with hold NONE is granted at once, or REQUESTED with its answer deferred in COMBINING; it is
refused WRONG_STATE on any other hold. That the reservation of a deferred HOLD ends at the taking (R166 against R156) is the
model's choice (log entry 38). -/
def Obligations.HoldIsGrantedOrRequested : Prop :=
  ∀ (e : Entry) (cw : Dma) (s₀ : State) (slot : Slot) (r : Record),
    let s := s₀.settled
    s.reading e 0x09#8 → s.lookup (stripeOf e) = some (slot, r) →
    (r.hold ≠ .none → ∃ t, exec (.hold e cw) s₀ = .next t
      ∧ Refused s t [] e { status := .wrongState, slot := slot.val, stripe := stripeOf e, results := [] } cw false)
    ∧ (r.hold = .none → r.state = .combining → ∃ t, exec (.hold e cw) s₀ = .next t
      ∧ t.recAt slot = some { r with hold := .requested (reqIdOf e) } ∧ OnlySlot s t slot
      ∧ t = { s with
          table := { s.table with slots := t.table.slots }
          port := { s.port with
            reqHead := (s.port.reqHead + 1) % 2 ^ s.port.reqSize, intake := .idle, quiesce := false } })
    ∧ (r.hold = .none → r.state ≠ .combining → ∃ t, exec (.hold e cw) s₀ = .next t
      ∧ t.recAt slot = some { r with hold := .granted, stall := none } ∧ OnlySlot s t slot
      ∧ t.act.ready = (if r.state = .queued then s.act.ready.filter (· ≠ slot) else s.act.ready)
      ∧ Answered s t [] { kind := 0x01#8, status := 0#8, reqId := reqIdOf e, ringPos := s.port.reqHead, slot := slot.val
                          stripe := r.stripe, results := [2#8, r.state.code] } cw false
      ∧ t.port.notices = s.port.notices
      ∧ t = { s with
          port := t.port, outputs := t.outputs, table := { s.table with slots := t.table.slots }
          act := { s.act with ready := t.act.ready } })

/-- R13, R130: RELEASE of a hold that is not NONE makes it NONE; a QUEUED record joins the Ready List with a fresh stall
period, and a FETCHING one enters COMBINING when its selected survivors are all STAGED and starts a fresh stall period
otherwise. It is refused WRONG_STATE on NONE. -/
def Obligations.ReleaseEndsTheHold : Prop :=
  ∀ (e : Entry) (cw : Dma) (s₀ : State) (slot : Slot) (r : Record),
    let s := s₀.settled
    s.reading e 0x0A#8 → s.lookup (stripeOf e) = some (slot, r) →
    (r.hold = .none → ∃ t, exec (.release e cw) s₀ = .next t
      ∧ Refused s t [] e { status := .wrongState, slot := slot.val, stripe := stripeOf e, results := [] } cw false)
    ∧ (r.hold ≠ .none → ∃ t r', exec (.release e cw) s₀ = .next t
      ∧ t.recAt slot = some r' ∧ OnlySlot s t slot
      ∧ (if r.hold = .granted ∧ r.state = .fetching ∧ (∀ p ∈ r.plan, ∃ v, r.survs[p]? = some v ∧ v.state = .staged) then
          r' = { r with hold := .none, state := .combining, stall := none }
          ∧ t.act = s.act ∧ t.comb = { s.comb with queue := s.comb.queue ++ [slot] }
        else if r.hold = .granted ∧ r.state = .fetching then
          r' = { r with hold := .none, stall := freshPeriod s.settings.stallCode s.now } ∧ t.act = s.act ∧ t.comb = s.comb
        else if r.hold = .granted ∧ r.state = .queued then
          r' = { r with hold := .none, stall := freshPeriod s.settings.stallCode s.now }
          ∧ (∀ a, a ∈ t.act.ready ↔ a = slot ∨ a ∈ s.act.ready)
          ∧ t.act = { s.act with ready := t.act.ready } ∧ t.comb = s.comb
        else r' = { r with hold := .none } ∧ t.act = s.act ∧ t.comb = s.comb)
      ∧ Answered s t [] { kind := 0x01#8, status := 0#8, reqId := reqIdOf e, ringPos := s.port.reqHead, slot := slot.val
                          stripe := r.stripe, results := [r.hold.code, r'.state.code] } cw false
      ∧ t.port.notices = s.port.notices
      ∧ t = { s with
          port := t.port, outputs := t.outputs, table := { s.table with slots := t.table.slots }, act := t.act
          comb := t.comb })

/-- R17, R132, R133: an accepted AMEND sets the survivor at its position, or adds one at position s, AVAILABLE or GONE by its
new rack; then the margin is recomputed and the outcome decided in the same step, and the completion shows the record as it
then stands. R30: which survivors are usable, the margin their states give, and when a selected survivor is FAILED or GONE. That a
re-pointed survivor that was GONE and stays GONE counts as made GONE is DEDUCED (log entry 19). That the completion is written
before a notice that the AMEND places (R167) is the model's choice (log entry 39). -/
def Obligations.AmendSetsTheSurvivor : Prop :=
  (∀ v : Survivor, v.usable = true ↔ v.state = .available ∨ v.state = .pulling ∨ v.state = .staged)
  ∧ (∀ r : Record,
      r.freshMargin = ((r.survs.filter fun v =>
        v.state = .available ∨ v.state = .pulling ∨ v.state = .staged).length : Int) - r.k
      ∧ (∀ pos, r.selected pos = true ↔ pos ∈ r.plan)
      ∧ (r.selectedLost = true ↔
          ∃ p v, p ∈ r.plan ∧ r.survs[p]? = some v ∧ ((∃ reason, v.state = .failed reason) ∨ v.state = .gone)))
  ∧ ∀ (e : Entry) (cw : Dma) (s₀ : State) (slot : Slot) (r : Record),
    let s := s₀.settled
    let pos := (byteAt e.toList 24).toNat
    let frag := (byteAt e.toList 25).toNat
    let k := byteAt e.toList 26
    let gone := (s.rackAt k).down
    let addr : NetAddr := BitVec.ofNat 128 (beAt e.toList 32 16)
    let svc : BitVec 16 := BitVec.ofNat 16 (beAt e.toList 28 2)
    s.reading e 0x0B#8 → s.lookup (stripeOf e) = some (slot, r) → r.hold = .granted →
    (r.state = .queued ∨ r.state = .fetching ∨ r.state = .planWait) →
    ∀ r₁ : Record,
      ((pos = r.s ∧ r.s < r.n - r.t ∧ frag < r.n ∧ (∀ v ∈ r.survs, v.frag ≠ frag) ∧ (∀ g ∈ r.targets, g.frag ≠ frag)
        ∧ r₁ = { r with
            survs := r.survs ++
              [{ frag, rack := k, addr, svc, state := if gone then .gone else .available, staging := none, retries := 0
                 holdoff := none, faultOffset := none }] })
      ∨ ∃ v, pos < r.s ∧ r.survs[pos]? = some v ∧ v.state ≠ .pulling ∧ v.state ≠ .staged
        ∧ r₁ = { r with
            survs := r.survs.set pos { v with
              rack := k, addr, svc, state := if gone then .gone else .available, retries := 0, holdoff := none
              faultOffset := none
              staging := if v.state = .available ∧ gone = false then v.staging else v.uncover.staging } }) →
      ∃ u t' t r₂, exec (.amend e cw) s₀ = .next t
        ∧ OnlySlot s u slot ∧ u.recAt slot = some r₁
        ∧ VerifyCleared s u (if gone then ((r.survs[pos]?).bind (·.slab)).toList else [])
        ∧ u = { s with
            port := { s.port with quiesce := false }, table := { s.table with slots := u.table.slots }
            fetch := { s.fetch with verify := u.fetch.verify } }
        ∧ Reckoned u t' slot r₁ (gone && r.selected pos)
        ∧ t.recAt slot = some r₂
        ∧ Answered s t [] { kind := 0x01#8, status := 0#8, reqId := reqIdOf e, ringPos := s.port.reqHead, slot := slot.val
                            stripe := r.stripe
                            results := [0#8, r₂.state.code,
                            if r₂.margin < 0 then 0xFF#8 else BitVec.ofNat 8 r₂.margin.toNat, BitVec.ofNat 8 r₂.s] }
            cw false
        ∧ t.port.notices = t'.port.notices ∧ t = { t' with port := t.port, outputs := t.outputs }

/-- R131, R122: the tests of AMEND, and those of REPLAN with its block's read first, in their order; the first that fails
gives the status, and nothing changes apart from the quiesce flag. R173: the size of a Plan Block. -/
def Obligations.AmendAndReplanRefusals : Prop :=
  (∀ b : List Byte, planBlockSize b =
     8 + ((byteAt b 0).toNat + 7) / 8 * 8 + ((byteAt b 1).toNat * (byteAt b 0).toNat + 7) / 8 * 8)
  ∧ (∀ (e : Entry) (cw : Dma) (s₀ : State) (slot : Slot) (r : Record) (st : Status),
     let s := s₀.settled
     let pos := (byteAt e.toList 24).toNat
     let frag := (byteAt e.toList 25).toNat
     s.reading e 0x0B#8 → s.lookup (stripeOf e) = some (slot, r) →
     ((if r.hold ≠ .granted then some .notHeld
       else if r.state ≠ .queued ∧ r.state ≠ .fetching ∧ r.state ≠ .planWait then some .wrongState
       else if r.s < pos ∨ (pos = r.s ∧ ¬ r.s < r.n - r.t) then some .badShape
       else if pos = r.s ∧ (r.n ≤ frag ∨ (∃ v ∈ r.survs, v.frag = frag) ∨ (∃ g ∈ r.targets, g.frag = frag)) then
         some .badShape
       else if ∃ v, r.survs[pos]? = some v ∧ (v.state = .pulling ∨ v.state = .staged) then some .wrongState
       else none) = some st) →
     ∃ t, exec (.amend e cw) s₀ = .next t
       ∧ Refused s t [] e { status := st, slot := slot.val, stripe := stripeOf e, results := [] } cw false)
  ∧ (∀ (e : Entry) (block : List Byte) (cw : Dma) (s₀ : State) (slot : Slot) (r : Record) (st : Status),
       let s := s₀.settled
       let b := block.take (planBlockSize block)
       let plan := (List.range r.k).map fun i => (byteAt b (8 + i)).toNat
       s.reading e 0x0C#8 → s.lookup (stripeOf e) = some (slot, r) →
       ((if lengthOf e < 8 then some .badShape
         else if block.length < 8 then some .hostFault
         else if lengthOf e < planBlockSize block then some .badShape
         else if block.length < planBlockSize block then some .hostFault
         else if r.state ≠ .queued ∧ r.state ≠ .fetching ∧ r.state ≠ .planWait then some .wrongState
         else if (byteAt b 0).toNat ≠ r.k ∨ (byteAt b 1).toNat ≠ r.t then some .badShape
         else if ¬ (plan.Nodup ∧ ∀ p ∈ plan, ∃ v, r.survs[p]? = some v ∧ v.usable = true) then some .badPlan
         else none) = some st) →
       ∃ t, exec (.replan e block cw) s₀ = .next t
         ∧ Refused s t (readsBegun 8 (planBlockSize block) (lengthOf e) block.length (addressOf e).toNat)
             e { status := st, slot := slot.val, stripe := stripeOf e, results := [] } cw false)

/-- R122 to R124: an accepted REPLAN replaces the plan and its rows, frees the contexts of the dropped survivors, moves the
slabs they give up to the newly selected ones in ascending order with unmarked maps, and takes a PLAN_WAIT record to FETCHING,
or to QUEUED when it is inactive. Margin, score and age stay. -/
def Obligations.ReplanMovesTheSelection : Prop :=
  ∀ (e : Entry) (block : List Byte) (cw : Dma) (s₀ : State) (slot : Slot) (r : Record),
    let s := s₀.settled
    let b := block.take (planBlockSize block)
    let plan := (List.range r.k).map fun i => (byteAt b (8 + i)).toNat
    let newly := plan.filter (· ∉ r.plan)
    s.reading e 0x0C#8 → 8 ≤ lengthOf e → planBlockSize block ≤ lengthOf e → planBlockSize block ≤ block.length →
    s.lookup (stripeOf e) = some (slot, r) →
    (r.state = .queued ∨ r.state = .fetching ∨ r.state = .planWait) →
    (byteAt b 0).toNat = r.k → (byteAt b 1).toNat = r.t →
    plan.Nodup → (∀ p ∈ plan, ∃ v, r.survs[p]? = some v ∧ v.usable = true) →
    ∃ (t : State) (r' : Record) (given : List Slab), exec (.replan e block cw) s₀ = .next t
      ∧ given.Pairwise (· < ·)
      ∧ (∀ x, x ∈ given ↔ ∃ p v, p ∈ r.plan ∧ p ∉ plan ∧ r.survs[p]? = some v ∧ v.slab = some x)
      ∧ t.recAt slot = some r' ∧ OnlySlot s t slot
      ∧ r'.survs.length = r.survs.length
      ∧ (∀ p v, r.survs[p]? = some v →
          (p ∈ r.plan → p ∉ plan → r'.survs[p]? = some { v with
            staging := none, state := if v.state = .pulling ∨ v.state = .staged then .available else v.state })
          ∧ (∀ (j : Nat) (x : Slab), newly[j]? = some p → given[j]? = some x → r'.survs[p]? = some { v with
            staging := some { slab := x, cover := List.replicate (r.length / 512) false } })
          ∧ (∀ j : Nat, newly[j]? = some p → given[j]? = none → r'.survs[p]? = some v)
          ∧ ((p ∈ r.plan ↔ p ∈ plan) → r'.survs[p]? = some v))
      ∧ r' = { r with
          survs := r'.survs, plan
          rows := (List.range r.t).map fun j => (List.range r.k).map fun i =>
            byteAt b (8 + (r.k + 7) / 8 * 8 + j * r.k + i)
          state := if r.state = .planWait then (if r.active then .fetching else .queued) else r.state
          stall := if r.state = .planWait then
              (if r.hold = .none then freshPeriod s.settings.stallCode s.now else none)
            else r.stall }
      ∧ ContextsFreed s t (fun c => c.slot == slot && decide (c.pos ∈ r.plan ∧ c.pos ∉ plan))
      ∧ VerifyCleared s t given
      ∧ (∀ a, a ∈ t.act.ready ↔ a ∈ s.act.ready ∨
          (a = slot ∧ r.state = .planWait ∧ r.active = false ∧ r.hold = .none))
      ∧ Answered s t
          (readsBegun 8 (planBlockSize block) (lengthOf e) block.length (addressOf e).toNat)
          { kind := 0x01#8, status := 0#8, reqId := reqIdOf e, ringPos := s.port.reqHead, slot := slot.val
            stripe := r.stripe, results := [0#8, r'.state.code] } cw false
      ∧ t.port.notices = s.port.notices
      ∧ t = { s with
          port := t.port, outputs := t.outputs, table := { s.table with slots := t.table.slots }
          act := { s.act with ready := t.act.ready }, rackUnit := t.rackUnit, fetch := t.fetch }

/-! ## The arbiters and the timers -/

/-- R36, R44, R45, R47: ACTIVATION decides on the head of the Ready List alone: it is activated when F − C is k or more, or at
margin 0 when F is k or more, and takes the k lowest free slabs for its selected survivors in plan order; otherwise nothing
happens. R48, R80, R81, R82, R139, R144, R156: what the other events find done: from any state the arbiters take ACTIVATION,
PASS_START and ISSUE steps until the list is empty or its head waits, no pass can start and no candidate passes, and then an
intake that can begin does. That activations come before the start of a pass, and that before the issues, is the model's choice
(log entry 37). -/
def Obligations.ActivationAndServedArbiters : Prop :=
  (∀ s : State, s.act.ready = [] → exec .activation s = .next s)
  ∧ (∀ s : State,
    let waits (u : State) : Prop := ∀ slot rest r, u.act.ready = slot :: rest → u.recAt slot = some r →
      u.act.free.length < r.k + u.settings.reserve ∧ (r.margin ≠ 0 ∨ u.act.free.length < r.k)
    let u := s.arbitersServed
    waits u ∧ exec .activation u = .next u ∧ exec .passStart u = .next u ∧ exec .issue u = .next u
    ∧ exec .intakeReservation u = .next s.settled)
  ∧ (∀ s t : State,
    (exec .activation s = .next t → s.arbitersServed = t.arbitersServed)
    ∧ (exec .activation s = .next s → exec .passStart s = .next t → s.arbitersServed = t.arbitersServed)
    ∧ (exec .activation s = .next s → exec .passStart s = .next s → exec .issue s = .next t →
      s.arbitersServed = t.arbitersServed)
    ∧ (exec .activation s = .next s → exec .passStart s = .next s → exec .issue s = .next s → s.arbitersServed = s))
  ∧ ∀ (s : State) (slot : Slot) (rest : List Slot) (r : Record),
    s.act.ready = slot :: rest → s.recAt slot = some r →
    (r.plan.Nodup → r.plan.length = r.k →
      (r.k + s.settings.reserve ≤ s.act.free.length ∨ (r.margin = 0 ∧ r.k ≤ s.act.free.length)) →
      ∃ t r', exec .activation s = .next t
        ∧ t.recAt slot = some r' ∧ OnlySlot s t slot
        ∧ r'.survs.length = r.survs.length
        ∧ (∀ (i p : Nat) (v : Survivor), r.plan[i]? = some p → r.survs[p]? = some v → ∃ x : Slab, s.act.free[i]? = some x
            ∧ r'.survs[p]? = some { v with
              staging := some { slab := x, cover := List.replicate (r.length / 512) false } })
        ∧ (∀ (p : Nat) (v : Survivor), p ∉ r.plan → r.survs[p]? = some v → r'.survs[p]? = some v)
        ∧ r' = { r with
            survs := r'.survs, active := true, state := .fetching, age := 0
            score := (3 - r.margin).toNat * 64 + r.boost * 16
            stall := if r.hold = .none then freshPeriod s.settings.stallCode s.now else none }
        ∧ t.act = { ready := s.act.ready.filter (· ≠ slot), free := s.act.free.drop r.k }
        ∧ VerifyCleared s t (s.act.free.take r.k)
        ∧ t = { s with
            table := { s.table with slots := t.table.slots }, act := t.act
            fetch := { s.fetch with verify := t.fetch.verify } })
    ∧ (s.act.free.length < r.k + s.settings.reserve → (r.margin ≠ 0 ∨ s.act.free.length < r.k) →
      exec .activation s = .next s)

/-- R75, R76, R78 to R81, R84, R87, R90, R92, R102, R103, R110: ISSUE with the part's gates open issues the first candidate of
the record order and of its plan order whose rack gates are open: it opens the lowest FREE context, charges the rack the whole
cost, and hands the PULL to the port that R90 chooses. The record's state, age, score and stall timer stay. Nothing is issued
while the quiesce flag is set, no context is FREE, both links are down, or no survivor is a candidate with open rack gates.
That a holdoff whose time has passed is absent after the issue is DEDUCED (log entry 18). -/
def Obligations.IssuePullsTheFirstCandidateOrWaits : Prop :=
  (∀ (s : State) (tag : Tag) (slot : Slot) (r : Record) (pos i : Nat) (v : Survivor),
     s.port.quiesce = false → (s.fetch.port0.linkUp = true ∨ s.fetch.port1.linkUp = true) →
     s.ctxAt tag = none → (∀ u, u < tag → s.ctxAt u ≠ none) →
     s.MayPull slot r pos v → r.plan[i]? = some pos →
     (∀ (j q : Nat) w, j < i → r.plan[j]? = some q → ¬ s.MayPull slot r q w) →
     (∀ b rb q w, s.MayPull b rb q w → b = slot ∨ rb.score < r.score ∨ (rb.score = r.score ∧ r.order < rb.order)) →
     let port : PortNo :=
       if v.rack.toNat % 2 = 0 then (if s.fetch.port0.linkUp then .p0 else .p1)
       else (if s.fetch.port1.linkUp then .p1 else .p0)
     let start := (match v.staging with
       | none => 0
       | some h => h.cover.findIdx fun b => !b) * 512
     let verify := match v.staging with
       | none => false
       | some h => s.verifyAt h.slab
     ∃ t, exec .issue s = .next t
       ∧ t.recAt slot = some { r with survs := r.survs.set pos { v with state := .pulling, holdoff := none } }
       ∧ OnlySlot s t slot
       ∧ (∀ u, t.ctxAt u = if u = tag then
             some { slot, pos, port, serial := s.fetch.pullSerial, start, span := s.settings.spanCode * 512, verify
                    badCheck := false, deadline := s.now + s.settings.idleTimeout * 1000 }
           else s.ctxAt u)
       ∧ t.rackAt v.rack = { s.rackAt v.rack with
           credit := (s.rackAt v.rack).credit - ((r.length - start + 4095) / 4096 * 32 : Nat)
           outstanding := (s.rackAt v.rack).outstanding + 1 }
       ∧ OnlyRack s t v.rack
       ∧ t.portAt port = { s.portAt port with
           queue := (s.portAt port).queue ++ [{
             addr := v.addr, svc := v.svc
             message := pullMessage tag s.fetch.pullSerial r.stripe v.frag start (r.length - start)
               (s.settings.spanCode * 512) (decide (r.margin = 0)) verify }] }
       ∧ (∀ q, q ≠ port → t.portAt q = s.portAt q)
       ∧ t = { s with
           table := { s.table with slots := t.table.slots }, rackUnit := { s.rackUnit with racks := t.rackUnit.racks }
           fetch := { s.fetch with
             ctxs := t.fetch.ctxs, pullSerial := s.fetch.pullSerial + 1, port0 := t.fetch.port0, port1 := t.fetch.port1 }
           counters := { s.counters with pullsSent := satAdd s.counters.pullsSent 1 } })
  ∧ (∀ s : State,
       (s.port.quiesce = true ∨ (∀ tag, s.ctxAt tag ≠ none)
         ∨ (s.fetch.port0.linkUp = false ∧ s.fetch.port1.linkUp = false)
         ∨ (∀ slot r pos v, ¬ s.MayPull slot r pos v)) →
       exec .issue s = .next s)

/-- R71, R72: at REFILL every rack's credit rises by the base rate times its class's multiplier, saturated at the cap, and the
next period starts. That the event comes by a command at or after the deadline, and that the next period counts from that
deadline, is the model's reading (log entry 4). -/
def Obligations.RefillRaisesEveryCredit : Prop :=
  ∀ s₀ : State,
    let s := s₀.settled
    s.refillAt ≤ s.now →
    ∃ t, exec .refill s₀ = .next t
      ∧ (∀ k, t.rackAt k = { s.rackAt k with
          credit := min
            ((s.rackAt k).credit + (s.settings.baseRate * (match (s.rackAt k).cls with
              | .full => 32
              | .reduced => 8
              | .trickle => 1
              | .halted => 0) : Nat))
            (s.settings.bucketDepth * 32) })
      ∧ t = { s with refillAt := s.refillAt + 100, rackUnit := { s.rackUnit with racks := t.rackUnit.racks } }

/-- R37: the stall period of each code, in µs. R35, R39: at STALL_EXPIRY of a running timer whose period has ended the age
rises by one, 15 at most, a fresh period starts and the score follows; a listed record stays listed. R84: at HOLDOFF_EXPIRY of
a holdoff whose time has passed, the holdoff-until time becomes absent, and nothing else changes. The fresh period counts from
the step that processes the expiry (log entry 30). -/
def Obligations.TimersExpire : Prop :=
  (stallPeriod 0 = none
   ∧ (∀ c, 1 ≤ c → c ≤ 200 → stallPeriod c = some (c * 10 * 1000))
   ∧ (∀ c, 201 ≤ c → c ≤ 250 → stallPeriod c = some ((c - 200) * 1000 * 1000))
   ∧ stallPeriod 251 = some (75 * 1000 * 1000) ∧ stallPeriod 252 = some (2 * 60 * 1000 * 1000)
   ∧ stallPeriod 253 = some (5 * 60 * 1000 * 1000) ∧ stallPeriod 254 = some (20 * 60 * 1000 * 1000)
   ∧ stallPeriod 255 = some (60 * 60 * 1000 * 1000))
  ∧ (∀ (s₀ : State) (slot : Slot) (r : Record) (ends : Nat),
       let s := s₀.settled
       s.recAt slot = some r → r.stall = some ends → ends ≤ s.now →
       ∃ t, exec (.stallExpiry slot) s₀ = .next t
         ∧ t.recAt slot = some { r with
             age := min 15 (r.age + 1), stall := freshPeriod s.settings.stallCode s.now
             score := (3 - r.margin).toNat * 64 + r.boost * 16 + min 15 (r.age + 1) }
         ∧ OnlySlot s t slot
         ∧ (∀ a, a ∈ t.act.ready ↔ a ∈ s.act.ready)
         ∧ t = { s with
             table := { s.table with slots := t.table.slots }, act := { s.act with ready := t.act.ready } })
  ∧ (∀ (s₀ : State) (slot : Slot) (r : Record) (pos : Nat) (v : Survivor) (ends : Nat),
       let s := s₀.settled
       s.recAt slot = some r → r.survs[pos]? = some v → v.holdoff = some ends → ends ≤ s.now →
       ∃ t, exec (.holdoffExpiry slot pos) s₀ = .next t
         ∧ t.recAt slot = some { r with survs := r.survs.set pos { v with holdoff := none } } ∧ OnlySlot s t slot
         ∧ t = { s with table := { s.table with slots := t.table.slots } })

/-! ## The fabric -/

/-- R105 to R107: the three tests of a SPAN. A stale or malformed SPAN raises its counter and changes nothing else; one with a
bad check raises its counter and sets the context's bad-check mark. -/
def Obligations.SpanTestsDiscard : Prop :=
  ∀ (p : PortNo) (f m : List Byte) (s₀ : State),
    let s := s₀.settled
    s.receive p f = .span m →
    (s.ctxAt (messageTag m) = none
        ∨ (∃ c, s.ctxAt (messageTag m) = some c ∧ c.serial ≠ messageSerial m)
        ∨ (∃ c r v, s.ctxAt (messageTag m) = some c ∧ s.recAt c.slot = some r ∧ r.survs[c.pos]? = some v
            ∧ (s.rackAt v.rack).down = true) →
      exec (.spanArrival p f) s₀ =
        .next { s with counters := { s.counters with stale := satAdd s.counters.stale 1 } })
    ∧ ∀ c r v, s.ctxAt (messageTag m) = some c → c.serial = messageSerial m → s.recAt c.slot = some r →
      r.survs[c.pos]? = some v → (s.rackAt v.rack).down = false →
      let len := beAt m 12 2
      let bad := m.length < 20 ∨ len ≠ m.length - 20 ∨ len % 512 ≠ 0 ∨ len < 512 ∨ 8192 < len
        ∨ beAt m 8 4 % 512 ≠ 0 ∨ r.length < beAt m 8 4 + len
      (bad → exec (.spanArrival p f) s₀ =
        .next { s with counters := { s.counters with malformed := satAdd s.counters.malformed 1 } })
      ∧ (¬ bad → (check (m.drop 20)).toNat ≠ beAt m 16 4 → ∃ t, exec (.spanArrival p f) s₀ = .next t
        ∧ (∀ u, t.ctxAt u = if u = messageTag m then some { c with badCheck := true } else s.ctxAt u)
        ∧ t = { s with
            fetch := { s.fetch with ctxs := t.fetch.ctxs }
            counters := { s.counters with badCheck := satAdd s.counters.badCheck 1 } })

/-- R13, R36, R108, R109: an accepted SPAN is written into the survivor's slab at its offset and marks its granules. While
some granule is unmarked the context's deadline restarts and nothing else changes; when none is, the survivor is STAGED, its
context freed and the slab's verify mark cleared, and its record enters COMBINING or restarts a running stall timer. -/
def Obligations.SpanIsAcceptedAndStages : Prop :=
  ∀ (p : PortNo) (f m : List Byte) (s₀ : State) (c : Ctx) (r : Record) (v : Survivor) (h : Staging),
    let s := s₀.settled
    s.receive p f = .span m →
    s.ctxAt (messageTag m) = some c → c.serial = messageSerial m → s.recAt c.slot = some r →
    r.survs[c.pos]? = some v → (s.rackAt v.rack).down = false → v.staging = some h →
    let off := beAt m 8 4
    let len := beAt m 12 2
    20 ≤ m.length → len = m.length - 20 → len % 512 = 0 → 512 ≤ len → len ≤ 8192 → off % 512 = 0 →
    off + len ≤ r.length → (check (m.drop 20)).toNat = beAt m 16 4 →
    let base := h.slab.val * 1048576 + off
    let cover := h.cover.mapIdx fun g marked => marked || decide (off ≤ 512 * g ∧ 512 * g < off + len)
    let v₁ : Survivor := { v with
      staging := some { h with cover }, state := if cover.all id then .staged else v.state }
    let r₁ : Record := { r with survs := r.survs.set c.pos v₁ }
    ∃ t r₂, exec (.spanArrival p f) s₀ = .next t
      ∧ (∀ a, Memory.read t.dram a =
          if base ≤ a ∧ a < base + len then byteAt m (20 + (a - base)) else Memory.read s.dram a)
      ∧ t.recAt c.slot = some r₂ ∧ OnlySlot s t c.slot
      ∧ t.counters = { s.counters with accepted := satAdd s.counters.accepted 1 }
      ∧ (if cover.all id then
          ContextEnded s t (messageTag m) v.rack ∧ VerifyCleared s t [h.slab]
          ∧ (if r.state = .fetching ∧ r.hold = .none
                ∧ (∀ q ∈ r.plan, ∃ w, r₁.survs[q]? = some w ∧ w.state = .staged) then
              r₂ = { r₁ with state := .combining, stall := none } ∧ t.comb = { s.comb with queue := s.comb.queue ++ [c.slot] }
            else if r.state = .fetching ∧ r.hold = .none ∧ r.stall.isSome = true then
              r₂ = { r₁ with stall := freshPeriod s.settings.stallCode s.now } ∧ t.comb = s.comb
            else r₂ = r₁ ∧ t.comb = s.comb)
        else
          r₂ = r₁ ∧ t.comb = s.comb ∧ t.rackUnit = s.rackUnit
          ∧ (∀ u, t.ctxAt u = if u = messageTag m then
                some { c with deadline := s.now + s.settings.idleTimeout * 1000 } else s.ctxAt u)
          ∧ t.fetch = { s.fetch with ctxs := t.fetch.ctxs })
      ∧ t = { s with
          table := { s.table with slots := t.table.slots }, rackUnit := t.rackUnit, fetch := t.fetch, comb := t.comb
          counters := t.counters, dram := t.dram }

/-- R97, R98, R112 to R114, R175: an END that matches no open context, or whose status is unknown or missing, changes nothing.
One that matches ends its context: OK counts a retry, BUSY returns the survivor to AVAILABLE with a holdoff of the hint
brought into the floor to 1000 ms, and NOT_HELD and CORRUPT make it FAILED and have the margin recomputed. -/
def Obligations.EndEndsItsContext : Prop :=
  (∀ m : List Byte, endStatus m = if m.length < 16 then none else
    match (byteAt m 8).toNat with
    | 0 => some .ok
    | 1 => some .notHeld
    | 2 => some .busy
    | 3 => some .corrupt
    | _ => none)
  ∧ ∀ (p : PortNo) (f m : List Byte) (s₀ : State),
    let s := s₀.settled
    s.receive p f = .fin m →
    (endStatus m = none ∨ s.ctxAt (messageTag m) = none
        ∨ (∃ c, s.ctxAt (messageTag m) = some c ∧ c.serial ≠ messageSerial m) →
      exec (.endArrival p f) s₀ = .next s)
    ∧ ∀ c r v, s.ctxAt (messageTag m) = some c → c.serial = messageSerial m → s.recAt c.slot = some r →
      r.survs[c.pos]? = some v → (r.state = .fetching ∨ r.state = .planWait) →
      let hint := beAt m 10 2
      let ms := if hint < s.settings.busyFloor then s.settings.busyFloor else if 1000 < hint then 1000 else hint
      let lost (v' : Survivor) : Prop := ∃ u t, exec (.endArrival p f) s₀ = .next t
        ∧ WasLost s u (messageTag m) c r v v' ∧ u.counters = s.counters
        ∧ Reckoned u t c.slot { r with survs := r.survs.set c.pos v' } (r.selected c.pos)
      (endStatus m = some .ok →
        ∃ t, exec (.endArrival p f) s₀ = .next t ∧ RetryCounted s t (messageTag m) c r v)
      ∧ (endStatus m = some .busy → s.settings.busyFloor ≤ 1000 → ∃ t, exec (.endArrival p f) s₀ = .next t
        ∧ WentBack s t (messageTag m) c r v { v with state := .available, holdoff := some (s.now + ms * 1000) }
        ∧ t.counters = s.counters)
      ∧ (endStatus m = some .notHeld → lost { v.uncover with state := .failed .notHeld, holdoff := none })
      ∧ (endStatus m = some .corrupt → lost { v.uncover with
          state := .failed .corrupt, holdoff := none, faultOffset := some (BitVec.ofNat 32 (beAt m 12 4)) })

/-- R104, R116, R117: at IDLE_EXPIRY of a context whose deadline has passed the context is freed and its survivor changed by
the first case that applies: rack DOWN, port link down, quiesce flag set, otherwise. A FREE context has no expiry. A survivor
turned GONE has no margin recomputed and no notice placed, in PLAN_WAIT neither (log entry 35). (Expiry by a command at or
after the deadline: log entry 4.) -/
def Obligations.IdleExpiryTakesTheFirstCase : Prop :=
  ∀ (s₀ : State) (tag : Tag),
    let s := s₀.settled
    (s.ctxAt tag = none → exec (.idleExpiry tag) s₀ = .next s)
    ∧ ∀ c r v, s.ctxAt tag = some c → c.deadline ≤ s.now → s.recAt c.slot = some r → r.survs[c.pos]? = some v →
      (r.state = .fetching ∨ r.state = .planWait) →
      ∃ t, exec (.idleExpiry tag) s₀ = .next t
        ∧ (if (s.rackAt v.rack).down = true then
            WasLost s t tag c r v { v.uncover with state := .gone } ∧ t.counters = s.counters
          else if (s.portAt c.port).linkUp = false ∨ s.port.quiesce = true then
            WentBack s t tag c r v { v with state := .available } ∧ t.counters = s.counters
          else RetryCounted s t tag c r v)

/-- R88, R89: a port whose link is up takes a frame as a SPAN or an END exactly when its tests hold (link address, IPv6, UDP
straight behind the IPv6 header, network address, service port, a payload of 8 bytes or more, version and type); it answers a
neighbour solicitation with one advertisement and changes nothing else; a frame that fails the tests changes nothing under any
of the four commands. Each port has its own address settings. The places of the Ethernet, IPv6, UDP and ICMPv6 fields are
PRESUMED (log entry 8), as is the extent of the payload (log entry 9); that no other field is tested is DEDUCED (log entry 10),
and that the advertisement leaves in this step is the model's choice (log entry 12). -/
def Obligations.FramesAreTakenByTheirTests : Prop :=
  (∀ (p : PortNo) (f : List Byte) (s₀ : State), exec (.frameDiscard p f) s₀ = .next s₀.settled)
  ∧ (∀ s : State, s.portSettings .p0 = s.settings.port0 ∧ s.portSettings .p1 = s.settings.port1)
  ∧ ∀ (p : PortNo) (f : List Byte) (s₀ : State),
    let s := s₀.settled
    let g := s.portSettings p
    let m := (f.drop 62).take (beAt f 58 2 - 8)
    let taken (type : Byte) : Prop :=
      (s.portAt p).linkUp = true ∧ beAt f 0 6 = g.link.toNat ∧ beAt f 12 2 = 0x86DD ∧ byteAt f 20 = 17#8
      ∧ beAt f 38 16 = g.net.toNat ∧ beAt f 56 2 = g.svc.toNat ∧ 8 ≤ m.length ∧ byteAt m 0 = 1#8 ∧ byteAt m 1 = type
    let solicits : Prop :=
      (s.portAt p).linkUp = true ∧ 78 ≤ f.length
      ∧ (frameDst f = g.link ∨ frameDst f = 0x3333FF#24 ++ g.net.setWidth 24) ∧ beAt f 12 2 = 0x86DD ∧ byteAt f 20 = 58#8
      ∧ (ipDst f = g.net ∨ ipDst f = 0xFF0200000000000000000001FF#104 ++ g.net.setWidth 24)
      ∧ byteAt f 54 = 135#8 ∧ byteAt f 55 = 0#8 ∧ beAt f 62 16 = g.net.toNat
    (taken 2#8 → s.receive p f = .span m) ∧ (¬ taken 2#8 → exec (.spanArrival p f) s₀ = .next s)
    ∧ (taken 3#8 → s.receive p f = .fin m) ∧ (¬ taken 3#8 → exec (.endArrival p f) s₀ = .next s)
    ∧ (¬ solicits → exec (.neighbourSolicitation p f) s₀ = .next s)
    ∧ (frameDst f).toNat = beAt f 0 6 ∧ (ipSrc f).toNat = beAt f 22 16 ∧ (ipDst f).toNat = beAt f 38 16
    ∧ isIPv6 f = (beAt f 12 2 == 0x86DD) ∧ nextHeader f = (byteAt f 20).toNat
    ∧ (solicits →
    ∃ a, exec (.neighbourSolicitation p f) s₀ = .next { s with outputs := s.outputs ++ [.frame p a] }
      ∧ a.length = 86 ∧ frameDst a = g.nextHop ∧ beAt a 6 6 = g.link.toNat ∧ isIPv6 a = true
      ∧ field a 14 4 = [0x60#8, 0#8, 0#8, 0#8] ∧ beAt a 18 2 = 32 ∧ nextHeader a = 58 ∧ byteAt a 21 = 255#8
      ∧ ipSrc a = g.net
      ∧ ipDst a = (if ipSrc f = 0#128 then 0xFF020000000000000000000000000001#128 else ipSrc f)
      ∧ byteAt a 54 = 136#8 ∧ byteAt a 55 = 0#8
      ∧ wordSum (pseudoHeader g.net (ipDst a) 32 58 ++ a.drop 54) % 0xFFFF = 0
      ∧ byteAt a 58 = (if ipDst a = 0xFF020000000000000000000000000001#128 then 0x20#8 else 0x60#8)
      ∧ beAt a 59 3 = 0 ∧ beAt a 62 16 = g.net.toNat ∧ byteAt a 78 = 2#8 ∧ byteAt a 79 = 1#8
      ∧ beAt a 80 6 = g.link.toNat)

/-! ## The sweep -/

/-- R61 to R66: SWEEP_VISIT of a running sweep that is not at its end visits the slot at its position and advances: in a
QUEUED, FETCHING or PLAN_WAIT record every AVAILABLE or PULLING survivor on a rack of the down set becomes GONE and the margin
is recomputed; any other slot is passed over. R20: a survivor that becomes FAILED or GONE keeps its slab, with every granule
unmarked. (A position past slot 2047 with the wrap mark set passes to slot 0: DEDUCED, log
entry 17.) -/
def Obligations.SweepVisitBringsARecordUpToDate : Prop :=
  (∀ v : Survivor, v.uncover = { v with
     staging := v.staging.map fun h => { slab := h.slab, cover := List.replicate h.cover.length false } })
  ∧ ∀ (s₀ : State) (slot : Slot),
    let s := s₀.settled
    let w := s.rackUnit.sweep
    let wraps := decide (2048 ≤ w.position) && w.wrapMark
    let mark := w.wrapMark && !wraps
    let after : Sweep := { w with
      position := if slot.val + 1 = 2048 ∧ mark = true then 0 else slot.val + 1
      wrapMark := mark && decide (slot.val + 1 ≠ 2048) }
    let hit (v : Survivor) : Bool :=
      (v.state == .available || v.state == .pulling) && decide (v.rack ∈ w.downSet)
    w.running = true → ¬ (w.wrapMark = false ∧ w.position = w.endPoint) →
    slot.val = (if wraps then 0 else w.position) →
    (∀ r, s.recAt slot = some r → (r.state = .queued ∨ r.state = .fetching ∨ r.state = .planWait) →
      ∃ u t t', exec .sweepVisit s₀ = .next t
        ∧ OnlySlot s u slot
        ∧ u.recAt slot = some { r with
            survs := r.survs.map fun v => if hit v then { v.uncover with state := .gone } else v }
        ∧ ContextsFreed s u (fun c => c.slot == slot && (r.survs[c.pos]?).any hit)
        ∧ VerifyCleared s u ((r.survs.filter hit).filterMap (·.slab))
        ∧ u = { s with
            table := { s.table with slots := u.table.slots }, rackUnit := u.rackUnit, fetch := u.fetch }
        ∧ Reckoned u t' slot
            { r with survs := r.survs.map fun v => if hit v then { v.uncover with state := .gone } else v }
            (r.plan.any fun p => (r.survs[p]?).any hit)
        ∧ t = { t' with rackUnit := { t'.rackUnit with sweep := after } })
    ∧ ((∀ r, s.recAt slot = some r →
          r.state = .combining ∨ r.state = .delivered ∨ r.state = .faulted ∨ r.state = .lost) →
      exec .sweepVisit s₀ = .next { s with rackUnit := { s.rackUnit with sweep := after } })

/-- R67: SWEEP_END at the end point with the wrap mark clear and a SWEEP_DONE load of 2048 or less places one SWEEP_DONE
notice for each waiting RACK_DOWN in order and brings the sweep to rest, the racks staying DOWN; otherwise nothing happens. -/
def Obligations.SweepEndAnswersTheWaiting : Prop :=
  ∀ s₀ : State,
    let s := s₀.settled
    let w := s.rackUnit.sweep
    let atEnd : Prop := w.running = true ∧ w.wrapMark = false ∧ w.position = w.endPoint
    let load := s.sweepDonePending + w.waiting.length
    (atEnd → load ≤ 2048 → exec .sweepEnd s₀ = .next { s with
      port := { s.port with notices := s.port.notices ++ w.waiting.map fun x => .sweepDone x.1 x.2 }
      rackUnit := { s.rackUnit with
        sweep := { running := false, downSet := [], position := 0, endPoint := 2048, wrapMark := false, waiting := [] } } })
    ∧ (¬ atEnd ∨ 2048 < load → exec .sweepEnd s₀ = .next s)

/-! ## The Combine Engine -/

/-- R135: the product is commutative, associative and distributes over the sum, which is exclusive-or; 0x00 and 0x01 act as
zero and one, and the product with 0x02 is the shift reduced modulo 0x11D. -/
def Obligations.FieldLaws : Prop :=
  (∀ a b : Byte, gfMul a b = gfMul b a)
  ∧ (∀ a b c : Byte, gfMul (gfMul a b) c = gfMul a (gfMul b c))
  ∧ (∀ a b c : Byte, gfMul a (b ^^^ c) = gfMul a b ^^^ gfMul a c)
  ∧ (∀ a : Byte, gfMul 0x00#8 a = 0x00#8 ∧ gfMul 0x01#8 a = a)
  ∧ (∀ a : Byte, (gfMul 0x02#8 a).setWidth 9 =
      (if a.getLsbD 7 then (a.setWidth 9 <<< 1) ^^^ 0x11D#9 else a.setWidth 9 <<< 1))

/-- R136: the byte at an offset of a target is the sum of the products of its row's coefficients and the bytes at that offset
of the selected survivors' slabs, in plan order; a target has L bytes. R137: the check is the CRC-32 of the reflected
polynomial 0x82F63B78, bit by bit, with an initial value and a final exclusive-or of all ones; that of the nine ASCII bytes
"123456789" is 0xE3069283. -/
def Obligations.TargetBytesAndTheirCheck : Prop :=
  (∀ (s : State) (r : Record) (j off : Nat) (row : List Byte) (slabs : List Slab),
    r.rows[j]? = some row → row.length = r.k → r.plan.length = r.k → slabs.length = r.k →
    (∀ (i p : Nat) (x : Slab), r.plan[i]? = some p → slabs[i]? = some x → ∃ v, r.survs[p]? = some v ∧ v.slab = some x) →
    (s.targetBytes r j).length = r.length
    ∧ (off < r.length → (s.targetBytes r j)[off]? = some
        (((row.zip slabs).map fun e => gfMul e.1 (Memory.read s.dram (e.2.val * 1048576 + off))).foldl (· ^^^ ·) 0#8)))
  ∧ check [0x31#8, 0x32#8, 0x33#8, 0x34#8, 0x35#8, 0x36#8, 0x37#8, 0x38#8, 0x39#8] = 0xE3069283#32
  ∧ (let bit (r : Word) : Word := if r.getLsbD 0 then (r >>> 1) ^^^ 0x82F63B78#32 else r >>> 1
     check [] = 0#32
     ∧ ∀ (l : List Byte) (b : Byte), ~~~ check (l ++ [b]) = bit^[8] (~~~ check l ^^^ b.setWidth 32))

/-- R139: PASS_START takes the head of the Combine Queue when no pass is in flight and the quiesce flag is clear, and does
nothing otherwise; in the settled state the Combine Engine stands as PASS_START leaves it. R144, R146: after a pass end with the
flag clear the next event that acts on the settled state, a QUIESCE among them, finds the pass of the next record started. R137,
R140 to R144: LANDING_WRITE_COMPLETE writes a target that is not the last, keeps its check and notes the lowest mismatch;
PASS_END writes the last target and decides DELIVERED or CHECK_MISMATCH; LANDING_FAULT ends the pass in LANDING_FAULT with the
finished targets' checks, and the landing areas that meet the failed one undefined. Slabs, notices, hold and counters follow.
The model's choices: that a target's bytes leave as one write in the step that completes it (log entry 32), and that the areas a
fault spoils leave as undefined (log entry 22). -/
def Obligations.PassesStartWriteAndEnd : Prop :=
  (∀ s : State,
     (∀ slot rest, s.comb.queue = slot :: rest → s.comb.pass = none → s.port.quiesce = false →
       exec .passStart s = .next { s with
         comb := { queue := rest, pass := some { slot, target := 0, checks := [], mismatch := none } } })
     ∧ (s.comb.queue = [] ∨ s.comb.pass ≠ none ∨ s.port.quiesce = true → exec .passStart s = .next s)
     ∧ (∀ t, exec .passStart s = .next t → s.settled.comb = t.comb))
  ∧ (∀ (s₀ : State) (p : Pass) (r : Record) (g : Target),
       let s := s₀.settled
       s.comb.pass = some p → s.recAt p.slot = some r → r.targets[p.target]? = some g →
       let bytes := s.targetBytes r p.target
       let mismatch := p.mismatch.or (if check bytes = g.expected then none else some p.target)
       p.target + 1 < r.t → exec .landingWriteComplete s₀ = .next { s with
         outputs := s.outputs ++ [.hostWrite g.landing.toNat bytes]
         comb := { s.comb with
           pass := some { slot := p.slot, target := p.target + 1, checks := p.checks ++ [check bytes], mismatch } } })
  ∧ (∀ (s₀ : State) (p : Pass) (r : Record) (g : Target),
       let s := s₀.settled
       s.comb.pass = some p → s.recAt p.slot = some r → r.targets[p.target]? = some g →
       let bytes := s.targetBytes r p.target
       let mismatch := p.mismatch.or (if check bytes = g.expected then none else some p.target)
       let nextStarts (t : State) : Prop := ∀ slot rest, s.comb.queue = slot :: rest → s.port.quiesce = false →
         t.settled.comb = { queue := rest, pass := some { slot, target := 0, checks := [], mismatch := none } }
       (p.target + 1 = r.t → ∃ t, exec .passEnd s₀ = .next t ∧ nextStarts t
         ∧ PassEnded s t p.slot r (p.checks ++ [check bytes]) (mismatch.map .checkMismatch)
             [.hostWrite g.landing.toNat bytes])
       ∧ (∃ t, exec .landingFault s₀ = .next t ∧ nextStarts t
         ∧ PassEnded s t p.slot r p.checks (some .landingFault)
             ((r.targets.filter fun h => decide (h.landing.toNat < g.landing.toNat + r.length
                 ∧ g.landing.toNat < h.landing.toNat + r.length)).map fun h => .hostUndefined h.landing.toNat r.length)))

/-! ## Invariants -/

/-- The state right after reset meets every invariant below. -/
def Obligations.ResetMeetsTheInvariants : Prop :=
  Memory.wf State.reset.dram ∧ State.reset.settings.inRange ∧ State.reset.creditBounded ∧ State.reset.windowLegal
  ∧ State.reset.indexExact ∧ State.reset.listsExact ∧ State.reset.activeExact ∧ State.reset.contextsExact
  ∧ State.reset.outstandingExact ∧ State.reset.recordsInBounds ∧ State.reset.slabsExact ∧ State.reset.readyOrdered
  ∧ State.reset.noticesExact

/-- Every step keeps the list that stands for the staging DRAM in its canonical form: addresses rising, and no entry that
reads as an unlisted byte does. The list and its form are the model's own (log entry 7). -/
def Obligations.StepKeepsTheDramCanonical : Prop :=
  ∀ s t : State, step s = .next t → Memory.wf s.dram → Memory.wf t.dram

/-- R70, R161: every step keeps every setting in its range and every rack's credit within −8191 and the cap. -/
def Obligations.StepKeepsCreditBounded : Prop :=
  ∀ s t : State, step s = .next t → s.settings.inRange → s.creditBounded → t.settings.inRange ∧ t.creditBounded

/-- R149: every step keeps the registers of the window to what they can hold. -/
def Obligations.StepKeepsTheWindowLegal : Prop :=
  ∀ s t : State, step s = .next t → s.windowLegal → t.windowLegal

/-- R2: every step keeps the Stripe Index exact: it holds exactly the ids of the occupied slots, each once. -/
def Obligations.StepKeepsTheIndexExact : Prop :=
  ∀ s t : State, step s = .next t → s.indexExact → t.indexExact

/-- R9, R16, R42, R126, R138: every step keeps the Ready List, the Combine Queue, the pass in flight, the holds and the active
flags in agreement with the record states. -/
def Obligations.StepKeepsTheListsExact : Prop :=
  ∀ s t : State, step s = .next t → s.listsExact → s.activeExact → t.listsExact ∧ t.activeExact

/-- R17: every step keeps open contexts and PULLING survivors in one-to-one agreement. -/
def Obligations.StepKeepsTheContextsExact : Prop :=
  ∀ s t : State, step s = .next t → s.listsExact → s.activeExact → s.contextsExact → t.contextsExact

/-- R55: every step keeps each rack's outstanding count the number of open contexts whose survivor lies on it. A context lies on
the rack of the survivor that it names. -/
def Obligations.StepKeepsTheOutstandingExact : Prop :=
  (∀ s t : State, step s = .next t → s.contextsExact → s.outstandingExact → t.outstandingExact)
  ∧ ∀ s : State,
      (∀ c k, s.ctxRack c = some k ↔ ∃ r v, s.recAt c.slot = some r ∧ r.survs[c.pos]? = some v ∧ v.rack = k)
      ∧ ∀ p k, s.ctxCount p k = ((List.range 256).filter fun i =>
          (s.ctxAt (BitVec.ofNat 8 i)).any fun c => p c && decide (s.ctxRack c = some k)).length

/-- R4 to R7, R22, R23, R30, R35, R39: every step keeps each record's shape as R22 and R23 bound it at OPEN, and its boost,
margin, age and score in their bounds. The terminal states are DELIVERED, FAULTED and LOST. -/
def Obligations.StepKeepsRecordsInBounds : Prop :=
  (∀ s t : State, step s = .next t → s.listsExact → s.recordsInBounds → t.recordsInBounds)
  ∧ ∀ r : Record, r.terminal = true ↔ r.state = .delivered ∨ r.state = .faulted ∨ r.state = .lost

/-- R6, R9, R44: every step keeps each slab free or held by one survivor, selected in an active record. A record's slabs are
those its survivors hold. -/
def Obligations.StepKeepsTheSlabsExact : Prop :=
  (∀ s t : State, step s = .next t → s.listsExact → s.activeExact → s.slabsExact → t.slabsExact)
  ∧ (∀ (v : Survivor) (x : Slab), v.slab = some x ↔ ∃ h, v.staging = some h ∧ h.slab = x)
  ∧ ∀ (r : Record) (x : Slab), x ∈ r.slabs ↔ ∃ v ∈ r.survs, v.slab = some x

/-- R40, R42, R43: every step keeps the Ready List in its order: the higher score first, and of equal scores the earlier
admitted. -/
def Obligations.StepKeepsTheReadyListOrdered : Prop :=
  ∀ s t : State, step s = .next t → s.listsExact → s.readyOrdered → t.readyOrdered

/-- R67, R168, R171: every step keeps the Notice Queue without a second notice of one kind for one slot, without a notice of a
FREE slot, and with at most 2048 SWEEP_DONE notices. Two notices are doubles when both are of one of the five record kinds and
for one slot; two SWEEP_DONE notices never are, and each counts. -/
def Obligations.StepKeepsTheNoticesExact : Prop :=
  (∀ s t : State, step s = .next t → s.listsExact → s.noticesExact → t.noticesExact)
  ∧ (∀ m n : Notice, m.sameKindAndSlot n = true ↔ ∃ slot,
      (m = .planNeeded slot ∧ n = .planNeeded slot) ∨ (m = .delivered slot ∧ n = .delivered slot)
      ∨ (m = .faulted slot ∧ n = .faulted slot) ∨ (m = .lost slot ∧ n = .lost slot)
      ∨ ∃ id id', m = .holdGranted slot id ∧ n = .holdGranted slot id')
  ∧ (∀ (n : Notice) (slot : Slot), n.slot = some slot ↔
      n = .planNeeded slot ∨ n = .delivered slot ∨ n = .faulted slot ∨ n = .lost slot ∨ ∃ id, n = .holdGranted slot id)
  ∧ ∀ s : State, s.sweepDonePending = (s.port.notices.map fun n => match n with
      | .sweepDone _ _ => 1
      | _ => 0).sum
end

