-- ==== Sys2Proof/Laws/Memory.lean ====
section
/-! SUPPORT. The laws of the staging DRAM: a write keeps the canonical form, a read after a write gives the byte
written, and a write leaves every other byte as it was. -/

namespace Sys2Proof.Machine

/-- The listed cells of a write lie within it. -/
theorem Memory.mem_cells {a : Nat} {bytes : List Byte} {c : Host.Cell} (h : c ∈ Memory.cells a bytes) :
    a ≤ c.1 ∧ c.1 < a + bytes.length ∧ c.2 ≠ Config.dramByte := by
  induction bytes generalizing a with
  | nil => simp [Memory.cells] at h
  | cons b rest ih =>
    unfold Memory.cells at h
    split at h
    · obtain ⟨h1, h2, h3⟩ := ih h
      exact ⟨by omega, by simp; omega, h3⟩
    · rcases List.mem_cons.mp h with rfl | h
      · exact ⟨le_refl _, by simp, by assumption⟩
      · obtain ⟨h1, h2, h3⟩ := ih h
        exact ⟨by omega, by simp; omega, h3⟩

theorem Memory.cells_pairwise (a : Nat) (bytes : List Byte) :
    (Memory.cells a bytes).Pairwise (fun x y => x.1 < y.1) := by
  induction bytes generalizing a with
  | nil => simp [Memory.cells]
  | cons b rest ih =>
    unfold Memory.cells
    split
    · exact ih _
    · refine List.pairwise_cons.mpr ⟨fun c hc => ?_, ih _⟩
      have := (Memory.mem_cells hc).1
      simp only; omega

/-- Every memory operation keeps the canonical form. -/
theorem Memory.write_wf {m : List Host.Cell} (h : Memory.wf m) (a : Nat) (bytes : List Byte) :
    Memory.wf (Memory.write m a bytes) := by
  obtain ⟨hs, hv⟩ := h
  refine ⟨?_, fun c hc => ?_⟩
  · unfold Memory.write
    refine List.pairwise_append.mpr ⟨List.pairwise_append.mpr ⟨hs.filter _, Memory.cells_pairwise a bytes, ?_⟩,
      hs.filter _, ?_⟩
    · intro x hx y hy
      have h1 := (List.mem_filter.mp hx).2
      have h2 := (Memory.mem_cells hy).1
      simp at h1; omega
    · intro x hx y hy
      have h2 := (List.mem_filter.mp hy).2
      simp at h2
      rcases List.mem_append.mp hx with hx | hx
      · have h1 := (List.mem_filter.mp hx).2
        simp at h1; omega
      · have h1 := (Memory.mem_cells hx).2.1
        omega
  · unfold Memory.write at hc
    rcases List.mem_append.mp hc with hc | hc
    · rcases List.mem_append.mp hc with hc | hc
      · exact hv c (List.mem_filter.mp hc).1
      · exact (Memory.mem_cells hc).2.2
    · exact hv c (List.mem_filter.mp hc).1

/-- The DRAM right after reset is in canonical form. -/
theorem Memory.reset_wf : Memory.wf State.reset.dram := ⟨List.Pairwise.nil, fun _ h => absurd h List.not_mem_nil⟩

theorem Memory.find_none_of {m : List Host.Cell} {x : Nat} (h : ∀ c ∈ m, c.1 ≠ x) :
    m.find? (fun c => c.1 == x) = none := by
  simpa [List.find?_eq_none] using h

theorem Memory.find_filter {m : List Host.Cell} {x : Nat} {p : Host.Cell → Bool} (h : ∀ c : Host.Cell, c.1 = x → p c) :
    (m.filter p).find? (fun c => c.1 == x) = m.find? (fun c => c.1 == x) := by
  induction m with
  | nil => rfl
  | cons c rest ih =>
    by_cases hx : c.1 = x
    · simp [h c hx, hx]
    · by_cases hp : p c <;> simp [hp, hx, ih]

/-- A read of a written address gives the byte written. -/
theorem Memory.find_cells (a : Nat) (bytes : List Byte) (i : Nat) (h : i < bytes.length) :
    (((Memory.cells a bytes).find? fun c => c.1 == a + i).map (·.2)).getD Config.dramByte = bytes[i] := by
  induction bytes generalizing a i with
  | nil => simp at h
  | cons b rest ih =>
    unfold Memory.cells
    cases i with
    | zero =>
      split
      · rename_i hb
        rw [Memory.find_none_of (fun c hc => by have := (Memory.mem_cells hc).1; omega)]
        simp [hb]
      · simp
    | succ i =>
      have hi : i < rest.length := by simpa using h
      have he : a + (i + 1) = a + 1 + i := by omega
      rw [he]
      split
      · simpa using ih (a + 1) i hi
      · rw [List.find?_cons_of_neg (by simp; omega)]
        simpa using ih (a + 1) i hi

theorem Memory.read_write_same (m : List Host.Cell) (a : Nat) (bytes : List Byte) (i : Nat) (h : i < bytes.length) :
    Memory.read (Memory.write m a bytes) (a + i) = bytes[i] := by
  unfold Memory.read Memory.write
  rw [List.append_assoc, List.find?_append, List.find?_append,
    Memory.find_none_of (m := m.filter _) (fun c hc => by have := (List.mem_filter.mp hc).2; simp at this; omega),
    Memory.find_none_of (m := m.filter (fun c => decide (a + bytes.length ≤ c.1)))
      (fun c hc => by have := (List.mem_filter.mp hc).2; simp at this; omega)]
  simpa using Memory.find_cells a bytes i h

/-- A read of any other address gives what it gave before the write. -/
theorem Memory.read_write_other (m : List Host.Cell) (a : Nat) (bytes : List Byte) (x : Nat)
    (h : x < a ∨ a + bytes.length ≤ x) : Memory.read (Memory.write m a bytes) x = Memory.read m x := by
  unfold Memory.read Memory.write
  have hc : (Memory.cells a bytes).find? (fun c => c.1 == x) = none :=
    Memory.find_none_of fun c hc => by have := Memory.mem_cells hc; omega
  rw [List.append_assoc, List.find?_append, List.find?_append, hc]
  rcases h with h | h
  · rw [Memory.find_filter (fun c hc => by simp; omega),
      Memory.find_none_of (m := m.filter (fun c => decide (a + bytes.length ≤ c.1)))
        (fun c hc => by have := (List.mem_filter.mp hc).2; simp at this; omega)]
    cases m.find? (fun c => c.1 == x) <;> rfl
  · rw [Memory.find_none_of (m := m.filter (fun c => decide (c.1 < a)))
        (fun c hc => by have := (List.mem_filter.mp hc).2; simp at this; omega),
      Memory.find_filter (fun c hc => by simp; omega)]
    rfl

end Sys2Proof.Machine
end

