-- ==== Sys2Proof/Laws/State.lean ====
section
/-! SUPPORT. One lemma per field per update of State: what each of the updates that the meanings are built from
leaves as it is, and what a table element reads as after it was written. -/

namespace Sys2Proof.Machine

/-! ### setRec -/

@[simp] theorem State.setRec_port (s : State) (slot : Slot) (r : Option Record) :
    (s.setRec slot r).port = s.port := rfl
@[simp] theorem State.setRec_act (s : State) (slot : Slot) (r : Option Record) :
    (s.setRec slot r).act = s.act := rfl
@[simp] theorem State.setRec_rackUnit (s : State) (slot : Slot) (r : Option Record) :
    (s.setRec slot r).rackUnit = s.rackUnit := rfl
@[simp] theorem State.setRec_refillAt (s : State) (slot : Slot) (r : Option Record) :
    (s.setRec slot r).refillAt = s.refillAt := rfl
@[simp] theorem State.setRec_fetch (s : State) (slot : Slot) (r : Option Record) :
    (s.setRec slot r).fetch = s.fetch := rfl
@[simp] theorem State.setRec_comb (s : State) (slot : Slot) (r : Option Record) :
    (s.setRec slot r).comb = s.comb := rfl
@[simp] theorem State.setRec_settings (s : State) (slot : Slot) (r : Option Record) :
    (s.setRec slot r).settings = s.settings := rfl
@[simp] theorem State.setRec_counters (s : State) (slot : Slot) (r : Option Record) :
    (s.setRec slot r).counters = s.counters := rfl
@[simp] theorem State.setRec_dram (s : State) (slot : Slot) (r : Option Record) :
    (s.setRec slot r).dram = s.dram := rfl
@[simp] theorem State.setRec_now (s : State) (slot : Slot) (r : Option Record) :
    (s.setRec slot r).now = s.now := rfl
@[simp] theorem State.setRec_outputs (s : State) (slot : Slot) (r : Option Record) :
    (s.setRec slot r).outputs = s.outputs := rfl
@[simp] theorem State.setRec_pending (s : State) (slot : Slot) (r : Option Record) :
    (s.setRec slot r).pending = s.pending := rfl

/-! ### setRack -/

@[simp] theorem State.setRack_port (s : State) (rack : RackId) (e : Rack) :
    (s.setRack rack e).port = s.port := rfl
@[simp] theorem State.setRack_table (s : State) (rack : RackId) (e : Rack) :
    (s.setRack rack e).table = s.table := rfl
@[simp] theorem State.setRack_act (s : State) (rack : RackId) (e : Rack) :
    (s.setRack rack e).act = s.act := rfl
@[simp] theorem State.setRack_refillAt (s : State) (rack : RackId) (e : Rack) :
    (s.setRack rack e).refillAt = s.refillAt := rfl
@[simp] theorem State.setRack_fetch (s : State) (rack : RackId) (e : Rack) :
    (s.setRack rack e).fetch = s.fetch := rfl
@[simp] theorem State.setRack_comb (s : State) (rack : RackId) (e : Rack) :
    (s.setRack rack e).comb = s.comb := rfl
@[simp] theorem State.setRack_settings (s : State) (rack : RackId) (e : Rack) :
    (s.setRack rack e).settings = s.settings := rfl
@[simp] theorem State.setRack_counters (s : State) (rack : RackId) (e : Rack) :
    (s.setRack rack e).counters = s.counters := rfl
@[simp] theorem State.setRack_dram (s : State) (rack : RackId) (e : Rack) :
    (s.setRack rack e).dram = s.dram := rfl
@[simp] theorem State.setRack_now (s : State) (rack : RackId) (e : Rack) :
    (s.setRack rack e).now = s.now := rfl
@[simp] theorem State.setRack_outputs (s : State) (rack : RackId) (e : Rack) :
    (s.setRack rack e).outputs = s.outputs := rfl
@[simp] theorem State.setRack_pending (s : State) (rack : RackId) (e : Rack) :
    (s.setRack rack e).pending = s.pending := rfl

/-! ### setCtx -/

@[simp] theorem State.setCtx_port (s : State) (tag : Tag) (c : Option Ctx) :
    (s.setCtx tag c).port = s.port := rfl
@[simp] theorem State.setCtx_table (s : State) (tag : Tag) (c : Option Ctx) :
    (s.setCtx tag c).table = s.table := rfl
@[simp] theorem State.setCtx_act (s : State) (tag : Tag) (c : Option Ctx) :
    (s.setCtx tag c).act = s.act := rfl
@[simp] theorem State.setCtx_rackUnit (s : State) (tag : Tag) (c : Option Ctx) :
    (s.setCtx tag c).rackUnit = s.rackUnit := rfl
@[simp] theorem State.setCtx_refillAt (s : State) (tag : Tag) (c : Option Ctx) :
    (s.setCtx tag c).refillAt = s.refillAt := rfl
@[simp] theorem State.setCtx_comb (s : State) (tag : Tag) (c : Option Ctx) :
    (s.setCtx tag c).comb = s.comb := rfl
@[simp] theorem State.setCtx_settings (s : State) (tag : Tag) (c : Option Ctx) :
    (s.setCtx tag c).settings = s.settings := rfl
@[simp] theorem State.setCtx_counters (s : State) (tag : Tag) (c : Option Ctx) :
    (s.setCtx tag c).counters = s.counters := rfl
@[simp] theorem State.setCtx_dram (s : State) (tag : Tag) (c : Option Ctx) :
    (s.setCtx tag c).dram = s.dram := rfl
@[simp] theorem State.setCtx_now (s : State) (tag : Tag) (c : Option Ctx) :
    (s.setCtx tag c).now = s.now := rfl
@[simp] theorem State.setCtx_outputs (s : State) (tag : Tag) (c : Option Ctx) :
    (s.setCtx tag c).outputs = s.outputs := rfl
@[simp] theorem State.setCtx_pending (s : State) (tag : Tag) (c : Option Ctx) :
    (s.setCtx tag c).pending = s.pending := rfl

/-! ### setVerify -/

@[simp] theorem State.setVerify_port (s : State) (slab : Slab) (mark : Bool) :
    (s.setVerify slab mark).port = s.port := rfl
@[simp] theorem State.setVerify_table (s : State) (slab : Slab) (mark : Bool) :
    (s.setVerify slab mark).table = s.table := rfl
@[simp] theorem State.setVerify_act (s : State) (slab : Slab) (mark : Bool) :
    (s.setVerify slab mark).act = s.act := rfl
@[simp] theorem State.setVerify_rackUnit (s : State) (slab : Slab) (mark : Bool) :
    (s.setVerify slab mark).rackUnit = s.rackUnit := rfl
@[simp] theorem State.setVerify_refillAt (s : State) (slab : Slab) (mark : Bool) :
    (s.setVerify slab mark).refillAt = s.refillAt := rfl
@[simp] theorem State.setVerify_comb (s : State) (slab : Slab) (mark : Bool) :
    (s.setVerify slab mark).comb = s.comb := rfl
@[simp] theorem State.setVerify_settings (s : State) (slab : Slab) (mark : Bool) :
    (s.setVerify slab mark).settings = s.settings := rfl
@[simp] theorem State.setVerify_counters (s : State) (slab : Slab) (mark : Bool) :
    (s.setVerify slab mark).counters = s.counters := rfl
@[simp] theorem State.setVerify_dram (s : State) (slab : Slab) (mark : Bool) :
    (s.setVerify slab mark).dram = s.dram := rfl
@[simp] theorem State.setVerify_now (s : State) (slab : Slab) (mark : Bool) :
    (s.setVerify slab mark).now = s.now := rfl
@[simp] theorem State.setVerify_outputs (s : State) (slab : Slab) (mark : Bool) :
    (s.setVerify slab mark).outputs = s.outputs := rfl
@[simp] theorem State.setVerify_pending (s : State) (slab : Slab) (mark : Bool) :
    (s.setVerify slab mark).pending = s.pending := rfl

/-! ### clearVerify -/

@[simp] theorem State.clearVerify_port (s : State) (slabs : List Slab) :
    (s.clearVerify slabs).port = s.port := by simp only [State.clearVerify]
@[simp] theorem State.clearVerify_table (s : State) (slabs : List Slab) :
    (s.clearVerify slabs).table = s.table := by simp only [State.clearVerify]
@[simp] theorem State.clearVerify_act (s : State) (slabs : List Slab) :
    (s.clearVerify slabs).act = s.act := by simp only [State.clearVerify]
@[simp] theorem State.clearVerify_rackUnit (s : State) (slabs : List Slab) :
    (s.clearVerify slabs).rackUnit = s.rackUnit := by simp only [State.clearVerify]
@[simp] theorem State.clearVerify_refillAt (s : State) (slabs : List Slab) :
    (s.clearVerify slabs).refillAt = s.refillAt := by simp only [State.clearVerify]
@[simp] theorem State.clearVerify_comb (s : State) (slabs : List Slab) :
    (s.clearVerify slabs).comb = s.comb := by simp only [State.clearVerify]
@[simp] theorem State.clearVerify_settings (s : State) (slabs : List Slab) :
    (s.clearVerify slabs).settings = s.settings := by simp only [State.clearVerify]
@[simp] theorem State.clearVerify_counters (s : State) (slabs : List Slab) :
    (s.clearVerify slabs).counters = s.counters := by simp only [State.clearVerify]
@[simp] theorem State.clearVerify_dram (s : State) (slabs : List Slab) :
    (s.clearVerify slabs).dram = s.dram := by simp only [State.clearVerify]
@[simp] theorem State.clearVerify_now (s : State) (slabs : List Slab) :
    (s.clearVerify slabs).now = s.now := by simp only [State.clearVerify]
@[simp] theorem State.clearVerify_outputs (s : State) (slabs : List Slab) :
    (s.clearVerify slabs).outputs = s.outputs := by simp only [State.clearVerify]
@[simp] theorem State.clearVerify_pending (s : State) (slabs : List Slab) :
    (s.clearVerify slabs).pending = s.pending := by simp only [State.clearVerify]

/-! ### setPort -/

@[simp] theorem State.setPort_port (s : State) (p : PortNo) (f : FabricPort) :
    (s.setPort p f).port = s.port := by cases p <;> rfl
@[simp] theorem State.setPort_table (s : State) (p : PortNo) (f : FabricPort) :
    (s.setPort p f).table = s.table := by cases p <;> rfl
@[simp] theorem State.setPort_act (s : State) (p : PortNo) (f : FabricPort) :
    (s.setPort p f).act = s.act := by cases p <;> rfl
@[simp] theorem State.setPort_rackUnit (s : State) (p : PortNo) (f : FabricPort) :
    (s.setPort p f).rackUnit = s.rackUnit := by cases p <;> rfl
@[simp] theorem State.setPort_refillAt (s : State) (p : PortNo) (f : FabricPort) :
    (s.setPort p f).refillAt = s.refillAt := by cases p <;> rfl
@[simp] theorem State.setPort_comb (s : State) (p : PortNo) (f : FabricPort) :
    (s.setPort p f).comb = s.comb := by cases p <;> rfl
@[simp] theorem State.setPort_settings (s : State) (p : PortNo) (f : FabricPort) :
    (s.setPort p f).settings = s.settings := by cases p <;> rfl
@[simp] theorem State.setPort_counters (s : State) (p : PortNo) (f : FabricPort) :
    (s.setPort p f).counters = s.counters := by cases p <;> rfl
@[simp] theorem State.setPort_dram (s : State) (p : PortNo) (f : FabricPort) :
    (s.setPort p f).dram = s.dram := by cases p <;> rfl
@[simp] theorem State.setPort_now (s : State) (p : PortNo) (f : FabricPort) :
    (s.setPort p f).now = s.now := by cases p <;> rfl
@[simp] theorem State.setPort_outputs (s : State) (p : PortNo) (f : FabricPort) :
    (s.setPort p f).outputs = s.outputs := by cases p <;> rfl
@[simp] theorem State.setPort_pending (s : State) (p : PortNo) (f : FabricPort) :
    (s.setPort p f).pending = s.pending := by cases p <;> rfl

/-! ### emit -/

@[simp] theorem State.emit_port (s : State) (o : List Output) :
    (s.emit o).port = s.port := rfl
@[simp] theorem State.emit_table (s : State) (o : List Output) :
    (s.emit o).table = s.table := rfl
@[simp] theorem State.emit_act (s : State) (o : List Output) :
    (s.emit o).act = s.act := rfl
@[simp] theorem State.emit_rackUnit (s : State) (o : List Output) :
    (s.emit o).rackUnit = s.rackUnit := rfl
@[simp] theorem State.emit_refillAt (s : State) (o : List Output) :
    (s.emit o).refillAt = s.refillAt := rfl
@[simp] theorem State.emit_fetch (s : State) (o : List Output) :
    (s.emit o).fetch = s.fetch := rfl
@[simp] theorem State.emit_comb (s : State) (o : List Output) :
    (s.emit o).comb = s.comb := rfl
@[simp] theorem State.emit_settings (s : State) (o : List Output) :
    (s.emit o).settings = s.settings := rfl
@[simp] theorem State.emit_counters (s : State) (o : List Output) :
    (s.emit o).counters = s.counters := rfl
@[simp] theorem State.emit_dram (s : State) (o : List Output) :
    (s.emit o).dram = s.dram := rfl
@[simp] theorem State.emit_now (s : State) (o : List Output) :
    (s.emit o).now = s.now := rfl
@[simp] theorem State.emit_pending (s : State) (o : List Output) :
    (s.emit o).pending = s.pending := rfl

/-! ### delist -/

@[simp] theorem State.delist_port (s : State) (slot : Slot) :
    (s.delist slot).port = s.port := rfl
@[simp] theorem State.delist_table (s : State) (slot : Slot) :
    (s.delist slot).table = s.table := rfl
@[simp] theorem State.delist_rackUnit (s : State) (slot : Slot) :
    (s.delist slot).rackUnit = s.rackUnit := rfl
@[simp] theorem State.delist_refillAt (s : State) (slot : Slot) :
    (s.delist slot).refillAt = s.refillAt := rfl
@[simp] theorem State.delist_fetch (s : State) (slot : Slot) :
    (s.delist slot).fetch = s.fetch := rfl
@[simp] theorem State.delist_comb (s : State) (slot : Slot) :
    (s.delist slot).comb = s.comb := rfl
@[simp] theorem State.delist_settings (s : State) (slot : Slot) :
    (s.delist slot).settings = s.settings := rfl
@[simp] theorem State.delist_counters (s : State) (slot : Slot) :
    (s.delist slot).counters = s.counters := rfl
@[simp] theorem State.delist_dram (s : State) (slot : Slot) :
    (s.delist slot).dram = s.dram := rfl
@[simp] theorem State.delist_now (s : State) (slot : Slot) :
    (s.delist slot).now = s.now := rfl
@[simp] theorem State.delist_outputs (s : State) (slot : Slot) :
    (s.delist slot).outputs = s.outputs := rfl
@[simp] theorem State.delist_pending (s : State) (slot : Slot) :
    (s.delist slot).pending = s.pending := rfl

/-! ### enlist -/

@[simp] theorem State.enlist_port (s : State) (slot : Slot) :
    (s.enlist slot).port = s.port := rfl
@[simp] theorem State.enlist_table (s : State) (slot : Slot) :
    (s.enlist slot).table = s.table := rfl
@[simp] theorem State.enlist_rackUnit (s : State) (slot : Slot) :
    (s.enlist slot).rackUnit = s.rackUnit := rfl
@[simp] theorem State.enlist_refillAt (s : State) (slot : Slot) :
    (s.enlist slot).refillAt = s.refillAt := rfl
@[simp] theorem State.enlist_fetch (s : State) (slot : Slot) :
    (s.enlist slot).fetch = s.fetch := rfl
@[simp] theorem State.enlist_comb (s : State) (slot : Slot) :
    (s.enlist slot).comb = s.comb := rfl
@[simp] theorem State.enlist_settings (s : State) (slot : Slot) :
    (s.enlist slot).settings = s.settings := rfl
@[simp] theorem State.enlist_counters (s : State) (slot : Slot) :
    (s.enlist slot).counters = s.counters := rfl
@[simp] theorem State.enlist_dram (s : State) (slot : Slot) :
    (s.enlist slot).dram = s.dram := rfl
@[simp] theorem State.enlist_now (s : State) (slot : Slot) :
    (s.enlist slot).now = s.now := rfl
@[simp] theorem State.enlist_outputs (s : State) (slot : Slot) :
    (s.enlist slot).outputs = s.outputs := rfl
@[simp] theorem State.enlist_pending (s : State) (slot : Slot) :
    (s.enlist slot).pending = s.pending := rfl

/-! ### relist -/

@[simp] theorem State.relist_port (s : State) (slot : Slot) :
    (s.relist slot).port = s.port := by unfold State.relist; split <;> rfl
@[simp] theorem State.relist_table (s : State) (slot : Slot) :
    (s.relist slot).table = s.table := by unfold State.relist; split <;> rfl
@[simp] theorem State.relist_rackUnit (s : State) (slot : Slot) :
    (s.relist slot).rackUnit = s.rackUnit := by unfold State.relist; split <;> rfl
@[simp] theorem State.relist_refillAt (s : State) (slot : Slot) :
    (s.relist slot).refillAt = s.refillAt := by unfold State.relist; split <;> rfl
@[simp] theorem State.relist_fetch (s : State) (slot : Slot) :
    (s.relist slot).fetch = s.fetch := by unfold State.relist; split <;> rfl
@[simp] theorem State.relist_comb (s : State) (slot : Slot) :
    (s.relist slot).comb = s.comb := by unfold State.relist; split <;> rfl
@[simp] theorem State.relist_settings (s : State) (slot : Slot) :
    (s.relist slot).settings = s.settings := by unfold State.relist; split <;> rfl
@[simp] theorem State.relist_counters (s : State) (slot : Slot) :
    (s.relist slot).counters = s.counters := by unfold State.relist; split <;> rfl
@[simp] theorem State.relist_dram (s : State) (slot : Slot) :
    (s.relist slot).dram = s.dram := by unfold State.relist; split <;> rfl
@[simp] theorem State.relist_now (s : State) (slot : Slot) :
    (s.relist slot).now = s.now := by unfold State.relist; split <;> rfl
@[simp] theorem State.relist_outputs (s : State) (slot : Slot) :
    (s.relist slot).outputs = s.outputs := by unfold State.relist; split <;> rfl
@[simp] theorem State.relist_pending (s : State) (slot : Slot) :
    (s.relist slot).pending = s.pending := by unfold State.relist; split <;> rfl

/-! ### releaseSlabs -/

@[simp] theorem State.releaseSlabs_port (s : State) (slabs : List Slab) :
    (s.releaseSlabs slabs).port = s.port := by simp [State.releaseSlabs]
@[simp] theorem State.releaseSlabs_table (s : State) (slabs : List Slab) :
    (s.releaseSlabs slabs).table = s.table := by simp [State.releaseSlabs]
@[simp] theorem State.releaseSlabs_rackUnit (s : State) (slabs : List Slab) :
    (s.releaseSlabs slabs).rackUnit = s.rackUnit := by simp [State.releaseSlabs]
@[simp] theorem State.releaseSlabs_refillAt (s : State) (slabs : List Slab) :
    (s.releaseSlabs slabs).refillAt = s.refillAt := by simp [State.releaseSlabs]
@[simp] theorem State.releaseSlabs_comb (s : State) (slabs : List Slab) :
    (s.releaseSlabs slabs).comb = s.comb := by simp [State.releaseSlabs]
@[simp] theorem State.releaseSlabs_settings (s : State) (slabs : List Slab) :
    (s.releaseSlabs slabs).settings = s.settings := by simp [State.releaseSlabs]
@[simp] theorem State.releaseSlabs_counters (s : State) (slabs : List Slab) :
    (s.releaseSlabs slabs).counters = s.counters := by simp [State.releaseSlabs]
@[simp] theorem State.releaseSlabs_dram (s : State) (slabs : List Slab) :
    (s.releaseSlabs slabs).dram = s.dram := by simp [State.releaseSlabs]
@[simp] theorem State.releaseSlabs_now (s : State) (slabs : List Slab) :
    (s.releaseSlabs slabs).now = s.now := by simp [State.releaseSlabs]
@[simp] theorem State.releaseSlabs_outputs (s : State) (slabs : List Slab) :
    (s.releaseSlabs slabs).outputs = s.outputs := by simp [State.releaseSlabs]
@[simp] theorem State.releaseSlabs_pending (s : State) (slabs : List Slab) :
    (s.releaseSlabs slabs).pending = s.pending := by simp [State.releaseSlabs]

/-! ### notify -/

@[simp] theorem State.notify_table (s : State) (n : Notice) :
    (s.notify n).table = s.table := by unfold State.notify; split <;> rfl
@[simp] theorem State.notify_act (s : State) (n : Notice) :
    (s.notify n).act = s.act := by unfold State.notify; split <;> rfl
@[simp] theorem State.notify_rackUnit (s : State) (n : Notice) :
    (s.notify n).rackUnit = s.rackUnit := by unfold State.notify; split <;> rfl
@[simp] theorem State.notify_refillAt (s : State) (n : Notice) :
    (s.notify n).refillAt = s.refillAt := by unfold State.notify; split <;> rfl
@[simp] theorem State.notify_fetch (s : State) (n : Notice) :
    (s.notify n).fetch = s.fetch := by unfold State.notify; split <;> rfl
@[simp] theorem State.notify_comb (s : State) (n : Notice) :
    (s.notify n).comb = s.comb := by unfold State.notify; split <;> rfl
@[simp] theorem State.notify_settings (s : State) (n : Notice) :
    (s.notify n).settings = s.settings := by unfold State.notify; split <;> rfl
@[simp] theorem State.notify_counters (s : State) (n : Notice) :
    (s.notify n).counters = s.counters := by unfold State.notify; split <;> rfl
@[simp] theorem State.notify_dram (s : State) (n : Notice) :
    (s.notify n).dram = s.dram := by unfold State.notify; split <;> rfl
@[simp] theorem State.notify_now (s : State) (n : Notice) :
    (s.notify n).now = s.now := by unfold State.notify; split <;> rfl
@[simp] theorem State.notify_outputs (s : State) (n : Notice) :
    (s.notify n).outputs = s.outputs := by unfold State.notify; split <;> rfl
@[simp] theorem State.notify_pending (s : State) (n : Notice) :
    (s.notify n).pending = s.pending := by unfold State.notify; split <;> rfl

/-! ### dropNotices -/

@[simp] theorem State.dropNotices_table (s : State) (slot : Slot) :
    (s.dropNotices slot).table = s.table := rfl
@[simp] theorem State.dropNotices_act (s : State) (slot : Slot) :
    (s.dropNotices slot).act = s.act := rfl
@[simp] theorem State.dropNotices_rackUnit (s : State) (slot : Slot) :
    (s.dropNotices slot).rackUnit = s.rackUnit := rfl
@[simp] theorem State.dropNotices_refillAt (s : State) (slot : Slot) :
    (s.dropNotices slot).refillAt = s.refillAt := rfl
@[simp] theorem State.dropNotices_fetch (s : State) (slot : Slot) :
    (s.dropNotices slot).fetch = s.fetch := rfl
@[simp] theorem State.dropNotices_comb (s : State) (slot : Slot) :
    (s.dropNotices slot).comb = s.comb := rfl
@[simp] theorem State.dropNotices_settings (s : State) (slot : Slot) :
    (s.dropNotices slot).settings = s.settings := rfl
@[simp] theorem State.dropNotices_counters (s : State) (slot : Slot) :
    (s.dropNotices slot).counters = s.counters := rfl
@[simp] theorem State.dropNotices_dram (s : State) (slot : Slot) :
    (s.dropNotices slot).dram = s.dram := rfl
@[simp] theorem State.dropNotices_now (s : State) (slot : Slot) :
    (s.dropNotices slot).now = s.now := rfl
@[simp] theorem State.dropNotices_outputs (s : State) (slot : Slot) :
    (s.dropNotices slot).outputs = s.outputs := rfl
@[simp] theorem State.dropNotices_pending (s : State) (slot : Slot) :
    (s.dropNotices slot).pending = s.pending := rfl

/-! ### freeCtx -/

@[simp] theorem State.freeCtx_port (s : State) (tag : Tag) :
    (s.freeCtx tag).port = s.port := by unfold State.freeCtx; split <;> [rfl; (split <;> rfl)]
@[simp] theorem State.freeCtx_table (s : State) (tag : Tag) :
    (s.freeCtx tag).table = s.table := by unfold State.freeCtx; split <;> [rfl; (split <;> rfl)]
@[simp] theorem State.freeCtx_act (s : State) (tag : Tag) :
    (s.freeCtx tag).act = s.act := by unfold State.freeCtx; split <;> [rfl; (split <;> rfl)]
@[simp] theorem State.freeCtx_refillAt (s : State) (tag : Tag) :
    (s.freeCtx tag).refillAt = s.refillAt := by unfold State.freeCtx; split <;> [rfl; (split <;> rfl)]
@[simp] theorem State.freeCtx_comb (s : State) (tag : Tag) :
    (s.freeCtx tag).comb = s.comb := by unfold State.freeCtx; split <;> [rfl; (split <;> rfl)]
@[simp] theorem State.freeCtx_settings (s : State) (tag : Tag) :
    (s.freeCtx tag).settings = s.settings := by unfold State.freeCtx; split <;> [rfl; (split <;> rfl)]
@[simp] theorem State.freeCtx_counters (s : State) (tag : Tag) :
    (s.freeCtx tag).counters = s.counters := by unfold State.freeCtx; split <;> [rfl; (split <;> rfl)]
@[simp] theorem State.freeCtx_dram (s : State) (tag : Tag) :
    (s.freeCtx tag).dram = s.dram := by unfold State.freeCtx; split <;> [rfl; (split <;> rfl)]
@[simp] theorem State.freeCtx_now (s : State) (tag : Tag) :
    (s.freeCtx tag).now = s.now := by unfold State.freeCtx; split <;> [rfl; (split <;> rfl)]
@[simp] theorem State.freeCtx_outputs (s : State) (tag : Tag) :
    (s.freeCtx tag).outputs = s.outputs := by unfold State.freeCtx; split <;> [rfl; (split <;> rfl)]
@[simp] theorem State.freeCtx_pending (s : State) (tag : Tag) :
    (s.freeCtx tag).pending = s.pending := by unfold State.freeCtx; split <;> [rfl; (split <;> rfl)]

/-! ### freeCtxs -/

@[simp] theorem State.freeCtxs_port (s : State) (p : Ctx → Bool) :
    (s.freeCtxs p).port = s.port := rfl
@[simp] theorem State.freeCtxs_table (s : State) (p : Ctx → Bool) :
    (s.freeCtxs p).table = s.table := rfl
@[simp] theorem State.freeCtxs_act (s : State) (p : Ctx → Bool) :
    (s.freeCtxs p).act = s.act := rfl
@[simp] theorem State.freeCtxs_refillAt (s : State) (p : Ctx → Bool) :
    (s.freeCtxs p).refillAt = s.refillAt := rfl
@[simp] theorem State.freeCtxs_comb (s : State) (p : Ctx → Bool) :
    (s.freeCtxs p).comb = s.comb := rfl
@[simp] theorem State.freeCtxs_settings (s : State) (p : Ctx → Bool) :
    (s.freeCtxs p).settings = s.settings := rfl
@[simp] theorem State.freeCtxs_counters (s : State) (p : Ctx → Bool) :
    (s.freeCtxs p).counters = s.counters := rfl
@[simp] theorem State.freeCtxs_dram (s : State) (p : Ctx → Bool) :
    (s.freeCtxs p).dram = s.dram := rfl
@[simp] theorem State.freeCtxs_now (s : State) (p : Ctx → Bool) :
    (s.freeCtxs p).now = s.now := rfl
@[simp] theorem State.freeCtxs_outputs (s : State) (p : Ctx → Bool) :
    (s.freeCtxs p).outputs = s.outputs := rfl
@[simp] theorem State.freeCtxs_pending (s : State) (p : Ctx → Bool) :
    (s.freeCtxs p).pending = s.pending := rfl

/-! ### freeSlot -/

@[simp] theorem State.freeSlot_act (s : State) (slot : Slot) :
    (s.freeSlot slot).act = s.act := rfl
@[simp] theorem State.freeSlot_rackUnit (s : State) (slot : Slot) :
    (s.freeSlot slot).rackUnit = s.rackUnit := rfl
@[simp] theorem State.freeSlot_refillAt (s : State) (slot : Slot) :
    (s.freeSlot slot).refillAt = s.refillAt := rfl
@[simp] theorem State.freeSlot_fetch (s : State) (slot : Slot) :
    (s.freeSlot slot).fetch = s.fetch := rfl
@[simp] theorem State.freeSlot_comb (s : State) (slot : Slot) :
    (s.freeSlot slot).comb = s.comb := rfl
@[simp] theorem State.freeSlot_settings (s : State) (slot : Slot) :
    (s.freeSlot slot).settings = s.settings := rfl
@[simp] theorem State.freeSlot_counters (s : State) (slot : Slot) :
    (s.freeSlot slot).counters = s.counters := rfl
@[simp] theorem State.freeSlot_dram (s : State) (slot : Slot) :
    (s.freeSlot slot).dram = s.dram := rfl
@[simp] theorem State.freeSlot_now (s : State) (slot : Slot) :
    (s.freeSlot slot).now = s.now := rfl
@[simp] theorem State.freeSlot_outputs (s : State) (slot : Slot) :
    (s.freeSlot slot).outputs = s.outputs := rfl
@[simp] theorem State.freeSlot_pending (s : State) (slot : Slot) :
    (s.freeSlot slot).pending = s.pending := rfl

/-! ### writeEntry -/

@[simp] theorem State.writeEntry_table (s : State) (c : CplEntry) (cw : Dma) :
    (s.writeEntry c cw).table = s.table := rfl
@[simp] theorem State.writeEntry_act (s : State) (c : CplEntry) (cw : Dma) :
    (s.writeEntry c cw).act = s.act := rfl
@[simp] theorem State.writeEntry_rackUnit (s : State) (c : CplEntry) (cw : Dma) :
    (s.writeEntry c cw).rackUnit = s.rackUnit := rfl
@[simp] theorem State.writeEntry_refillAt (s : State) (c : CplEntry) (cw : Dma) :
    (s.writeEntry c cw).refillAt = s.refillAt := rfl
@[simp] theorem State.writeEntry_fetch (s : State) (c : CplEntry) (cw : Dma) :
    (s.writeEntry c cw).fetch = s.fetch := rfl
@[simp] theorem State.writeEntry_comb (s : State) (c : CplEntry) (cw : Dma) :
    (s.writeEntry c cw).comb = s.comb := rfl
@[simp] theorem State.writeEntry_settings (s : State) (c : CplEntry) (cw : Dma) :
    (s.writeEntry c cw).settings = s.settings := rfl
@[simp] theorem State.writeEntry_counters (s : State) (c : CplEntry) (cw : Dma) :
    (s.writeEntry c cw).counters = s.counters := rfl
@[simp] theorem State.writeEntry_dram (s : State) (c : CplEntry) (cw : Dma) :
    (s.writeEntry c cw).dram = s.dram := rfl
@[simp] theorem State.writeEntry_now (s : State) (c : CplEntry) (cw : Dma) :
    (s.writeEntry c cw).now = s.now := rfl
@[simp] theorem State.writeEntry_pending (s : State) (c : CplEntry) (cw : Dma) :
    (s.writeEntry c cw).pending = s.pending := rfl

/-! ### clearQuiesce -/

@[simp] theorem State.clearQuiesce_table (s : State) :
    (s.clearQuiesce).table = s.table := rfl
@[simp] theorem State.clearQuiesce_act (s : State) :
    (s.clearQuiesce).act = s.act := rfl
@[simp] theorem State.clearQuiesce_rackUnit (s : State) :
    (s.clearQuiesce).rackUnit = s.rackUnit := rfl
@[simp] theorem State.clearQuiesce_refillAt (s : State) :
    (s.clearQuiesce).refillAt = s.refillAt := rfl
@[simp] theorem State.clearQuiesce_fetch (s : State) :
    (s.clearQuiesce).fetch = s.fetch := rfl
@[simp] theorem State.clearQuiesce_comb (s : State) :
    (s.clearQuiesce).comb = s.comb := rfl
@[simp] theorem State.clearQuiesce_settings (s : State) :
    (s.clearQuiesce).settings = s.settings := rfl
@[simp] theorem State.clearQuiesce_counters (s : State) :
    (s.clearQuiesce).counters = s.counters := rfl
@[simp] theorem State.clearQuiesce_dram (s : State) :
    (s.clearQuiesce).dram = s.dram := rfl
@[simp] theorem State.clearQuiesce_now (s : State) :
    (s.clearQuiesce).now = s.now := rfl
@[simp] theorem State.clearQuiesce_outputs (s : State) :
    (s.clearQuiesce).outputs = s.outputs := rfl
@[simp] theorem State.clearQuiesce_pending (s : State) :
    (s.clearQuiesce).pending = s.pending := rfl

/-! ### advanceHead -/

@[simp] theorem State.advanceHead_table (s : State) (i : Intake) :
    (s.advanceHead i).table = s.table := rfl
@[simp] theorem State.advanceHead_act (s : State) (i : Intake) :
    (s.advanceHead i).act = s.act := rfl
@[simp] theorem State.advanceHead_rackUnit (s : State) (i : Intake) :
    (s.advanceHead i).rackUnit = s.rackUnit := rfl
@[simp] theorem State.advanceHead_refillAt (s : State) (i : Intake) :
    (s.advanceHead i).refillAt = s.refillAt := rfl
@[simp] theorem State.advanceHead_fetch (s : State) (i : Intake) :
    (s.advanceHead i).fetch = s.fetch := rfl
@[simp] theorem State.advanceHead_comb (s : State) (i : Intake) :
    (s.advanceHead i).comb = s.comb := rfl
@[simp] theorem State.advanceHead_settings (s : State) (i : Intake) :
    (s.advanceHead i).settings = s.settings := rfl
@[simp] theorem State.advanceHead_counters (s : State) (i : Intake) :
    (s.advanceHead i).counters = s.counters := rfl
@[simp] theorem State.advanceHead_dram (s : State) (i : Intake) :
    (s.advanceHead i).dram = s.dram := rfl
@[simp] theorem State.advanceHead_now (s : State) (i : Intake) :
    (s.advanceHead i).now = s.now := rfl
@[simp] theorem State.advanceHead_outputs (s : State) (i : Intake) :
    (s.advanceHead i).outputs = s.outputs := rfl
@[simp] theorem State.advanceHead_pending (s : State) (i : Intake) :
    (s.advanceHead i).pending = s.pending := rfl

/-! ### modRec -/

@[simp] theorem State.modRec_port (s : State) (slot : Slot) (f : Record → Record) :
    (s.modRec slot f).port = s.port := by unfold State.modRec; split <;> rfl
@[simp] theorem State.modRec_act (s : State) (slot : Slot) (f : Record → Record) :
    (s.modRec slot f).act = s.act := by unfold State.modRec; split <;> rfl
@[simp] theorem State.modRec_rackUnit (s : State) (slot : Slot) (f : Record → Record) :
    (s.modRec slot f).rackUnit = s.rackUnit := by unfold State.modRec; split <;> rfl
@[simp] theorem State.modRec_refillAt (s : State) (slot : Slot) (f : Record → Record) :
    (s.modRec slot f).refillAt = s.refillAt := by unfold State.modRec; split <;> rfl
@[simp] theorem State.modRec_fetch (s : State) (slot : Slot) (f : Record → Record) :
    (s.modRec slot f).fetch = s.fetch := by unfold State.modRec; split <;> rfl
@[simp] theorem State.modRec_comb (s : State) (slot : Slot) (f : Record → Record) :
    (s.modRec slot f).comb = s.comb := by unfold State.modRec; split <;> rfl
@[simp] theorem State.modRec_settings (s : State) (slot : Slot) (f : Record → Record) :
    (s.modRec slot f).settings = s.settings := by unfold State.modRec; split <;> rfl
@[simp] theorem State.modRec_counters (s : State) (slot : Slot) (f : Record → Record) :
    (s.modRec slot f).counters = s.counters := by unfold State.modRec; split <;> rfl
@[simp] theorem State.modRec_dram (s : State) (slot : Slot) (f : Record → Record) :
    (s.modRec slot f).dram = s.dram := by unfold State.modRec; split <;> rfl
@[simp] theorem State.modRec_now (s : State) (slot : Slot) (f : Record → Record) :
    (s.modRec slot f).now = s.now := by unfold State.modRec; split <;> rfl
@[simp] theorem State.modRec_outputs (s : State) (slot : Slot) (f : Record → Record) :
    (s.modRec slot f).outputs = s.outputs := by unfold State.modRec; split <;> rfl
@[simp] theorem State.modRec_pending (s : State) (slot : Slot) (f : Record → Record) :
    (s.modRec slot f).pending = s.pending := by unfold State.modRec; split <;> rfl

/-! ### modSurv -/

@[simp] theorem State.modSurv_port (s : State) (slot : Slot) (pos : Nat) (f : Survivor → Survivor) :
    (s.modSurv slot pos f).port = s.port := State.modRec_port s slot _
@[simp] theorem State.modSurv_act (s : State) (slot : Slot) (pos : Nat) (f : Survivor → Survivor) :
    (s.modSurv slot pos f).act = s.act := State.modRec_act s slot _
@[simp] theorem State.modSurv_rackUnit (s : State) (slot : Slot) (pos : Nat) (f : Survivor → Survivor) :
    (s.modSurv slot pos f).rackUnit = s.rackUnit := State.modRec_rackUnit s slot _
@[simp] theorem State.modSurv_refillAt (s : State) (slot : Slot) (pos : Nat) (f : Survivor → Survivor) :
    (s.modSurv slot pos f).refillAt = s.refillAt := State.modRec_refillAt s slot _
@[simp] theorem State.modSurv_fetch (s : State) (slot : Slot) (pos : Nat) (f : Survivor → Survivor) :
    (s.modSurv slot pos f).fetch = s.fetch := State.modRec_fetch s slot _
@[simp] theorem State.modSurv_comb (s : State) (slot : Slot) (pos : Nat) (f : Survivor → Survivor) :
    (s.modSurv slot pos f).comb = s.comb := State.modRec_comb s slot _
@[simp] theorem State.modSurv_settings (s : State) (slot : Slot) (pos : Nat) (f : Survivor → Survivor) :
    (s.modSurv slot pos f).settings = s.settings := State.modRec_settings s slot _
@[simp] theorem State.modSurv_counters (s : State) (slot : Slot) (pos : Nat) (f : Survivor → Survivor) :
    (s.modSurv slot pos f).counters = s.counters := State.modRec_counters s slot _
@[simp] theorem State.modSurv_dram (s : State) (slot : Slot) (pos : Nat) (f : Survivor → Survivor) :
    (s.modSurv slot pos f).dram = s.dram := State.modRec_dram s slot _
@[simp] theorem State.modSurv_now (s : State) (slot : Slot) (pos : Nat) (f : Survivor → Survivor) :
    (s.modSurv slot pos f).now = s.now := State.modRec_now s slot _
@[simp] theorem State.modSurv_outputs (s : State) (slot : Slot) (pos : Nat) (f : Survivor → Survivor) :
    (s.modSurv slot pos f).outputs = s.outputs := State.modRec_outputs s slot _
@[simp] theorem State.modSurv_pending (s : State) (slot : Slot) (pos : Nat) (f : Survivor → Survivor) :
    (s.modSurv slot pos f).pending = s.pending := State.modRec_pending s slot _

/-! ### enterPlanWait -/

@[simp] theorem State.enterPlanWait_rackUnit (s : State) (slot : Slot) (r : Record) :
    (s.enterPlanWait slot r).rackUnit = s.rackUnit := by simp [State.enterPlanWait]
@[simp] theorem State.enterPlanWait_refillAt (s : State) (slot : Slot) (r : Record) :
    (s.enterPlanWait slot r).refillAt = s.refillAt := by simp [State.enterPlanWait]
@[simp] theorem State.enterPlanWait_fetch (s : State) (slot : Slot) (r : Record) :
    (s.enterPlanWait slot r).fetch = s.fetch := by simp [State.enterPlanWait]
@[simp] theorem State.enterPlanWait_comb (s : State) (slot : Slot) (r : Record) :
    (s.enterPlanWait slot r).comb = s.comb := by simp [State.enterPlanWait]
@[simp] theorem State.enterPlanWait_settings (s : State) (slot : Slot) (r : Record) :
    (s.enterPlanWait slot r).settings = s.settings := by simp [State.enterPlanWait]
@[simp] theorem State.enterPlanWait_counters (s : State) (slot : Slot) (r : Record) :
    (s.enterPlanWait slot r).counters = s.counters := by simp [State.enterPlanWait]
@[simp] theorem State.enterPlanWait_dram (s : State) (slot : Slot) (r : Record) :
    (s.enterPlanWait slot r).dram = s.dram := by simp [State.enterPlanWait]
@[simp] theorem State.enterPlanWait_now (s : State) (slot : Slot) (r : Record) :
    (s.enterPlanWait slot r).now = s.now := by simp [State.enterPlanWait]
@[simp] theorem State.enterPlanWait_outputs (s : State) (slot : Slot) (r : Record) :
    (s.enterPlanWait slot r).outputs = s.outputs := by simp [State.enterPlanWait]
@[simp] theorem State.enterPlanWait_pending (s : State) (slot : Slot) (r : Record) :
    (s.enterPlanWait slot r).pending = s.pending := by simp [State.enterPlanWait]

/-! ### enterCombining -/

@[simp] theorem State.enterCombining_port (s : State) (slot : Slot) (r : Record) :
    (s.enterCombining slot r).port = s.port := rfl
@[simp] theorem State.enterCombining_act (s : State) (slot : Slot) (r : Record) :
    (s.enterCombining slot r).act = s.act := rfl
@[simp] theorem State.enterCombining_rackUnit (s : State) (slot : Slot) (r : Record) :
    (s.enterCombining slot r).rackUnit = s.rackUnit := rfl
@[simp] theorem State.enterCombining_refillAt (s : State) (slot : Slot) (r : Record) :
    (s.enterCombining slot r).refillAt = s.refillAt := rfl
@[simp] theorem State.enterCombining_fetch (s : State) (slot : Slot) (r : Record) :
    (s.enterCombining slot r).fetch = s.fetch := rfl
@[simp] theorem State.enterCombining_settings (s : State) (slot : Slot) (r : Record) :
    (s.enterCombining slot r).settings = s.settings := rfl
@[simp] theorem State.enterCombining_counters (s : State) (slot : Slot) (r : Record) :
    (s.enterCombining slot r).counters = s.counters := rfl
@[simp] theorem State.enterCombining_dram (s : State) (slot : Slot) (r : Record) :
    (s.enterCombining slot r).dram = s.dram := rfl
@[simp] theorem State.enterCombining_now (s : State) (slot : Slot) (r : Record) :
    (s.enterCombining slot r).now = s.now := rfl
@[simp] theorem State.enterCombining_outputs (s : State) (slot : Slot) (r : Record) :
    (s.enterCombining slot r).outputs = s.outputs := rfl
@[simp] theorem State.enterCombining_pending (s : State) (slot : Slot) (r : Record) :
    (s.enterCombining slot r).pending = s.pending := rfl

/-! ### enterLost -/

@[simp] theorem State.enterLost_refillAt (s : State) (slot : Slot) (r : Record) (margin : Int) :
    (s.enterLost slot r margin).refillAt = s.refillAt := by simp [State.enterLost]
@[simp] theorem State.enterLost_comb (s : State) (slot : Slot) (r : Record) (margin : Int) :
    (s.enterLost slot r margin).comb = s.comb := by simp [State.enterLost]
@[simp] theorem State.enterLost_settings (s : State) (slot : Slot) (r : Record) (margin : Int) :
    (s.enterLost slot r margin).settings = s.settings := by simp [State.enterLost]
@[simp] theorem State.enterLost_dram (s : State) (slot : Slot) (r : Record) (margin : Int) :
    (s.enterLost slot r margin).dram = s.dram := by simp [State.enterLost]
@[simp] theorem State.enterLost_now (s : State) (slot : Slot) (r : Record) (margin : Int) :
    (s.enterLost slot r margin).now = s.now := by simp [State.enterLost]
@[simp] theorem State.enterLost_outputs (s : State) (slot : Slot) (r : Record) (margin : Int) :
    (s.enterLost slot r margin).outputs = s.outputs := by simp [State.enterLost]
@[simp] theorem State.enterLost_pending (s : State) (slot : Slot) (r : Record) (margin : Int) :
    (s.enterLost slot r margin).pending = s.pending := by simp [State.enterLost]

/-! ### What an update leaves as it is, read through the tables -/

@[simp] theorem State.rackAt_setRec (s : State) (slot : Slot) (r : Option Record) (k' : RackId) :
    (s.setRec slot r).rackAt k' = s.rackAt k' := by simp [State.rackAt]
@[simp] theorem State.ctxAt_setRec (s : State) (slot : Slot) (r : Option Record) (tag' : Tag) :
    (s.setRec slot r).ctxAt tag' = s.ctxAt tag' := by simp [State.ctxAt]
@[simp] theorem State.recAt_setRack (s : State) (rack : RackId) (e : Rack) (slot' : Slot) :
    (s.setRack rack e).recAt slot' = s.recAt slot' := by simp [State.recAt]
@[simp] theorem State.ctxAt_setRack (s : State) (rack : RackId) (e : Rack) (tag' : Tag) :
    (s.setRack rack e).ctxAt tag' = s.ctxAt tag' := by simp [State.ctxAt]
@[simp] theorem State.recAt_setCtx (s : State) (tag : Tag) (c : Option Ctx) (slot' : Slot) :
    (s.setCtx tag c).recAt slot' = s.recAt slot' := by simp [State.recAt]
@[simp] theorem State.rackAt_setCtx (s : State) (tag : Tag) (c : Option Ctx) (k' : RackId) :
    (s.setCtx tag c).rackAt k' = s.rackAt k' := by simp [State.rackAt]
@[simp] theorem State.recAt_setVerify (s : State) (slab : Slab) (mark : Bool) (slot' : Slot) :
    (s.setVerify slab mark).recAt slot' = s.recAt slot' := by simp [State.recAt]
@[simp] theorem State.rackAt_setVerify (s : State) (slab : Slab) (mark : Bool) (k' : RackId) :
    (s.setVerify slab mark).rackAt k' = s.rackAt k' := by simp [State.rackAt]
@[simp] theorem State.recAt_clearVerify (s : State) (slabs : List Slab) (slot' : Slot) :
    (s.clearVerify slabs).recAt slot' = s.recAt slot' := by simp [State.recAt]
@[simp] theorem State.rackAt_clearVerify (s : State) (slabs : List Slab) (k' : RackId) :
    (s.clearVerify slabs).rackAt k' = s.rackAt k' := by simp [State.rackAt]
@[simp] theorem State.recAt_setPort (s : State) (p : PortNo) (f : FabricPort) (slot' : Slot) :
    (s.setPort p f).recAt slot' = s.recAt slot' := by simp [State.recAt]
@[simp] theorem State.rackAt_setPort (s : State) (p : PortNo) (f : FabricPort) (k' : RackId) :
    (s.setPort p f).rackAt k' = s.rackAt k' := by simp [State.rackAt]
@[simp] theorem State.recAt_emit (s : State) (o : List Output) (slot' : Slot) :
    (s.emit o).recAt slot' = s.recAt slot' := by simp [State.recAt]
@[simp] theorem State.rackAt_emit (s : State) (o : List Output) (k' : RackId) :
    (s.emit o).rackAt k' = s.rackAt k' := by simp [State.rackAt]
@[simp] theorem State.ctxAt_emit (s : State) (o : List Output) (tag' : Tag) :
    (s.emit o).ctxAt tag' = s.ctxAt tag' := by simp [State.ctxAt]
@[simp] theorem State.recAt_delist (s : State) (slot : Slot) (slot' : Slot) :
    (s.delist slot).recAt slot' = s.recAt slot' := by simp [State.recAt]
@[simp] theorem State.rackAt_delist (s : State) (slot : Slot) (k' : RackId) :
    (s.delist slot).rackAt k' = s.rackAt k' := by simp [State.rackAt]
@[simp] theorem State.ctxAt_delist (s : State) (slot : Slot) (tag' : Tag) :
    (s.delist slot).ctxAt tag' = s.ctxAt tag' := by simp [State.ctxAt]
@[simp] theorem State.recAt_enlist (s : State) (slot : Slot) (slot' : Slot) :
    (s.enlist slot).recAt slot' = s.recAt slot' := by simp [State.recAt]
@[simp] theorem State.rackAt_enlist (s : State) (slot : Slot) (k' : RackId) :
    (s.enlist slot).rackAt k' = s.rackAt k' := by simp [State.rackAt]
@[simp] theorem State.ctxAt_enlist (s : State) (slot : Slot) (tag' : Tag) :
    (s.enlist slot).ctxAt tag' = s.ctxAt tag' := by simp [State.ctxAt]
@[simp] theorem State.recAt_relist (s : State) (slot : Slot) (slot' : Slot) :
    (s.relist slot).recAt slot' = s.recAt slot' := by simp [State.recAt]
@[simp] theorem State.rackAt_relist (s : State) (slot : Slot) (k' : RackId) :
    (s.relist slot).rackAt k' = s.rackAt k' := by simp [State.rackAt]
@[simp] theorem State.ctxAt_relist (s : State) (slot : Slot) (tag' : Tag) :
    (s.relist slot).ctxAt tag' = s.ctxAt tag' := by simp [State.ctxAt]
@[simp] theorem State.recAt_releaseSlabs (s : State) (slabs : List Slab) (slot' : Slot) :
    (s.releaseSlabs slabs).recAt slot' = s.recAt slot' := by simp [State.recAt]
@[simp] theorem State.rackAt_releaseSlabs (s : State) (slabs : List Slab) (k' : RackId) :
    (s.releaseSlabs slabs).rackAt k' = s.rackAt k' := by simp [State.rackAt]
@[simp] theorem State.recAt_notify (s : State) (n : Notice) (slot' : Slot) :
    (s.notify n).recAt slot' = s.recAt slot' := by simp [State.recAt]
@[simp] theorem State.rackAt_notify (s : State) (n : Notice) (k' : RackId) :
    (s.notify n).rackAt k' = s.rackAt k' := by simp [State.rackAt]
@[simp] theorem State.ctxAt_notify (s : State) (n : Notice) (tag' : Tag) :
    (s.notify n).ctxAt tag' = s.ctxAt tag' := by simp [State.ctxAt]
@[simp] theorem State.recAt_dropNotices (s : State) (slot : Slot) (slot' : Slot) :
    (s.dropNotices slot).recAt slot' = s.recAt slot' := by simp [State.recAt]
@[simp] theorem State.rackAt_dropNotices (s : State) (slot : Slot) (k' : RackId) :
    (s.dropNotices slot).rackAt k' = s.rackAt k' := by simp [State.rackAt]
@[simp] theorem State.ctxAt_dropNotices (s : State) (slot : Slot) (tag' : Tag) :
    (s.dropNotices slot).ctxAt tag' = s.ctxAt tag' := by simp [State.ctxAt]
@[simp] theorem State.recAt_freeCtx (s : State) (tag : Tag) (slot' : Slot) :
    (s.freeCtx tag).recAt slot' = s.recAt slot' := by simp [State.recAt]
@[simp] theorem State.recAt_freeCtxs (s : State) (p : Ctx → Bool) (slot' : Slot) :
    (s.freeCtxs p).recAt slot' = s.recAt slot' := by simp [State.recAt]
@[simp] theorem State.rackAt_freeSlot (s : State) (slot : Slot) (k' : RackId) :
    (s.freeSlot slot).rackAt k' = s.rackAt k' := by simp [State.rackAt]
@[simp] theorem State.ctxAt_freeSlot (s : State) (slot : Slot) (tag' : Tag) :
    (s.freeSlot slot).ctxAt tag' = s.ctxAt tag' := by simp [State.ctxAt]
@[simp] theorem State.recAt_writeEntry (s : State) (c : CplEntry) (cw : Dma) (slot' : Slot) :
    (s.writeEntry c cw).recAt slot' = s.recAt slot' := by simp [State.recAt]
@[simp] theorem State.rackAt_writeEntry (s : State) (c : CplEntry) (cw : Dma) (k' : RackId) :
    (s.writeEntry c cw).rackAt k' = s.rackAt k' := by simp [State.rackAt]
@[simp] theorem State.ctxAt_writeEntry (s : State) (c : CplEntry) (cw : Dma) (tag' : Tag) :
    (s.writeEntry c cw).ctxAt tag' = s.ctxAt tag' := by simp [State.ctxAt]
@[simp] theorem State.recAt_clearQuiesce (s : State) (slot' : Slot) :
    (s.clearQuiesce).recAt slot' = s.recAt slot' := by simp [State.recAt]
@[simp] theorem State.rackAt_clearQuiesce (s : State) (k' : RackId) :
    (s.clearQuiesce).rackAt k' = s.rackAt k' := by simp [State.rackAt]
@[simp] theorem State.ctxAt_clearQuiesce (s : State) (tag' : Tag) :
    (s.clearQuiesce).ctxAt tag' = s.ctxAt tag' := by simp [State.ctxAt]
@[simp] theorem State.recAt_advanceHead (s : State) (i : Intake) (slot' : Slot) :
    (s.advanceHead i).recAt slot' = s.recAt slot' := by simp [State.recAt]
@[simp] theorem State.rackAt_advanceHead (s : State) (i : Intake) (k' : RackId) :
    (s.advanceHead i).rackAt k' = s.rackAt k' := by simp [State.rackAt]
@[simp] theorem State.ctxAt_advanceHead (s : State) (i : Intake) (tag' : Tag) :
    (s.advanceHead i).ctxAt tag' = s.ctxAt tag' := by simp [State.ctxAt]
@[simp] theorem State.rackAt_modRec (s : State) (slot : Slot) (f : Record → Record) (k' : RackId) :
    (s.modRec slot f).rackAt k' = s.rackAt k' := by simp [State.rackAt]
@[simp] theorem State.ctxAt_modRec (s : State) (slot : Slot) (f : Record → Record) (tag' : Tag) :
    (s.modRec slot f).ctxAt tag' = s.ctxAt tag' := by simp [State.ctxAt]
@[simp] theorem State.rackAt_modSurv (s : State) (slot : Slot) (pos : Nat) (f : Survivor → Survivor) (k' : RackId) :
    (s.modSurv slot pos f).rackAt k' = s.rackAt k' := by simp [State.rackAt]
@[simp] theorem State.ctxAt_modSurv (s : State) (slot : Slot) (pos : Nat) (f : Survivor → Survivor) (tag' : Tag) :
    (s.modSurv slot pos f).ctxAt tag' = s.ctxAt tag' := by simp [State.ctxAt]
@[simp] theorem State.rackAt_enterPlanWait (s : State) (slot : Slot) (r : Record) (k' : RackId) :
    (s.enterPlanWait slot r).rackAt k' = s.rackAt k' := by simp [State.rackAt]
@[simp] theorem State.ctxAt_enterPlanWait (s : State) (slot : Slot) (r : Record) (tag' : Tag) :
    (s.enterPlanWait slot r).ctxAt tag' = s.ctxAt tag' := by simp [State.ctxAt]
@[simp] theorem State.rackAt_enterCombining (s : State) (slot : Slot) (r : Record) (k' : RackId) :
    (s.enterCombining slot r).rackAt k' = s.rackAt k' := by simp [State.rackAt]
@[simp] theorem State.ctxAt_enterCombining (s : State) (slot : Slot) (r : Record) (tag' : Tag) :
    (s.enterCombining slot r).ctxAt tag' = s.ctxAt tag' := by simp [State.ctxAt]

/-! ### Table elements after a write -/

@[simp] theorem State.recAt_setRec_same (s : State) (slot : Slot) (r : Option Record) :
    (s.setRec slot r).recAt slot = r := by
  simp [State.recAt, State.setRec]

theorem State.recAt_setRec_ne (s : State) {a b : Slot} (r : Option Record) (h : b ≠ a) :
    (s.setRec a r).recAt b = s.recAt b := by
  have hv : a.val ≠ b.val := fun e => h (Fin.ext e.symm)
  simp [State.recAt, State.setRec, hv]

@[simp] theorem State.rackAt_setRack_same (s : State) (k : RackId) (e : Rack) : (s.setRack k e).rackAt k = e := by
  simp [State.rackAt, State.setRack]

theorem State.rackAt_setRack_ne (s : State) {j k : RackId} (e : Rack) (h : j ≠ k) :
    (s.setRack k e).rackAt j = s.rackAt j := by
  have hv : k.toNat ≠ j.toNat := fun x => h (BitVec.eq_of_toNat_eq x.symm)
  simp [State.rackAt, State.setRack, hv]

@[simp] theorem State.ctxAt_setCtx_same (s : State) (tag : Tag) (c : Option Ctx) :
    (s.setCtx tag c).ctxAt tag = c := by
  simp [State.ctxAt, State.setCtx]

theorem State.ctxAt_setCtx_ne (s : State) {t u : Tag} (c : Option Ctx) (h : u ≠ t) :
    (s.setCtx t c).ctxAt u = s.ctxAt u := by
  have hv : t.toNat ≠ u.toNat := fun x => h (BitVec.eq_of_toNat_eq x.symm)
  simp [State.ctxAt, State.setCtx, hv]

@[simp] theorem State.verifyAt_setVerify_same (s : State) (slab : Slab) (mark : Bool) :
    (s.setVerify slab mark).verifyAt slab = mark := by
  simp [State.verifyAt, State.setVerify]

theorem State.verifyAt_clearVerify (s : State) (slabs : List Slab) (slab : Slab) :
    (s.clearVerify slabs).verifyAt slab = if slab ∈ slabs then false else s.verifyAt slab := by
  simp only [State.verifyAt, State.clearVerify, mapVecIdx]
  simp [Vector.getElem_mk, List.getElem_zipWith]

@[simp] theorem State.portAt_setPort_same (s : State) (p : PortNo) (f : FabricPort) : (s.setPort p f).portAt p = f := by
  cases p <;> rfl

theorem State.portAt_setPort_ne (s : State) {p q : PortNo} (f : FabricPort) (h : q ≠ p) :
    (s.setPort p f).portAt q = s.portAt q := by
  cases p <;> cases q <;> first | rfl | exact absurd rfl h

/-! ### An observation that depends on one field only -/

theorem State.recAt_congr {s t : State} (h : t.table = s.table) (slot : Slot) : t.recAt slot = s.recAt slot := by
  simp [State.recAt, h]

theorem State.rackAt_congr {s t : State} (h : t.rackUnit = s.rackUnit) (k : RackId) : t.rackAt k = s.rackAt k := by
  simp [State.rackAt, h]

theorem State.ctxAt_congr {s t : State} (h : t.fetch = s.fetch) (tag : Tag) : t.ctxAt tag = s.ctxAt tag := by
  simp [State.ctxAt, h]

theorem getElem_mapVec {α β : Type} {n : Nat} (f : α → β) (v : Vector α n) (i : Nat) (h : i < n) :
    (mapVec f v)[i] = f v[i] := by
  simp [mapVec]

theorem getElem_mapVecIdx {α β : Type} {n : Nat} (f : Fin n → α → β) (v : Vector α n) (i : Nat) (h : i < n) :
    (mapVecIdx f v)[i] = f ⟨i, h⟩ v[i] := by
  simp [mapVecIdx, List.getElem_zipWith]

end Sys2Proof.Machine
end

