-- ==== Sys2Proof/Laws/Ops.lean ====
section
/-! SUPPORT. One lemma for each shared operation of Machine/Ops.lean and Machine/Settle.lean that says everything it can do,
for proofs to cite in place of unfolding it. -/

namespace Sys2Proof.Machine

/-! ## The Ready List -/

theorem mem_placeBy (before : Slot → Slot → Bool) (a b : Slot) (l : List Slot) :
    b ∈ placeBy before a l ↔ b = a ∨ b ∈ l := by
  induction l with
  | nil => simp [placeBy]
  | cons c rest ih =>
    unfold placeBy
    split
    · simp
    · simp only [List.mem_cons, ih]; tauto

@[simp] theorem State.mem_ready_delist (s : State) (slot b : Slot) :
    b ∈ (s.delist slot).act.ready ↔ b ∈ s.act.ready ∧ b ≠ slot := by
  simp [State.delist]

@[simp] theorem State.mem_ready_enlist (s : State) (slot b : Slot) :
    b ∈ (s.enlist slot).act.ready ↔ b = slot ∨ b ∈ s.act.ready := by
  simp only [State.enlist, mem_placeBy, List.mem_filter, decide_eq_true_eq]
  tauto

/-- A move within the list keeps its members. -/
@[simp] theorem State.mem_ready_relist (s : State) (slot b : Slot) :
    b ∈ (s.relist slot).act.ready ↔ b ∈ s.act.ready := by
  unfold State.relist
  split
  · rw [State.mem_ready_enlist]
    constructor
    · rintro (rfl | h) <;> assumption
    · exact Or.inr
  · rfl

@[simp] theorem State.delist_free (s : State) (slot : Slot) : (s.delist slot).act.free = s.act.free := rfl
@[simp] theorem State.enlist_free (s : State) (slot : Slot) : (s.enlist slot).act.free = s.act.free := rfl

@[simp] theorem State.relist_free (s : State) (slot : Slot) : (s.relist slot).act.free = s.act.free := by
  unfold State.relist; split <;> rfl

/-! ## The Staging Pool -/

theorem mem_insertSlab (x y : Slab) (l : List Slab) : y ∈ insertSlab x l ↔ y = x ∨ y ∈ l := by
  induction l with
  | nil => simp [insertSlab]
  | cons z rest ih =>
    unfold insertSlab
    split
    · simp
    · split
      · rename_i h; simp [h]
      · simp only [List.mem_cons, ih]; tauto

/-- Putting a slab into an ascending list keeps it ascending. -/
theorem insertSlab_pairwise {x : Slab} {l : List Slab} (h : l.Pairwise (· < ·)) : (insertSlab x l).Pairwise (· < ·) := by
  induction l with
  | nil => simp [insertSlab]
  | cons y rest ih =>
    obtain ⟨hy, hr⟩ := List.pairwise_cons.mp h
    unfold insertSlab
    split
    · rename_i hxy
      refine List.pairwise_cons.mpr ⟨fun z hz => ?_, h⟩
      rcases List.mem_cons.mp hz with rfl | hz
      · exact hxy
      · exact lt_trans hxy (hy z hz)
    · split
      · exact h
      · rename_i h1 h2
        refine List.pairwise_cons.mpr ⟨fun z hz => ?_, ih hr⟩
        rcases (mem_insertSlab x z rest).mp hz with rfl | hz
        · exact lt_of_le_of_ne (not_lt.mp h1) (Ne.symm h2)
        · exact hy z hz

theorem mem_foldr_insertSlab (new : List Slab) (y : Slab) (l : List Slab) :
    y ∈ new.foldr insertSlab l ↔ y ∈ new ∨ y ∈ l := by
  induction new with
  | nil => simp
  | cons x rest ih => simp only [List.foldr_cons, mem_insertSlab, ih, List.mem_cons]; tauto

theorem foldr_insertSlab_pairwise (new : List Slab) {l : List Slab} (h : l.Pairwise (· < ·)) :
    (new.foldr insertSlab l).Pairwise (· < ·) := by
  induction new with
  | nil => exact h
  | cons x rest ih => exact insertSlab_pairwise ih

@[simp] theorem State.mem_free_releaseSlabs (s : State) (slabs : List Slab) (y : Slab) :
    y ∈ (s.releaseSlabs slabs).act.free ↔ y ∈ slabs ∨ y ∈ s.act.free := by
  simp [State.releaseSlabs, mem_foldr_insertSlab]

@[simp] theorem State.releaseSlabs_ready (s : State) (slabs : List Slab) :
    (s.releaseSlabs slabs).act.ready = s.act.ready := by
  simp [State.releaseSlabs]

/-! ## Notices -/

/-- R168: a notice is placed at the tail, or stands for one of its kind and slot that is pending. -/
theorem State.notify_notices (s : State) (n : Notice) :
    (s.notify n).port.notices = if s.port.notices.any n.sameKindAndSlot then s.port.notices
      else s.port.notices ++ [n] := by
  unfold State.notify; split <;> rfl

/-- Placing a notice changes nothing of the Request Port but the Notice Queue. -/
theorem State.notify_port (s : State) (n : Notice) :
    (s.notify n).port = { s.port with notices := (s.notify n).port.notices } := by
  unfold State.notify; split <;> rfl

/-! ## Fetch contexts -/

/-- R104: what the freeing of a context does. -/
theorem State.freeCtx_cases (s : State) (tag : Tag) :
    (s.ctxAt tag = none ∧ s.freeCtx tag = s)
    ∨ (∃ c, s.ctxAt tag = some c ∧ s.ctxRack c = none ∧ s.freeCtx tag = s.setCtx tag none)
    ∨ (∃ c k, s.ctxAt tag = some c ∧ s.ctxRack c = some k
        ∧ s.freeCtx tag = (s.setCtx tag none).setRack k ((s.rackAt k).freed 1)) := by
  unfold State.freeCtx
  split
  · exact .inl ⟨by assumption, rfl⟩
  · rename_i c hc
    split
    · exact .inr (.inl ⟨c, hc, by assumption, rfl⟩)
    · rename_i k hk
      exact .inr (.inr ⟨c, k, hc, hk, rfl⟩)

/-- R104: the contexts left open by the freeing of those that satisfy `p`. -/
theorem State.ctxAt_freeCtxs (s : State) (p : Ctx → Bool) (tag : Tag) :
    (s.freeCtxs p).ctxAt tag = (s.ctxAt tag).filter fun c => !p c := by
  simp only [State.ctxAt, State.freeCtxs, getElem_mapVec]

/-- R104: a rack's entry after the freeing of the contexts that satisfy `p`. -/
theorem State.rackAt_freeCtxs (s : State) (p : Ctx → Bool) (k : RackId) :
    (s.freeCtxs p).rackAt k = (s.rackAt k).freed (s.ctxCount p k) := by
  simp only [State.rackAt, State.freeCtxs, getElem_mapVecIdx]
  rfl

/-! ## Margin and its outcome -/

/-- R11, R12, R31: the outcomes of a margin recomputation, each with its condition. -/
theorem State.reckon_cases (s : State) (slot : Slot) (lostSelected : Bool) :
    (s.recAt slot = none ∧ s.reckon slot lostSelected = s)
    ∨ ∃ r, s.recAt slot = some r ∧
      ((r.live = false ∧ s.reckon slot lostSelected = s)
      ∨ (r.live = true ∧ r.freshMargin < 0 ∧ s.reckon slot lostSelected = s.enterLost slot r r.freshMargin)
      ∨ (r.live = true ∧ 0 ≤ r.freshMargin ∧ ∃ r' : Record,
          r' = ({ r with margin := r.freshMargin } : Record).rescore ∧
          ((r.state = .planWait ∧ s.reckon slot lostSelected =
              if lostSelected then (s.setRec slot (some r')).notify (.planNeeded slot) else s.setRec slot (some r'))
          ∨ (r.state ≠ .planWait ∧ r.selectedLost = true ∧ s.reckon slot lostSelected = s.enterPlanWait slot r')
          ∨ (r.state ≠ .planWait ∧ r.selectedLost = false
              ∧ s.reckon slot lostSelected = (s.setRec slot (some r')).relist slot)))) := by
  unfold State.reckon
  split
  · exact .inl ⟨by assumption, rfl⟩
  · rename_i r hr
    refine .inr ⟨r, hr, ?_⟩
    by_cases hl : r.live = false
    · exact .inl ⟨hl, by simp [hl]⟩
    · have hl' : r.live = true := by simpa using hl
      by_cases hm : r.freshMargin < 0
      · exact .inr (.inl ⟨hl', hm, by simp [hl', hm]⟩)
      · refine .inr (.inr ⟨hl', not_lt.mp hm, _, rfl, ?_⟩)
        by_cases hp : r.state = .planWait
        · exact .inl ⟨hp, by simp [hl', hm, hp]⟩
        · by_cases hs : r.selectedLost = true
          · exact .inr (.inl ⟨hp, hs, by simp [hl', hm, hp, hs]⟩)
          · have hs' : r.selectedLost = false := by simpa using hs
            exact .inr (.inr ⟨hp, hs', by simp [hl', hm, hp, hs']⟩)

/-! ## Activation -/

/-- R47: what it takes for a head to be activated. -/
theorem State.headToActivate_some {s : State} {slot : Slot} {r : Record} :
    s.headToActivate = some (slot, r)
      ↔ (∃ rest, s.act.ready = slot :: rest) ∧ s.recAt slot = some r ∧ s.mayActivate r = true := by
  unfold State.headToActivate
  split
  · rename_i h; simp [h]
  · rename_i a rest h
    split
    · rename_i h'
      simp only [h, List.cons.injEq, reduceCtorEq, false_iff, not_and]
      rintro ⟨_, rfl, -⟩ hr
      rw [h'] at hr; cases hr
    · rename_i x h'
      rw [h]
      constructor
      · intro hs
        split at hs
        · rename_i hm
          obtain ⟨rfl, rfl⟩ := Prod.mk.inj (Option.some.inj hs)
          exact ⟨⟨rest, rfl⟩, h', hm⟩
        · cases hs
      · rintro ⟨⟨_, hc⟩, hr, hm⟩
        obtain ⟨rfl, -⟩ := List.cons.inj hc
        rw [h'] at hr
        obtain rfl := Option.some.inj hr
        simp [hm]

/-- R47: an activation takes its record out of the Ready List. -/
theorem State.activate_ready (s : State) (slot : Slot) (r : Record) :
    (s.activate slot r).act.ready = s.act.ready.filter (· ≠ slot) := rfl

/-- R47: an activation changes the records, the Ready List, the free slabs and the verify marks, and nothing else. -/
theorem State.activate_rest (s : State) (slot : Slot) (r : Record) :
    s.activate slot r = { s with
      table := { s.table with slots := (s.activate slot r).table.slots }, act := (s.activate slot r).act
      fetch := { s.fetch with verify := (s.activate slot r).fetch.verify } } := rfl

/-- R48: what holds before a run of activations and is kept by each of them holds after it. -/
theorem State.activateHeads_induction {P : State → Prop}
    (step : ∀ s slot r, P s → s.headToActivate = some (slot, r) → P (s.activate slot r)) (n : Nat) {s : State} (h : P s) :
    P (s.activateHeads n) := by
  induction n generalizing s with
  | zero => exact h
  | succ n ih =>
    unfold State.activateHeads
    split
    · exact h
    · rename_i slot r hs
      exact ih (step s slot r h hs)

theorem State.headsServed_induction {P : State → Prop}
    (step : ∀ s slot r, P s → s.headToActivate = some (slot, r) → P (s.activate slot r)) {s : State} (h : P s) :
    P s.headsServed := State.activateHeads_induction step _ h

/-- R48: where the head waits or there is none, no activation is made. -/
theorem State.activateHeads_waits {s : State} (h : s.headToActivate = none) (n : Nat) : s.activateHeads n = s := by
  cases n with
  | zero => rfl
  | succ n => unfold State.activateHeads; rw [h]

theorem State.headsServed_waits {s : State} (h : s.headToActivate = none) : s.headsServed = s :=
  State.activateHeads_waits h _

/-- R48: a run of activations changes the records, the Ready List, the free slabs and the verify marks, and nothing else. -/
theorem State.headsServed_rest (s : State) :
    s.headsServed = { s with
      table := { s.table with slots := s.headsServed.table.slots }, act := s.headsServed.act
      fetch := { s.fetch with verify := s.headsServed.fetch.verify } } := by
  refine State.headsServed_induction (P := fun u => u = { s with
    table := { s.table with slots := u.table.slots }, act := u.act
    fetch := { s.fetch with verify := u.fetch.verify } }) (fun u slot r h _ => ?_) rfl
  rw [State.activate_rest, h]

@[simp] theorem State.headsServed_port (s : State) : s.headsServed.port = s.port := by rw [State.headsServed_rest]
@[simp] theorem State.headsServed_rackUnit (s : State) : s.headsServed.rackUnit = s.rackUnit := by rw [State.headsServed_rest]
@[simp] theorem State.headsServed_refillAt (s : State) : s.headsServed.refillAt = s.refillAt := by rw [State.headsServed_rest]
@[simp] theorem State.headsServed_comb (s : State) : s.headsServed.comb = s.comb := by rw [State.headsServed_rest]
@[simp] theorem State.headsServed_settings (s : State) : s.headsServed.settings = s.settings := by rw [State.headsServed_rest]
@[simp] theorem State.headsServed_counters (s : State) : s.headsServed.counters = s.counters := by rw [State.headsServed_rest]
@[simp] theorem State.headsServed_dram (s : State) : s.headsServed.dram = s.dram := by rw [State.headsServed_rest]
@[simp] theorem State.headsServed_now (s : State) : s.headsServed.now = s.now := by rw [State.headsServed_rest]
@[simp] theorem State.headsServed_outputs (s : State) : s.headsServed.outputs = s.outputs := by rw [State.headsServed_rest]
@[simp] theorem State.headsServed_pending (s : State) : s.headsServed.pending = s.pending := by rw [State.headsServed_rest]
@[simp] theorem State.headsServed_index (s : State) : s.headsServed.table.index = s.table.index := by
  rw [State.headsServed_rest]

@[simp] theorem State.ctxAt_headsServed (s : State) (tag : Tag) : s.headsServed.ctxAt tag = s.ctxAt tag := by
  rw [State.headsServed_rest]; rfl

@[simp] theorem State.rackAt_headsServed (s : State) (k : RackId) : s.headsServed.rackAt k = s.rackAt k := by
  rw [State.headsServed_rest]; rfl

/-! ## Issue -/

/-- R79, R80: what it takes for a decision to find a candidate. -/
theorem State.decision_some {s : State} {tag : Tag} {slot : Slot} {r : Record} {pos : Nat} {v : Survivor} :
    s.decision = some (tag, slot, r, pos, v) ↔ s.partGates = true ∧ s.lowestFreeTag = some tag
      ∧ s.firstIssue = some (slot, pos) ∧ s.recAt slot = some r ∧ r.survs[pos]? = some v := by
  unfold State.decision
  by_cases hg : s.partGates = true
  · simp only [hg, if_true, Option.bind_eq_some_iff, Option.map_eq_some_iff, Prod.mk.injEq]
    constructor
    · rintro ⟨_, ht, ⟨_, _⟩, hf, _, hr, _, hv, rfl, rfl, rfl, rfl, rfl⟩
      exact ⟨trivial, ht, hf, hr, hv⟩
    · rintro ⟨-, ht, hf, hr, hv⟩
      exact ⟨tag, ht, (slot, pos), hf, r, hr, v, hv, rfl, rfl, rfl, rfl, rfl⟩
  · simp [hg]

/-- R81: an issue changes the records, the rack table, the Fetch Engine and the PULLs sent counter, and nothing else. -/
theorem State.issueTo_rest (s : State) (tag : Tag) (slot : Slot) (r : Record) (pos : Nat) (v : Survivor) :
    s.issueTo tag slot r pos v = { s with
      table := { s.table with slots := (s.issueTo tag slot r pos v).table.slots }
      rackUnit := { s.rackUnit with racks := (s.issueTo tag slot r pos v).rackUnit.racks }
      fetch := (s.issueTo tag slot r pos v).fetch
      counters := { s.counters with pullsSent := satAdd s.counters.pullsSent 1 } } := by
  simp only [State.issueTo, State.setPort]
  split <;> rfl

/-- R81: what holds before a run of issues and is kept by each of them holds after it. -/
theorem State.issueRun_induction {P : State → Prop}
    (step : ∀ s tag slot r pos v, P s → s.decision = some (tag, slot, r, pos, v) → P (s.issueTo tag slot r pos v))
    (n : Nat) {s : State} (h : P s) : P (s.issueRun n) := by
  induction n generalizing s with
  | zero => exact h
  | succ n ih =>
    unfold State.issueRun
    split
    · exact h
    · rename_i tag slot r pos v hs
      exact ih (step s tag slot r pos v h hs)

/-- R80: where a decision finds no candidate, no issue is made. -/
theorem State.issueRun_waits {s : State} (h : s.decision = none) (n : Nat) : s.issueRun n = s := by
  cases n with
  | zero => rfl
  | succ n => unfold State.issueRun; rw [h]

/-! ## The start of a pass and the beginning of an intake -/

/-- R139: the two outcomes of an examination of the start conditions. -/
theorem State.passStarted_cases (s : State) :
    (s.mayStartPass = false ∧ s.passStarted = s)
    ∨ ∃ slot rest, s.comb.queue = slot :: rest ∧ s.comb.pass = none ∧ s.port.quiesce = false
      ∧ s.passStarted = { s with
          comb := { queue := rest, pass := some { slot, target := 0, checks := [], mismatch := none } } } := by
  by_cases h : s.mayStartPass = true
  · right
    obtain ⟨⟨hq, hp⟩, hz⟩ : (s.comb.queue ≠ [] ∧ s.comb.pass = none) ∧ s.port.quiesce = false := by
      simpa [State.mayStartPass] using h
    obtain ⟨slot, rest, hc⟩ := List.exists_cons_of_ne_nil hq
    exact ⟨slot, rest, hc, hp, hz, by rw [State.passStarted, if_pos h, hc]⟩
  · exact .inl ⟨by simpa using h, by rw [State.passStarted, if_neg h]⟩

/-- R155, R156: the two outcomes of an examination of the conditions of an intake. -/
theorem State.intakeBegun_cases (s : State) :
    (s.mayReserve = false ∧ s.intakeBegun = s)
    ∨ (s.mayReserve = true ∧ s.intakeBegun = { s with
        port := { s.port with intake := .reading }
        outputs := s.outputs ++ [.hostRead (s.port.reqBase.toNat + 64 * s.port.reqHead) 64] }) := by
  by_cases h : s.mayReserve = true
  · exact .inr ⟨h, by rw [State.intakeBegun, if_pos h]; rfl⟩
  · exact .inl ⟨by simpa using h, by rw [State.intakeBegun, if_neg h]⟩

/-! ## What every event finds done -/

/-- An event acts on the settled state. -/
@[simp] theorem State.event_eq (s : State) (f : State → State) : s.event f = .next (f s.settled) := rfl

/-- R48, R81, R82, R139: what the three arbiters keep, one step at a time, they keep together. -/
theorem State.arbitersServed_induction {P : State → Prop}
    (act : ∀ s slot r, P s → s.headToActivate = some (slot, r) → P (s.activate slot r))
    (start : ∀ s, P s → P s.passStarted)
    (issue : ∀ s tag slot r pos v, P s → s.decision = some (tag, slot, r, pos, v) → P (s.issueTo tag slot r pos v))
    {s : State} (h : P s) : P s.arbitersServed :=
  State.issueRun_induction issue _ (start _ (State.headsServed_induction act h))

/-- R48, R81, R82, R139, R156: what each step that the part makes of itself keeps, the settling keeps. -/
theorem State.settled_induction {P : State → Prop}
    (act : ∀ s slot r, P s → s.headToActivate = some (slot, r) → P (s.activate slot r))
    (start : ∀ s, P s → P s.passStarted)
    (issue : ∀ s tag slot r pos v, P s → s.decision = some (tag, slot, r, pos, v) → P (s.issueTo tag slot r pos v))
    (intake : ∀ s, P s → P s.intakeBegun) {s : State} (h : P s) : P s.settled :=
  intake _ (State.arbitersServed_induction act start issue h)

/-- Where the arbiters have nothing to do, they leave the state as it is. -/
theorem State.arbitersServed_of_quiet {s : State} (hh : s.headToActivate = none) (hp : s.mayStartPass = false)
    (hd : s.decision = none) : s.arbitersServed = s := by
  have h : s.passStarted = s := by simp [State.passStarted, hp]
  rw [State.arbitersServed, State.headsServed_waits hh, h, State.candidatesServed, State.issueRun_waits hd]

/-- Where the part has nothing to do of itself, the state is settled. -/
theorem State.settled_of_quiet {s : State} (hh : s.headToActivate = none) (hp : s.mayStartPass = false)
    (hd : s.decision = none) (hr : s.mayReserve = false) : s.settled = s := by
  rw [State.settled, State.arbitersServed_of_quiet hh hp hd, State.intakeBegun, hr]; rfl

/-- R48, R81, R139: what the three arbiters leave as it is. -/
theorem State.arbitersServed_rest (s : State) :
    s.arbitersServed = { s with
      table := { s.table with slots := s.arbitersServed.table.slots }, act := s.arbitersServed.act
      rackUnit := { s.rackUnit with racks := s.arbitersServed.rackUnit.racks }, fetch := s.arbitersServed.fetch
      comb := s.arbitersServed.comb
      counters := { s.counters with pullsSent := s.arbitersServed.counters.pullsSent } } := by
  refine State.arbitersServed_induction (P := fun u => u = { s with
    table := { s.table with slots := u.table.slots }, act := u.act
    rackUnit := { s.rackUnit with racks := u.rackUnit.racks }, fetch := u.fetch, comb := u.comb
    counters := { s.counters with pullsSent := u.counters.pullsSent } }) ?_ ?_ ?_ rfl
  · intro u slot r h _
    rw [State.activate_rest, h]
  · intro u h
    rcases State.passStarted_cases u with ⟨-, e⟩ | ⟨_, _, -, -, -, e⟩
    · rw [e]; exact h
    · rw [e, h]
  · intro u tag slot r pos v h _
    rw [State.issueTo_rest, h]

/-- R48, R81, R139, R156: what the settling leaves as it is. -/
theorem State.settled_rest (s : State) :
    s.settled = { s with
      port := { s.port with intake := s.settled.port.intake }
      table := { s.table with slots := s.settled.table.slots }, act := s.settled.act
      rackUnit := { s.rackUnit with racks := s.settled.rackUnit.racks }, fetch := s.settled.fetch
      comb := s.settled.comb, counters := { s.counters with pullsSent := s.settled.counters.pullsSent }
      outputs := s.settled.outputs } := by
  have h := State.arbitersServed_rest s
  rcases State.intakeBegun_cases s.arbitersServed with ⟨-, e⟩ | ⟨-, e⟩ <;> rw [State.settled, e]
  · conv_lhs => rw [h]
    rw [h]
  · conv_lhs => rw [h]
    rw [h]

@[simp] theorem State.arbitersServed_port (s : State) : s.arbitersServed.port = s.port := by
  rw [State.arbitersServed_rest]
@[simp] theorem State.arbitersServed_outputs (s : State) : s.arbitersServed.outputs = s.outputs := by
  rw [State.arbitersServed_rest]
@[simp] theorem State.settled_notices (s : State) : s.settled.port.notices = s.port.notices := by rw [State.settled_rest]
@[simp] theorem State.settled_quiesce (s : State) : s.settled.port.quiesce = s.port.quiesce := by rw [State.settled_rest]
@[simp] theorem State.settled_run (s : State) : s.settled.port.run = s.port.run := by rw [State.settled_rest]
@[simp] theorem State.settled_armed (s : State) : s.settled.port.armed = s.port.armed := by rw [State.settled_rest]
@[simp] theorem State.settled_index (s : State) : s.settled.table.index = s.table.index := by rw [State.settled_rest]
@[simp] theorem State.settled_sweep (s : State) : s.settled.rackUnit.sweep = s.rackUnit.sweep := by
  rw [State.settled_rest]
@[simp] theorem State.settled_refillAt (s : State) : s.settled.refillAt = s.refillAt := by rw [State.settled_rest]
@[simp] theorem State.settled_settings (s : State) : s.settled.settings = s.settings := by rw [State.settled_rest]
@[simp] theorem State.settled_dram (s : State) : s.settled.dram = s.dram := by rw [State.settled_rest]
@[simp] theorem State.settled_now (s : State) : s.settled.now = s.now := by rw [State.settled_rest]
@[simp] theorem State.settled_pending (s : State) : s.settled.pending = s.pending := by rw [State.settled_rest]

/-! ## Completion Ring entries and the taking of a request -/

/-- R165, R172: what the writing of an entry does to the Request Port and to the outside. -/
theorem State.writeEntry_port (s : State) (c : CplEntry) (cw : Dma) :
    (s.writeEntry c cw).port =
      { s.port with producer := (s.port.producer + 1) % 2 ^ s.port.cplSize, armed := false } := rfl

theorem State.writeEntry_outputs (s : State) (c : CplEntry) (cw : Dma) :
    (s.writeEntry c cw).outputs = s.outputs ++ s.entryOutputs c cw := by
  cases cw <;> rfl

/-- A command for an entry that is not being read does nothing. -/
theorem State.takeChanging_idle {s : State} {e : Entry} {op : Byte} (h : s.takes e op = false) (cw : Dma)
    (body : State → State × Reply) : s.takeChanging e op cw body = s := by
  simp [State.takeChanging, h]

theorem State.takeReading_idle {s : State} {e : Entry} {op : Byte} (h : s.takes e op = false) (cw : Dma)
    (body : State → State × Reply) : s.takeReading e op cw body = s := by
  simp [State.takeReading, h]

theorem State.takes_of_reading {s : State} {e : Entry} {op : Byte} (h : s.reading e op) : s.takes e op = true := by
  simp [State.takes, h.1, h.2]

/-- R160: a state-changing request is taken with the quiesce flag clear. -/
theorem State.takeChanging_reading {s : State} {e : Entry} {op : Byte} (h : s.reading e op) (cw : Dma)
    (body : State → State × Reply) :
    s.takeChanging e op cw body = (body s.clearQuiesce).1.finishTaking e cw (body s.clearQuiesce).2 := by
  simp [State.takeChanging, State.takes_of_reading h]

theorem State.takeReading_reading {s : State} {e : Entry} {op : Byte} (h : s.reading e op) (cw : Dma)
    (body : State → State × Reply) : s.takeReading e op cw body = (body s).1.finishTaking e cw (body s).2 := by
  simp [State.takeReading, State.takes_of_reading h]

/-- R156, R166, R167: the three ends of a taking. -/
theorem State.finishTaking_answer (s : State) (e : Entry) (cw : Dma) (a : Answer) :
    s.finishTaking e cw (.answer a) = (s.advanceHead .idle).writeEntry (a.entry (reqIdOf e) s.port.reqHead) cw := rfl

theorem State.finishTaking_deferred (s : State) (e : Entry) (cw : Dma) :
    s.finishTaking e cw .deferred = s.advanceHead .idle := rfl

theorem State.finishTaking_buffer (s : State) (e : Entry) (cw : Dma) (job : BufferJob) :
    s.finishTaking e cw (.buffer job) = s.advanceHead (.writing job) := rfl

/-- The end of a taking changes only the Request Port and what has left the part. -/
theorem State.finishTaking_rest (s : State) (e : Entry) (cw : Dma) (r : Reply) :
    s.finishTaking e cw r =
      { s with port := (s.finishTaking e cw r).port, outputs := (s.finishTaking e cw r).outputs } := by
  cases r <;> rfl

/-- An answered taking is what `Answered` says, `before` being what the request's own rule let leave the part. -/
theorem State.answered_of_body {s u : State} {e : Entry} {cw : Dma} {a : Answer} {q : Bool} {before : List Output}
    (hport : u.port = { s.port with quiesce := q, notices := u.port.notices }) (hout : u.outputs = s.outputs ++ before) :
    Answered s (u.finishTaking e cw (.answer a)) before (a.entry (reqIdOf e) s.port.reqHead) cw q := by
  constructor
  · simp only [State.finishTaking_answer, State.writeEntry_port, State.advanceHead, ringNext]
    rw [hport]
  · rw [State.finishTaking_answer, State.writeEntry_outputs]
    simp only [State.entryOutputs, State.advanceHead, hout]
    rw [hport]

/-! ## Freeing a slot -/

/-- R2, R171: the slot is FREE afterwards. -/
@[simp] theorem State.recAt_freeSlot_same (s : State) (slot : Slot) : (s.freeSlot slot).recAt slot = none := by
  simp [State.freeSlot, State.recAt, State.setRec, State.dropNotices]

/-- Every other slot keeps its record. -/
theorem State.recAt_freeSlot_ne (s : State) {a b : Slot} (h : b ≠ a) : (s.freeSlot a).recAt b = s.recAt b := by
  have hv : a.val ≠ b.val := fun e => h (Fin.ext e.symm)
  simp [State.freeSlot, State.recAt, State.setRec, State.dropNotices, hv]

/-- R171: no notice of the slot is left. -/
theorem State.freeSlot_notices (s : State) (slot : Slot) (n : Notice) :
    n ∈ (s.freeSlot slot).port.notices ↔ n ∈ s.port.notices ∧ n.slot ≠ some slot := by
  simp [State.freeSlot, State.setRec, State.dropNotices]

end Sys2Proof.Machine
end

