-- ==== Sys2Proof/Tests/Slice0.lean ====
section
/-! SUPPORT. Tests: a smoke test of every check of `Instr.wellFormed`, the worked examples of the book, and for each
obligation with premises a theorem `test_meets_…` that shows concrete operands and a concrete state that meet them together. -/

namespace Sys2Proof.Tests

open Sys2Proof.Machine

/-! ## Concrete operands and states -/

/-- An entry that begins with the bytes given and is zero after them. -/
def entry (bytes : List Byte) : Entry :=
  ⟨⟨padTo 64 bytes⟩, by simp [padTo, zeros]; omega⟩

/-- An entry of opcode `op`, request id 0x0102, the length given, stripe id 7, address 4096 and the inline operands given. -/
def request (op : Byte) (len : Nat) (operands : List Byte) : Entry :=
  entry ([op, 0#8, 0x02#8, 0x01#8] ++ leBytes 4 len ++ leBytes 8 7 ++ leBytes 8 4096 ++ operands)

/-- A survivor on a rack, holder address 9 and service port 5. -/
def surv (frag : Nat) (rack : RackId) (state : SurvState) (staging : Option Staging) : Survivor :=
  { frag, rack, addr := 9, svc := 5, state, staging, retries := 0, holdoff := none, faultOffset := none }

/-- A coverage map of the eight granules of a 4 KiB fragment. -/
def cover (mark : Bool) : List Bool := List.replicate 8 mark

/-- A record of stripe 7 with k = 2, n = 4, one target, and the survivors given in the plan 0, 1. -/
def record (state : RecState) (active : Bool) (hold : Hold) (margin : Int) (survs : List Survivor) : Record :=
  { stripe := 7, k := 2, n := 4, lcode := 1, boost := 0, serial := 0, order := 0, state, active, hold, margin, age := 0
    score := (3 - margin).toNat * 64, stall := none, fault := none
    targets := [{ frag := 3, landing := 8192, expected := 0, computed := none }], survs, plan := [0, 1], rows := [[1, 1]] }

/-- The record in QUEUED, its survivors AVAILABLE on racks 2 and 3. -/
def queued : Record := record .queued false .none 0 [surv 0 2 .available none, surv 1 3 .available none]

/-- The record in FETCHING with slabs 0 and 1. -/
def fetching (hold : Hold) (v : SurvState) (c : List Bool) : Record :=
  record .fetching true hold 0
    [surv 0 2 v (some { slab := 0, cover := c }), surv 1 3 .available (some { slab := 1, cover := cover false })]

/-- The record in COMBINING with both survivors STAGED. -/
def combining (hold : Hold) : Record :=
  record .combining true hold 0
    [surv 0 2 .staged (some { slab := 0, cover := cover true }), surv 1 3 .staged (some { slab := 1, cover := cover true })]

/-- The state after reset with a record in slot 0, the entry at the head being read. -/
def holding (r : Record) : State :=
  { State.reset with
    port := { State.reset.port with intake := .reading }
    table := { State.reset.table with index := [(7, 0)], admitted := 1 } }.setRec 0 (some r)

/-- The state after reset with the entry at the head being read. -/
def reading : State := { State.reset with port := { State.reset.port with intake := .reading } }

/-- A state with its links up. -/
def linked (s : State) : State :=
  { s with fetch := { s.fetch with port0 := { s.fetch.port0 with linkUp := true }, port1 := { s.fetch.port1 with linkUp := true } } }

/-- An OPEN context with tag 0 of the survivor at position 0 of the record in slot 0. -/
def ctx : Ctx :=
  { slot := 0, pos := 0, port := .p0, serial := 0, start := 0, span := 8192, verify := false, badCheck := false, deadline := 0 }

/-- The FETCHING record being pulled: its survivor at position 0 is PULLING in context 0, and the rack of the other has no
credit. -/
def pulling (hold : Hold) (c : List Bool) : State :=
  (((linked (holding (fetching hold .pulling c))).setCtx 0 (some ctx)).setRack 3
    { down := false, cls := .full, credit := 0, outstanding := 0 }).setRack 2
    { down := false, cls := .full, credit := 0, outstanding := 1 }

/-- A rack that is DOWN. -/
def downRack : Rack := { down := true, cls := .full, credit := 0, outstanding := 0 }

@[simp] theorem recAt_holding (r : Record) (a : Slot) : (holding r).recAt a = if a = 0 then some r else none := by
  by_cases h : a = 0
  · subst h; exact State.recAt_setRec_same _ _ _
  · rw [if_neg h, holding, State.recAt_setRec_ne _ _ h]; simp [State.recAt, State.reset, RepairTable.empty]

theorem lookup_holding (r : Record) : (holding r).lookup 7 = some (0, r) := by
  have h : (holding r).slotOf 7 = some 0 := rfl
  rw [State.lookup, h]
  simp

/-! The states of the witnesses below have nothing that the part would do of itself, so a statement about `s₀.settled` or
`s₀.arbitersServed` is about them as they stand. -/

/-- With an empty Ready List and Combine Queue, no candidate, and RUN clear or an empty Request Ring, nothing is to be done. -/
theorem settled_of_idle {s : State} (hr : s.act.ready = []) (hq : s.comb.queue = []) (hd : s.decision = none)
    (hn : s.port.run = false ∨ s.port.reqHead = s.port.reqTail) : s.settled = s ∧ s.arbitersServed = s := by
  have hh : s.headToActivate = none := by rw [State.headToActivate, hr]
  have hp : s.mayStartPass = false := by simp [State.mayStartPass, hq]
  exact ⟨State.settled_of_quiet hh hp hd (by rcases hn with h | h <;> simp [State.mayReserve, h]),
    State.arbitersServed_of_quiet hh hp hd⟩

/-- Links that are down, as after reset, let no candidate pass. -/
theorem no_decision_of_links {s : State} (hl : s.fetch.port0.linkUp = false ∧ s.fetch.port1.linkUp = false) :
    s.decision = none := by
  simp [State.decision, State.partGates, hl.1, hl.2]

theorem settled_of_links_down {s : State} (hr : s.act.ready = []) (hq : s.comb.queue = [])
    (hl : s.fetch.port0.linkUp = false ∧ s.fetch.port1.linkUp = false)
    (hn : s.port.run = false ∨ s.port.reqHead = s.port.reqTail) : s.settled = s ∧ s.arbitersServed = s :=
  settled_of_idle hr hq (no_decision_of_links hl) hn

theorem no_decision {s : State} (h : ∀ slot r, s.recAt slot = some r → ∀ pos ∈ r.plan, s.issuable r pos = false) :
    s.decision = none := by
  cases hd : s.decision with
  | none => rfl
  | some x =>
    obtain ⟨tag, slot, r, pos, v⟩ := x
    obtain ⟨-, -, hf, -, -⟩ := State.decision_some.1 hd
    obtain ⟨slot', -, h'⟩ := List.exists_of_findSome?_eq_some hf
    obtain ⟨r', hr, hm⟩ := Option.bind_eq_some_iff.1 h'
    obtain ⟨pos', hp, -⟩ := Option.map_eq_some_iff.1 hm
    have := h slot' r' hr pos' (List.mem_of_find?_eq_some hp)
    rw [List.find?_some hp] at this
    cases this

/-- The states after reset and with a record, whose links are down; whatever the request port, the rack table, the staging DRAM,
the pass in flight and the time. -/
theorem test_meets_settled (r : Record) (p : RequestPort) (k : RackUnit) (q : Option Pass) (now : Nat) (hn : p.run = false) :
    let s : State := { holding r with port := p, rackUnit := k, comb := { queue := [], pass := q }, now }
    let u : State := { reading with port := p, rackUnit := k, now }
    (s.settled = s ∧ s.arbitersServed = s) ∧ (u.settled = u ∧ u.arbitersServed = u)
    ∧ (holding r).settled = holding r ∧ State.reset.settled = State.reset
    ∧ (∀ slots, State.settled { reading with table := { reading.table with slots } }
        = { reading with table := { reading.table with slots } })
    ∧ State.settled { State.reset with port := { State.reset.port with run := true } }
        = { State.reset with port := { State.reset.port with run := true } } :=
  ⟨settled_of_links_down rfl rfl ⟨rfl, rfl⟩ (.inl hn), settled_of_links_down rfl rfl ⟨rfl, rfl⟩ (.inl hn),
    (settled_of_links_down rfl rfl ⟨rfl, rfl⟩ (.inl rfl)).1, (settled_of_links_down rfl rfl ⟨rfl, rfl⟩ (.inl rfl)).1,
    fun _ => (settled_of_links_down rfl rfl ⟨rfl, rfl⟩ (.inl rfl)).1,
    (settled_of_links_down rfl rfl ⟨rfl, rfl⟩ (.inr rfl)).1⟩

/-- The states with links up: no record, and the record being pulled, also with another rack 2, sweep or port 0 and with the
quiesce flag set. -/
theorem test_meets_settled_with_links_up (hold : Hold) (c : List Bool) (e : Rack) (w : Sweep) (p : FabricPort) (z : Bool) :
    let s := pulling hold c
    let u : State := { s with
      port := { s.port with quiesce := z }, rackUnit := { (s.setRack 2 e).rackUnit with sweep := w }
      fetch := { s.fetch with port0 := p } }
    (linked State.reset).settled = linked State.reset ∧ s.settled = s ∧ u.settled = u := by
  have key : ∀ t : State, t.act.ready = [] → t.comb.queue = [] → t.port.run = false →
      t.table = (pulling hold c).table → (t.rackAt 3).credit = 0 → t.settled = t := by
    intro t hr hq hn ht hk
    refine (settled_of_idle hr hq (no_decision fun slot r h pos hp => ?_) (.inl hn)).1
    have h' : t.recAt slot = (holding (fetching hold .pulling c)).recAt slot := State.recAt_congr ht slot
    rw [h', recAt_holding] at h
    split at h
    · obtain rfl := Option.some.inj h
      rcases List.mem_cons.1 hp with rfl | hp
      · simp [State.issuable, State.candidate, fetching, record, surv]
      · rcases List.mem_cons.1 hp with rfl | hp
        · have hg : t.rackGates 3 = false := by
            rw [State.rackGates, hk]
            simp
          show (t.candidate _ 1 && t.rackGates 3) = false
          rw [hg, Bool.and_false]
        · cases hp
    · cases h
  refine ⟨(settled_of_idle rfl rfl (no_decision fun slot r h => ?_) (.inl rfl)).1, key _ rfl rfl rfl rfl ?_,
    key _ rfl rfl rfl rfl ?_⟩
  · have h' : (linked State.reset).recAt slot = none := by simp [State.recAt, linked, State.reset, RepairTable.empty]
    rw [h'] at h; cases h
  · rw [pulling, State.rackAt_setRack_ne _ _ (by decide), State.rackAt_setRack_same]
  · show (((pulling hold c).setRack 2 e).rackAt 3).credit = 0
    rw [State.rackAt_setRack_ne _ _ (by decide), pulling, State.rackAt_setRack_ne _ _ (by decide), State.rackAt_setRack_same]

/-! ## Well-formedness: one ill-formed command for each check -/

theorem test_refuses_reset_without_its_bit : Instr.wellFormed (.controllerReset 1) = false := by decide
theorem test_refuses_run_with_reset_bit : Instr.wellFormed (.writeRun 2) = false := by decide
theorem test_refuses_named_register : Instr.wellFormed (.registerWrite 0x014 0) = false := by decide
theorem test_refuses_misaligned_register : Instr.wellFormed (.registerWrite 0x019 0) = false := by decide
theorem test_refuses_known_opcode_as_bad : Instr.wellFormed (.badRequest (request 0x0C 0 []) .ok) = false := by decide
theorem test_refuses_holdoff_position : Instr.wellFormed (.holdoffExpiry 0 15) = false := by decide
theorem test_refuses_short_span : Instr.wellFormed (.spanArrival .p0 (zeros 13)) = false := by decide
theorem test_refuses_short_end : Instr.wellFormed (.endArrival .p0 (zeros 13)) = false := by decide
theorem test_refuses_short_solicitation : Instr.wellFormed (.neighbourSolicitation .p1 (zeros 13)) = false := by decide
theorem test_refuses_short_frame : Instr.wellFormed (.frameDiscard .p1 (zeros 13)) = false := by decide

/-- Each request refuses an entry of another opcode. -/
theorem test_refuses_other_opcodes :
    let e := request 0xFF 0 []
    [Instr.openRecord e [] .ok, .cancel e .ok, .retire e .ok, .query e .ok, .reprioritize e .ok, .rackDown e .ok,
      .rackUp e .ok, .rackClass e .ok, .hold e .ok, .release e .ok, .amend e .ok, .replan e [] .ok, .quiesce e .ok,
      .setParams e [] .ok, .identify e .ok, .report e .ok].all (fun c => !c.wellFormed) = true := by decide

/-! ## The book's worked examples -/

/-- R137: the check of the nine ASCII bytes "123456789". -/
theorem test_check_of_nine_digits :
    check [0x31#8, 0x32#8, 0x33#8, 0x34#8, 0x35#8, 0x36#8, 0x37#8, 0x38#8, 0x39#8] = 0xE3069283#32 := by decide +kernel

/-- Section 8.1, the worked products. -/
theorem test_worked_products :
    gfMul 0x02 0x53 = 0xA6 ∧ gfMul 0x02 0xCA = 0x89 ∧ gfMul 0x03 0xCA = 0x43 ∧ gfMul 0x02 0x80 = 0x1D
    ∧ gfMul 0x04 0xCA = 0x0F := by decide

/-- Section 8.1, the worked target byte. -/
theorem test_worked_target_byte : gfMul 0x02 0x53 ^^^ gfMul 0x03 0xCA = 0xE5#8 := by decide

/-- Section 11.3: the Open Block with k = 3, t = 1 and s = 4 has 144 bytes. -/
theorem test_worked_open_block_size : openBlockSize [3#8, 5#8, 1#8, 4#8] = 144 := by decide

/-- R62: a RACK_DOWN that finds the sweep at position 700 sets the end point to 700 and the wrap mark. -/
theorem test_sweep_lengthened :
    Sweep.join { running := true, downSet := [5], position := 700, endPoint := 2048, wrapMark := false, waiting := [(1, 5)] } 2 6
      = { running := true, downSet := [5, 6], position := 700, endPoint := 700, wrapMark := true
          waiting := [(1, 5), (2, 6)] } := by decide

/-- R75, R76: the largest PULL costs 8192 grains, and a rack with credit 1 is left at −8191. -/
theorem test_largest_charge :
    (Rack.charged { down := false, cls := .full, credit := 1, outstanding := 0 } 1048576).credit = -8191 := by decide

/-- R39: the largest score. -/
theorem test_largest_score : ({ queued with margin := 0, boost := 3, age := 15 } : Record).rescore.score = 255 := by decide

/-- R37: code 20 is 200 ms. -/
theorem test_default_stall_period : stallPeriod 20 = some 200000 := by decide

/-- The part of a record that the book's worked sequences tabulate. -/
structure Shape where
  state : RecState
  margin : Int
  score : Nat
  survs : List SurvState
  slabs : List (Option Slab)
  deriving DecidableEq

/-- What a command leaves of the record in slot 0. -/
def shapeAfter (o : Host.Outcome State Fault Refusal) : Option Shape :=
  match o with
  | .next t => (t.recAt 0).map fun r => ⟨r.state, r.margin, r.score, r.survs.map (·.state), r.survs.map (·.slab)⟩
  | _ => none

/-- A held slab with 128 granules, all covered or none. -/
def slab (x : Slab) (mark : Bool) : Option Staging := some { slab := x, cover := List.replicate 128 mark }

/-- Section 4.1, the worked rack: two charges from the cap, a refill at REDUCED under base rate 4, and a third charge. -/
theorem test_worked_credit :
    let e : Rack := { down := false, cls := .reduced, credit := 4096, outstanding := 0 }
    let twice := (e.charged 262144).charged 262144
    (e.charged 262144).credit = 2048 ∧ twice.credit = 0 ∧ (twice.refilled 4 4096).credit = 32
    ∧ ((twice.refilled 4 4096).charged 262144).credit = -2016 := by decide

/-- The three records of section 4.5 and the racks concerned, in a part with both links up, at time 0. -/
def threeRecords : State :=
  let r (order score : Nat) (survs : List Survivor) : Record :=
    { record .fetching true .none 0 survs with lcode := 64, order, score, plan := List.range survs.length }
  let rack (cls : BudgetClass) (credit : Int) (outstanding : Nat) : Rack := { down := false, cls, credit, outstanding }
  let v (k : RackId) (st : SurvState) : Survivor := surv 0 k st (slab 0 false)
  (((((((linked State.reset).setRec 12 (some (r 5000 208
    [v 20 .pulling, v 21 .pulling, v 22 .staged, v 23 .available, { v 24 .available with holdoff := some 3000 }, v 25 .available]))).setRec 3
      (some (r 4990 135 [v 23 .available, v 30 .available, v 31 .available, v 33 .staged]))).setRec 9
      (some (r 4995 135 [v 31 .available, v 32 .available, v 34 .staged]))).setRack 23 (rack .full (-500) 1)).setRack 25
        (rack .halted 9000 0)).setRack 30 (rack .full 12000 4)).setRack 31 (rack .reduced 200 0)

/-- Section 4.5, the first decision: slot 3's position 2 is issued. With rack 31 at −1848 nothing more may be, rack 32 being at
credit 0; with racks 23 and 32 above 0 after the refill, slot 12's position 3 comes next, and then slot 9's position 1. -/
theorem test_worked_decisions :
    let rack (cls : BudgetClass) (credit : Int) (outstanding : Nat) : Rack := { down := false, cls, credit, outstanding }
    let s := threeRecords.setRack 32 (rack .trickle 0 0)
    let s' := s.setRack 31 (rack .reduced (-1848) 1)
    let s'' := s'.setRack 23 (rack .full 12 1)
    s.firstIssue = some (3, 2) ∧ s'.firstIssue = none ∧ s''.firstIssue = some (12, 3)
    ∧ ((s'.setRack 23 (rack .full (-2036) 2)).setRack 32 (rack .trickle 16 0)).firstIssue = some (9, 1)
    ∧ (s.rackAt 23).refilled 16 16384 = rack .full 12 1 ∧ (s.rackAt 25).refilled 16 16384 = rack .halted 9000 0
    ∧ (s.rackAt 30).refilled 16 16384 = rack .full 12512 4 ∧ ((s'.rackAt 31).refilled 16 16384).credit = -1720 := by
  decide +kernel

/-- Section 7.3, the worked slab exchange: position 2 gives slab 302 up to position 4, and the record becomes FETCHING. -/
theorem test_worked_slab_exchange :
    let r : Record := { record .planWait true .none 0
        [surv 0 14 .staged (slab 300 true), surv 1 15 .pulling (slab 301 false), surv 2 16 (.failed .notHeld) (slab 302 false),
          surv 3 17 .staged (slab 303 true), surv 4 18 .available none] with
      k := 4, n := 7, lcode := 16, plan := [0, 1, 2, 3]
      targets := [{ frag := 5, landing := 0, expected := 0, computed := none }, { frag := 6, landing := 0, expected := 0, computed := none }] }
    let block : List Byte := [4#8, 2#8] ++ zeros 6 ++ padTo 8 [3#8, 0#8, 1#8, 4#8] ++ zeros 8
    shapeAfter (execReplan (request 0x0C 24 []) block .ok (holding r)) = some ⟨.fetching, 0, 192,
      [.staged, .pulling, .failed .notHeld, .staged, .available], [some 300, some 301, none, some 303, some 302]⟩ := by
  decide +kernel

/-- The state of section 3.5 with a record in slot 0, visited with the down set 40, 41. -/
def visited (r : Record) : Host.Outcome State Fault Refusal :=
  execSweepVisit { holding r with rackUnit := { State.reset.rackUnit with
    sweep := { running := true, downSet := [40, 41], position := 0, endPoint := 700, wrapMark := false, waiting := [] } } }

/-- Section 3.5, the visit to slot 900: positions 0 and 3 become GONE, position 0 keeps its slab, and the record enters
PLAN_WAIT at margin 0. -/
theorem test_worked_visit_900 :
    shapeAfter (visited { record .fetching true .none 2
        [surv 0 41 .pulling (slab 600 false), surv 1 50 .staged (slab 601 true), surv 2 51 .available (slab 602 false),
          surv 3 40 .available none, surv 4 52 .available none] with k := 3, n := 6, plan := [0, 1, 2] })
      = some ⟨.planWait, 0, 192, [.gone, .staged, .available, .gone, .available],
        [some 600, some 601, some 602, none, none]⟩ := by
  decide +kernel

/-- Section 3.5, the visit to slot 1800: position 2 becomes GONE, and the QUEUED record's score goes from 132 to 196. -/
theorem test_worked_visit_1800 :
    shapeAfter (visited { record .queued false .none 1
        [surv 0 60 .available none, surv 1 61 .available none, surv 2 41 .available none] with age := 4, score := 132 })
      = some ⟨.queued, 0, 196, [.available, .available, .gone], [none, none, none]⟩ := by
  decide +kernel

/-- Section 3.5, the second visit to slot 300: three usable survivors against k = 4, and the record is LOST without slabs. -/
theorem test_worked_visit_300 :
    ∃ m < 0, shapeAfter (visited { record .planWait true .none 0
        [surv 0 40 .gone (slab 300 false), surv 1 41 .gone (slab 301 false), surv 2 42 .staged (slab 302 true),
          surv 3 43 .staged (slab 303 true), surv 4 44 .available none] with k := 4, n := 6, plan := [0, 1, 2, 3] })
      = some ⟨.lost, m, 192, [.gone, .gone, .staged, .staged, .available], [none, none, none, none, none]⟩ :=
  ⟨-1, by decide, by decide +kernel⟩

/-- A listed record at margin 0 that the free slabs let be activated, its entry being read. -/
def headReady : State := { holding queued with act := { ready := [0], free := (List.finRange 3584).take 2 } }

/-- R49: the activation of a head that may be activated comes first, and the HOLD finds the record FETCHING with its slabs. -/
theorem test_hold_finds_the_head_activated :
    shapeAfter (execHold (request 0x09 0 []) .ok headReady)
      = some ⟨.fetching, 0, 192, [.available, .available], [some 0, some 1]⟩ := by
  decide +kernel

/-- R48, R49: a head that waits is not activated, and the HOLD finds it QUEUED. -/
theorem test_waiting_head_stays :
    shapeAfter (execHold (request 0x09 0 []) .ok { headReady with act := { ready := [0], free := [5] } })
      = some ⟨.queued, 0, 192, [.available, .available], [none, none]⟩ := by
  decide +kernel

/-- A second command, whose entry is being read, after a first. -/
def andThen (o : Host.Outcome State Fault Refusal) (f : State → Host.Outcome State Fault Refusal) :
    Host.Outcome State Fault Refusal :=
  match o with
  | .next t => f { t with port := { t.port with intake := .reading } }
  | o => o

/-- The waiting slots, the slot of the pass in flight and the quiesce flag that a command leaves. -/
def combAfter (o : Host.Outcome State Fault Refusal) : Option (List Slot × Option Slot × Bool) :=
  match o with
  | .next t => some (t.comb.queue, t.comb.pass.map (·.slot), t.port.quiesce)
  | _ => none

/-- Slot 0's pass in flight, and slot 1 in the Combine Queue. -/
def twoPasses : State :=
  { (holding (combining .none)).setRec 1 (some { combining .none with stripe := 8 }) with
    comb := { queue := [1], pass := some { slot := 0, target := 0, checks := [], mismatch := none } } }

/-- R144, R146: a QUIESCE after a pass end finds the next pass started and leaves it running; taken first, it leaves slot 1 in the
queue. -/
theorem test_quiesce_at_a_pass_end :
    let quiesce := execQuiesce (request 0x10 0 []) .ok
    combAfter (andThen (execLandingFault twoPasses) quiesce) = some ([], some 1, true)
    ∧ combAfter (andThen (quiesce twoPasses) execLandingFault) = some ([1], none, true) := by
  decide +kernel

/-- R139: the request that clears the flag starts the pass of the head, and a QUIESCE after it leaves it running. -/
theorem test_cleared_flag_starts_the_pass :
    let s := { twoPasses with comb := { queue := [0, 1], pass := none }, port := { twoPasses.port with quiesce := true } }
    combAfter (andThen (execReprioritize (request 0x05 0 [3]) .ok s) (execQuiesce (request 0x10 0 []) .ok))
      = some ([1], some 0, true) := by
  decide +kernel

/-- R82: the refill that opens the credit gates of racks 2 and 3 is followed by the issues it lets happen, and a HOLD finds both
survivors PULLING. -/
theorem test_refill_is_followed_by_issues :
    let empty : Rack := { down := false, cls := .full, credit := 0, outstanding := 0 }
    let s := ((linked (holding (fetching .none .available (cover false)))).setRack 2 empty).setRack 3 empty
    let hold := execHold (request 0x09 0 []) .ok
    shapeAfter (hold s) = some ⟨.fetching, 0, 192, [.available, .available], [some 0, some 1]⟩
    ∧ shapeAfter (andThen (execRefill { s with now := 100 }) hold)
      = some ⟨.fetching, 0, 192, [.pulling, .pulling], [some 0, some 1]⟩ := by
  decide +kernel

/-- R149, R156: a WRITE_RUN of 0 finds the intake begun that could begin. -/
theorem test_run_cleared_after_the_intake_begins :
    let p := { State.reset.port with run := true, reqTail := 1 }
    execWriteRun 0 { State.reset with port := p }
      = .next { State.reset with port := { p with run := false, intake := .reading }, outputs := [.hostRead 0 64] } := rfl

/-- Section 7.8, step 2: the AMEND of position 0 to rack 41, which is UP again, gives margin 1 and score 134, and the record stays in
PLAN_WAIT. -/
theorem test_worked_amend :
    shapeAfter (execAmend (request 0x0B 0 ([0#8, 0#8, 41#8, 0#8] ++ beBytes 2 5 ++ zeros 2 ++ beBytes 16 9)) .ok
      (holding { record .planWait true .granted 0
        [surv 0 41 .gone (slab 600 false), surv 1 50 .staged (slab 601 true), surv 2 51 .available (slab 602 false),
          surv 3 40 .gone none, surv 4 52 .available none] with k := 3, n := 6, plan := [0, 1, 2], age := 6, score := 198 }))
      = some ⟨.planWait, 1, 134, [.available, .staged, .available, .gone, .available],
        [some 600, some 601, some 602, none, none]⟩ := by
  decide +kernel

/-! ## The premises of the obligations can be met: steps, registers, intake and notices -/

theorem test_meets_idle_step : State.reset.pending = [] := rfl

theorem test_meets_controller_reset : (2#32).getLsbD 1 = true := by decide

theorem test_meets_write_run :
    let written : List (BitVec 12) :=
      [0x000#12, 0x008#12, 0x00C#12, 0x010#12, 0x014#12, 0x020#12, 0x024#12, 0x028#12, 0x030#12, 0x034#12]
    (1#32).getLsbD 1 = false ∧ 0x004#12 ∉ written ∧ 0x018#12 ∉ written ∧ 0x02C#12 ∉ written ∧ 0xFFC#12 ∉ written := by decide

theorem test_meets_ring_placement :
    State.reset.port.run = false ∧ State.reset.port.intake = .idle ∧ (holding queued).port.intake ≠ .idle
    ∧ { State.reset with port := { State.reset.port with run := true } }.port.run = true := by decide

theorem test_meets_ring_positions : State.reset.port.producer < 2 ^ State.reset.port.cplSize := by decide

/-- The last position of the smallest ring. -/
theorem test_meets_ring_positions_at_the_end :
    let s := { State.reset with port := { State.reset.port with producer := 63 } }
    s.port.producer < 2 ^ s.port.cplSize ∧ s.room = 0 := by decide

theorem test_meets_attention_arm :
    (1#32).getLsbD 0 = true ∧ (2#32).getLsbD 0 = false ∧ State.reset.port.producer = State.reset.port.cplHead
    ∧ { State.reset with port := { State.reset.port with producer := 1 } }.port.producer ≠ State.reset.port.cplHead := by
  decide

/-- R172: the MSI of a write of 1 while already armed leaves the part armed; one of a disarmed part disarms again. -/
theorem test_arming_twice :
    let s (armed : Bool) := { State.reset with port := { State.reset.port with producer := 1, armed } }
    execAttentionArm 1 (s true) = .next { s true with outputs := [.msi] }
    ∧ execAttentionArm 1 (s false) = .next { s false with outputs := [.msi] } := ⟨rfl, rfl⟩

/-- R155: the entry at position 5 of a ring at 0x10000 lies at 0x10140. -/
theorem test_entry_read_address :
    let p := { State.reset.port with run := true, reqBase := 0x10000, reqHead := 5, reqTail := 6 }
    execIntakeReservation { State.reset with port := p } =
      .next { State.reset with port := { p with intake := .reading }, outputs := [.hostRead 0x10140 64] } := rfl

/-- An intake may begin: RUN is 1, an entry waits, and the room is 1, its least value. -/
theorem test_meets_intake_reservation :
    let s := { State.reset with port := { State.reset.port with run := true, reqTail := 1, producer := 62 } }
    s.port.run = true ∧ s.port.reqHead ≠ s.port.reqTail ∧ s.port.intake = .idle ∧ 1 ≤ s.room ∧ s.room = 1 := by decide

/-- Each of the four grounds on which none begins. -/
theorem test_meets_no_intake :
    State.reset.port.run = false ∧ State.reset.port.reqHead = State.reset.port.reqTail ∧ (holding queued).port.intake ≠ .idle
    ∧ { State.reset with port := { State.reset.port with producer := 63 } }.room = 0 := by decide

theorem test_meets_entry_read_fault : (holding queued).port.intake = .reading := rfl

/-- The opcodes on either side of the known ones. -/
theorem test_meets_bad_request :
    ∀ op ∈ [0x00#8, 0x0D#8, 0x0F#8, 0x14#8, 0xFF#8], opcodeOf (request op 0 []) ∉ [0x01#8, 0x02#8, 0x03#8, 0x04#8, 0x05#8, 0x06#8,
      0x07#8, 0x08#8, 0x09#8, 0x0A#8, 0x0B#8, 0x0C#8, 0x10#8, 0x11#8, 0x12#8, 0x13#8] := by decide

theorem test_meets_buffer_write_done :
    let job : BufferJob :=
      { reqId := 1, ringPos := 0, slot := 0, stripe := 0, addr := 4096, bytes := identifyBlock, restore := none }
    { State.reset with port := { State.reset.port with intake := .writing job } }.port.intake = .writing job := rfl

/-- A notice waits and the room is 1 or more. -/
theorem test_meets_notice_write :
    let s := { holding queued with port := { State.reset.port with notices := [.planNeeded 0], producer := 62 } }
    s.recAt 0 = some queued ∧ s.port.notices = .planNeeded 0 :: [] ∧ 1 ≤ s.room :=
  ⟨recAt_holding _ _, rfl, by decide⟩

/-- A sweep at its end point that waits for the last of 2048 pending SWEEP_DONE notices to be written. -/
theorem test_meets_notice_write_with_sweep_end :
    let rest : List Notice := List.replicate 2047 (.sweepDone 1 2)
    let s := { State.reset with
      port := { State.reset.port with notices := .sweepDone 0 1 :: rest }
      rackUnit := { State.reset.rackUnit with
        sweep := { running := true, downSet := [1], position := 2048, endPoint := 2048, wrapMark := false, waiting := [(9, 1)] } } }
    s.port.notices = .sweepDone 0 1 :: rest ∧ 1 ≤ s.room
    ∧ s.rackUnit.sweep.running = true ∧ s.rackUnit.sweep.wrapMark = false
    ∧ s.rackUnit.sweep.position = s.rackUnit.sweep.endPoint
    ∧ 2048 < s.sweepDonePending + s.rackUnit.sweep.waiting.length
    ∧ { s with port := { s.port with notices := rest } }.sweepDonePending + s.rackUnit.sweep.waiting.length ≤ 2048 := by
  decide +kernel

theorem test_meets_no_notice_write :
    State.reset.port.notices = [] ∧ { State.reset with port := { State.reset.port with producer := 63 } }.room = 0 := by decide

/-! ## Formats -/

theorem test_meets_snapshot_layout :
    queued.targets[0]? = some { frag := 3, landing := 8192, expected := 0, computed := none }
    ∧ queued.survs[1]? = some (surv 1 3 .available none) ∧ queued.plan[1]? = some 1 ∧ queued.rows[0]? = some [1, 1]
    ∧ queued.t ≤ 1 ∧ queued.s ≤ 14 ∧ queued.plan.length ≤ 15 ∧ (queued.rows.getD 0 []).length ≤ 2
    ∧ (queued.rows.getD 3 []).length ≤ 0 := by decide

theorem test_meets_settings_round_trip :
    Settings.default.inRange
    ∧ { Settings.default with
        spanCode := 1, idleTimeout := 255, retryLimit := 7, stallCode := 255, baseRate := 64, outLimit := 32
        bucketDepth := 4095, reserve := 1024, busyFloor := 100 }.inRange
    ∧ (holding queued).reading (request 0x11 80 []) 0x11#8 ∧ 80 ≤ lengthOf (request 0x11 80 []) := by
  refine ⟨?_, ?_, ⟨rfl, by decide⟩, by decide⟩ <;> unfold Settings.inRange <;> decide

theorem test_meets_pull_frame : 255 < 256 ∧ 2 ^ 32 - 512 < 2 ^ 32 ∧ 1048576 < 2 ^ 32 ∧ 8192 < 65536 := by decide

/-- R175: the places of the tag and of the serial of a PULL. -/
theorem test_tag_and_serial_of_a_pull :
    (pullMessage 0xAB 0x1234 7 3 0 4096 8192 true false).take 6 = [1#8, 1#8, 0xAB#8, 1#8, 0x12#8, 0x34#8] := by decide +kernel

/-! ## The requests -/

/-- An Open Block with k = 2, n = 4, t = 1 and s = 2: target 3, survivors 0 and 1 on racks 2 and 3, the plan 0, 1 and
the row 1, 1. It has 96 bytes. -/
def openBlock : List Byte :=
  [2#8, 4#8, 1#8, 2#8, 1#8, 0#8] ++ zeros 10
    ++ ([3#8, 0#8, 0#8, 0#8] ++ leBytes 4 0 ++ leBytes 8 8192)
    ++ ([0#8, 2#8] ++ beBytes 2 5 ++ beBytes 16 9 ++ zeros 4) ++ ([1#8, 3#8] ++ beBytes 2 5 ++ beBytes 16 9 ++ zeros 4)
    ++ padTo 8 [0#8, 1#8] ++ padTo 8 [1#8, 1#8]

/-- R21: the header alone where the block length is short of the full size, both reads where it is not, and none where it is
short of the header. -/
theorem test_block_reads :
    blockReads 16 openBlockSize 96 openBlock 4096 = [.hostRead 4096 16, .hostRead 4112 80]
    ∧ blockReads 16 openBlockSize 95 openBlock 4096 = [.hostRead 4096 16]
    ∧ blockReads 16 openBlockSize 15 openBlock 4096 = [] := by
  decide +kernel

theorem recAt_reading (a : Slot) : reading.recAt a = none := by
  simp [reading, State.recAt, State.reset, RepairTable.empty]

/-- The block read is exactly as long as its header says. -/
theorem test_meets_open_admits :
    let e := request 0x01 96 []
    let o := readOpenBlock (openBlock.take (openBlockSize openBlock))
    reading.reading e 0x01#8 ∧ 16 ≤ lengthOf e ∧ openBlockSize openBlock = 96 ∧ openBlockSize openBlock ≤ lengthOf e
    ∧ openBlockSize openBlock ≤ openBlock.length ∧ o.shapeOk = true ∧ (∀ a, (stripeOf e, a) ∉ reading.table.index)
    ∧ reading.recAt 0 = none ∧ (∀ a, a < (0 : Slot) → reading.recAt a ≠ none) ∧ o.plan.Nodup
    ∧ (∀ p ∈ o.plan, ∃ v, o.survs[p]? = some v ∧ (reading.rackAt v.rack).down = false) := by
  refine ⟨⟨rfl, by decide⟩, by decide, by decide +kernel, by decide +kernel, by decide +kernel, by decide +kernel,
    fun _ => List.not_mem_nil, recAt_reading 0, fun a h => absurd h (Nat.not_lt_zero _), by decide +kernel, ?_⟩
  have hp : (readOpenBlock (openBlock.take (openBlockSize openBlock))).plan = [0, 1] := by decide +kernel
  rw [hp]
  intro p h
  rcases List.mem_cons.1 h with rfl | h
  · exact ⟨surv 0 2 .available none, by decide +kernel, by decide +kernel⟩
  · rcases List.mem_cons.1 h with rfl | h
    · exact ⟨surv 1 3 .available none, by decide +kernel, by decide +kernel⟩
    · cases h

/-- The premise of OpenRefusals: the status of the first test that fails. -/
def openRefusal (e : Entry) (block : List Byte) (s : State) : Option Status :=
  let o := readOpenBlock (block.take (openBlockSize block))
  if lengthOf e < 16 then some .badShape
  else if block.length < 16 then some .hostFault
  else if lengthOf e < openBlockSize block then some .badShape
  else if block.length < openBlockSize block then some .hostFault
  else if o.shapeOk = false then some .badShape
  else if ∃ a, (stripeOf e, a) ∈ s.table.index then some .duplicate
  else if ∀ a, s.recAt a ≠ none then some .tableFull
  else if ¬ (o.plan.Nodup ∧ ∀ p ∈ o.plan, ∃ v, o.survs[p]? = some v ∧ (s.rackAt v.rack).down = false) then some .badPlan
  else none

/-- One byte short of the header, and of the full size, in the length and in what can be read. -/
theorem test_meets_open_refusals_of_the_block :
    openRefusal (request 0x01 15 []) openBlock reading = some .badShape
    ∧ openRefusal (request 0x01 16 []) (openBlock.take 15) reading = some .hostFault
    ∧ openRefusal (request 0x01 95 []) openBlock reading = some .badShape
    ∧ openRefusal (request 0x01 96 []) (openBlock.take 95) reading = some .hostFault
    ∧ openRefusal (request 0x01 96 []) (openBlock.set 1 2#8) reading = some .badShape := by decide +kernel

theorem test_meets_open_refused_duplicate :
    openRefusal (request 0x01 96 []) openBlock (holding queued) = some .duplicate := by
  have h : ∃ a, (stripeOf (request 0x01 96 []), a) ∈ (holding queued).table.index := ⟨0, by decide +kernel⟩
  simp only [openRefusal, if_pos h]
  decide +kernel

theorem test_meets_open_refused_table_full :
    openRefusal (request 0x01 96 []) openBlock
      { reading with table := { reading.table with slots := Vector.replicate 2048 (some queued) } } = some .tableFull := by
  have h : ∀ a, State.recAt { reading with table := { reading.table with slots := Vector.replicate 2048 (some queued) } } a
      ≠ none := by intro a; simp [State.recAt]
  have h' : ¬ ∃ a : Slot, (stripeOf (request 0x01 96 []), a) ∈ reading.table.index := fun ⟨_, h⟩ => List.not_mem_nil h
  simp only [openRefusal, if_pos h, if_neg h']
  decide +kernel

/-- A plan whose second survivor lies on a rack that is DOWN. -/
theorem test_meets_open_refused_bad_plan :
    openRefusal (request 0x01 96 []) openBlock (reading.setRack 3 downRack) = some .badPlan := by
  have h : ¬ ∃ a : Slot, (stripeOf (request 0x01 96 []), a) ∈ reading.table.index := fun ⟨_, h⟩ => List.not_mem_nil h
  have h' : ¬ ∀ a, (reading.setRack 3 downRack).recAt a ≠ none := fun h => h 0 (recAt_reading 0)
  have h'' : ¬ ((readOpenBlock (openBlock.take (openBlockSize openBlock))).plan.Nodup
      ∧ ∀ p ∈ (readOpenBlock (openBlock.take (openBlockSize openBlock))).plan,
        ∃ v, (readOpenBlock (openBlock.take (openBlockSize openBlock))).survs[p]? = some v
          ∧ ((reading.setRack 3 downRack).rackAt v.rack).down = false) := by
    rintro ⟨-, h⟩
    obtain ⟨v, hv, hd⟩ := h 1 (by decide +kernel)
    rw [show (readOpenBlock (openBlock.take (openBlockSize openBlock))).survs[1]? = some (surv 1 3 .available none) by
      decide +kernel] at hv
    obtain rfl := Option.some.inj hv
    revert hd
    decide +kernel
  simp only [openRefusal, if_neg h', if_pos h'']
  rw [show (reading.setRack 3 downRack).table.index = reading.table.index from rfl, if_neg h]
  decide +kernel

/-- The Stripe Index of the state that holds one record is exact. -/
theorem test_meets_index_exact : (holding queued).indexExact := by
  refine ⟨fun id slot => ?_, by decide⟩
  rw [show (holding queued).table.index = [((7 : StripeId), (0 : Slot))] from rfl]
  constructor
  · intro h
    obtain ⟨rfl, rfl⟩ := Prod.mk.inj (List.mem_singleton.1 h)
    exact ⟨queued, by simp, rfl⟩
  · rintro ⟨r, h, rfl⟩
    rw [recAt_holding] at h
    split at h
    · rename_i h0
      obtain rfl := Option.some.inj h
      rw [h0]
      exact List.mem_singleton.2 rfl
    · cases h

/-- Each request that names a record, with a stripe id that is not in the index. -/
theorem test_meets_unknown_stripe :
    (∀ a, (stripeOf (request 0x02 0 []), a) ∉ reading.table.index)
    ∧ (∀ op ∈ [0x02#8, 0x03#8, 0x04#8, 0x05#8, 0x09#8, 0x0A#8, 0x0B#8, 0x0C#8],
        reading.reading (request op 24 []) op ∧ stripeOf (request op 24 []) = stripeOf (request 0x02 0 []))
    ∧ 8 ≤ lengthOf (request 0x0C 24 []) ∧ planBlockSize [2#8, 1#8] ≤ 24 := by
  refine ⟨fun _ => List.not_mem_nil, ?_, by decide, by decide⟩
  unfold State.reading
  decide +kernel

/-- A REPLAN of an unknown stripe id whose block is one byte short of its header, and of its full size, in the length and in what
can be read. -/
theorem test_meets_unknown_stripe_block :
    let block : List Byte := [2#8, 1#8] ++ zeros 22
    planBlockSize block = 24 ∧ planBlockSize (block.take 23) = 24
    ∧ lengthOf (request 0x0C 7 []) < 8 ∧ (block.take 7).length < 8 ∧ 8 ≤ lengthOf (request 0x0C 23 [])
    ∧ lengthOf (request 0x0C 23 []) < 24 ∧ lengthOf (request 0x0C 24 []) = 24 ∧ (block.take 23).length < 24 := by
  decide +kernel

/-- A request on stripe 7 that is being read in a state that holds one record names that record. -/
theorem found (r : Record) {e : Entry} {op : Byte} (h : opcodeOf e = op ∧ stripeOf e = 7) :
    (holding r).reading e op ∧ (holding r).lookup (stripeOf e) = some (0, r) :=
  ⟨⟨rfl, h.1⟩, by rw [h.2, lookup_holding]⟩

/-- A record in each of the four kinds of state that CANCEL, RETIRE and REPRIORITIZE tell apart, and the three requests. -/
theorem test_meets_cancel_retire_reprioritize (r : Record) :
    ((holding r).reading (request 0x02 0 []) 0x02#8 ∧ (holding r).lookup (stripeOf (request 0x02 0 [])) = some (0, r))
    ∧ ((holding r).reading (request 0x03 0 []) 0x03#8 ∧ (holding r).lookup (stripeOf (request 0x03 0 [])) = some (0, r))
    ∧ ((holding r).reading (request 0x05 0 [9]) 0x05#8 ∧ (holding r).lookup (stripeOf (request 0x05 0 [9])) = some (0, r)) :=
  ⟨found r (by decide +kernel), found r (by decide +kernel), found r (by decide +kernel)⟩

/-- QUERY, IDENTIFY and REPORT with the least buffer that suffices and with one byte less. -/
theorem test_meets_buffer_requests :
    ((holding queued).reading (request 0x04 824 []) 0x04#8
      ∧ (holding queued).lookup (stripeOf (request 0x04 824 [])) = some (0, queued))
    ∧ ((holding queued).reading (request 0x04 823 []) 0x04#8
      ∧ (holding queued).lookup (stripeOf (request 0x04 823 [])) = some (0, queued))
    ∧ (824 ≤ lengthOf (request 0x04 824 []) ∧ lengthOf (request 0x04 823 []) < 824)
    ∧ ((holding queued).reading (request 0x12 16 []) 0x12#8 ∧ (holding queued).reading (request 0x12 15 []) 0x12#8
      ∧ 16 ≤ lengthOf (request 0x12 16 []) ∧ lengthOf (request 0x12 15 []) < 16)
    ∧ ((holding queued).reading (request 0x13 128 []) 0x13#8 ∧ (holding queued).reading (request 0x13 127 []) 0x13#8
      ∧ 128 ≤ lengthOf (request 0x13 128 []) ∧ lengthOf (request 0x13 127 []) < 128) := by
  refine ⟨found _ (by decide +kernel), found _ (by decide +kernel), by decide +kernel, ?_, ?_⟩ <;> unfold State.reading <;>
    decide +kernel

/-- RACK_DOWN of an UP rack, with no sweep running and with one that stands at slot 700. -/
theorem test_meets_rack_down :
    let e := request 0x06 0 [0xFF]
    let w : Sweep := { running := true, downSet := [1], position := 700, endPoint := 2048, wrapMark := false, waiting := [(9, 1)] }
    let s := { reading with rackUnit := { reading.rackUnit with sweep := w } }
    reading.reading e 0x06#8 ∧ (reading.rackAt (byteAt e.toList 24)).down = false
    ∧ s.reading e 0x06#8 ∧ (s.rackAt (byteAt e.toList 24)).down = false := by
  unfold State.reading
  decide +kernel

/-- RACK_DOWN of a DOWN rack, RACK_UP of one in and of one outside the down set, and RACK_CLASS. -/
theorem test_meets_rack_up_and_class :
    let w : Sweep := { running := true, downSet := [1], position := 700, endPoint := 2048, wrapMark := false, waiting := [(9, 1)] }
    let s := { reading with rackUnit := { reading.rackUnit with sweep := w } }
    reading.reading (request 0x06 0 [4]) 0x06#8 ∧ ((reading.setRack 4 downRack).rackAt 4).down = true
    ∧ s.reading (request 0x07 0 [1]) 0x07#8 ∧ s.rackUnit.sweep.running = true
    ∧ byteAt (request 0x07 0 [1]).toList 24 ∈ s.rackUnit.sweep.downSet
    ∧ byteAt (request 0x07 0 [2]).toList 24 ∉ s.rackUnit.sweep.downSet
    ∧ reading.reading (request 0x08 0 [1, 4]) 0x08#8 := by
  unfold State.reading
  decide +kernel

/-- Each of the sixteen requests can be the one that is being read. -/
theorem test_meets_quiesce_flag : ∀ op ∈ knownOpcodes, reading.reading (request op 0 []) op := by
  unfold State.reading
  decide +kernel

/-- SET_PARAMS with a block and a length of exactly 80 bytes, and of 79. -/
theorem test_meets_set_params :
    reading.reading (request 0x11 80 []) 0x11#8 ∧ reading.reading (request 0x11 79 []) 0x11#8
    ∧ 80 ≤ lengthOf (request 0x11 80 []) ∧ lengthOf (request 0x11 79 []) < 80
    ∧ 80 ≤ (zeros 80).length ∧ (zeros 79).length < 80 := by
  unfold State.reading
  decide +kernel

/-- HOLD of a held record, of one in COMBINING, and of a QUEUED one; RELEASE of a record that is not held, and of one whose
selected survivors are all STAGED. -/
theorem test_meets_hold_and_release (r : Record) :
    ((holding r).reading (request 0x09 0 []) 0x09#8 ∧ (holding r).lookup (stripeOf (request 0x09 0 [])) = some (0, r))
    ∧ ((holding r).reading (request 0x0A 0 []) 0x0A#8 ∧ (holding r).lookup (stripeOf (request 0x0A 0 [])) = some (0, r))
    ∧ (combining .granted).hold ≠ .none ∧ ((combining .none).hold = .none ∧ (combining .none).state = .combining)
    ∧ (queued.hold = .none ∧ queued.state ≠ .combining)
    ∧ (let staged : Record := { combining .granted with state := .fetching }
       staged.hold = .granted ∧ staged.state = .fetching
       ∧ (∀ p ∈ staged.plan, ∃ v, staged.survs[p]? = some v ∧ v.state = .staged)) := by
  refine ⟨found r (by decide +kernel), found r (by decide +kernel), by decide, by decide, by decide, rfl, rfl, ?_⟩
  intro p h
  rcases List.mem_cons.1 h with rfl | h
  · exact ⟨_, rfl, rfl⟩
  · rcases List.mem_cons.1 h with rfl | h
    · exact ⟨_, rfl, rfl⟩
    · cases h

/-! ## AMEND and REPLAN -/

/-- The operands of an AMEND: position, fragment, rack, service port 5 and holder address 9. -/
def amendOperands (pos frag rack : Byte) : List Byte :=
  [pos, frag, rack, 0#8] ++ beBytes 2 5 ++ zeros 2 ++ beBytes 16 9

/-- The held record, in FETCHING. -/
def held : Record := fetching .granted .available (cover false)

/-- An AMEND that adds fragment 2 at position s = 2, the greatest position there is, and one that re-points position 1. -/
theorem test_meets_amend_sets :
    let add := request 0x0B 0 (amendOperands 2 2 4)
    let move := request 0x0B 0 (amendOperands 1 9 4)
    ((holding held).reading add 0x0B#8 ∧ (holding held).lookup (stripeOf add) = some (0, held))
    ∧ ((holding held).reading move 0x0B#8 ∧ (holding held).lookup (stripeOf move) = some (0, held))
    ∧ held.hold = .granted ∧ held.state = .fetching
    ∧ ((byteAt add.toList 24).toNat = held.s ∧ held.s < held.n - held.t ∧ (byteAt add.toList 25).toNat < held.n
      ∧ (∀ v ∈ held.survs, v.frag ≠ (byteAt add.toList 25).toNat) ∧ (∀ g ∈ held.targets, g.frag ≠ (byteAt add.toList 25).toNat))
    ∧ ((byteAt move.toList 24).toNat < held.s
      ∧ held.survs[(byteAt move.toList 24).toNat]? = some (surv 1 3 .available (some { slab := 1, cover := cover false }))) := by
  refine ⟨found _ (by decide +kernel), found _ (by decide +kernel), rfl, rfl, by decide +kernel, by decide +kernel⟩

/-- The premise of the first part of AmendAndReplanRefusals: the status of the first test of AMEND that fails. -/
def amendRefusal (e : Entry) (r : Record) : Option Status :=
  let pos := (byteAt e.toList 24).toNat
  let frag := (byteAt e.toList 25).toNat
  if r.hold ≠ .granted then some .notHeld
  else if r.state ≠ .queued ∧ r.state ≠ .fetching ∧ r.state ≠ .planWait then some .wrongState
  else if r.s < pos ∨ (pos = r.s ∧ ¬ r.s < r.n - r.t) then some .badShape
  else if pos = r.s ∧ (r.n ≤ frag ∨ (∃ v ∈ r.survs, v.frag = frag) ∨ (∃ g ∈ r.targets, g.frag = frag)) then some .badShape
  else if (r.survs[pos]?).any (fun v => decide (v.state = .pulling ∨ v.state = .staged)) then some .wrongState
  else none

/-- A record that is not held, one in COMBINING, a position past s, no room for one more survivor, a fragment index of n, one
in use and one of a target, and a PULLING and a STAGED survivor. -/
theorem test_meets_amend_refusals :
    amendRefusal (request 0x0B 0 (amendOperands 1 2 4)) queued = some .notHeld
    ∧ amendRefusal (request 0x0B 0 (amendOperands 1 2 4)) (combining .granted) = some .wrongState
    ∧ amendRefusal (request 0x0B 0 (amendOperands 3 2 4)) held = some .badShape
    ∧ amendRefusal (request 0x0B 0 (amendOperands 2 2 4)) { held with n := 3 } = some .badShape
    ∧ amendRefusal (request 0x0B 0 (amendOperands 2 4 4)) held = some .badShape
    ∧ amendRefusal (request 0x0B 0 (amendOperands 2 1 4)) held = some .badShape
    ∧ amendRefusal (request 0x0B 0 (amendOperands 2 3 4)) held = some .badShape
    ∧ amendRefusal (request 0x0B 0 (amendOperands 0 0 4)) (fetching .granted .pulling (cover false)) = some .wrongState
    ∧ amendRefusal (request 0x0B 0 (amendOperands 0 0 4)) (fetching .granted .staged (cover true)) = some .wrongState := by
  decide +kernel

/-- A Plan Block with k = 2 and t = 1 that names two positions, and the row 1, 1. It has 24 bytes. -/
def planBlock (p q : Byte) : List Byte := [2#8, 1#8] ++ zeros 6 ++ padTo 8 [p, q] ++ padTo 8 [1#8, 1#8]

/-- A record in the active form of PLAN_WAIT with a third survivor, and slabs 0 and 1 at its positions 0 and 1. -/
def waiting : Record :=
  record .planWait true .none 1
    [surv 0 2 .gone (some { slab := 0, cover := cover false }), surv 1 3 .available (some { slab := 1, cover := cover false }),
      surv 2 4 .available none]

/-- A REPLAN of positions 2 and 1, whose block is exactly as long as it must be: position 0 is dropped, and its slab passes
to position 2. -/
theorem test_meets_replan :
    let e := request 0x0C 24 []
    let b := (planBlock 2 1).take (planBlockSize (planBlock 2 1))
    let plan := (List.range waiting.k).map fun i => (byteAt b (8 + i)).toNat
    ((holding waiting).reading e 0x0C#8 ∧ (holding waiting).lookup (stripeOf e) = some (0, waiting))
    ∧ 8 ≤ lengthOf e ∧ planBlockSize (planBlock 2 1) = 24 ∧ lengthOf e = 24 ∧ (planBlock 2 1).length = 24
    ∧ waiting.state = .planWait ∧ (byteAt b 0).toNat = waiting.k ∧ (byteAt b 1).toNat = waiting.t ∧ plan.Nodup
    ∧ plan = [2, 1] ∧ (∀ p ∈ [2, 1], ∃ v, waiting.survs[p]? = some v ∧ v.usable = true) := by
  refine ⟨found _ (by decide +kernel), by decide +kernel, by decide +kernel, by decide +kernel, by decide +kernel, rfl,
    by decide +kernel, by decide +kernel, by decide +kernel, by decide +kernel, ?_⟩
  intro p h
  rcases List.mem_cons.1 h with rfl | h
  · exact ⟨_, rfl, rfl⟩
  · rcases List.mem_cons.1 h with rfl | h
    · exact ⟨_, rfl, rfl⟩
    · cases h

/-- The premise of the second part of AmendAndReplanRefusals: the status of the first test of REPLAN that fails. -/
def replanRefusal (e : Entry) (block : List Byte) (r : Record) : Option Status :=
  let b := block.take (planBlockSize block)
  let plan := (List.range r.k).map fun i => (byteAt b (8 + i)).toNat
  if lengthOf e < 8 then some .badShape
  else if block.length < 8 then some .hostFault
  else if lengthOf e < planBlockSize block then some .badShape
  else if block.length < planBlockSize block then some .hostFault
  else if r.state ≠ .queued ∧ r.state ≠ .fetching ∧ r.state ≠ .planWait then some .wrongState
  else if (byteAt b 0).toNat ≠ r.k ∨ (byteAt b 1).toNat ≠ r.t then some .badShape
  else if ¬ (plan.Nodup ∧ ∀ p ∈ plan, (r.survs[p]?).any (fun v => v.usable) = true) then some .badPlan
  else none

/-- One byte short of the header and of the full size, a record in COMBINING, a k that is not the record's, and plans that name a
position twice, a GONE survivor, and a position that does not exist. -/
theorem test_meets_replan_refusals :
    replanRefusal (request 0x0C 7 []) (planBlock 2 1) waiting = some .badShape
    ∧ replanRefusal (request 0x0C 24 []) ((planBlock 2 1).take 7) waiting = some .hostFault
    ∧ replanRefusal (request 0x0C 23 []) (planBlock 2 1) waiting = some .badShape
    ∧ replanRefusal (request 0x0C 24 []) ((planBlock 2 1).take 23) waiting = some .hostFault
    ∧ replanRefusal (request 0x0C 24 []) (planBlock 2 1) (combining .none) = some .wrongState
    ∧ replanRefusal (request 0x0C 24 []) (planBlock 2 1) { waiting with k := 3 } = some .badShape
    ∧ replanRefusal (request 0x0C 24 []) (planBlock 1 1) waiting = some .badPlan
    ∧ replanRefusal (request 0x0C 24 []) (planBlock 0 1) waiting = some .badPlan
    ∧ replanRefusal (request 0x0C 24 []) (planBlock 3 1) waiting = some .badPlan := by
  decide +kernel

/-! ## The arbiters and the timers -/

/-- A state in which none of the three arbiters has anything to do. -/
theorem test_meets_nothing_to_serve :
    exec .activation State.reset = .next State.reset ∧ exec .passStart State.reset = .next State.reset
    ∧ exec .issue State.reset = .next State.reset := ⟨rfl, rfl, rfl⟩

/-- A listed record whose needs the free count just meets, by reserve and by margin 0, and just misses. -/
theorem test_meets_activation :
    let s (n : Nat) := { holding queued with act := { ready := [0], free := (List.finRange 3584).take n } }
    (s 98).act.ready = 0 :: [] ∧ queued.plan.Nodup ∧ queued.plan.length = queued.k
    ∧ queued.k + (s 98).settings.reserve ≤ (s 98).act.free.length
    ∧ (queued.margin = 0 ∧ queued.k ≤ (s 2).act.free.length ∧ (s 2).act.free.length < queued.k + (s 2).settings.reserve)
    ∧ ((s 1).act.free.length < queued.k + (s 1).settings.reserve ∧ (s 1).act.free.length < queued.k)
    ∧ State.reset.act.ready = [] := by
  decide +kernel

/-- A head that waits, and one that does not. -/
theorem test_meets_heads_served :
    (∀ slot rest r, ({ headReady with act := { ready := [0], free := [5] } } : State).act.ready = slot :: rest →
      State.recAt { headReady with act := { ready := [0], free := [5] } } slot = some r →
      1 < r.k + headReady.settings.reserve ∧ (r.margin ≠ 0 ∨ 1 < r.k))
    ∧ headReady.act.ready = 0 :: [] ∧ headReady.recAt 0 = some queued ∧ queued.margin = 0
    ∧ queued.k ≤ headReady.act.free.length := by
  refine ⟨fun slot rest r h hr => ?_, rfl, recAt_holding _ 0, rfl, by decide +kernel⟩
  obtain ⟨rfl, -⟩ := List.cons.inj h
  obtain rfl := Option.some.inj ((recAt_holding queued 0).symm.trans hr)
  exact ⟨by decide, .inr (by decide)⟩

theorem recAt_linked (r : Record) (a : Slot) : (linked (holding r)).recAt a = if a = 0 then some r else none :=
  recAt_holding r a

/-- ISSUE with context 0 FREE: the record in slot 0 is the only one, and both its survivors may be pulled. -/
theorem test_meets_issue :
    let r := fetching .none .available (cover false)
    let s := linked (holding r)
    let v := surv 0 2 .available (some { slab := 0, cover := cover false })
    s.port.quiesce = false ∧ s.fetch.port0.linkUp = true ∧ s.ctxAt 0 = none ∧ (∀ u : Tag, u < 0 → s.ctxAt u ≠ none)
    ∧ s.MayPull 0 r 0 v ∧ r.plan[0]? = some 0
    ∧ (∀ (j q : Nat) w, j < 0 → r.plan[j]? = some q → ¬ s.MayPull 0 r q w)
    ∧ (∀ b rb q w, s.MayPull b rb q w → b = 0 ∨ rb.score < r.score ∨ (rb.score = r.score ∧ r.order < rb.order)) := by
  refine ⟨rfl, rfl, by decide +kernel, fun u h => absurd h (by simp), ?_, rfl, fun j _ _ h => absurd h (Nat.not_lt_zero j), ?_⟩
  · exact ⟨recAt_holding _ 0, rfl, rfl, rfl, by decide, rfl, fun _ h => (by cases h), by decide +kernel, by decide +kernel,
      by decide +kernel, by decide +kernel⟩
  · intro b rb q w h
    refine .inl (Classical.byContradiction fun hb => ?_)
    have := h.1
    rw [recAt_linked, if_neg hb] at this
    cases this

/-- Each of the four grounds on which ISSUE waits. -/
theorem test_meets_issue_waits :
    { State.reset with port := { State.reset.port with quiesce := true } }.port.quiesce = true
    ∧ (∀ tag, State.ctxAt { State.reset with fetch := { State.reset.fetch with ctxs := Vector.replicate 256 (some ctx) } } tag ≠ none)
    ∧ (State.reset.fetch.port0.linkUp = false ∧ State.reset.fetch.port1.linkUp = false)
    ∧ (∀ slot r pos v, ¬ State.reset.MayPull slot r pos v) := by
  refine ⟨rfl, fun tag => by simp [State.ctxAt], by decide, fun slot r pos v h => ?_⟩
  have := h.1
  simp [State.recAt, State.reset, RepairTable.empty] at this

/-- A refill event at its very deadline. -/
theorem test_meets_refill : { State.reset with now := 100 }.refillAt ≤ { State.reset with now := 100 }.now := by decide

/-- A stall timer and a holdoff at their very deadlines. -/
theorem test_meets_timers :
    let r : Record := { queued with stall := some 0, survs := [{ surv 0 2 .available none with holdoff := some 0 }] }
    (holding r).recAt 0 = some r ∧ r.stall = some 0 ∧ 0 ≤ (holding r).now
    ∧ r.survs[0]? = some { surv 0 2 .available none with holdoff := some 0 } :=
  ⟨recAt_holding _ 0, rfl, Nat.le_refl _, rfl⟩

/-! ## The fabric -/

/-- A frame to a port with the address settings after reset, with the message `m` as its UDP payload. -/
def frameOf (m : List Byte) : List Byte := pullFrame .zero { addr := 0, svc := 0, message := m }

/-- A SPAN of tag 0 with the serial, the offset and the check given, whose payload is `len` zero bytes. -/
def span (serial off len crc : Nat) : List Byte :=
  [1#8, 2#8, 0#8, 0#8] ++ beBytes 2 serial ++ zeros 2 ++ beBytes 4 off ++ beBytes 2 len ++ zeros 2 ++ beBytes 4 crc ++ zeros len

theorem crc_of_zeros {r r' : Word} (n : Nat) (h : (zeros 64).foldl crcByte r = r') :
    (zeros (64 + n)).foldl crcByte r = (zeros n).foldl crcByte r' := by
  rw [← h, zeros, List.replicate_add, List.foldl_append]
  rfl

/-- The check of 512 zero bytes. -/
theorem check_of_zeros : check (zeros 512) = 0x30FCEDC0#32 := by
  have h : (zeros 512).foldl crcByte 0xFFFFFFFF#32 = 0xCF03123F#32 := by
    rw [crc_of_zeros 448 (r' := 0xFC371498#32) (by decide +kernel), crc_of_zeros 384 (r' := 0xF7D89B24#32) (by decide +kernel),
      crc_of_zeros 320 (r' := 0x8BCA87CF#32) (by decide +kernel), crc_of_zeros 256 (r' := 0x478D4E6F#32) (by decide +kernel),
      crc_of_zeros 192 (r' := 0x03D5A233#32) (by decide +kernel), crc_of_zeros 128 (r' := 0x4509D0C9#32) (by decide +kernel),
      crc_of_zeros 64 (r' := 0xCC289DC7#32) (by decide +kernel), crc_of_zeros 0 (r' := 0xCF03123F#32) (by decide +kernel)]
    rfl
  rw [check, h]
  decide

/-- An END of tag 0 and serial 0 with the status and the holdoff hint given. -/
def fin (status : Byte) (hint : Nat) : List Byte :=
  [1#8, 3#8, 0#8, 0#8] ++ zeros 4 ++ [status, 0#8] ++ beBytes 2 hint ++ beBytes 4 512

/-- What a state with an open context holds: the context, its record, its survivor and its rack. -/
theorem test_meets_open_context (hold : Hold) (c : List Bool) :
    let s := pulling hold c
    s.ctxAt 0 = some ctx ∧ s.recAt ctx.slot = some (fetching hold .pulling c)
    ∧ (fetching hold .pulling c).survs[ctx.pos]? = some (surv 0 2 .pulling (some { slab := 0, cover := c }))
    ∧ (s.rackAt 2).down = false ∧ (fetching hold .pulling c).state = .fetching ∧ ctx.deadline ≤ s.now :=
  ⟨rfl, recAt_holding _ 0, rfl, rfl, rfl, Nat.le_refl _⟩

/-- A SPAN for a FREE context, one of another serial, and one from a rack that is DOWN. -/
theorem test_meets_stale_spans :
    let m := span 0 0 512 0
    let m' := span 1 0 512 0
    let s := pulling .none (cover false)
    (linked State.reset).receive .p0 (frameOf m) = .span m ∧ (linked State.reset).ctxAt (messageTag m) = none
    ∧ s.receive .p0 (frameOf m') = .span m' ∧ messageTag m' = 0 ∧ ctx.serial ≠ messageSerial m'
    ∧ (s.setRack 2 downRack).receive .p0 (frameOf m) = .span m ∧ ((s.setRack 2 downRack).rackAt 2).down = true := by
  decide +kernel

/-- Malformed SPANs: 19 bytes long, a length field one off, no payload, an offset that is no multiple of 512, and a range that ends
512 bytes past L = 4096; and a SPAN with a bad check that ends at L. -/
theorem test_meets_malformed_and_bad_spans :
    let s := pulling .none (cover false)
    let L := (fetching .none .pulling (cover false)).length
    let m := span 0 3584 512 1
    ((span 0 0 0 0).take 19).length < 20 ∧ s.receive .p0 (frameOf ((span 0 0 0 0).take 19)) = .span ((span 0 0 0 0).take 19)
    ∧ beAt ((span 0 0 512 0).take 531) 12 2 ≠ ((span 0 0 512 0).take 531).length - 20
    ∧ beAt (span 0 0 0 0) 12 2 < 512 ∧ beAt (span 0 1 512 0) 8 4 % 512 ≠ 0
    ∧ L < beAt (span 0 4096 512 0) 8 4 + beAt (span 0 4096 512 0) 12 2
    ∧ s.receive .p0 (frameOf m) = .span m ∧ ctx.serial = messageSerial m ∧ 20 ≤ m.length ∧ beAt m 12 2 = m.length - 20
    ∧ beAt m 12 2 = 512 ∧ beAt m 8 4 + beAt m 12 2 = L ∧ m.drop 20 = zeros 512 ∧ beAt m 16 4 = 1
    ∧ (check (zeros 512)).toNat ≠ 1 := by
  rw [check_of_zeros]
  decide +kernel

/-- An acceptable SPAN for the first granule: of the whole fragment still uncovered, and of the only granule left. -/
theorem test_meets_accepted_span :
    let m := span 0 0 512 0x30FCEDC0
    let last := false :: List.replicate 7 true
    (pulling .none (cover false)).receive .p0 (frameOf m) = .span m ∧ (pulling .none last).receive .p0 (frameOf m) = .span m
    ∧ messageTag m = 0 ∧ ctx.serial = messageSerial m ∧ 20 ≤ m.length ∧ beAt m 12 2 = m.length - 20
    ∧ beAt m 12 2 = 512 ∧ beAt m 8 4 = 0 ∧ m.drop 20 = zeros 512 ∧ (check (zeros 512)).toNat = beAt m 16 4 := by
  rw [check_of_zeros]
  decide +kernel

/-- ENDs of each status with a hint of 0 and one above 1000 ms, one of an unknown status, one of 15 bytes, and one that finds no
context. -/
theorem test_meets_ends :
    let s := pulling .none (cover false)
    s.receive .p0 (frameOf (fin 0 0)) = .fin (fin 0 0) ∧ endStatus (fin 0 0) = some .ok
    ∧ s.receive .p0 (frameOf (fin 2 1001)) = .fin (fin 2 1001) ∧ endStatus (fin 2 1001) = some .busy
    ∧ s.receive .p0 (frameOf (fin 1 0)) = .fin (fin 1 0) ∧ endStatus (fin 1 0) = some .notHeld
    ∧ s.receive .p0 (frameOf (fin 3 0)) = .fin (fin 3 0) ∧ endStatus (fin 3 0) = some .corrupt
    ∧ messageTag (fin 0 0) = 0 ∧ ctx.serial = messageSerial (fin 0 0) ∧ s.settings.busyFloor ≤ 1000
    ∧ s.receive .p0 (frameOf (fin 4 0)) = .fin (fin 4 0) ∧ endStatus (fin 4 0) = none
    ∧ s.receive .p0 (frameOf ((fin 0 0).take 15)) = .fin ((fin 0 0).take 15) ∧ endStatus ((fin 0 0).take 15) = none
    ∧ (linked State.reset).receive .p0 (frameOf (fin 0 0)) = .fin (fin 0 0)
    ∧ (linked State.reset).ctxAt (messageTag (fin 0 0)) = none := by
  decide +kernel

/-- IDLE_EXPIRY of a FREE context, and of an OPEN one at its very deadline in each of the four cases. -/
theorem test_meets_idle_expiry :
    let s := pulling .none (cover false)
    State.reset.ctxAt 0xFF = none ∧ ((s.setRack 2 downRack).rackAt 2).down = true
    ∧ ({ s with fetch := { s.fetch with port0 := { linkUp := false, queue := [] } } }.portAt ctx.port).linkUp = false
    ∧ { s with port := { s.port with quiesce := true } }.port.quiesce = true
    ∧ (s.rackAt 2).down = false ∧ (s.portAt ctx.port).linkUp = true ∧ s.port.quiesce = false := by
  decide +kernel

/-- A SPAN and an END of 8 bytes, the least a message may have, and a frame that passes neither the tests of a message nor
those of a solicitation. -/
theorem test_meets_taken_frames :
    let s := linked State.reset
    let g := s.portSettings .p0
    let ok (m : List Byte) (type : Byte) : Prop :=
      let f := frameOf m
      let m' := (f.drop 62).take (beAt f 58 2 - 8)
      (s.portAt .p0).linkUp = true ∧ beAt f 0 6 = g.link.toNat ∧ beAt f 12 2 = 0x86DD ∧ byteAt f 20 = 17#8
      ∧ beAt f 38 16 = g.net.toNat ∧ beAt f 56 2 = g.svc.toNat ∧ 8 ≤ m'.length ∧ byteAt m' 0 = 1#8 ∧ byteAt m' 1 = type
    ok ((span 0 0 0 0).take 8) 2#8 ∧ ok ((fin 0 0).take 8) 3#8
    ∧ beAt (zeros 14) 12 2 ≠ 0x86DD ∧ ¬ 8 ≤ ((frameOf ((fin 0 0).take 7)).drop 62).length := by
  decide +kernel

/-- The shortest solicitation of network address 0, to the port and to the solicited-node addresses. -/
theorem test_meets_solicitation :
    let g := PortSettings.zero
    let f (link : LinkAddr) (net : NetAddr) : List Byte :=
      ipv6Frame { g with nextHop := link } net 58 255 ([135#8, 0#8] ++ zeros 6 ++ beBytes 16 g.net.toNat)
    let near := f 0 0
    let many := f (0x3333FF#24 ++ g.net.setWidth 24) (0xFF0200000000000000000001FF#104 ++ g.net.setWidth 24)
    ((linked State.reset).portAt .p0).linkUp = true ∧ near.length = 78 ∧ many.length = 78
    ∧ frameDst near = g.link ∧ ipDst near = g.net ∧ frameDst many = 0x3333FF#24 ++ g.net.setWidth 24
    ∧ ipDst many = 0xFF0200000000000000000001FF#104 ++ g.net.setWidth 24 ∧ isIPv6 many = true ∧ nextHeader many = 58
    ∧ isIPv6 near = true ∧ nextHeader near = 58 ∧ byteAt many 54 = 135#8 ∧ byteAt near 54 = 135#8 ∧ byteAt near 55 = 0#8
    ∧ byteAt many 55 = 0#8 ∧ beAt near 62 16 = g.net.toNat ∧ beAt many 62 16 = g.net.toNat := by
  decide +kernel

/-! ## The sweep -/

/-- A sweep with rack 2 in its down set. -/
def sweep (position endPoint : Nat) (wrapMark : Bool) : Sweep :=
  { running := true, downSet := [2], position, endPoint, wrapMark, waiting := [(9, 2)] }

/-- A state with a sweep. -/
def sweeping (s : State) (w : Sweep) : State := { s with rackUnit := { s.rackUnit with sweep := w } }

/-- Visits to slot 0: of a record with a PULLING survivor on a rack of the down set, of a record in COMBINING, and of the slot
after a position past slot 2047 with the wrap mark set; and a visit to slot 2047. -/
theorem test_meets_sweep_visit :
    let live (w : Sweep) := w.running = true ∧ ¬ (w.wrapMark = false ∧ w.position = w.endPoint)
    live (sweep 0 2048 false) ∧ live (sweep 2048 2048 true) ∧ live (sweep 2047 700 true)
    ∧ (sweeping (pulling .none (cover false)) (sweep 0 2048 false)).recAt 0 = some (fetching .none .pulling (cover false))
    ∧ (fetching .none .pulling (cover false)).state = .fetching
    ∧ (sweeping (holding (combining .none)) (sweep 0 2048 false)).recAt 0 = some (combining .none)
    ∧ (combining .none).state = .combining :=
  ⟨by decide, by decide, by decide, recAt_holding _ 0, rfl, recAt_holding _ 0, rfl⟩

/-- SWEEP_END at the end point with a load of 1, of 2048, the most there may be, and of 2049; and away from the end point. -/
theorem test_meets_sweep_end :
    let s (n : Nat) := sweeping { reading with port := { reading.port with notices := List.replicate n (.sweepDone 1 1) } }
      (sweep 2048 2048 false)
    let w := (s 0).rackUnit.sweep
    w.running = true ∧ w.wrapMark = false ∧ w.position = w.endPoint
    ∧ (s 0).sweepDonePending + w.waiting.length ≤ 2048 ∧ (s 2047).sweepDonePending + w.waiting.length = 2048
    ∧ 2048 < (s 2048).sweepDonePending + w.waiting.length
    ∧ ¬ ((sweep 0 2048 false).position = (sweep 0 2048 false).endPoint) := by
  decide +kernel

/-! ## The Combine Engine -/

/-- The last byte of target 0 of a record whose survivors hold slabs 0 and 1. -/
theorem test_meets_target_bytes :
    let r := combining .none
    let slabs : List Slab := [0, 1]
    r.rows[0]? = some [1#8, 1#8] ∧ [1#8, 1#8].length = r.k ∧ r.plan.length = r.k ∧ slabs.length = r.k ∧ 4095 < r.length
    ∧ (∀ (i p : Nat) (x : Slab), r.plan[i]? = some p → slabs[i]? = some x →
      ∃ v, r.survs[p]? = some v ∧ v.slab = some x) := by
  refine ⟨rfl, rfl, rfl, rfl, by decide, ?_⟩
  intro i p x hp hx
  match i with
  | 0 => cases hp; cases hx; exact ⟨_, rfl, rfl⟩
  | 1 => cases hp; cases hx; exact ⟨_, rfl, rfl⟩
  | _ + 2 => cases hp

/-- A COMBINING record at the head of the queue; and its pass in flight, on the last target and on one that is not. -/
theorem test_meets_passes :
    let waits := { holding (combining .none) with comb := { queue := [0], pass := none } }
    let pass : Pass := { slot := 0, target := 0, checks := [], mismatch := none }
    let flies := { holding (combining (.requested 5)) with comb := { queue := [], pass := some pass } }
    let two : Record := { combining .none with targets := (combining .none).targets ++ [{ frag := 2, landing := 4096, expected := 0, computed := none }] }
    waits.comb.queue = 0 :: [] ∧ waits.comb.pass = none ∧ waits.port.quiesce = false
    ∧ State.reset.comb.queue = [] ∧ flies.comb.pass ≠ none
    ∧ flies.comb.pass = some pass ∧ flies.recAt pass.slot = some (combining (.requested 5))
    ∧ (combining (.requested 5)).targets[pass.target]? = some { frag := 3, landing := 8192, expected := 0, computed := none }
    ∧ pass.target + 1 = (combining (.requested 5)).t ∧ pass.target + 1 < two.t :=
  ⟨rfl, rfl, rfl, rfl, by decide, rfl, recAt_holding _ 0, rfl, rfl, by decide⟩

/-- A pass in flight with a record waiting behind it, the flag clear. -/
theorem test_meets_next_pass :
    twoPasses.comb.queue = 1 :: [] ∧ twoPasses.port.quiesce = false ∧ twoPasses.settled = twoPasses :=
  ⟨rfl, rfl, State.settled_of_quiet rfl rfl (no_decision_of_links ⟨rfl, rfl⟩) rfl⟩

/-! ## The invariants hold together in a state with a record, a PULLING survivor and an OPEN context -/

/-- A state in which the record of slabs 0 and 1 is being pulled through context 0, with an ISSUE waiting. -/
def runningOf (s : State) (free : List Slab) : State :=
  { (s.setCtx 0 (some ctx)).setRack 2 { down := false, cls := .full, credit := 0, outstanding := 1 } with
    act := { ready := [], free }, pending := [.issue] }

/-- The state so made. -/
def running : State := runningOf (linked (holding (fetching .none .pulling (cover false)))) ((List.finRange 3584).drop 2)

theorem ctxAt_linked (s : State) (tag : Tag) : (linked s).ctxAt tag = s.ctxAt tag := rfl

theorem ctxAt_holding (r : Record) (tag : Tag) : (linked (holding r)).ctxAt tag = none := by
  rw [ctxAt_linked, holding, State.ctxAt_setRec]
  refine (State.ctxAt_congr (s := State.reset) rfl tag).trans ?_
  simp [State.ctxAt, State.reset, FetchEngine.fresh]

theorem rackAt_holding (r : Record) (k : RackId) : (linked (holding r)).rackAt k = Rack.fresh 512 := by
  refine (State.rackAt_congr (s := holding r) rfl k).trans ?_
  rw [holding, State.rackAt_setRec]
  refine (State.rackAt_congr (s := State.reset) rfl k).trans ?_
  simp [State.rackAt, State.reset, RackUnit.fresh]

/-- Its record. -/
def runningRecord : Record := fetching .none .pulling (cover false)

theorem runningOf_table (s : State) (l : List Slab) : (runningOf s l).table = s.table := rfl
theorem runningOf_fetch (s : State) (l : List Slab) : (runningOf s l).fetch = (s.setCtx 0 (some ctx)).fetch := rfl
theorem runningOf_rackUnit (s : State) (l : List Slab) :
    (runningOf s l).rackUnit = (s.setRack 2 { down := false, cls := .full, credit := 0, outstanding := 1 }).rackUnit := rfl
theorem runningOf_free (s : State) (l : List Slab) : (runningOf s l).act.free = l := rfl

theorem recAt_running (a : Slot) : running.recAt a = if a = 0 then some runningRecord else none := by
  unfold running
  rw [State.recAt_congr (runningOf_table _ _), recAt_linked]
  rfl

theorem recAt_running_some {a : Slot} {r : Record} (h : running.recAt a = some r) : a = 0 ∧ r = runningRecord := by
  rw [recAt_running] at h
  split at h
  · exact ⟨by assumption, (Option.some.inj h).symm⟩
  · cases h

theorem ctxAt_running (tag : Tag) : running.ctxAt tag = if tag = 0 then some ctx else none := by
  by_cases h : tag = 0
  · subst h
    unfold running
    rw [State.ctxAt_congr (runningOf_fetch _ _), State.ctxAt_setCtx_same]
    rfl
  · rw [if_neg h]
    unfold running
    rw [State.ctxAt_congr (runningOf_fetch _ _), State.ctxAt_setCtx_ne _ _ h]
    exact ctxAt_holding _ tag

theorem ctxAt_running_some {tag : Tag} {c : Ctx} (h : running.ctxAt tag = some c) : tag = 0 ∧ c = ctx := by
  rw [ctxAt_running] at h
  split at h
  · exact ⟨by assumption, (Option.some.inj h).symm⟩
  · cases h

/-- Of the record's two survivors, position 0 alone is PULLING. -/
theorem survs_running {p : Nat} {v : Survivor} (h : runningRecord.survs[p]? = some v) :
    (p = 0 ∧ v = surv 0 2 .pulling (some { slab := 0, cover := cover false }))
    ∨ (p = 1 ∧ v = surv 1 3 .available (some { slab := 1, cover := cover false })) := by
  match p with
  | 0 => exact .inl ⟨rfl, (Option.some.inj h).symm⟩
  | 1 => exact .inr ⟨rfl, (Option.some.inj h).symm⟩
  | _ + 2 => cases h

theorem rackAt_running (k : RackId) :
    running.rackAt k = if k = 2 then { down := false, cls := .full, credit := 0, outstanding := 1 } else Rack.fresh 512 := by
  unfold running
  rw [State.rackAt_congr (runningOf_rackUnit _ _)]
  by_cases h : k = 2
  · subst h; rw [State.rackAt_setRack_same, if_pos rfl]
  · rw [State.rackAt_setRack_ne _ _ h, if_neg h, rackAt_holding]

theorem test_meets_step_premises : ∃ t, step running = .next t := ⟨_, rfl⟩

theorem test_meets_dram_range_window :
    Memory.wf running.dram ∧ running.settings.inRange ∧ running.windowLegal := by
  refine ⟨Memory.reset_wf, ?_, ?_⟩
  · unfold Settings.inRange; decide
  · unfold State.windowLegal; decide

theorem test_meets_credit_bounded : running.creditBounded := by
  intro k
  rw [rackAt_running, show running.settings.bucketDepth = 512 from rfl]
  split <;> decide

theorem test_meets_lists_and_active : running.listsExact ∧ running.activeExact := by
  refine ⟨⟨fun a => ⟨fun h => absurd h List.not_mem_nil, ?_⟩, fun a => ⟨?_, ?_⟩, List.nodup_nil, fun _ h => (by cases h), ?_⟩, ?_⟩
  · rintro ⟨r, h, hs, -⟩
    obtain ⟨-, rfl⟩ := recAt_running_some h
    cases hs
  · rintro (h | ⟨_, h, -⟩)
    · exact absurd h List.not_mem_nil
    · cases h
  · rintro ⟨r, h, hs⟩
    obtain ⟨-, rfl⟩ := recAt_running_some h
    cases hs
  · intro a r h
    obtain ⟨-, rfl⟩ := recAt_running_some h
    exact ⟨fun _ h => Hold.noConfusion h, fun h => Hold.noConfusion h⟩
  · intro a r h
    obtain ⟨-, rfl⟩ := recAt_running_some h
    exact ⟨fun _ => rfl, by decide⟩

theorem test_meets_contexts_exact : running.contextsExact := by
  refine ⟨?_, ?_, ?_⟩
  · intro tag c h
    obtain ⟨-, rfl⟩ := ctxAt_running_some h
    exact ⟨runningRecord, _, recAt_running 0, rfl, rfl, by decide, rfl, .inl rfl⟩
  · intro a r p v h hv hs
    obtain ⟨rfl, rfl⟩ := recAt_running_some h
    rcases survs_running hv with ⟨rfl, rfl⟩ | ⟨rfl, rfl⟩
    · exact ⟨0, ctx, ctxAt_running 0, rfl, rfl⟩
    · cases hs
  · intro tag tag' c c' h h' _ _
    rw [(ctxAt_running_some h).1, (ctxAt_running_some h').1]

/-- A snapshot of a record with an OPEN context: its survivor at position 0 is PULLING in context 0. -/
theorem test_meets_snapshot_tag :
    running.contextsExact ∧ running.ctxAt 0 = some ctx ∧ ctx.slot = 0 ∧ running.recAt 0 = some runningRecord
    ∧ ∃ v, runningRecord.survs[ctx.pos]? = some v ∧ v.state = .pulling :=
  ⟨test_meets_contexts_exact, ctxAt_running 0, rfl, recAt_running 0, _, rfl, rfl⟩

theorem test_meets_outstanding_exact : running.outstandingExact := by
  intro k
  have hc : running.ctxRack ctx = some 2 := by
    rw [State.ctxRack, recAt_running]
    rfl
  have hl : running.fetch.ctxs.toList = some ctx :: List.replicate 255 none := by
    have h : ∀ s : State, ((linked s).setCtx 0 (some ctx)).fetch.ctxs = s.fetch.ctxs.set 0 (some ctx) := fun _ => rfl
    have h' : ∀ r : Record, (holding r).fetch.ctxs = Vector.replicate 256 none := fun _ => rfl
    unfold running
    rw [runningOf_fetch, h, h', Vector.toList_set, Vector.toList_replicate]
    rfl
  rw [hl, rackAt_running]
  generalize 255 = n
  by_cases h : k = 2
  · subst h
    simp [hc, List.countP_replicate]
  · have h' : ¬ (2 : RackId) = k := fun e => h e.symm
    have hd : decide (running.ctxRack ctx = some k) = false := by rw [hc]; simpa using h'
    rw [if_neg h, List.countP_cons, List.countP_replicate]
    simp only [Option.any_some, hd, Option.any_none, Bool.false_eq_true, if_false]
    rfl

theorem test_meets_records_in_bounds : running.recordsInBounds := by
  intro a r h
  obtain ⟨-, rfl⟩ := recAt_running_some h
  unfold Record.inBounds Record.wellShaped
  decide

theorem mem_drop_two {n : Nat} (x : Fin n) : x ∈ (List.finRange n).drop 2 ↔ 2 ≤ x.val := by
  rw [List.mem_drop_iff_getElem]
  constructor
  · rintro ⟨i, hi, rfl⟩; simp
  · intro h; exact ⟨x.val - 2, by simp; omega, by ext; simp; omega⟩

theorem free_running : running.act.free = (List.finRange 3584).drop 2 := by rw [running, runningOf_free]

theorem drop_two_ordered (n : Nat) : ((List.finRange n).drop 2).Pairwise (· < ·) :=
  (List.pairwise_lt_finRange n).sublist (List.drop_sublist 2 _)

theorem test_meets_slabs_exact : running.slabsExact := by
  have hh : ∀ x a p, running.heldBy x a p ↔ a = 0 ∧ (x = 0 ∧ p = 0 ∨ x = 1 ∧ p = 1) := by
    intro x a p
    constructor
    · rintro ⟨r, v, h, hv, hs⟩
      obtain ⟨rfl, rfl⟩ := recAt_running_some h
      rcases survs_running hv with ⟨rfl, rfl⟩ | ⟨rfl, rfl⟩
      · exact ⟨rfl, .inl ⟨(Option.some.inj hs).symm, rfl⟩⟩
      · exact ⟨rfl, .inr ⟨(Option.some.inj hs).symm, rfl⟩⟩
    · rintro ⟨rfl, ⟨rfl, rfl⟩ | ⟨rfl, rfl⟩⟩ <;> exact ⟨runningRecord, _, recAt_running 0, rfl, rfl⟩
  refine ⟨?_, ?_, ?_, ?_, ?_⟩
  · intro a r p v h hv
    obtain ⟨-, rfl⟩ := recAt_running_some h
    rcases survs_running hv with ⟨rfl, rfl⟩ | ⟨rfl, rfl⟩ <;> decide
  · intro a r h
    obtain ⟨-, rfl⟩ := recAt_running_some h
    decide
  · intro x
    simp only [hh]
    have hf : x ∈ running.act.free ↔ 2 ≤ x.val := by rw [free_running, mem_drop_two]
    rw [hf]
    constructor
    · rintro h a p ⟨-, ⟨rfl, -⟩ | ⟨rfl, -⟩⟩ <;> revert h <;> decide
    · intro h
      by_contra hx
      have : x.val = 0 ∨ x.val = 1 := by omega
      rcases this with h0 | h1
      · exact h 0 0 ⟨rfl, .inl ⟨Fin.ext h0, rfl⟩⟩
      · exact h 0 1 ⟨rfl, .inr ⟨Fin.ext h1, rfl⟩⟩
  · intro x a b p q h h'
    rw [hh] at h h'
    obtain ⟨rfl, h⟩ := h
    obtain ⟨rfl, h'⟩ := h'
    refine ⟨rfl, ?_⟩
    rcases h with ⟨rfl, rfl⟩ | ⟨rfl, rfl⟩ <;> rcases h' with ⟨h, rfl⟩ | ⟨h, rfl⟩ <;> first | rfl | cases h
  · rw [free_running]
    exact drop_two_ordered 3584

theorem test_meets_ready_ordered : running.readyOrdered := by
  refine ⟨?_, ?_, List.Pairwise.nil⟩
  · intro a b x y h h' hne
    exact absurd ((recAt_running_some h).1.trans (recAt_running_some h').1.symm) hne
  · intro a r h
    obtain ⟨-, rfl⟩ := recAt_running_some h
    decide

theorem test_meets_notices_exact : running.noticesExact :=
  ⟨List.Pairwise.nil, fun _ h => absurd h List.not_mem_nil,
    fun _ _ _ => ⟨fun h => absurd h List.not_mem_nil, fun h => absurd h List.not_mem_nil, fun h => absurd h List.not_mem_nil⟩,
    Nat.zero_le _⟩

end Sys2Proof.Tests
end

