-- ==== Sys2Proof/Proofs/Keeps.lean ====
section
/-! What the invariants of the repair table look at, record by record, and what it takes for a change of one record, or of
many alike, to keep them. -/

namespace Sys2Proof.Machine

/-! ## Views of a record -/

/-- The survivor at a position is PULLING. -/
def Record.pullingAt (r : Record) (p : Nat) : Prop := ∃ v, r.survs[p]? = some v ∧ v.state = .pulling

/-- The survivor at a position holds the slab `x`. -/
def Record.holds (r : Record) (x : Slab) (p : Nat) : Prop := ∃ v, r.survs[p]? = some v ∧ v.slab = some x

/-- R42: the record belongs on the Ready List. -/
def Record.waits (r : Record) : Prop := r.state = .queued ∧ r.hold = .none

/-- R126: the hold agrees with COMBINING. -/
def Record.holdAgrees (r : Record) : Prop :=
  (∀ id, r.hold = .requested id → r.state = .combining) ∧ (r.hold = .granted → r.state ≠ .combining)

/-- R9: the active flag agrees with the record state. -/
def Record.activeAgrees (r : Record) : Prop :=
  (r.state = .fetching ∨ r.state = .combining → r.active = true)
  ∧ (r.state = .queued ∨ r.terminal = true → r.active = false)

/-- R17: a PULLING survivor is selected in an active record in FETCHING or PLAN_WAIT. -/
def Record.pullsAgree (r : Record) : Prop :=
  ∀ p, r.pullingAt p → p ∈ r.plan ∧ r.active = true ∧ (r.state = .fetching ∨ r.state = .planWait)

/-- R6, R9: a survivor has a slab exactly when it is selected in an active record, and the plan names k distinct positions. -/
def Record.slabsAgree (r : Record) : Prop :=
  (∀ p v, r.survs[p]? = some v → (v.staging.isSome = true ↔ r.active = true ∧ p ∈ r.plan))
  ∧ r.plan.Nodup ∧ r.plan.length = r.k ∧ ∀ p ∈ r.plan, p < r.s

/-- What the invariants look at in a survivor: whether it is PULLING, and its slab. -/
def Survivor.view (v : Survivor) : Bool × Option Slab := (v.state == .pulling, v.slab)

/-- The slot and the position that a context names. -/
def Ctx.place (c : Ctx) : Slot × Nat := (c.slot, c.pos)

/-! ## Views of the state -/

/-- An OPEN context names the slot and the position. -/
def State.openAt (s : State) (a : Slot) (p : Nat) : Prop := ∃ tag c, s.ctxAt tag = some c ∧ c.slot = a ∧ c.pos = p

/-- The Combine Engine has the slot, waiting or in flight. -/
def State.combines (s : State) (a : Slot) : Prop := a ∈ s.comb.queue ∨ ∃ p, s.comb.pass = some p ∧ p.slot = a

/-- No two OPEN contexts name one place. -/
def State.ctxsApart (s : State) : Prop :=
  ∀ tag tag' c c', s.ctxAt tag = some c → s.ctxAt tag' = some c' → c.slot = c'.slot → c.pos = c'.pos → tag = tag'

theorem Record.slab_eq_none (v : Survivor) : v.slab = none ↔ v.staging.isSome = false := by
  simp [Survivor.slab]

theorem Survivor.slab_isSome (v : Survivor) : v.slab.isSome = v.staging.isSome := by
  simp [Survivor.slab]

theorem State.listsExact_iff (s : State) : s.listsExact ↔
    (∀ a, a ∈ s.act.ready ↔ ∃ r, s.recAt a = some r ∧ r.waits)
    ∧ (∀ a, s.combines a ↔ ∃ r, s.recAt a = some r ∧ r.state = .combining)
    ∧ s.comb.queue.Nodup ∧ (∀ p, s.comb.pass = some p → p.slot ∉ s.comb.queue)
    ∧ (∀ a r, s.recAt a = some r → r.holdAgrees) := Iff.rfl

/-- R17 said by places: the places of the OPEN contexts are those of the PULLING survivors. -/
theorem State.contextsExact_iff (s : State) : s.contextsExact ↔
    (∀ a p, s.openAt a p ↔ ∃ r, s.recAt a = some r ∧ r.pullingAt p)
    ∧ (∀ a r, s.recAt a = some r → r.pullsAgree) ∧ s.ctxsApart := by
  constructor
  · rintro ⟨hc, hp, hu⟩
    have agree : ∀ a p, s.openAt a p → ∃ r, s.recAt a = some r ∧ r.pullingAt p ∧ p ∈ r.plan ∧ r.active = true
        ∧ (r.state = .fetching ∨ r.state = .planWait) := by
      rintro a p ⟨tag, c, h, rfl, rfl⟩
      obtain ⟨r, v, hr, hv, hs, hpl, ha, hst⟩ := hc tag c h
      exact ⟨r, hr, ⟨v, hv, hs⟩, hpl, ha, hst⟩
    refine ⟨fun a p => ⟨fun h => ?_, ?_⟩, ?_, hu⟩
    · obtain ⟨r, hr, hpu, -⟩ := agree a p h
      exact ⟨r, hr, hpu⟩
    · rintro ⟨r, hr, v, hv, hs⟩
      exact hp a r p v hr hv hs
    · rintro a r hr p ⟨v, hv, hs⟩
      obtain ⟨r', hr', -, h⟩ := agree a p (hp a r p v hr hv hs)
      obtain rfl := Option.some.inj (hr.symm.trans hr')
      exact h
  · rintro ⟨ho, ha, hu⟩
    refine ⟨fun tag c h => ?_, fun a r p v hr hv hs => (ho a p).mpr ⟨r, hr, v, hv, hs⟩, hu⟩
    obtain ⟨r, hr, v, hv, hs⟩ := (ho c.slot c.pos).mp ⟨tag, c, h, rfl, rfl⟩
    exact ⟨r, v, hr, hv, hs, ha _ r hr _ ⟨v, hv, hs⟩⟩

theorem State.heldBy_iff (s : State) (x : Slab) (a : Slot) (p : Nat) :
    s.heldBy x a p ↔ ∃ r, s.recAt a = some r ∧ r.holds x p := by
  constructor
  · rintro ⟨r, v, hr, hv, hx⟩; exact ⟨r, hr, v, hv, hx⟩
  · rintro ⟨r, hr, v, hv, hx⟩; exact ⟨r, v, hr, hv, hx⟩

theorem State.slabsExact_iff (s : State) : s.slabsExact ↔
    (∀ a r, s.recAt a = some r → r.slabsAgree)
    ∧ (∀ x, x ∈ s.act.free ↔ ∀ a p, ¬ s.heldBy x a p)
    ∧ (∀ x a b p q, s.heldBy x a p → s.heldBy x b q → a = b ∧ p = q)
    ∧ s.act.free.Pairwise (· < ·) := by
  constructor
  · rintro ⟨h1, h2, h3⟩
    exact ⟨fun a r hr => ⟨fun p v => h1 a r p v hr, h2 a r hr⟩, h3⟩
  · rintro ⟨h1, h3⟩
    exact ⟨fun a r p v hr => (h1 a r hr).1 p v, fun a r hr => (h1 a r hr).2, h3⟩

/-! ## What is kept -/

/-- From `s` to `t` each invariant of the repair table is kept, under the premises of its own statement. -/
structure Keeps (s t : State) : Prop where
  index : s.indexExact → t.indexExact
  lists : s.listsExact → t.listsExact
  active : s.listsExact → s.activeExact → t.activeExact
  contexts : s.listsExact → s.activeExact → s.contextsExact → t.contextsExact
  bounds : s.listsExact → s.recordsInBounds → t.recordsInBounds
  slabs : s.listsExact → s.activeExact → s.slabsExact → t.slabsExact

theorem Keeps.refl (s : State) : Keeps s s := ⟨id, id, fun _ h => h, fun _ _ h => h, fun _ h => h, fun _ _ h => h⟩

theorem Keeps.trans {s u t : State} (h : Keeps s u) (h' : Keeps u t) : Keeps s t where
  index hi := h'.index (h.index hi)
  lists hl := h'.lists (h.lists hl)
  active hl ha := h'.active (h.lists hl) (h.active hl ha)
  contexts hl ha hc := h'.contexts (h.lists hl) (h.active hl ha) (h.contexts hl ha hc)
  bounds hl hb := h'.bounds (h.lists hl) (h.bounds hl hb)
  slabs hl ha hs := h'.slabs (h.lists hl) (h.active hl ha) (h.slabs hl ha hs)

/-! ## Records that are alike -/

/-- The record `r'` differs from `r` in nothing that the lists, the contexts or the slabs look at, and is in bounds if `r` is. -/
structure Record.Alike (r r' : Record) : Prop where
  stripe : r'.stripe = r.stripe
  k : r'.k = r.k
  plan : r'.plan = r.plan
  state : r'.state = r.state
  hold : r'.hold = r.hold
  active : r'.active = r.active
  survs : r'.survs.map Survivor.view = r.survs.map Survivor.view
  bounds : r.inBounds → r'.inBounds

theorem Record.terminal_congr {r r' : Record} (h : r'.state = r.state) : r'.terminal = r.terminal := by
  rw [Record.terminal, h, Record.terminal]

theorem Record.live_congr {r r' : Record} (h : r'.state = r.state) : r'.live = r.live := by
  rw [Record.live, h, Record.live]

/-- Survivor lists with one view have one length, PULLING positions and slabs. -/
theorem view_at {l l' : List Survivor} (h : l'.map Survivor.view = l.map Survivor.view) {p : Nat} {v' : Survivor}
    (hv : l'[p]? = some v') : ∃ v, l[p]? = some v ∧ v.view = v'.view := by
  have := congrArg (·[p]?) h
  simpa [hv] using this.symm

theorem view_state {v v' : Survivor} (h : v.view = v'.view) : v.state = .pulling ↔ v'.state = .pulling := by
  have hb : (v.state == .pulling) = (v'.state == .pulling) := congrArg Prod.fst h
  rw [← beq_iff_eq, hb, beq_iff_eq]

theorem view_slab {v v' : Survivor} (h : v.view = v'.view) : v.slab = v'.slab := congrArg Prod.snd h

theorem pullingAt_of_view {r r' : Record} (h : r'.survs.map Survivor.view = r.survs.map Survivor.view) {p : Nat}
    (hp : r'.pullingAt p) : r.pullingAt p := by
  obtain ⟨v', hv, hs⟩ := hp
  obtain ⟨v, hv, e⟩ := view_at h hv
  exact ⟨v, hv, (view_state e).mpr hs⟩

theorem pullingAt_congr {r r' : Record} (h : r'.survs.map Survivor.view = r.survs.map Survivor.view) (p : Nat) :
    r'.pullingAt p ↔ r.pullingAt p := ⟨pullingAt_of_view h, pullingAt_of_view h.symm⟩

theorem holds_of_view {r r' : Record} (h : r'.survs.map Survivor.view = r.survs.map Survivor.view) {x : Slab} {p : Nat}
    (hp : r'.holds x p) : r.holds x p := by
  obtain ⟨v', hv, hs⟩ := hp
  obtain ⟨v, hv, e⟩ := view_at h hv
  exact ⟨v, hv, (view_slab e).trans hs⟩

theorem holds_congr {r r' : Record} (h : r'.survs.map Survivor.view = r.survs.map Survivor.view) (x : Slab) (p : Nat) :
    r'.holds x p ↔ r.holds x p := ⟨holds_of_view h, holds_of_view h.symm⟩

/-- Slabs alone decide whether a record's slabs agree with its plan. -/
theorem slabsAgree_of_slab {r r' : Record} (h : r'.survs.map Survivor.slab = r.survs.map Survivor.slab)
    (hk : r'.k = r.k) (hp : r'.plan = r.plan) (ha : r'.active = r.active) (hs : r.slabsAgree) : r'.slabsAgree := by
  obtain ⟨h1, h2, h3, h4⟩ := hs
  have hlen : r'.s = r.s := by simpa [Record.s] using congrArg List.length h
  refine ⟨fun p v' hv' => ?_, hp ▸ h2, by rw [hp, hk]; exact h3, by rw [hp, hlen]; exact h4⟩
  have he : ∃ v, r.survs[p]? = some v ∧ v.slab = v'.slab := by
    have := congrArg (·[p]?) h
    simpa [hv'] using this.symm
  obtain ⟨v, hv, e⟩ := he
  rw [← Survivor.slab_isSome, ← e, Survivor.slab_isSome, ha, hp]
  exact h1 p v hv

theorem slab_of_view {l l' : List Survivor} (h : l'.map Survivor.view = l.map Survivor.view) :
    l'.map Survivor.slab = l.map Survivor.slab := by
  simpa [Function.comp_def, Survivor.view] using congrArg (List.map Prod.snd) h

theorem Record.Alike.refl (r : Record) : r.Alike r := ⟨rfl, rfl, rfl, rfl, rfl, rfl, rfl, id⟩

/-- From `s` to `t` every slot keeps its record or one alike. -/
def RecordsAlike (s t : State) : Prop :=
  ∀ a, t.recAt a = s.recAt a ∨ ∃ r r', s.recAt a = some r ∧ t.recAt a = some r' ∧ r.Alike r'

/-- From `s` to `t` the index, the lists, the pool and the places of the contexts stay. -/
structure SameLists (s t : State) : Prop where
  index : t.table.index = s.table.index
  ready : ∀ b, b ∈ t.act.ready ↔ b ∈ s.act.ready
  free : t.act.free = s.act.free
  queue : t.comb.queue = s.comb.queue
  pass : t.comb.pass.map (·.slot) = s.comb.pass.map (·.slot)
  ctxs : ∀ tag, (t.ctxAt tag).map Ctx.place = (s.ctxAt tag).map Ctx.place

theorem RecordsAlike.back {s t : State} (h : RecordsAlike s t) {a : Slot} {r' : Record} (hr : t.recAt a = some r') :
    ∃ r, s.recAt a = some r ∧ r.Alike r' := by
  rcases h a with e | ⟨r, r₁, hs, ht, ha⟩
  · exact ⟨r', e ▸ hr, .refl r'⟩
  · obtain rfl := Option.some.inj (ht.symm.trans hr)
    exact ⟨r, hs, ha⟩

theorem RecordsAlike.forth {s t : State} (h : RecordsAlike s t) {a : Slot} {r : Record} (hr : s.recAt a = some r) :
    ∃ r', t.recAt a = some r' ∧ r.Alike r' := by
  rcases h a with e | ⟨r₁, r', hs, ht, ha⟩
  · exact ⟨r, e.trans hr, .refl r⟩
  · obtain rfl := Option.some.inj (hs.symm.trans hr)
    exact ⟨r', ht, ha⟩

/-- A property of records that alike records share holds of a slot before if it does after, and conversely. -/
theorem RecordsAlike.exists_iff {s t : State} (h : RecordsAlike s t) (P : Record → Prop)
    (hP : ∀ r r', Record.Alike r r' → (P r' ↔ P r)) (a : Slot) :
    (∃ r, t.recAt a = some r ∧ P r) ↔ ∃ r, s.recAt a = some r ∧ P r := by
  constructor
  · rintro ⟨r', hr', hp⟩
    obtain ⟨r, hr, e⟩ := h.back hr'
    exact ⟨r, hr, (hP r r' e).mp hp⟩
  · rintro ⟨r, hr, hp⟩
    obtain ⟨r', hr', e⟩ := h.forth hr
    exact ⟨r', hr', (hP r r' e).mpr hp⟩

theorem openAt_iff_place (s : State) (a : Slot) (p : Nat) :
    s.openAt a p ↔ ∃ tag, (s.ctxAt tag).map Ctx.place = some (a, p) := by
  simp [State.openAt, Ctx.place]

theorem ctxsApart_iff_place (s : State) :
    s.ctxsApart ↔ ∀ tag tag' x, (s.ctxAt tag).map Ctx.place = some x → (s.ctxAt tag').map Ctx.place = some x → tag = tag' := by
  constructor
  · rintro h tag tag' x h1 h2
    obtain ⟨c, hc, rfl⟩ := Option.map_eq_some_iff.mp h1
    obtain ⟨c', hc', e⟩ := Option.map_eq_some_iff.mp h2
    exact h tag tag' c c' hc hc' (congrArg Prod.fst e).symm (congrArg Prod.snd e).symm
  · rintro h tag tag' c c' h1 h2 ha hp
    exact h tag tag' c.place (by simp [h1]) (by simp [h2, Ctx.place, ha, hp])

theorem combines_iff (s : State) (a : Slot) :
    s.combines a ↔ a ∈ s.comb.queue ∨ s.comb.pass.map (·.slot) = some a := by
  simp [State.combines]

theorem SameLists.combines {s t : State} (h : SameLists s t) (a : Slot) : t.combines a ↔ s.combines a := by
  rw [combines_iff, combines_iff, h.queue, h.pass]

theorem SameLists.openAt {s t : State} (h : SameLists s t) (a : Slot) (p : Nat) : t.openAt a p ↔ s.openAt a p := by
  simp only [openAt_iff_place, h.ctxs]

theorem SameLists.ctxsApart {s t : State} (h : SameLists s t) : t.ctxsApart ↔ s.ctxsApart := by
  simp only [ctxsApart_iff_place, h.ctxs]

theorem pass_apart_iff (s : State) : (∀ p, s.comb.pass = some p → p.slot ∉ s.comb.queue) ↔
    ∀ a, s.comb.pass.map (·.slot) = some a → a ∉ s.comb.queue := by
  simp

/-- A change that leaves every record alike and the lists as they are keeps every invariant. -/
theorem Keeps.of_alike {s t : State} (hr : RecordsAlike s t) (hl : SameLists s t) : Keeps s t where
  index hi := by
    refine ⟨fun id a => ?_, hl.index ▸ hi.2⟩
    rw [hl.index, hi.1, hr.exists_iff (fun r => r.stripe = id) fun _ _ e => by rw [e.stripe]]
  lists h := by
    rw [State.listsExact_iff] at h ⊢
    obtain ⟨h1, h2, h3, h4, h5⟩ := h
    refine ⟨fun a => ?_, fun a => ?_, hl.queue ▸ h3, ?_, fun a r' hr' => ?_⟩
    · rw [hl.ready, h1, hr.exists_iff Record.waits fun _ _ e => by rw [Record.waits, e.state, e.hold]; rfl]
    · rw [hl.combines, h2, hr.exists_iff (fun r => r.state = .combining) fun _ _ e => by rw [e.state]]
    · rw [pass_apart_iff] at h4 ⊢
      rw [hl.pass, hl.queue]; exact h4
    · obtain ⟨r, hr, e⟩ := hr.back hr'
      have := h5 a r hr
      rwa [Record.holdAgrees, e.hold, e.state]
  active _ h a r' hr' := by
    obtain ⟨r, hr, e⟩ := hr.back hr'
    have := h a r hr
    rwa [e.state, e.active, Record.terminal_congr e.state]
  contexts _ _ h := by
    rw [State.contextsExact_iff] at h ⊢
    obtain ⟨h1, h2, h3⟩ := h
    refine ⟨fun a p => ?_, fun a r' hr' p hp => ?_, hl.ctxsApart.mpr h3⟩
    · rw [hl.openAt, h1, hr.exists_iff (fun r => r.pullingAt p) fun _ _ e => pullingAt_congr e.survs p]
    · obtain ⟨r, hr, e⟩ := hr.back hr'
      have := h2 a r hr p ((pullingAt_congr e.survs p).mp hp)
      rwa [e.plan, e.active, e.state]
  bounds _ h a r' hr' := by
    obtain ⟨r, hr, e⟩ := hr.back hr'
    exact e.bounds (h a r hr)
  slabs _ _ h := by
    have held : ∀ x a p, t.heldBy x a p ↔ s.heldBy x a p := fun x a p => by
      rw [State.heldBy_iff, State.heldBy_iff,
        hr.exists_iff (fun r => r.holds x p) fun _ _ e => holds_congr e.survs x p]
    rw [State.slabsExact_iff] at h ⊢
    obtain ⟨h1, h2, h3, h4⟩ := h
    refine ⟨fun a r' hr' => ?_, fun x => ?_, fun x a b p q => ?_, hl.free ▸ h4⟩
    · obtain ⟨r, hr, e⟩ := hr.back hr'
      exact slabsAgree_of_slab (slab_of_view e.survs) e.k e.plan e.active (h1 a r hr)
    · simp only [hl.free, h2, held]
    · rw [held, held]; exact h3 x a b p q

/-! ## A change of one slot -/

/-- From `s` to `t` the slot `a`, which held `o`, came to hold `o'`, and every other slot kept its record. -/
structure SlotChange (s t : State) (a : Slot) (o o' : Option Record) : Prop where
  before : s.recAt a = o
  after : t.recAt a = o'
  others : OnlySlot s t a

namespace SlotChange

variable {s t : State} {a : Slot} {o o' : Option Record}

/-- What a property of records says of the slots after the change. -/
theorem forall_iff (h : SlotChange s t a o o') {P : Slot → Record → Prop} (hP : ∀ b r, s.recAt b = some r → P b r)
    (ha : ∀ r', o' = some r' → P a r') : ∀ b r, t.recAt b = some r → P b r := by
  intro b r hr
  by_cases hb : b = a
  · subst hb
    exact ha r (h.after ▸ hr)
  · exact hP b r (h.others b hb ▸ hr)

theorem index_same (h : SlotChange s t a o o') (hi : t.table.index = s.table.index)
    (hs : o'.map (·.stripe) = o.map (·.stripe)) (hx : s.indexExact) : t.indexExact := by
  have key : ∀ (u : State) b id, (∃ r, u.recAt b = some r ∧ r.stripe = id) ↔ (u.recAt b).map (·.stripe) = some id :=
    fun u b id => by simp
  refine ⟨fun id b => ?_, hi ▸ hx.2⟩
  rw [hi, hx.1, key, key]
  by_cases hb : b = a
  · rw [hb, h.before, h.after, hs]
  · rw [h.others b hb]

/-- The lists after a change of one slot, said of that slot alone. -/
theorem lists_of (h : SlotChange s t a o o')
    (ready : ∀ b, b ≠ a → (b ∈ t.act.ready ↔ b ∈ s.act.ready))
    (readyHere : a ∈ t.act.ready ↔ ∃ r', o' = some r' ∧ r'.waits)
    (comb : ∀ b, b ≠ a → (t.combines b ↔ s.combines b))
    (combHere : t.combines a ↔ ∃ r', o' = some r' ∧ r'.state = .combining)
    (nodup : t.comb.queue.Nodup) (apart : ∀ p, t.comb.pass = some p → p.slot ∉ t.comb.queue)
    (hold : ∀ r', o' = some r' → r'.holdAgrees) (hx : s.listsExact) : t.listsExact := by
  rw [State.listsExact_iff] at hx ⊢
  obtain ⟨h1, h2, -, -, h5⟩ := hx
  refine ⟨fun b => ?_, fun b => ?_, nodup, apart, h.forall_iff h5 hold⟩
  · by_cases hb : b = a
    · rw [hb, readyHere, h.after]
    · rw [ready b hb, h1, h.others b hb]
  · by_cases hb : b = a
    · rw [hb, combHere, h.after]
    · rw [comb b hb, h2, h.others b hb]

/-- The lists after a change of one slot that the Combine Engine takes no part in. -/
theorem lists_same_comb (h : SlotChange s t a o o') (hc : t.comb = s.comb)
    (ready : ∀ b, b ≠ a → (b ∈ t.act.ready ↔ b ∈ s.act.ready))
    (readyHere : a ∈ t.act.ready ↔ ∃ r', o' = some r' ∧ r'.waits)
    (comb : (∃ r', o' = some r' ∧ r'.state = .combining) ↔ ∃ r, o = some r ∧ r.state = .combining)
    (hold : ∀ r', o' = some r' → r'.holdAgrees) (hx : s.listsExact) : t.listsExact := by
  have hcomb : ∀ b, t.combines b ↔ s.combines b := fun b => by simp only [State.combines, hc]
  obtain ⟨-, h2, h3, h4, -⟩ := s.listsExact_iff.mp hx
  refine h.lists_of ready readyHere (fun b _ => hcomb b) ?_ (hc ▸ h3) (hc ▸ h4) hold hx
  rw [hcomb, h2, h.before, comb]

theorem active_of (h : SlotChange s t a o o') (ha : ∀ r', o' = some r' → r'.activeAgrees) (hx : s.activeExact) :
    t.activeExact := h.forall_iff (P := fun _ r => r.activeAgrees) hx ha

theorem bounds_of (h : SlotChange s t a o o') (ha : ∀ r', o' = some r' → r'.inBounds) (hx : s.recordsInBounds) :
    t.recordsInBounds := h.forall_iff (P := fun _ r => r.inBounds) hx ha

/-- The contexts after a change of one slot, said of that slot alone. -/
theorem contexts_of (h : SlotChange s t a o o') (apart : t.ctxsApart)
    (open_ : ∀ b, b ≠ a → ∀ p, t.openAt b p ↔ s.openAt b p)
    (openHere : ∀ p, t.openAt a p ↔ ∃ r', o' = some r' ∧ r'.pullingAt p)
    (agree : ∀ r', o' = some r' → r'.pullsAgree) (hx : s.contextsExact) : t.contextsExact := by
  rw [State.contextsExact_iff] at hx ⊢
  obtain ⟨h1, h2, -⟩ := hx
  refine ⟨fun b p => ?_, h.forall_iff h2 agree, apart⟩
  by_cases hb : b = a
  · rw [hb, openHere, h.after]
  · rw [open_ b hb, h1, h.others b hb]

/-- The slabs after a change of one slot: the slot's slabs and the free ones together stay, each in one place. -/
theorem slabs_of (h : SlotChange s t a o o') (agree : ∀ r', o' = some r' → r'.slabsAgree)
    (total : ∀ x, (x ∈ t.act.free ∨ ∃ r' p, o' = some r' ∧ r'.holds x p)
      ↔ (x ∈ s.act.free ∨ ∃ r p, o = some r ∧ r.holds x p))
    (apart : ∀ x r' p, x ∈ t.act.free → o' = some r' → ¬ r'.holds x p)
    (once : ∀ x r' p q, o' = some r' → r'.holds x p → r'.holds x q → p = q)
    (ascend : t.act.free.Pairwise (· < ·)) (hx : s.slabsExact) : t.slabsExact := by
  rw [State.slabsExact_iff] at hx ⊢
  obtain ⟨h1, h2, h3, -⟩ := hx
  have here : ∀ x p, t.heldBy x a p ↔ ∃ r', o' = some r' ∧ r'.holds x p := fun x p => by
    rw [State.heldBy_iff, h.after]
  have hereBefore : ∀ x p, s.heldBy x a p ↔ ∃ r, o = some r ∧ r.holds x p := fun x p => by
    rw [State.heldBy_iff, h.before]
  have there : ∀ x b p, b ≠ a → (t.heldBy x b p ↔ s.heldBy x b p) := fun x b p hb => by
    rw [State.heldBy_iff, State.heldBy_iff, h.others b hb]
  have elsewhere : ∀ x b p, b ≠ a → s.heldBy x b p → ¬ (x ∈ t.act.free ∨ ∃ r' p, o' = some r' ∧ r'.holds x p) := by
    intro x b p hb hh
    rw [total]
    rintro (hf | ⟨r, q, hr, hq⟩)
    · exact (h2 x).mp hf b p hh
    · exact hb (h3 x b a p q hh ((hereBefore x q).mpr ⟨r, hr, hq⟩)).1
  refine ⟨h.forall_iff h1 agree, fun x => ⟨fun hf b p hh => ?_, fun hn => ?_⟩, fun x b c p q hp hq => ?_, ascend⟩
  · by_cases hb : b = a
    · rw [hb] at hh
      obtain ⟨r', hr', hp⟩ := (here x p).mp hh
      exact apart x r' p hf hr' hp
    · exact elsewhere x b p hb ((there x b p hb).mp hh) (.inl hf)
  · have htot : x ∈ t.act.free ∨ ∃ r' p, o' = some r' ∧ r'.holds x p := by
      rw [total]
      by_contra hno
      rw [not_or] at hno
      refine hno.1 ((h2 x).mpr fun b p hh => ?_)
      by_cases hb : b = a
      · rw [hb] at hh
        obtain ⟨r, hr, hp⟩ := (hereBefore x p).mp hh
        exact hno.2 ⟨r, p, hr, hp⟩
      · exact hn b p ((there x b p hb).mpr hh)
    rcases htot with hf | ⟨r', p, hr', hp⟩
    · exact hf
    · exact absurd ((here x p).mpr ⟨r', hr', hp⟩) (hn a p)
  · by_cases hb : b = a <;> by_cases hc : c = a
    · subst hb hc
      obtain ⟨r₁, hr₁, hp⟩ := (here x p).mp hp
      obtain ⟨r₂, hr₂, hq⟩ := (here x q).mp hq
      obtain rfl := Option.some.inj (hr₁.symm.trans hr₂)
      exact ⟨rfl, once x r₁ p q hr₁ hp hq⟩
    · subst hb
      obtain ⟨r₁, hr₁, hp⟩ := (here x p).mp hp
      exact absurd (.inr ⟨r₁, p, hr₁, hp⟩) (elsewhere x c q hc ((there x c q hc).mp hq))
    · subst hc
      obtain ⟨r₁, hr₁, hq⟩ := (here x q).mp hq
      exact absurd (.inr ⟨r₁, q, hr₁, hq⟩) (elsewhere x b p hb ((there x b p hb).mp hp))
    · exact h3 x b c p q ((there x b p hb).mp hp) ((there x c q hc).mp hq)

end SlotChange

end Sys2Proof.Machine
end

