-- ==== Sys2Proof/Proofs/OneSlot.lean ====
section
/-! The shapes that a change of one slot takes: contexts that end, slabs that stay or return to the pool, and changes that
no invariant of the repair table looks at. -/

namespace Sys2Proof.Machine

/-! ## Reading the invariants -/

theorem State.listsExact.mem_ready {s : State} (h : s.listsExact) {a : Slot} {r : Record} (hr : s.recAt a = some r) :
    a ∈ s.act.ready ↔ r.waits := by
  rw [h.1 a]
  constructor
  · rintro ⟨r', hr', hw⟩
    obtain rfl := Option.some.inj (hr.symm.trans hr')
    exact hw
  · exact fun hw => ⟨r, hr, hw⟩

theorem State.listsExact.combines_iff {s : State} (h : s.listsExact) {a : Slot} {r : Record} (hr : s.recAt a = some r) :
    s.combines a ↔ r.state = .combining := by
  rw [State.combines, h.2.1 a]
  constructor
  · rintro ⟨r', hr', hw⟩
    obtain rfl := Option.some.inj (hr.symm.trans hr')
    exact hw
  · exact fun hw => ⟨r, hr, hw⟩

theorem State.listsExact.holdAgrees {s : State} (h : s.listsExact) {a : Slot} {r : Record} (hr : s.recAt a = some r) :
    r.holdAgrees := h.2.2.2.2 a r hr

theorem State.contextsExact.pullsAgree {s : State} (h : s.contextsExact) {a : Slot} {r : Record}
    (hr : s.recAt a = some r) : r.pullsAgree := (s.contextsExact_iff.mp h).2.1 a r hr

theorem State.contextsExact.open_iff {s : State} (h : s.contextsExact) (a : Slot) (p : Nat) :
    s.openAt a p ↔ ∃ r, s.recAt a = some r ∧ r.pullingAt p := (s.contextsExact_iff.mp h).1 a p

theorem State.contextsExact.apart {s : State} (h : s.contextsExact) : s.ctxsApart := h.2.2

theorem State.slabsExact.slabsAgree {s : State} (h : s.slabsExact) {a : Slot} {r : Record} (hr : s.recAt a = some r) :
    r.slabsAgree := (s.slabsExact_iff.mp h).1 a r hr

theorem State.slabsExact.ascend {s : State} (h : s.slabsExact) : s.act.free.Pairwise (· < ·) := h.2.2.2.2

theorem State.slabsExact.not_free {s : State} (h : s.slabsExact) {a : Slot} {r : Record} (hr : s.recAt a = some r)
    {x : Slab} {p : Nat} (hp : r.holds x p) : x ∉ s.act.free := fun hf =>
  (h.2.2.1 x).mp hf a p ((s.heldBy_iff x a p).mpr ⟨r, hr, hp⟩)

theorem State.slabsExact.once {s : State} (h : s.slabsExact) {a : Slot} {r : Record} (hr : s.recAt a = some r)
    {x : Slab} {p q : Nat} (hp : r.holds x p) (hq : r.holds x q) : p = q :=
  (h.2.2.2.1 x a a p q ((s.heldBy_iff x a p).mpr ⟨r, hr, hp⟩) ((s.heldBy_iff x a q).mpr ⟨r, hr, hq⟩)).2

theorem State.lookup_some {s : State} {id : StripeId} {a : Slot} {r : Record} (h : s.lookup id = some (a, r)) :
    s.slotOf id = some a ∧ s.recAt a = some r := by
  simp only [State.lookup, Option.bind_eq_some_iff, Option.map_eq_some_iff, Prod.mk.injEq] at h
  obtain ⟨b, hb, r', hr, rfl, rfl⟩ := h
  exact ⟨hb, hr⟩

/-! ## The slabs of a record -/

/-- R120: a record's slabs are those its survivors hold. -/
theorem Record.mem_slabs (r : Record) (x : Slab) : x ∈ r.slabs ↔ ∃ p, r.holds x p := by
  rw [Record.slabs, List.mem_filterMap]
  constructor
  · rintro ⟨v, hv, hx⟩
    obtain ⟨p, hp⟩ := List.mem_iff_getElem?.mp hv
    exact ⟨p, v, hp, hx⟩
  · rintro ⟨p, v, hv, hx⟩; exact ⟨v, List.mem_of_getElem? hv, hx⟩

theorem holds_of_slab {r r' : Record} (h : r'.survs.map Survivor.slab = r.survs.map Survivor.slab) (x : Slab) (p : Nat) :
    r'.holds x p ↔ r.holds x p := by
  have key : ∀ u : Record, u.holds x p ↔ (u.survs.map Survivor.slab)[p]? = some (some x) := fun u => by
    simp [Record.holds]
  rw [key, key, h]

/-- An inactive record holds no slab. -/
theorem Record.slabsAgree.not_holds {r : Record} (h : r.slabsAgree) (ha : r.active = false) (x : Slab) (p : Nat) :
    ¬ r.holds x p := by
  rintro ⟨v, hv, hx⟩
  have hs : v.staging.isSome = true := by rw [← Survivor.slab_isSome, hx]; rfl
  rw [h.1 p v hv, ha] at hs
  exact Bool.false_ne_true hs.1

/-- Survivors without slabs agree with an inactive record. -/
theorem slabsAgree_of_none {r : Record} (ha : r.active = false) (hn : ∀ v ∈ r.survs, v.staging = none)
    (hp : r.plan.Nodup ∧ r.plan.length = r.k ∧ ∀ p ∈ r.plan, p < r.s) : r.slabsAgree :=
  ⟨fun p v hv => by simp [hn v (List.mem_of_getElem? hv), ha], hp⟩

theorem not_holds_of_none {r : Record} (hn : ∀ v ∈ r.survs, v.staging = none) (x : Slab) (p : Nat) : ¬ r.holds x p := by
  rintro ⟨v, hv, hx⟩
  simp [Survivor.slab, hn v (List.mem_of_getElem? hv)] at hx

/-! ## Changes that no invariant looks at -/

/-- A change of nothing that the invariants look at keeps them. -/
theorem Keeps.of_fields {s t : State} (slots : t.table.slots = s.table.slots) (index : t.table.index = s.table.index)
    (act : t.act = s.act) (comb : t.comb = s.comb) (ctxs : t.fetch.ctxs = s.fetch.ctxs) : Keeps s t :=
  .of_alike (fun a => .inl (by simp [State.recAt, slots]))
    ⟨index, fun _ => by rw [act], by rw [act], by rw [comb], by rw [comb], fun _ => by simp only [State.ctxAt, ctxs]⟩

theorem Keeps.setRack (s : State) (k : RackId) (e : Rack) : Keeps s (s.setRack k e) := .of_fields rfl rfl rfl rfl rfl
theorem Keeps.emit (s : State) (o : List Output) : Keeps s (s.emit o) := .of_fields rfl rfl rfl rfl rfl
theorem Keeps.clearVerify (s : State) (l : List Slab) : Keeps s (s.clearVerify l) :=
  .of_fields (by simp) (by simp) (by simp) (by simp) (by simp only [State.clearVerify])
theorem Keeps.setVerify (s : State) (x : Slab) (m : Bool) : Keeps s (s.setVerify x m) := .of_fields rfl rfl rfl rfl rfl
theorem Keeps.clearQuiesce (s : State) : Keeps s s.clearQuiesce := .of_fields rfl rfl rfl rfl rfl

theorem Keeps.setPort (s : State) (p : PortNo) (f : FabricPort) : Keeps s (s.setPort p f) := by
  cases p <;> exact .of_fields rfl rfl rfl rfl rfl

theorem Keeps.notify (s : State) (n : Notice) : Keeps s (s.notify n) :=
  .of_fields (by simp) (by simp) (by simp) (by simp) (by simp)

/-- A record alike in the place of another, the lists as they were. -/
theorem Keeps.setRec_alike {s : State} {a : Slot} {r r' : Record} (hr : s.recAt a = some r) (h : r.Alike r') :
    Keeps s (s.setRec a (some r')) := by
  refine .of_alike (fun b => ?_) ⟨rfl, fun _ => .rfl, rfl, rfl, rfl, fun _ => by simp⟩
  by_cases hb : b = a
  · subst hb; exact .inr ⟨r, r', hr, by simp, h⟩
  · exact .inl (State.recAt_setRec_ne s _ hb)

/-- R43: a move within the Ready List. -/
theorem Keeps.relist (s : State) (a : Slot) : Keeps s (s.relist a) :=
  .of_alike (fun b => .inl (by simp)) ⟨by simp, fun _ => by simp, by simp, by simp, by simp, fun _ => by simp⟩

/-- R108, R107: a context that goes on at its place. -/
theorem Keeps.setCtx_same {s : State} {tag : Tag} {c c' : Ctx} (hc : s.ctxAt tag = some c) (h : c'.place = c.place) :
    Keeps s (s.setCtx tag (some c')) := by
  refine .of_alike (fun b => .inl (by simp)) ⟨rfl, fun _ => .rfl, rfl, rfl, rfl, fun u => ?_⟩
  by_cases hu : u = tag
  · subst hu; simp [hc, h]
  · rw [State.ctxAt_setCtx_ne s _ hu]

/-! ## Contexts that end -/

theorem State.ctxAt_freeCtx (s : State) (tag u : Tag) :
    (s.freeCtx tag).ctxAt u = if u = tag then none else s.ctxAt u := by
  have hset : (s.setCtx tag none).ctxAt u = if u = tag then none else s.ctxAt u := by
    split
    · rename_i h; subst h; simp
    · exact State.ctxAt_setCtx_ne s _ ‹_›
  rcases s.freeCtx_cases tag with ⟨hn, e⟩ | ⟨c, -, -, e⟩ | ⟨c, k, -, -, e⟩
  · rw [e]
    split
    · rename_i h; rw [h, hn]
    · rfl
  · rw [e, hset]
  · rw [e, State.ctxAt_setRack, hset]

/-- The context that `tag` names is the only one at its place. -/
theorem State.ctxAt_freeCtx_place {s : State} (h : s.ctxsApart) {tag : Tag} {c : Ctx} (hc : s.ctxAt tag = some c) (u : Tag) :
    (s.freeCtx tag).ctxAt u = (s.ctxAt u).filter fun d => !(d.slot == c.slot && d.pos == c.pos) := by
  rw [State.ctxAt_freeCtx]
  split
  · rename_i hu; simp [hu, hc, Option.filter]
  · rename_i hu
    cases hd : s.ctxAt u with
    | none => rfl
    | some d =>
      have : ¬ (d.slot = c.slot ∧ d.pos = c.pos) := fun ⟨h1, h2⟩ => hu (h u tag d c hd hc h1 h2)
      simpa [Option.filter] using this

namespace SlotChange

variable {s t : State} {a : Slot} {o o' : Option Record}

/-- The contexts after a change of one slot that ends those of some of its positions. -/
theorem contexts_ended (h : SlotChange s t a o o') {p : Ctx → Bool} (gone : Nat → Prop)
    (hc : ∀ tag, t.ctxAt tag = (s.ctxAt tag).filter fun c => !p c)
    (hp : ∀ c, p c = true ↔ c.slot = a ∧ gone c.pos)
    (pulls : ∀ q, (∃ r', o' = some r' ∧ r'.pullingAt q) ↔ (∃ r, o = some r ∧ r.pullingAt q) ∧ ¬ gone q)
    (agree : ∀ r', o' = some r' → r'.pullsAgree) (hx : s.contextsExact) : t.contextsExact := by
  have some_iff : ∀ tag c, t.ctxAt tag = some c ↔ s.ctxAt tag = some c ∧ ¬ (c.slot = a ∧ gone c.pos) := by
    intro tag c
    rw [hc, Option.filter_eq_some_iff, ← hp, Bool.not_eq_true, Bool.not_eq_true']
  refine h.contexts_of (fun tag tag' c c' h1 h2 => ?_) (fun b hb q => ?_) (fun q => ?_) agree hx
  · exact hx.apart tag tag' c c' ((some_iff _ _).mp h1).1 ((some_iff _ _).mp h2).1
  · constructor
    · rintro ⟨tag, c, h1, h2, h3⟩; exact ⟨tag, c, ((some_iff _ _).mp h1).1, h2, h3⟩
    · rintro ⟨tag, c, h1, h2, h3⟩
      exact ⟨tag, c, (some_iff _ _).mpr ⟨h1, fun hn => hb (h2.symm.trans hn.1)⟩, h2, h3⟩
  · have hs : s.openAt a q ↔ ∃ r, o = some r ∧ r.pullingAt q := by rw [hx.open_iff, h.before]
    rw [pulls, ← hs]
    constructor
    · rintro ⟨tag, c, h1, h2, h3⟩
      obtain ⟨h1, hn⟩ := (some_iff _ _).mp h1
      exact ⟨⟨tag, c, h1, h2, h3⟩, fun hg => hn ⟨h2, h3 ▸ hg⟩⟩
    · rintro ⟨⟨tag, c, h1, h2, h3⟩, hg⟩
      exact ⟨tag, c, (some_iff _ _).mpr ⟨h1, fun hn => hg (h3 ▸ hn.2)⟩, h2, h3⟩

/-- The contexts after a change of one slot that ends none. -/
theorem contexts_same (h : SlotChange s t a o o') (hc : ∀ tag, t.ctxAt tag = s.ctxAt tag)
    (pulls : ∀ q, (∃ r', o' = some r' ∧ r'.pullingAt q) ↔ ∃ r, o = some r ∧ r.pullingAt q)
    (agree : ∀ r', o' = some r' → r'.pullsAgree) (hx : s.contextsExact) : t.contextsExact :=
  h.contexts_ended (p := fun _ => false) (fun _ => False) (fun tag => by rw [hc]; cases s.ctxAt tag <;> rfl) (by simp)
    (by simpa using pulls) agree hx

/-- The contexts after a change of one slot's record by another whose survivors pull at the same positions. -/
theorem contexts_view {r r' : Record} (h : SlotChange s t a (some r) (some r')) (hc : ∀ tag, t.ctxAt tag = s.ctxAt tag)
    (pulls : ∀ q, r'.pullingAt q ↔ r.pullingAt q) (agree : r.pullsAgree → r'.pullsAgree) (hx : s.contextsExact) :
    t.contextsExact := by
  refine h.contexts_same hc (fun q => ?_) ?_ hx
  · simpa using pulls q
  · rintro _ ⟨⟩
    exact agree (hx.pullsAgree h.before)

/-- The contexts after a change that ends all of one slot, none of whose survivors pulls any longer. -/
theorem contexts_gone (h : SlotChange s t a o o') (hc : ∀ tag, t.ctxAt tag = (s.ctxAt tag).filter fun c => !(c.slot == a))
    (pulls : ∀ r', o' = some r' → ∀ q, ¬ r'.pullingAt q) (hx : s.contextsExact) : t.contextsExact :=
  h.contexts_ended (p := fun c => c.slot == a) (fun _ => True) hc (by simp)
    (fun q => by simpa using fun r' hr' => pulls r' hr' q) (fun r' hr' q hq => absurd hq (pulls r' hr' q)) hx

/-- The slabs after a change of one slot whose survivors keep theirs. -/
theorem slabs_same {r r' : Record} (h : SlotChange s t a (some r) (some r')) (hf : t.act.free = s.act.free)
    (hs : r'.survs.map Survivor.slab = r.survs.map Survivor.slab) (hk : r'.k = r.k) (hp : r'.plan = r.plan)
    (ha : r'.active = r.active) (hx : s.slabsExact) : t.slabsExact := by
  have hold := holds_of_slab hs
  refine h.slabs_of ?_ (fun x => ?_) ?_ ?_ (hf ▸ hx.ascend) hx
  · rintro _ ⟨⟩
    exact slabsAgree_of_slab hs hk hp ha (hx.slabsAgree h.before)
  · simp [hf, hold]
  · rintro x _ p hfree ⟨⟩ hh
    exact hx.not_free h.before ((hold x p).mp hh) (hf ▸ hfree)
  · rintro x _ p q ⟨⟩ h1 h2
    exact hx.once h.before ((hold x p).mp h1) ((hold x q).mp h2)

/-- The slabs after a change of one slot whose slabs return to the pool. -/
theorem slabs_released {r : Record} (h : SlotChange s t a (some r) o') (hf : ∀ x, x ∈ t.act.free ↔ x ∈ r.slabs ∨ x ∈ s.act.free)
    (none' : ∀ r', o' = some r' → ∀ v ∈ r'.survs, v.staging = none)
    (agree : r.slabsAgree → ∀ r', o' = some r' → r'.slabsAgree)
    (ascend : s.act.free.Pairwise (· < ·) → t.act.free.Pairwise (· < ·)) (hx : s.slabsExact) : t.slabsExact := by
  refine h.slabs_of (agree (hx.slabsAgree h.before)) (fun x => ?_) ?_ ?_ (ascend hx.ascend) hx
  · have hn : ¬ ∃ r' p, o' = some r' ∧ r'.holds x p := fun ⟨r', p, hr', hp⟩ => not_holds_of_none (none' r' hr') x p hp
    simp only [hf, r.mem_slabs, hn, or_false, Option.some.injEq]
    constructor
    · rintro (⟨p, hp⟩ | hp)
      · exact .inr ⟨r, p, rfl, hp⟩
      · exact .inl hp
    · rintro (hp | ⟨_, p, rfl, hp⟩)
      · exact .inr hp
      · exact .inl ⟨p, hp⟩
  · exact fun x r' p _ hr' => not_holds_of_none (none' r' hr') x p
  · exact fun x r' p q hr' hp => absurd hp (not_holds_of_none (none' r' hr') x p)

/-- The slabs after a change of one slot that holds none before and none after. -/
theorem slabs_none (h : SlotChange s t a o o') (hf : t.act.free = s.act.free)
    (before : ∀ r, o = some r → ∀ x p, ¬ r.holds x p) (after : ∀ r', o' = some r' → ∀ x p, ¬ r'.holds x p)
    (agree : ∀ r', o' = some r' → r'.slabsAgree) (hx : s.slabsExact) : t.slabsExact := by
  refine h.slabs_of agree (fun x => ?_) ?_ ?_ (hf ▸ hx.ascend) hx
  · have h1 : ¬ ∃ r p, o = some r ∧ r.holds x p := fun ⟨r, p, hr, hp⟩ => before r hr x p hp
    have h2 : ¬ ∃ r p, o' = some r ∧ r.holds x p := fun ⟨r, p, hr, hp⟩ => after r hr x p hp
    simp only [hf, h1, h2]
  · exact fun x r' p _ hr' => after r' hr' x p
  · exact fun x r' p q hr' hp => absurd hp (after r' hr' x p)

end SlotChange

/-- A slot written, every other as it was. -/
theorem SlotChange.setRec {s : State} {a : Slot} {o o' : Option Record} (h : s.recAt a = o) :
    SlotChange s (s.setRec a o') a o o' := ⟨h, by simp, fun _ hb => State.recAt_setRec_ne s _ hb⟩

/-- What happens around a change of one slot without touching a record. -/
theorem SlotChange.congr {s u t : State} {a : Slot} {o o' : Option Record} (h : SlotChange s u a o o')
    (hr : ∀ b, t.recAt b = u.recAt b) : SlotChange s t a o o' :=
  ⟨h.before, (hr a).trans h.after, fun b hb => (hr b).trans (h.others b hb)⟩

end Sys2Proof.Machine
end

