-- ==== Sys2Proof/Proofs/Records.lean ====
section
/-! What the changes of a record and of its survivors keep: its views, its shape and its bounds. -/

namespace Sys2Proof.Machine

/-! ## Survivor lists -/

theorem map_set_of_eq {α β : Type} (f : α → β) {l : List α} {i : Nat} {v v' : α} (hv : l[i]? = some v) (h : f v' = f v) :
    (l.set i v').map f = l.map f := by
  obtain ⟨hi, rfl⟩ := List.getElem?_eq_some_iff.mp hv
  rw [List.map_set, h]
  have hself := List.set_getElem_self (as := l.map f) (i := i) (by simpa using hi)
  rwa [List.getElem_map] at hself

theorem map_mapIdx_of_eq {α β : Type} (f : α → β) {l : List α} {g : Nat → α → α} (h : ∀ i v, f (g i v) = f v) :
    (l.mapIdx g).map f = l.map f := by
  apply List.ext_getElem?
  intro i
  simp [Function.comp_def, h]

theorem map_map_of_eq {α β : Type} (f : α → β) {l : List α} {g : α → α} (h : ∀ v, f (g v) = f v) :
    (l.map g).map f = l.map f := by
  simp [Function.comp_def, h]

/-- A survivor changed by a function is that survivor replaced by its value. -/
theorem Record.modSurv_eq {r : Record} {pos : Nat} {v : Survivor} (hv : r.survs[pos]? = some v) (f : Survivor → Survivor) :
    r.modSurv pos f = { r with survs := r.survs.set pos (f v) } := by
  rw [Record.modSurv, List.modify_eq_set_getElem?, hv]
  rfl

theorem Record.modSurv_none {r : Record} {pos : Nat} (hv : r.survs[pos]? = none) (f : Survivor → Survivor) :
    r.modSurv pos f = r := by
  rw [Record.modSurv, List.modify_eq_set_getElem?, hv]
  rfl

theorem getElem?_set_of_some {α : Type} {l : List α} {i : Nat} {v : α} (hv : l[i]? = some v) (v' : α) (q : Nat) :
    (l.set i v')[q]? = if q = i then some v' else l[q]? := by
  obtain ⟨hi, -⟩ := List.getElem?_eq_some_iff.mp hv
  by_cases hq : q = i
  · subst hq; simp [hi]
  · simp [hq, Ne.symm hq]

theorem pullingAt_set {r r' : Record} {pos : Nat} {v v' : Survivor} (hv : r.survs[pos]? = some v)
    (hs : r'.survs = r.survs.set pos v') (q : Nat) :
    r'.pullingAt q ↔ if q = pos then v'.state = .pulling else r.pullingAt q := by
  rw [Record.pullingAt, hs, getElem?_set_of_some hv]
  split <;> simp [Record.pullingAt]

theorem Survivor.uncover_slab (v : Survivor) : v.uncover.slab = v.slab := by
  cases h : v.staging <;> simp [Survivor.uncover, Survivor.slab, h]

/-! ## The shape of a record -/

/-- The shape is that of the numbers, the targets, the survivors' fragments, the plan and the rows. -/
theorem Record.wellShaped.congr {r r' : Record} (h : r.wellShaped) (hk : r'.k = r.k) (hn : r'.n = r.n)
    (ht : r'.targets.map (fun g => (g.frag, g.landing)) = r.targets.map (fun g => (g.frag, g.landing)))
    (hs : r'.survs.map (·.frag) = r.survs.map (·.frag)) (hp : r'.plan = r.plan) (hr : r'.rows = r.rows) :
    r'.wellShaped := by
  have htl : r'.t = r.t := by simpa [Record.t] using congrArg List.length ht
  have hsl : r'.s = r.s := by simpa [Record.s] using congrArg List.length hs
  have htf : r'.targets.map (·.frag) = r.targets.map (·.frag) := by
    simpa [Function.comp_def] using congrArg (List.map Prod.fst) ht
  have targets_iff : ∀ u : Record, (∀ g ∈ u.targets, g.frag < u.n ∧ g.landing.toNat % 4096 = 0)
      ↔ ∀ x ∈ u.targets.map (fun g => (g.frag, g.landing)), x.1 < u.n ∧ x.2.toNat % 4096 = 0 := fun u => by simp
  have survs_iff : ∀ u : Record, (∀ v ∈ u.survs, v.frag < u.n) ↔ ∀ x ∈ u.survs.map (·.frag), x < u.n := fun u => by simp
  rw [Record.wellShaped, targets_iff, survs_iff] at h ⊢
  rwa [hk, hn, htl, hsl, ht, hs, htf, hp, hr]

/-- The margin of a record of the right shape is at most 3. -/
theorem Record.wellShaped.freshMargin_le {r : Record} (h : r.wellShaped) : r.freshMargin ≤ 3 := by
  obtain ⟨h1, h2, h3, h4, h5, h6, h7, h8, h9, -⟩ := h
  have hu : r.usableCount ≤ r.s := List.countP_le_length
  unfold Record.freshMargin
  omega

/-- R39: a record scored anew is in bounds when its numbers are. -/
theorem Record.inBounds_rescore {r : Record} (hw : r.wellShaped) (hb : r.boost ≤ 3) (ha : r.age ≤ 15)
    (hm : r.terminal = false → 0 ≤ r.margin ∧ r.margin ≤ 3) : r.rescore.inBounds :=
  ⟨hw, hb, ha, fun ht => ⟨(hm ht).1, (hm ht).2, rfl⟩⟩

/-- A record is in bounds with another when it has its shape and numbers and is not newly live. -/
theorem Record.inBounds.of_shape {r r' : Record} (h : r.inBounds) (hw : r'.wellShaped) (hb : r'.boost = r.boost)
    (ha : r'.age = r.age) (hm : r'.margin = r.margin) (hs : r'.score = r.score)
    (ht : r'.terminal = false → r.terminal = false) : r'.inBounds := by
  obtain ⟨-, h2, h3, h4⟩ := h
  refine ⟨hw, hb ▸ h2, ha ▸ h3, fun ht' => ?_⟩
  rw [hm, hs, hb, ha]
  exact h4 (ht ht')

/-- A terminal record is in bounds by its shape, boost and age. -/
theorem Record.inBounds.of_terminal {r r' : Record} (h : r.inBounds) (hw : r'.wellShaped) (hb : r'.boost = r.boost)
    (ha : r'.age = r.age) (ht : r'.terminal = true) : r'.inBounds :=
  ⟨hw, hb ▸ h.2.1, ha ▸ h.2.2.1, fun hf => by rw [ht] at hf; cases hf⟩

theorem Record.terminal_iff (r : Record) : r.terminal = true ↔ r.state = .delivered ∨ r.state = .faulted ∨ r.state = .lost := by
  unfold Record.terminal
  cases r.state <;> simp

theorem Record.live_iff (r : Record) : r.live = true ↔ r.state = .queued ∨ r.state = .fetching ∨ r.state = .planWait := by
  unfold Record.live
  cases r.state <;> simp

theorem Record.terminal_of_live {r : Record} (h : r.live = true) : r.terminal = false := by
  unfold Record.live at h
  unfold Record.terminal
  cases hs : r.state <;> simp_all

theorem Record.terminal_eq_false_iff (r : Record) :
    r.terminal = false ↔ r.state = .queued ∨ r.state = .fetching ∨ r.state = .planWait ∨ r.state = .combining := by
  unfold Record.terminal
  cases r.state <;> simp

/-! ## Records alike -/

/-- A new margin, score, age, boost or stall timer, and holdoffs and coverage maps, leave a record alike. -/
theorem Record.Alike.of_rescore {r : Record} {boost age : Nat} {margin : Int} {stall : Option Nat}
    (h : r.inBounds → boost ≤ 3 ∧ age ≤ 15 ∧ (r.terminal = false → 0 ≤ margin ∧ margin ≤ 3)) :
    r.Alike ({ r with boost, age, margin, stall } : Record).rescore where
  stripe := rfl
  k := rfl
  plan := rfl
  state := rfl
  hold := rfl
  active := rfl
  survs := rfl
  bounds hb := by
    obtain ⟨h1, h2, h3⟩ := h hb
    exact Record.inBounds_rescore hb.1 h1 h2 h3

theorem Record.Alike.of_survs {r : Record} {survs : List Survivor} (stall : Option Nat)
    (hv : survs.map Survivor.view = r.survs.map Survivor.view) (hf : survs.map (·.frag) = r.survs.map (·.frag)) :
    r.Alike { r with survs, stall } where
  stripe := rfl
  k := rfl
  plan := rfl
  state := rfl
  hold := rfl
  active := rfl
  survs := hv
  bounds h := h.of_shape (h.1.congr rfl rfl rfl hf rfl rfl) rfl rfl rfl rfl id

theorem Record.Alike.of_stall (r : Record) (stall : Option Nat) : r.Alike { r with stall } := .of_survs stall rfl rfl

theorem Record.Alike.of_modSurv (r : Record) (pos : Nat) {f : Survivor → Survivor} (hv : ∀ v, (f v).view = v.view)
    (hf : ∀ v, (f v).frag = v.frag) : r.Alike (r.modSurv pos f) := by
  cases h : r.survs[pos]? with
  | none => rw [Record.modSurv_none h]; exact .refl r
  | some v =>
    rw [Record.modSurv_eq h]
    exact .of_survs r.stall (map_set_of_eq _ h (hv v)) (map_set_of_eq _ h (hf v))

theorem Keeps.modSurv (s : State) (a : Slot) (pos : Nat) {f : Survivor → Survivor} (hv : ∀ v, (f v).view = v.view)
    (hf : ∀ v, (f v).frag = v.frag) : Keeps s (s.modSurv a pos f) := by
  rw [State.modSurv, State.modRec]
  split
  · exact .refl s
  · rename_i r hr
    exact .setRec_alike hr (.of_modSurv r pos hv hf)

end Sys2Proof.Machine
end

