-- ==== Sys2Proof/Proofs/Settling.lean ====
section
/-! What the part does of itself keeps the invariants of the repair table: activations, the start of a pass, issues and the
beginning of an intake. -/

namespace Sys2Proof.Machine

/-! ## Activation -/

/-- R45: the record that an activation leaves. -/
def State.activated (s : State) (r : Record) : Record :=
  ((r.granted (s.act.free.take r.k)).rescore.restartStall s.settings.stallCode s.now)

theorem State.slotChange_activate {s : State} {a : Slot} {r : Record} (hr : s.recAt a = some r) :
    SlotChange s (s.activate a r) a (some r) (some (s.activated r)) :=
  (SlotChange.setRec hr).congr fun b => by
    have h : (s.activate a r).recAt b = (((s.setRec a (some (s.activated r))).clearVerify (s.act.free.take r.k)).delist a).recAt b :=
      State.recAt_congr rfl b
    rw [h, State.recAt_delist, State.recAt_clearVerify]

theorem State.ctxAt_activate (s : State) (a : Slot) (r : Record) (tag : Tag) : (s.activate a r).ctxAt tag = s.ctxAt tag := by
  rw [State.activate_rest]; rfl

/-- R45: the slab that a grant gives to the survivor at a position. -/
theorem getElem?_granted (r : Record) (slabs : List Slab) (p : Nat) :
    (r.granted slabs).survs[p]? = (r.survs[p]?).map fun v =>
      match (r.plan.idxOf? p).bind fun i => slabs[i]? with
      | none => v
      | some x => { v with staging := some (r.freshStaging x) } := by
  simp only [Record.granted, List.getElem?_mapIdx]
  cases r.survs[p]? with
  | none => rfl
  | some v =>
    cases h : r.plan.idxOf? p with
    | none => rfl
    | some i => cases h' : slabs[i]? <;> simp [h']

theorem granted_pullingAt (r : Record) (slabs : List Slab) (p : Nat) : (r.granted slabs).pullingAt p ↔ r.pullingAt p := by
  unfold Record.pullingAt
  rw [getElem?_granted]
  cases r.survs[p]? with
  | none => simp
  | some v => cases (r.plan.idxOf? p).bind fun i => slabs[i]? <;> simp

theorem granted_frags (r : Record) (slabs : List Slab) : (r.granted slabs).survs.map (·.frag) = r.survs.map (·.frag) := by
  refine map_mapIdx_of_eq _ fun p v => ?_
  cases r.plan.idxOf? p with
  | none => rfl
  | some i => cases h : slabs[i]? <;> simp [h]

theorem idxOf?_of_nodup {l : List Nat} (h : l.Nodup) {i p : Nat} (hp : l[i]? = some p) : l.idxOf? p = some i := by
  obtain ⟨hi, rfl⟩ := List.getElem?_eq_some_iff.mp hp
  refine List.idxOf?_eq_some_iff.mpr ⟨hi, rfl, fun j hj => ?_⟩
  have := List.nodup_iff_injective_getElem.mp h
  simpa using fun e => absurd (congrArg Fin.val (@this ⟨j, hj.trans hi⟩ ⟨i, hi⟩ e)) (by simpa using hj.ne)

theorem getElem?_of_idxOf? {l : List Nat} {i p : Nat} (h : l.idxOf? p = some i) : l[i]? = some p := by
  obtain ⟨hi, hp, -⟩ := List.idxOf?_eq_some_iff.mp h
  rw [List.getElem?_eq_getElem hi, hp]

/-- R45: a survivor of a record that held no slab holds after a grant of k slabs the one at its place in the plan. -/
theorem granted_holds {r : Record} {slabs : List Slab} (hn : ∀ x p, ¬ r.holds x p) (x : Slab) (p : Nat) :
    (r.granted slabs).holds x p ↔ p < r.s ∧ ∃ i, r.plan.idxOf? p = some i ∧ slabs[i]? = some x := by
  unfold Record.holds
  rw [getElem?_granted]
  cases hv : r.survs[p]? with
  | none =>
    have : ¬ p < r.s := by simpa [Record.s] using hv
    simp [this]
  | some v =>
    have hp : p < r.s := (List.getElem?_eq_some_iff.mp hv).1
    have hvx : v.slab ≠ some x := fun e => hn x p ⟨v, hv, e⟩
    cases h : (r.plan.idxOf? p).bind fun i => slabs[i]? with
    | none => simpa [hvx, hp] using fun i hi hx => by simp [hi, hx] at h
    | some y =>
      obtain ⟨i, hi, hy⟩ := Option.bind_eq_some_iff.mp h
      simp [hi, hy, hp, Survivor.slab, Record.freshStaging]

theorem granted_slabsAgree {r : Record} {slabs : List Slab} (hl : slabs.length = r.k) (ha : r.active = false)
    (h : r.slabsAgree) : (r.granted slabs).slabsAgree := by
  obtain ⟨h1, h2, h3, h4⟩ := h
  refine ⟨fun p v' hv' => ?_, h2, h3, by simpa [Record.granted, Record.s] using h4⟩
  rw [getElem?_granted] at hv'
  obtain ⟨v, hv, rfl⟩ := Option.map_eq_some_iff.mp hv'
  have hnone : v.staging.isSome = false := by simpa [ha] using h1 p v hv
  have hplan : (r.granted slabs).plan = r.plan := rfl
  rw [hplan]
  cases hi : r.plan.idxOf? p with
  | none =>
    have : p ∉ r.plan := List.idxOf?_eq_none_iff.mp hi
    simp [hnone, this]
  | some i =>
    obtain ⟨hlt, hp, -⟩ := List.idxOf?_eq_some_iff.mp hi
    have hmem : p ∈ r.plan := hp ▸ List.getElem_mem hlt
    obtain ⟨x, hx⟩ : ∃ x, slabs[i]? = some x := ⟨slabs[i], List.getElem?_eq_getElem (by omega)⟩
    simp [hx, hmem, Record.granted]

theorem State.mayActivate_le {s : State} {r : Record} (h : s.mayActivate r = true) : r.k ≤ s.act.free.length := by
  have := of_decide_eq_true h
  omega

theorem Keeps.activate {s : State} {a : Slot} {r : Record} (h : s.headToActivate = some (a, r)) :
    Keeps s (s.activate a r) := by
  obtain ⟨⟨rest, hready⟩, hr, hmay⟩ := State.headToActivate_some.mp h
  have hc := s.slotChange_activate hr
  have hlisted : a ∈ s.act.ready := by simp [hready]
  refine ⟨fun hi => hc.index_same rfl rfl hi, fun hl => ?_, fun hl ha => ?_, fun hl ha hx => ?_, fun hl hb => ?_, fun hl ha hs => ?_⟩
  · obtain ⟨hq, hh⟩ := (hl.mem_ready hr).mp hlisted
    refine hc.lists_same_comb rfl (fun b hb => ?_) ?_ ?_ ?_ hl
    · simp [State.activate_ready, hb]
    · simp [State.activate_ready, State.activated, Record.waits, Record.restartStall, Record.rescore, Record.granted]
    · simp [State.activated, Record.restartStall, Record.rescore, Record.granted, hq]
    · rintro _ ⟨⟩
      simp [State.activated, Record.holdAgrees, Record.restartStall, Record.rescore, Record.granted, hh]
  · refine hc.active_of ?_ ha
    rintro _ ⟨⟩
    simp [State.activated, Record.activeAgrees, Record.restartStall, Record.rescore, Record.granted, Record.terminal]
  · refine hc.contexts_view (fun tag => s.ctxAt_activate a r tag) (fun q => granted_pullingAt r _ q) (fun hp q hq => ?_) hx
    obtain ⟨h1, -, -⟩ := hp q ((granted_pullingAt r (s.act.free.take r.k) q).mp hq)
    exact ⟨h1, rfl, .inl rfl⟩
  · refine hc.bounds_of ?_ hb
    rintro _ ⟨⟩
    obtain ⟨hw, hbo, -, hm⟩ := hb a r hr
    obtain ⟨hq, -⟩ := (hl.mem_ready hr).mp hlisted
    have ht := hm (Record.terminal_of_live ((r.live_iff).mpr (.inl hq)))
    have : ((r.granted (s.act.free.take r.k)).rescore).inBounds :=
      Record.inBounds_rescore (hw.congr rfl rfl rfl (granted_frags r _) rfl rfl) hbo (Nat.zero_le 15)
        fun _ => ⟨ht.1, ht.2.1⟩
    exact (Record.Alike.of_stall _ _).bounds this
  · have hin : r.active = false := ((ha a r hr).2 (.inl ((hl.mem_ready hr).mp hlisted).1))
    have hag := hs.slabsAgree hr
    have hnone := hag.not_holds hin
    have hk := s.mayActivate_le hmay
    have hnodup : s.act.free.Nodup := hs.ascend.imp ne_of_lt
    have holds : ∀ x p, (s.activated r).holds x p ↔ p < r.s ∧ ∃ i, r.plan.idxOf? p = some i ∧ (s.act.free.take r.k)[i]? = some x :=
      granted_holds hnone
    have hfree : (s.activate a r).act.free = s.act.free.drop r.k := rfl
    have hsplit : ∀ x, x ∈ s.act.free ↔ x ∈ s.act.free.take r.k ∨ x ∈ s.act.free.drop r.k := fun x => by
      rw [← List.mem_append, List.take_append_drop]
    have hdisj := List.disjoint_of_nodup_append (l₁ := s.act.free.take r.k) (l₂ := s.act.free.drop r.k)
      (by rwa [List.take_append_drop])
    refine hc.slabs_of ?_ (fun x => ?_) ?_ ?_ (hfree ▸ hs.ascend.sublist (List.drop_sublist _ _)) hs
    · rintro _ ⟨⟩
      exact granted_slabsAgree (by simpa using hk) hin hag
    · have hgiven : (∃ r' p, some (s.activated r) = some r' ∧ r'.holds x p) ↔ x ∈ s.act.free.take r.k := by
        constructor
        · rintro ⟨_, p, ⟨⟩, hp⟩
          obtain ⟨-, i, -, hi⟩ := (holds x p).mp hp
          exact List.mem_of_getElem? hi
        · intro hx
          obtain ⟨i, hi⟩ := List.mem_iff_getElem?.mp hx
          have hik : i < r.plan.length := by
            have := (List.getElem?_eq_some_iff.mp hi).1
            rw [List.length_take] at this
            rw [hag.2.2.1]; omega
          refine ⟨_, r.plan[i], rfl, (holds x _).mpr ⟨hag.2.2.2 _ (List.getElem_mem hik), i, ?_, hi⟩⟩
          exact idxOf?_of_nodup hag.2.1 (List.getElem?_eq_getElem hik)
      have hbefore : ¬ ∃ r₀ p, some r = some r₀ ∧ r₀.holds x p := by
        rintro ⟨_, p, ⟨⟩, hp⟩; exact hnone x p hp
      rw [hgiven, hfree, hsplit, or_iff_left hbefore, or_comm]
    · rintro x _ p hxf ⟨⟩ hp
      obtain ⟨-, i, -, hi⟩ := (holds x p).mp hp
      exact hdisj (List.mem_of_getElem? hi) hxf
    · rintro x _ p q ⟨⟩ hp hq
      obtain ⟨-, i, hi, hxi⟩ := (holds x p).mp hp
      obtain ⟨-, j, hj, hxj⟩ := (holds x q).mp hq
      have hij : i = j := (List.getElem?_inj (List.getElem?_eq_some_iff.mp hxi).1
        (hnodup.sublist (List.take_sublist _ _))).mp (hxi.trans hxj.symm)
      subst hij
      exact Option.some.inj ((getElem?_of_idxOf? hi).symm.trans (getElem?_of_idxOf? hj))

/-! ## The start of a pass -/

/-- R139: the head of the Combine Queue passes into flight, and nothing that the invariants look at changes otherwise. -/
theorem Keeps.passStarted (s : State) : Keeps s s.passStarted := by
  rcases s.passStarted_cases with ⟨-, e⟩ | ⟨a, rest, hq, hp, -, e⟩
  · rw [e]; exact .refl s
  rw [e]
  refine ⟨id, fun hl => ?_, fun _ => id, fun _ _ => id, fun _ => id, fun _ _ => id⟩
  obtain ⟨h1, h2, h3, -, h5⟩ := s.listsExact_iff.mp hl
  rw [hq, List.nodup_cons] at h3
  refine (State.listsExact_iff _).mpr ⟨h1, fun b => ?_, h3.2, ?_, h5⟩
  · refine Iff.trans ?_ (h2 b)
    simp only [combines_iff, hq, hp, List.mem_cons, Option.map_some, Option.map_none, Option.some.injEq, reduceCtorEq, or_false]
    rw [eq_comm (a := a), or_comm]
  · rintro _ ⟨⟩
    exact h3.1

/-! ## Issue -/

/-- R81: an issue is the opening of its context and the survivor's PULLING, and nothing else that the invariants look at. -/
theorem State.recAt_issueTo (s : State) (tag : Tag) (a : Slot) (r : Record) (pos : Nat) (v : Survivor) (b : Slot) :
    (s.issueTo tag a r pos v).recAt b
      = (s.setRec a (some (r.modSurv pos fun v => { v with state := .pulling, holdoff := none }))).recAt b := by
  have h : (s.issueTo tag a r pos v).table = (s.setRec a (some (r.modSurv pos fun v => { v with state := .pulling, holdoff := none }))).table := by
    simp only [State.issueTo, State.setPort_table]
    rfl
  exact State.recAt_congr h b

theorem State.ctxAt_issueTo (s : State) (tag : Tag) (a : Slot) (r : Record) (pos : Nat) (v : Survivor) (u : Tag) :
    (s.issueTo tag a r pos v).ctxAt u = (s.setCtx tag (some (s.newCtx a pos v))).ctxAt u := by
  have h : (s.issueTo tag a r pos v).fetch.ctxs = (s.setCtx tag (some (s.newCtx a pos v))).fetch.ctxs := by
    simp only [State.issueTo, State.setPort]
    split <;> rfl
  simp only [State.ctxAt, h]

theorem State.lowestFreeTag_none {s : State} {tag : Tag} (h : s.lowestFreeTag = some tag) : s.ctxAt tag = none := by
  obtain ⟨⟨i, o⟩, hi, rfl⟩ := Option.map_eq_some_iff.mp h
  have hn : o.isNone = true := List.find?_some (p := fun e : Fin 256 × Option Ctx => e.2.isNone) hi
  have hmem := List.mem_of_find?_eq_some hi
  obtain ⟨n, hn', he⟩ := List.mem_iff_getElem.mp hmem
  simp only [listVec, List.getElem_zip, List.getElem_finRange, Prod.mk.injEq] at he
  obtain ⟨rfl, ho⟩ := he
  rw [Option.isNone_iff_eq_none.mp hn] at ho
  simpa [State.ctxAt] using ho

/-- R80: the place that a decision finds is one that a candidate stands at. -/
theorem State.firstIssue_issuable {s : State} {a : Slot} {pos : Nat} {r : Record} (h : s.firstIssue = some (a, pos))
    (hr : s.recAt a = some r) : s.issuable r pos = true := by
  obtain ⟨b, -, hb⟩ := List.exists_of_findSome?_eq_some h
  obtain ⟨r', hr', hp⟩ := Option.bind_eq_some_iff.mp hb
  obtain ⟨q, hq, he⟩ := Option.map_eq_some_iff.mp hp
  obtain ⟨rfl, rfl⟩ := Prod.mk.inj he
  obtain rfl := Option.some.inj (hr.symm.trans hr')
  exact List.find?_some hq

/-- R78: what makes the survivor at a position a candidate. -/
theorem State.candidate_iff {s : State} {r : Record} {pos : Nat} {v : Survivor} (hv : r.survs[pos]? = some v) :
    s.candidate r pos = true ↔ r.state = .fetching ∧ r.hold = .none ∧ pos ∈ r.plan ∧ v.state = .available
      ∧ v.heldOff s.now = false := by
  simp [State.candidate, Record.selected, hv, and_assoc]

theorem Keeps.issueTo {s : State} {tag : Tag} {a : Slot} {r : Record} {pos : Nat} {v : Survivor}
    (h : s.decision = some (tag, a, r, pos, v)) : Keeps s (s.issueTo tag a r pos v) := by
  obtain ⟨-, htag, hfirst, hr, hv⟩ := State.decision_some.mp h
  have hcand : s.candidate r pos = true := by
    have := State.firstIssue_issuable hfirst hr
    rw [State.issuable, Bool.and_eq_true] at this
    exact this.1
  obtain ⟨hfet, hhold, hplan, hav, -⟩ := (State.candidate_iff hv).mp hcand
  have hfreeTag := State.lowestFreeTag_none htag
  rw [State.candidate] at hcand
  have hc : SlotChange s (s.issueTo tag a r pos v) a (some r)
      (some { r with survs := r.survs.set pos { v with state := .pulling, holdoff := none } }) := by
    rw [← Record.modSurv_eq hv fun v => { v with state := .pulling, holdoff := none }]
    exact (SlotChange.setRec hr).congr fun b => s.recAt_issueTo tag a r pos v b
  have hslabs : (r.survs.set pos { v with state := .pulling, holdoff := none }).map Survivor.slab = r.survs.map Survivor.slab :=
    map_set_of_eq _ hv rfl
  have hact : (s.issueTo tag a r pos v).act = s.act := by rw [State.issueTo_rest]
  have hcomb : (s.issueTo tag a r pos v).comb = s.comb := by rw [State.issueTo_rest]
  have hctx : ∀ u c, (s.issueTo tag a r pos v).ctxAt u = some c ↔
      (u = tag ∧ s.newCtx a pos v = c) ∨ s.ctxAt u = some c := by
    intro u c
    rw [State.ctxAt_issueTo]
    by_cases hu : u = tag
    · subst hu; simp [hfreeTag]
    · simp [State.ctxAt_setCtx_ne s _ hu, hu]
  refine ⟨fun hi => hc.index_same (by rw [State.issueTo_rest]) rfl hi, fun hl => ?_, fun _ ha => ?_, fun _ ha hx => ?_,
    fun _ hb => ?_, fun _ _ hs => ?_⟩
  · refine hc.lists_same_comb hcomb (fun b _ => by rw [hact]) ?_ (by simp) ?_ hl
    · rw [hact, hl.mem_ready hr]; simp [Record.waits]
    · rintro _ ⟨⟩
      have := hl.holdAgrees hr
      exact this
  · refine hc.active_of ?_ ha
    rintro _ ⟨⟩
    exact ha a r hr
  · have hnot : ¬ s.openAt a pos := fun ho => by
      obtain ⟨r', hr', v', hv', hp⟩ := (hx.open_iff a pos).mp ho
      obtain rfl := Option.some.inj (hr.symm.trans hr')
      obtain rfl := Option.some.inj (hv.symm.trans hv')
      rw [hav] at hp; cases hp
    have hopen : ∀ b q, (s.issueTo tag a r pos v).openAt b q ↔ (b = a ∧ q = pos) ∨ s.openAt b q := by
      intro b q
      simp only [State.openAt, hctx]
      constructor
      · rintro ⟨u, c, ⟨-, rfl⟩ | hu, rfl, rfl⟩
        · exact .inl ⟨rfl, rfl⟩
        · exact .inr ⟨u, c, hu, rfl, rfl⟩
      · rintro (⟨rfl, rfl⟩ | ⟨u, c, hu, hb, hq⟩)
        · exact ⟨tag, _, .inl ⟨rfl, rfl⟩, rfl, rfl⟩
        · exact ⟨u, c, .inr hu, hb, hq⟩
    have hpulls := pullingAt_set (r' := { r with survs := r.survs.set pos { v with state := .pulling, holdoff := none } }) hv rfl
    refine hc.contexts_of ?_ (fun b hb q => by simp [hopen, hb]) (fun q => ?_) ?_ hx
    · intro u u' c c' h1 h2 hs hp
      rcases (hctx u c).mp h1 with ⟨rfl, rfl⟩ | h3 <;> rcases (hctx u' c').mp h2 with ⟨rfl, rfl⟩ | h4
      · rfl
      · exact absurd ⟨u', c', h4, hs.symm, hp.symm⟩ hnot
      · exact absurd ⟨u, c, h3, hs, hp⟩ hnot
      · exact hx.apart u u' c c' h3 h4 hs hp
    · rw [hopen, hx.open_iff, hr]
      by_cases hq : q = pos <;> simp [hpulls, hq]
    · rintro _ ⟨⟩ q hq
      rw [hpulls] at hq
      split at hq
      · rename_i e
        exact ⟨e ▸ hplan, (ha a r hr).1 (.inl hfet), .inl hfet⟩
      · exact hx.pullsAgree hr q hq
  · refine hc.bounds_of ?_ hb
    rintro _ ⟨⟩
    have h₀ := hb a r hr
    exact h₀.of_shape (h₀.1.congr rfl rfl rfl (by exact map_set_of_eq _ hv rfl) rfl rfl) rfl rfl rfl rfl id
  · exact hc.slabs_same (by rw [hact]) hslabs rfl rfl rfl hs

/-! ## The settled state -/

theorem Keeps.intakeBegun (s : State) : Keeps s s.intakeBegun := by
  rcases s.intakeBegun_cases with ⟨-, e⟩ | ⟨-, e⟩ <;> rw [e]
  · exact .refl s
  · exact .of_fields rfl rfl rfl rfl rfl

theorem Keeps.arbitersServed (s : State) : Keeps s s.arbitersServed :=
  State.arbitersServed_induction (P := Keeps s) (fun _ _ _ h hs => h.trans (.activate hs)) (fun _ h => h.trans (.passStarted _))
    (fun _ _ _ _ _ _ h hs => h.trans (.issueTo hs)) (.refl s)

theorem Keeps.settled (s : State) : Keeps s s.settled := (Keeps.arbitersServed s).trans (.intakeBegun _)

end Sys2Proof.Machine
end

