-- ==== Sys2Proof/Proofs/SharedOps.lean ====
section
/-! The operations that several commands share keep the invariants of the repair table: entry to LOST, PLAN_WAIT and
COMBINING, the recomputation of a margin, and the end of a context. -/

namespace Sys2Proof.Machine

theorem State.setRec_setRec (s : State) (a : Slot) (x y : Option Record) : (s.setRec a x).setRec a y = s.setRec a y := by
  simp [State.setRec]

theorem State.slotChange_setRec {s : State} {a : Slot} {r : Record} (hr : s.recAt a = some r) (o' : Option Record) :
    SlotChange s (s.setRec a o') a (some r) o' := .setRec hr

/-- A hold that is not REQUESTED agrees with a state other than COMBINING. -/
theorem Record.holdAgrees.of_state {r r' : Record} (h : r.holdAgrees) (hh : r'.hold = r.hold) (hr : r.state ≠ .combining)
    (hr' : r'.state ≠ .combining) : r'.holdAgrees :=
  ⟨fun id hid => absurd (h.1 id (hh ▸ hid)) hr, fun _ => hr'⟩

theorem Record.live_ne {r : Record} (h : r.live = true) : r.state ≠ .combining := by
  rcases r.live_iff.mp h with e | e | e <;> simp [e]

/-! ## Entry to LOST -/

theorem Record.asLost_frags (r : Record) (m : Int) : (r.asLost m).survs.map (·.frag) = r.survs.map (·.frag) :=
  map_map_of_eq _ fun _ => rfl

theorem Record.asLost_not_pullingAt (r : Record) (m : Int) (p : Nat) : ¬ (r.asLost m).pullingAt p := by
  rintro ⟨v', hv', hs⟩
  obtain ⟨v, hv, rfl⟩ := List.mem_map.mp (List.mem_of_getElem? hv')
  by_cases h : v.state = .pulling <;> simp [h] at hs

theorem Record.asLost_staging (r : Record) (m : Int) : ∀ v ∈ (r.asLost m).survs, v.staging = none := by
  intro v' hv'
  obtain ⟨v, -, rfl⟩ := List.mem_map.mp hv'
  rfl

theorem Record.asLost_inBounds {r : Record} (m : Int) (h : r.inBounds) : (r.asLost m).inBounds :=
  h.of_terminal (h.1.congr rfl rfl rfl (r.asLost_frags m) rfl rfl) rfl rfl rfl

theorem Record.asLost_slabsAgree {r : Record} (m : Int) (h : r.slabsAgree) : (r.asLost m).slabsAgree :=
  slabsAgree_of_none rfl (r.asLost_staging m) ⟨h.2.1, h.2.2.1, by simpa [Record.asLost, Record.s, Record.withoutSlabs] using h.2.2.2⟩

theorem State.slotChange_enterLost {s : State} {a : Slot} {r : Record} (hr : s.recAt a = some r) (m : Int) :
    SlotChange s (s.enterLost a r m) a (some r) (some (r.asLost m)) :=
  (State.slotChange_setRec hr _).congr fun b => by
    have h : (s.enterLost a r m).table = (s.setRec a (some (r.asLost m))).table := by
      simp only [State.enterLost, State.notify_table, State.delist_table, State.releaseSlabs_table]; rfl
    exact State.recAt_congr h b

theorem State.ctxAt_enterLost (s : State) (a : Slot) (r : Record) (m : Int) (tag : Tag) :
    (s.enterLost a r m).ctxAt tag = (s.ctxAt tag).filter fun c => !(c.slot == a) := by
  have h : (s.enterLost a r m).fetch.ctxs = (s.freeCtxs fun c => c.slot == a).fetch.ctxs := by
    simp only [State.enterLost, State.notify_fetch, State.delist_fetch, State.releaseSlabs, State.clearVerify]; rfl
  rw [← State.ctxAt_freeCtxs]
  simp only [State.ctxAt, h]

theorem State.enterLost_act (s : State) (a : Slot) (r : Record) (m : Int) :
    (s.enterLost a r m).act = { ready := s.act.ready.filter (· ≠ a), free := r.slabs.foldr insertSlab s.act.free } := by
  simp only [State.enterLost, State.notify_act]
  simp [State.delist, State.releaseSlabs]

theorem State.enterLost_index (s : State) (a : Slot) (r : Record) (m : Int) :
    (s.enterLost a r m).table.index = s.table.index := by
  simp only [State.enterLost, State.notify_table, State.delist_table, State.releaseSlabs_table]; rfl

theorem Keeps.enterLost {s : State} {a : Slot} {r : Record} (hr : s.recAt a = some r) (hlive : r.live = true) (m : Int) :
    Keeps s (s.enterLost a r m) where
  index := (State.slotChange_enterLost hr m).index_same (s.enterLost_index a r m) rfl
  lists hl := by
    refine (State.slotChange_enterLost hr m).lists_same_comb (by simp) (fun b hb => ?_) ?_ ?_ ?_ hl
    · simp [State.enterLost_act, hb]
    · simp [State.enterLost_act, Record.asLost, Record.waits]
    · simp [Record.asLost, Record.live_ne hlive]
    · rintro _ ⟨⟩
      have hh := hl.holdAgrees hr
      exact hh.of_state rfl (Record.live_ne hlive) (by simp [Record.asLost])
  active _ ha := by
    refine (State.slotChange_enterLost hr m).active_of ?_ ha
    rintro _ ⟨⟩
    exact ⟨by simp [Record.asLost], fun _ => rfl⟩
  contexts _ _ hx := by
    refine (State.slotChange_enterLost hr m).contexts_gone (s.ctxAt_enterLost a r m) ?_ hx
    rintro _ ⟨⟩
    exact r.asLost_not_pullingAt m
  bounds _ hb := by
    refine (State.slotChange_enterLost hr m).bounds_of ?_ hb
    rintro _ ⟨⟩
    exact Record.asLost_inBounds m (hb a r hr)
  slabs _ _ hs := by
    refine (State.slotChange_enterLost hr m).slabs_released (fun x => ?_) ?_ (fun h => ?_) (fun h => ?_) hs
    · rw [State.enterLost_act, mem_foldr_insertSlab]
    · rintro _ ⟨⟩; exact r.asLost_staging m
    · rintro _ ⟨⟩; exact Record.asLost_slabsAgree m h
    · rw [State.enterLost_act]; exact foldr_insertSlab_pairwise _ h

/-! ## Entry to PLAN_WAIT -/

theorem Keeps.enterPlanWait {s : State} {a : Slot} {r : Record} (hr : s.recAt a = some r) (hlive : r.live = true) :
    Keeps s (s.enterPlanWait a r) := by
  have hc : SlotChange s (s.enterPlanWait a r) a (some r) (some { r with state := .planWait, stall := none }) :=
    (State.slotChange_setRec hr _).congr fun b => by simp [State.enterPlanWait]
  have hact : (s.enterPlanWait a r).act = { s.act with ready := s.act.ready.filter (· ≠ a) } := by
    simp only [State.enterPlanWait, State.notify_act]; rfl
  refine ⟨hc.index_same (by simp only [State.enterPlanWait, State.notify_table, State.delist_table]; rfl) rfl, fun hl => ?_,
    fun _ ha => ?_, fun _ _ hx => ?_, fun _ hb => ?_, fun _ _ hs => ?_⟩
  · refine hc.lists_same_comb (by simp) (fun b hb => by simp [hact, hb]) ?_ (by simp [Record.live_ne hlive]) ?_ hl
    · simp [hact, Record.waits]
    · rintro _ ⟨⟩
      have hh := hl.holdAgrees hr
      exact hh.of_state rfl (Record.live_ne hlive) (by simp)
  · refine hc.active_of ?_ ha
    rintro _ ⟨⟩
    simp [Record.activeAgrees, Record.terminal]
  · refine hc.contexts_view (fun tag => by simp) (fun q => .rfl) (fun hp q hq => ?_) hx
    obtain ⟨h1, h2, -⟩ := hp q hq
    exact ⟨h1, h2, .inr rfl⟩
  · refine hc.bounds_of ?_ hb
    rintro _ ⟨⟩
    have h := hb a r hr
    exact h.of_shape (h.1.congr rfl rfl rfl rfl rfl rfl) rfl rfl rfl rfl fun _ => Record.terminal_of_live hlive
  · exact hc.slabs_same (by rw [hact]) rfl rfl rfl rfl hs

/-! ## The recomputation of a margin -/

theorem Record.Alike.of_freshMargin {r : Record} (h : 0 ≤ r.freshMargin) :
    r.Alike ({ r with margin := r.freshMargin } : Record).rescore :=
  .of_rescore fun hb => ⟨hb.2.1, hb.2.2.1, fun _ => ⟨h, hb.1.freshMargin_le⟩⟩

theorem Keeps.reckon (s : State) (a : Slot) (lostSelected : Bool) : Keeps s (s.reckon a lostSelected) := by
  rcases s.reckon_cases a lostSelected with ⟨-, e⟩ | ⟨r, hr, ⟨-, e⟩ | ⟨hl, -, e⟩ | ⟨hl, hm, r', rfl, h⟩⟩
  · rw [e]; exact .refl s
  · rw [e]; exact .refl s
  · rw [e]; exact .enterLost hr hl _
  have hlike := Record.Alike.of_freshMargin hm
  have hset := Keeps.setRec_alike hr hlike
  rcases h with ⟨-, e⟩ | ⟨-, -, e⟩ | ⟨-, -, e⟩ <;> rw [e]
  · split
    · exact hset.trans (.notify _ _)
    · exact hset
  · have hplan : s.enterPlanWait a ({ r with margin := r.freshMargin } : Record).rescore
        = (s.setRec a (some ({ r with margin := r.freshMargin } : Record).rescore)).enterPlanWait a
          ({ r with margin := r.freshMargin } : Record).rescore := by
      simp only [State.enterPlanWait, State.setRec_setRec]
    rw [hplan]
    exact hset.trans (.enterPlanWait (by simp) ((Record.live_congr rfl).trans hl))
  · exact hset.trans (.relist _ _)

/-! ## Entry to COMBINING -/

theorem Record.allStaged_iff (r : Record) :
    r.allStaged = true ↔ ∀ p ∈ r.plan, ∃ v, r.survs[p]? = some v ∧ v.state = .staged := by
  simp [Record.allStaged, Option.any_eq_true]

/-- R13: a record whose selected survivors are all STAGED has none PULLING. -/
theorem Record.pullsAgree.not_pullingAt {r : Record} (h : r.pullsAgree) (hs : r.allStaged = true) (p : Nat) :
    ¬ r.pullingAt p := by
  rintro ⟨v, hv, hp⟩
  obtain ⟨w, hw, hst⟩ := r.allStaged_iff.mp hs p (h p ⟨v, hv, hp⟩).1
  obtain rfl := Option.some.inj (hv.symm.trans hw)
  rw [hst] at hp; cases hp

theorem Keeps.enterCombining {s : State} {a : Slot} {r : Record} (hr : s.recAt a = some r) (hf : r.state = .fetching)
    (hst : r.allStaged = true) : Keeps s (s.enterCombining a { r with hold := .none }) := by
  have hc : SlotChange s (s.enterCombining a { r with hold := .none }) a (some r)
      (some { r with hold := .none, state := .combining, stall := none }) :=
    (State.slotChange_setRec hr _).congr fun b => State.recAt_congr rfl b
  refine ⟨hc.index_same rfl rfl, fun hl => ?_, fun _ ha => ?_, fun _ _ hx => ?_, fun _ hb => ?_, fun _ _ hs => ?_⟩
  · obtain ⟨-, -, h3, h4, -⟩ := s.listsExact_iff.mp hl
    have hnot : ¬ s.combines a := by rw [hl.combines_iff hr, hf]; simp
    rw [combines_iff, not_or] at hnot
    have hcomb : ∀ b, (s.enterCombining a { r with hold := .none }).combines b ↔ b = a ∨ s.combines b := fun b => by
      simp only [combines_iff, State.enterCombining, List.mem_append, List.mem_singleton]
      tauto
    refine hc.lists_of (fun b _ => .rfl) ?_ (fun b hb => by simp [hcomb, hb]) (by simp [hcomb]) ?_ ?_ ?_ hl
    · rw [State.enterCombining_act, hl.mem_ready hr]; simp [Record.waits, hf]
    · exact List.nodup_append.mpr ⟨h3, List.nodup_singleton a, fun b hb c hc' e => hnot.1 (by simp_all)⟩
    · intro p (hp : s.comb.pass = some p)
      have hne : p.slot ≠ a := fun e => hnot.2 (by simp [hp, e])
      simpa [State.enterCombining, hne] using h4 p hp
    · rintro _ ⟨⟩
      simp [Record.holdAgrees]
  · refine hc.active_of ?_ ha
    rintro _ ⟨⟩
    exact ⟨fun _ => (ha a r hr).1 (.inl hf), by simp [Record.terminal]⟩
  · have hno := (hx.pullsAgree hr).not_pullingAt hst
    refine hc.contexts_view (fun tag => by simp) (fun q => .rfl) (fun _ q hq => absurd hq (hno q)) hx
  · refine hc.bounds_of ?_ hb
    rintro _ ⟨⟩
    have h := hb a r hr
    exact h.of_shape (h.1.congr rfl rfl rfl rfl rfl rfl) rfl rfl rfl rfl fun _ => Record.terminal_of_live (r.live_iff.mpr (.inr (.inl hf)))
  · exact hc.slabs_same rfl rfl rfl rfl rfl hs

theorem Keeps.stagedIn (s : State) (a : Slot) : Keeps s (s.stagedIn a) := by
  unfold State.stagedIn
  split
  · exact .refl s
  rename_i r hr
  split
  · rename_i h
    obtain ⟨hf, hh⟩ := h
    split
    · have e : r = { r with hold := .none } := by rw [← hh]
      conv => arg 2; rw [e]
      exact .enterCombining hr hf ‹_›
    · refine .setRec_alike hr ?_
      split
      · exact .of_stall r _
      · exact .refl r
  · exact .refl s

/-! ## The end of a context -/

/-- R104: a context ends, and its survivor comes out of PULLING with its slab. -/
theorem Keeps.of_ctxEnded {s t : State} {tag : Tag} {c : Ctx} {r : Record} {v v' : Survivor} (hc : s.ctxAt tag = some c)
    (hr : s.recAt c.slot = some r) (hv : r.survs[c.pos]? = some v) (hstate : v'.state ≠ .pulling) (hslab : v'.slab = v.slab)
    (hfrag : v'.frag = v.frag)
    (recs : ∀ b, t.recAt b = (s.setRec c.slot (some { r with survs := r.survs.set c.pos v' })).recAt b)
    (ctxs : ∀ u, t.ctxAt u = (s.freeCtx tag).ctxAt u) (index : t.table.index = s.table.index) (act : t.act = s.act)
    (comb : t.comb = s.comb) : Keeps s t := by
  have hch : SlotChange s t c.slot (some r) (some { r with survs := r.survs.set c.pos v' }) :=
    (State.slotChange_setRec hr _).congr recs
  refine ⟨hch.index_same index rfl, fun hl => ?_, fun _ ha => ?_, fun _ _ hx => ?_, fun _ hb => ?_, fun _ _ hs => ?_⟩
  · refine hch.lists_same_comb comb (fun b _ => by rw [act]) ?_ (by simp) ?_ hl
    · rw [act, hl.mem_ready hr]; simp [Record.waits]
    · rintro _ ⟨⟩
      have := hl.holdAgrees hr
      exact this
  · refine hch.active_of ?_ ha
    rintro _ ⟨⟩
    exact ha _ r hr
  · have hset := pullingAt_set (r' := { r with survs := r.survs.set c.pos v' }) hv rfl
    have hpulls : ∀ q, Record.pullingAt { r with survs := r.survs.set c.pos v' } q ↔ r.pullingAt q ∧ ¬ q = c.pos := fun q => by
      rw [hset]
      by_cases hq : q = c.pos <;> simp [hq, hstate]
    refine hch.contexts_ended (p := fun d => d.slot == c.slot && d.pos == c.pos) (· = c.pos)
      (fun u => by rw [ctxs, State.ctxAt_freeCtx_place hx.apart hc]) (by simp) (fun q => by simpa using hpulls q) ?_ hx
    rintro _ ⟨⟩ q hq
    exact hx.pullsAgree hr q ((hpulls q).mp hq).1
  · refine hch.bounds_of ?_ hb
    rintro _ ⟨⟩
    have h := hb _ r hr
    exact h.of_shape (h.1.congr rfl rfl rfl (map_set_of_eq _ hv hfrag) rfl rfl) rfl rfl rfl rfl id
  · exact hch.slabs_same (by rw [act]) (map_set_of_eq _ hv hslab) rfl rfl rfl hs

/-- No context is without its survivor (log entry 20): the end of one that is leaves the rest as it is. -/
theorem Keeps.freeCtx_orphan {s : State} {tag : Tag} {c : Ctx} (hc : s.ctxAt tag = some c) (h : s.ctxSurvivor c = none) :
    Keeps s (s.freeCtx tag) where
  index hi := by
    refine ⟨fun id b => ?_, by simpa using hi.2⟩
    simpa using hi.1 id b
  lists hl := by
    refine (State.listsExact_iff _).mpr ?_
    simpa only [State.freeCtx_act, State.freeCtx_comb, State.recAt_freeCtx, State.combines] using s.listsExact_iff.mp hl
  active _ ha b r hr := ha b r (by simpa using hr)
  contexts _ _ hx := by
    obtain ⟨r, v, hr, hv, -⟩ := hx.1 tag c hc
    simp [State.ctxSurvivor, hr, hv] at h
  bounds _ hb b r hr := hb b r (by simpa using hr)
  slabs _ _ hs := by
    simpa only [State.slabsExact, State.heldBy, State.freeCtx_act, State.recAt_freeCtx] using hs

theorem State.ctxSurvivor_some {s : State} {c : Ctx} {r : Record} {v : Survivor} :
    s.ctxSurvivor c = some (r, v) ↔ s.recAt c.slot = some r ∧ r.survs[c.pos]? = some v := by
  simp only [State.ctxSurvivor, Option.bind_eq_some_iff, Option.map_eq_some_iff, Prod.mk.injEq]
  constructor
  · rintro ⟨_, hr, _, hv, rfl, rfl⟩; exact ⟨hr, hv⟩
  · rintro ⟨hr, hv⟩; exact ⟨r, hr, v, hv, rfl, rfl⟩

end Sys2Proof.Machine
end

