-- ==== Sys2Proof/Proofs/Tables.lean ====
section
/-! The rows that enter a record, end one, or change its hold or its survivors keep the invariants of the repair table. -/

namespace Sys2Proof.Machine

/-! ## The index -/

theorem State.slotOf_none (s : State) (id : StripeId) : s.slotOf id = none ↔ ∀ a, (id, a) ∉ s.table.index := by
  simp only [State.slotOf, Option.map_eq_none_iff, List.find?_eq_none, beq_iff_eq]
  exact ⟨fun h a ha => h _ ha rfl, fun h x hx e => h x.2 (e ▸ hx)⟩

/-- R24: an id that is not indexed joins the index with the slot of its record. -/
theorem SlotChange.index_added {s t : State} {a : Slot} {r : Record} (h : SlotChange s t a none (some r))
    (hi : t.table.index = s.table.index ++ [(r.stripe, a)]) (hn : ∀ b, (r.stripe, b) ∉ s.table.index) (hx : s.indexExact) :
    t.indexExact := by
  refine ⟨fun id b => ?_, ?_⟩
  · rw [hi, List.mem_append, hx.1, List.mem_singleton, Prod.mk.injEq]
    by_cases hb : b = a
    · subst hb; simp [h.before, h.after, eq_comm]
    · simp [h.others b hb, hb]
  · rw [hi, List.map_append, List.nodup_append]
    refine ⟨hx.2, List.nodup_singleton _, fun x hm y hy e => ?_⟩
    obtain ⟨⟨id, b⟩, hb, rfl⟩ := List.mem_map.mp hm
    obtain rfl : y = r.stripe := by simpa using hy
    exact hn b (by simpa [← e] using hb)

/-- R25, R26: the id of a slot that becomes FREE leaves the index. -/
theorem SlotChange.index_freed {s t : State} {a : Slot} {o : Option Record} (h : SlotChange s t a o none)
    (hi : t.table.index = s.table.index.filter fun e => e.2 ≠ a) (hx : s.indexExact) : t.indexExact := by
  refine ⟨fun id b => ?_, ?_⟩
  · rw [hi, List.mem_filter, hx.1]
    by_cases hb : b = a
    · subst hb; simp [h.after]
    · simp [h.others b hb, hb]
  · rw [hi]
    exact hx.2.sublist (List.filter_sublist.map _)

/-! ## OPEN -/

theorem State.lowestFreeSlot_none {s : State} {a : Slot} (h : s.lowestFreeSlot = some a) : s.recAt a = none := by
  obtain ⟨⟨i, o⟩, hi, rfl⟩ := Option.map_eq_some_iff.mp h
  have hn : o.isNone = true := List.find?_some (p := fun e : Fin 2048 × Option Record => e.2.isNone) hi
  obtain ⟨n, hn', he⟩ := List.mem_iff_getElem.mp (List.mem_of_find?_eq_some hi)
  simp only [listVec, List.getElem_zip, List.getElem_finRange, Prod.mk.injEq] at he
  obtain ⟨rfl, ho⟩ := he
  rw [Option.isNone_iff_eq_none.mp hn] at ho
  simpa [State.recAt] using ho

/-- R22: the shape test. -/
theorem OpenBlock.shapeOk_iff (o : OpenBlock) : o.shapeOk = true ↔
    2 ≤ o.k ∧ o.k ≤ 12 ∧ o.k + 1 ≤ o.n ∧ o.n ≤ o.k + 4 ∧ o.n ≤ 16
    ∧ 1 ≤ o.targets.length ∧ o.targets.length ≤ o.n - o.k
    ∧ o.k ≤ o.survs.length ∧ o.survs.length ≤ o.n - o.targets.length
    ∧ (∀ g ∈ o.targets, g.frag < o.n ∧ g.landing.toNat % 4096 = 0) ∧ (∀ v ∈ o.survs, v.frag < o.n)
    ∧ (o.targets.map (·.frag) ++ o.survs.map (·.frag)).Nodup := by
  have apart : (∀ v ∈ o.survs, ∀ g ∈ o.targets, v.frag ≠ g.frag)
      ↔ ∀ x ∈ o.targets.map (·.frag), ∀ y ∈ o.survs.map (·.frag), x ≠ y := by
    simp only [List.mem_map, forall_exists_index, and_imp, forall_apply_eq_imp_iff₂]
    exact ⟨fun h g hg v hv e => h v hv g hg e.symm, fun h v hv g hg e => h g hg v hv e.symm⟩
  have both : (∀ g ∈ o.targets, g.frag < o.n ∧ g.landing.toNat % 4096 = 0)
      ↔ (∀ g ∈ o.targets, g.frag < o.n) ∧ ∀ g ∈ o.targets, g.landing.toNat % 4096 = 0 :=
    ⟨fun h => ⟨fun g hg => (h g hg).1, fun g hg => (h g hg).2⟩, fun h g hg => ⟨h.1 g hg, h.2 g hg⟩⟩
  rw [OpenBlock.shapeOk, decide_eq_true_iff, List.nodup_append, apart, both]
  tauto

/-- R21 to R23: what an OPEN that passes every test has passed. -/
theorem State.testOpen_ok {s : State} {e : Entry} {block : List Byte} {a : Slot} {o : OpenBlock}
    (h : s.testOpen e block = .ok (a, o)) :
    (∃ b, o = readOpenBlock b) ∧ o.shapeOk = true ∧ s.slotOf (stripeOf e) = none ∧ s.lowestFreeSlot = some a
    ∧ planOk (o.survs.map s.admitSurvivor) o.plan = true ∧ o.k ≤ (o.survs.map s.admitSurvivor).countP Survivor.usable := by
  unfold State.testOpen at h
  split at h
  · cases h
  rename_i b _
  dsimp only at h
  split at h
  · cases h
  split at h
  · cases h
  split at h
  · cases h
  split at h
  · cases h
  split at h
  · cases h
  · rename_i hshape hdup _ slot hfree hplan hmargin
    obtain ⟨rfl, rfl⟩ := Prod.mk.inj (Except.ok.inj h)
    exact ⟨⟨b, rfl⟩, by simpa using hshape, by simpa using hdup, hfree, by simpa using hplan, by omega⟩

theorem planOk_iff (survs : List Survivor) (plan : List Nat) : planOk survs plan = true ↔
    plan.Nodup ∧ ∀ p ∈ plan, ∃ v, survs[p]? = some v ∧ v.usable = true := by
  simp [planOk, Option.any_eq_true]

theorem planOk_lt {survs : List Survivor} {plan : List Nat} (h : planOk survs plan = true) : ∀ p ∈ plan, p < survs.length :=
  fun p hp => by
    obtain ⟨v, hv, -⟩ := ((planOk_iff survs plan).mp h).2 p hp
    exact (List.getElem?_eq_some_iff.mp hv).1

theorem length_field (l : List Byte) (off len : Nat) : (field l off len).length = len := by simp [field]

theorem length_readPositions (b : List Byte) (off k : Nat) : (readPositions b off k).length = k := by simp [readPositions]

theorem length_readRows (b : List Byte) (off t k : Nat) :
    (readRows b off t k).length = t ∧ ∀ row ∈ readRows b off t k, row.length = k := by
  refine ⟨by simp [readRows], fun row hrow => ?_⟩
  obtain ⟨j, -, rfl⟩ := List.mem_map.mp hrow
  exact length_field b _ k

theorem length_readOpenBlock (b : List Byte) : let o := readOpenBlock b
    o.plan.length = o.k ∧ o.rows.length = o.targets.length ∧ ∀ row ∈ o.rows, row.length = o.k := by
  refine ⟨length_readPositions b _ _, ?_, (length_readRows b _ _ _).2⟩
  simpa [readOpenBlock] using (length_readRows b _ _ _).1

/-- R17: how a survivor enters. -/
theorem State.admitSurvivor_frag (s : State) (v : Survivor) : (s.admitSurvivor v).frag = v.frag := by
  unfold State.admitSurvivor; split <;> rfl

theorem State.admitSurvivor_staging (s : State) (v : Survivor) : (s.admitSurvivor v).staging = v.staging := by
  unfold State.admitSurvivor; split <;> rfl

theorem State.admitSurvivor_not_pulling (s : State) {v : Survivor} (h : v.state = .available) :
    (s.admitSurvivor v).state ≠ .pulling := by
  unfold State.admitSurvivor; split <;> simp [h]

theorem readOpenBlock_entered {b : List Byte} {v : Survivor} (h : v ∈ (readOpenBlock b).survs) :
    v.state = .available ∧ v.staging = none ∧ v.retries = 0 ∧ v.holdoff = none ∧ v.faultOffset = none := by
  obtain ⟨i, -, rfl⟩ := List.mem_map.mp h
  exact ⟨rfl, rfl, rfl, rfl, rfl⟩

theorem State.admitRecord_wellShaped (s : State) (id : StripeId) {b : List Byte} (hs : (readOpenBlock b).shapeOk = true)
    (hp : planOk ((readOpenBlock b).survs.map s.admitSurvivor) (readOpenBlock b).plan = true) :
    (s.admitRecord id (readOpenBlock b)).wellShaped := by
  obtain ⟨h1, h2, h3, h4, h5, h6, h7, h8, h9, h10, h11, h12⟩ := (OpenBlock.shapeOk_iff _).mp hs
  obtain ⟨hl, hr, hrow⟩ := length_readOpenBlock b
  have hfrag : ((readOpenBlock b).survs.map s.admitSurvivor).map (·.frag) = (readOpenBlock b).survs.map (·.frag) :=
    map_map_of_eq _ s.admitSurvivor_frag
  have hlen : (s.admitRecord id (readOpenBlock b)).s = (readOpenBlock b).survs.length := List.length_map _
  refine ⟨h1, h2, h3, h4, h5, h6, h7, hlen ▸ h8, hlen ▸ h9, h10, fun v hv => ?_, hfrag ▸ h12, hl,
    ((planOk_iff _ _).mp hp).1, fun p hp' => ?_, hr, hrow⟩
  · obtain ⟨w, hw, rfl⟩ := List.mem_map.mp hv
    rw [s.admitSurvivor_frag]; exact h11 w hw
  · rw [hlen]; simpa using planOk_lt hp p hp'

theorem State.admitRecord_inBounds (s : State) (id : StripeId) {b : List Byte} (hs : (readOpenBlock b).shapeOk = true)
    (hp : planOk ((readOpenBlock b).survs.map s.admitSurvivor) (readOpenBlock b).plan = true)
    (hk : (readOpenBlock b).k ≤ ((readOpenBlock b).survs.map s.admitSurvivor).countP Survivor.usable) :
    (s.admitRecord id (readOpenBlock b)).inBounds := by
  have hw := s.admitRecord_wellShaped id hs hp
  have hm := hw.freshMargin_le
  refine ⟨hw, Nat.min_le_right _ _, Nat.zero_le _, fun _ => ⟨?_, hm, rfl⟩⟩
  show 0 ≤ ((((readOpenBlock b).survs.map s.admitSurvivor).countP Survivor.usable : Nat) : Int) - ((readOpenBlock b).k : Int)
  omega

theorem State.slotChange_admitAt {s : State} {a : Slot} (h : s.recAt a = none) (id : StripeId) (o : OpenBlock) :
    SlotChange s (s.admitAt a id o) a none (some (s.admitRecord id o)) :=
  (SlotChange.setRec h).congr fun b => by
    have hs : (s.admitAt a id o).table.slots = (s.setRec a (some (s.admitRecord id o))).table.slots := by
      simp only [State.admitAt, State.enlist_table]
    simp only [State.recAt, hs]

theorem State.admitAt_index (s : State) (a : Slot) (id : StripeId) (o : OpenBlock) :
    (s.admitAt a id o).table.index = s.table.index ++ [(id, a)] := by
  simp only [State.admitAt, State.enlist_table]

theorem State.mem_ready_admitAt (s : State) (a : Slot) (id : StripeId) (o : OpenBlock) (b : Slot) :
    b ∈ (s.admitAt a id o).act.ready ↔ b = a ∨ b ∈ s.act.ready := by
  simp only [State.admitAt, State.mem_ready_enlist]; rfl

theorem State.admitAt_free (s : State) (a : Slot) (id : StripeId) (o : OpenBlock) :
    (s.admitAt a id o).act.free = s.act.free := by
  simp only [State.admitAt, State.enlist_free]; rfl

theorem State.admitAt_comb (s : State) (a : Slot) (id : StripeId) (o : OpenBlock) : (s.admitAt a id o).comb = s.comb := by
  simp only [State.admitAt, State.enlist_comb]; rfl

theorem State.ctxAt_admitAt (s : State) (a : Slot) (id : StripeId) (o : OpenBlock) (tag : Tag) :
    (s.admitAt a id o).ctxAt tag = s.ctxAt tag := by
  simp only [State.admitAt, State.ctxAt_enlist]; rfl

theorem Keeps.admitAt {s : State} {e : Entry} {block : List Byte} {a : Slot} {o : OpenBlock}
    (h : s.testOpen e block = .ok (a, o)) : Keeps s (s.admitAt a (stripeOf e) o) := by
  obtain ⟨⟨b, rfl⟩, hshape, hid, hfree, hplan, hk⟩ := State.testOpen_ok h
  have hnone := State.lowestFreeSlot_none hfree
  have hc := State.slotChange_admitAt hnone (stripeOf e) (readOpenBlock b)
  have hstag : ∀ v ∈ (s.admitRecord (stripeOf e) (readOpenBlock b)).survs, v.staging = none := by
    intro v hv
    obtain ⟨w, hw, rfl⟩ := List.mem_map.mp hv
    rw [s.admitSurvivor_staging]; exact (readOpenBlock_entered hw).2.1
  have hpull : ∀ q, ¬ (s.admitRecord (stripeOf e) (readOpenBlock b)).pullingAt q := by
    rintro q ⟨v, hv, hs⟩
    obtain ⟨w, hw, rfl⟩ := List.mem_map.mp (List.mem_of_getElem? hv)
    exact s.admitSurvivor_not_pulling (readOpenBlock_entered hw).1 hs
  have hw := s.admitRecord_wellShaped (stripeOf e) hshape hplan
  refine ⟨hc.index_added (s.admitAt_index _ _ _) ((s.slotOf_none _).mp hid), fun hl => ?_, fun _ ha => ?_, fun _ _ hx => ?_,
    fun _ hb => ?_, fun _ _ hs => ?_⟩
  · refine hc.lists_same_comb (s.admitAt_comb _ _ _) (fun b hb => by simp [State.mem_ready_admitAt, hb]) ?_ ?_ ?_ hl
    · simp [State.mem_ready_admitAt, State.admitRecord, Record.waits, Record.restartStall, Record.rescore]
    · simp [State.admitRecord, Record.restartStall, Record.rescore]
    · intro r' hr'
      obtain rfl := Option.some.inj hr'
      simp [State.admitRecord, Record.holdAgrees, Record.restartStall, Record.rescore]
  · refine hc.active_of ?_ ha
    intro r' hr'
    obtain rfl := Option.some.inj hr'
    simp [State.admitRecord, Record.activeAgrees, Record.restartStall, Record.rescore]
  · refine hc.contexts_same (s.ctxAt_admitAt _ _ _) (fun q => by simpa using hpull q) ?_ hx
    intro r' hr' q hq
    obtain rfl := Option.some.inj hr'
    exact absurd hq (hpull q)
  · refine hc.bounds_of ?_ hb
    intro r' hr'
    obtain rfl := Option.some.inj hr'
    exact s.admitRecord_inBounds _ hshape hplan hk
  · refine hc.slabs_none (s.admitAt_free _ _ _) (by simp) ?_ ?_ hs
    · intro r' hr'
      obtain rfl := Option.some.inj hr'
      exact not_holds_of_none hstag
    · intro r' hr'
      obtain rfl := Option.some.inj hr'
      obtain ⟨-, -, -, -, -, -, -, -, -, -, -, -, h1, h2, h3, -⟩ := hw
      exact slabsAgree_of_none rfl hstag ⟨h2, h1, h3⟩

/-! ## CANCEL and RETIRE -/

theorem State.slotChange_freeSlot {s : State} {a : Slot} {o : Option Record} (h : s.recAt a = o) :
    SlotChange s (s.freeSlot a) a o none := ⟨h, by simp, fun _ hb => s.recAt_freeSlot_ne hb⟩

theorem State.freeSlot_index (s : State) (a : Slot) :
    (s.freeSlot a).table.index = s.table.index.filter fun e => e.2 ≠ a := rfl

theorem State.recAt_abortPass (s : State) (a b : Slot) (r : Record) : (s.abortPass a r).recAt b = s.recAt b := by
  unfold State.abortPass; split <;> rfl

theorem State.abortPass_rest (s : State) (a : Slot) (r : Record) : s.abortPass a r =
    { s with
      comb := { s.comb with pass := if s.inPass a then none else s.comb.pass }
      outputs := s.outputs ++ if s.inPass a then r.landingUndefined else [] } := by
  unfold State.abortPass
  split <;> simp [State.emit, *]

theorem State.inPass_iff (s : State) (a : Slot) : s.inPass a = true ↔ s.comb.pass.map (·.slot) = some a := by
  simp [State.inPass, Option.any_eq_true]

/-- R25: a CANCEL ends the pass, the places in the lists and the contexts of its record, gives its slabs back and frees its slot. -/
theorem State.cancelRecord_eq (s : State) (a : Slot) (r : Record) : s.cancelRecord a r =
    (((({ s.abortPass a r with
          act := { s.act with ready := s.act.ready.filter (· ≠ a) }
          comb := { queue := s.comb.queue.filter (· ≠ a), pass := if s.inPass a then none else s.comb.pass } } : State).freeCtxs
        fun c => c.slot == a).releaseSlabs r.slabs).freeSlot a) := by
  simp only [State.cancelRecord, State.delist, State.abortPass_rest]

theorem State.recAt_cancelRecord_ne (s : State) {a b : Slot} (r : Record) (h : b ≠ a) :
    (s.cancelRecord a r).recAt b = s.recAt b := by
  rw [State.cancelRecord_eq, State.recAt_freeSlot_ne _ h, State.recAt_releaseSlabs, State.recAt_freeCtxs]
  exact s.recAt_abortPass a b r

theorem State.slotChange_cancelRecord {s : State} {a : Slot} {r : Record} (h : s.recAt a = some r) :
    SlotChange s (s.cancelRecord a r) a (some r) none :=
  ⟨h, State.recAt_freeSlot_same _ _, fun _ hb => s.recAt_cancelRecord_ne r hb⟩

theorem State.cancelRecord_act (s : State) (a : Slot) (r : Record) : (s.cancelRecord a r).act =
    { ready := s.act.ready.filter (· ≠ a), free := r.slabs.foldr insertSlab s.act.free } := by
  rw [State.cancelRecord_eq]; simp [State.releaseSlabs]

theorem State.cancelRecord_comb (s : State) (a : Slot) (r : Record) : (s.cancelRecord a r).comb =
    { queue := s.comb.queue.filter (· ≠ a), pass := if s.inPass a then none else s.comb.pass } := by
  rw [State.cancelRecord_eq]; simp

theorem State.cancelRecord_index (s : State) (a : Slot) (r : Record) :
    (s.cancelRecord a r).table.index = s.table.index.filter fun e => e.2 ≠ a := by
  rw [State.cancelRecord_eq, State.freeSlot_index]
  simp [State.abortPass_rest]

theorem State.ctxAt_cancelRecord (s : State) (a : Slot) (r : Record) (tag : Tag) :
    (s.cancelRecord a r).ctxAt tag = (s.ctxAt tag).filter fun c => !(c.slot == a) := by
  rw [State.cancelRecord_eq, State.ctxAt_freeSlot]
  simp only [State.ctxAt, State.releaseSlabs, State.clearVerify, State.abortPass_rest]
  exact State.ctxAt_freeCtxs s _ tag

theorem Keeps.cancelRecord {s : State} {a : Slot} {r : Record} (hr : s.recAt a = some r) : Keeps s (s.cancelRecord a r) := by
  have hc := State.slotChange_cancelRecord hr
  refine ⟨hc.index_freed (s.cancelRecord_index a r), fun hl => ?_, fun _ ha => hc.active_of (by simp) ha,
    fun _ _ hx => hc.contexts_gone (s.ctxAt_cancelRecord a r) (by simp) hx, fun _ hb => hc.bounds_of (by simp) hb, fun _ _ hs => ?_⟩
  · obtain ⟨-, -, h3, h4, -⟩ := s.listsExact_iff.mp hl
    have hcomb := s.cancelRecord_comb a r
    have hpass : ∀ p, (s.cancelRecord a r).comb.pass = some p ↔ s.comb.pass = some p ∧ p.slot ≠ a := by
      intro p
      rw [hcomb]
      by_cases hin : s.inPass a = true
      · simp only [hin, if_true]
        rw [State.inPass_iff] at hin
        constructor
        · exact fun h => by cases h
        · rintro ⟨hp, hne⟩; rw [hp] at hin; exact absurd (Option.some.inj hin) hne
      · simp only [hin]
        rw [State.inPass_iff] at hin
        exact ⟨fun hp => ⟨hp, fun e => hin (by rw [show s.comb.pass = some p from hp]; exact congrArg some e)⟩, fun h => h.1⟩
    refine hc.lists_of (fun b hb => by simp [State.cancelRecord_act, hb]) (by simp [State.cancelRecord_act]) (fun b hb => ?_) ?_ ?_ ?_
      (by simp) hl
    · simp only [State.combines, hpass]
      rw [hcomb]
      simp only [List.mem_filter, decide_eq_true_eq, ne_eq, hb, not_false_eq_true, and_true]
      refine or_congr_right ⟨fun ⟨p, h1, h2⟩ => ⟨p, h1.1, h2⟩, fun ⟨p, h1, h2⟩ => ⟨p, ⟨h1, h2 ▸ hb⟩, h2⟩⟩
    · simp only [State.combines, hpass]
      rw [hcomb]
      simp only [List.mem_filter, decide_eq_true_eq, ne_eq, not_true_eq_false, and_false, false_or, reduceCtorEq, false_and, exists_false,
        iff_false]
      rintro ⟨p, ⟨-, h1⟩, h2⟩
      exact h1 h2
    · rw [hcomb]; exact h3.filter _
    · intro p hp
      rw [hcomb]
      exact fun hm => h4 p ((hpass p).mp hp).1 (List.mem_filter.mp hm).1
  · refine hc.slabs_released (fun x => ?_) (by simp) (by simp) (fun h => ?_) hs
    · rw [State.cancelRecord_act, mem_foldr_insertSlab]
    · rw [State.cancelRecord_act]; exact foldr_insertSlab_pairwise _ h

theorem Keeps.freeSlot {s : State} {a : Slot} {r : Record} (hr : s.recAt a = some r) (ht : r.terminal = true) :
    Keeps s (s.freeSlot a) := by
  have hc := State.slotChange_freeSlot hr
  have hstate := r.terminal_iff.mp ht
  refine ⟨hc.index_freed rfl, fun hl => ?_, fun _ ha => hc.active_of (by simp) ha,
    fun _ _ hx => ?_, fun _ hb => hc.bounds_of (by simp) hb, fun _ ha hs => ?_⟩
  · refine hc.lists_same_comb rfl (fun _ _ => .rfl) ?_ ?_ (by simp) hl
    · rw [State.freeSlot_act, hl.mem_ready hr]
      rcases hstate with e | e | e <;> simp [Record.waits, e]
    · rcases hstate with e | e | e <;> simp [e]
  · refine hc.contexts_same (fun tag => by simp) (fun q => ?_) (by simp) hx
    have : ¬ r.pullingAt q := fun hq => by
      obtain ⟨-, -, h⟩ := hx.pullsAgree hr q hq
      rcases hstate with e | e | e <;> simp [e] at h
    simpa using this
  · refine hc.slabs_none rfl ?_ (by simp) (by simp) hs
    rintro _ ⟨⟩
    exact (hs.slabsAgree hr).not_holds ((ha a r hr).2 (.inr ht))

/-! ## HOLD and RELEASE -/

/-- A record's hold, stall timer and Ready List place change together. -/
theorem Keeps.of_hold {s t : State} {a : Slot} {r : Record} (hr : s.recAt a = some r) {hold : Hold} {stall : Option Nat}
    (hhold : s.listsExact → Record.holdAgrees { r with hold, stall })
    (recs : ∀ b, t.recAt b = (s.setRec a (some { r with hold, stall })).recAt b) (index : t.table.index = s.table.index)
    (free : t.act.free = s.act.free) (comb : t.comb = s.comb) (ctxs : ∀ tag, t.ctxAt tag = s.ctxAt tag)
    (ready : ∀ b, b ≠ a → (b ∈ t.act.ready ↔ b ∈ s.act.ready))
    (readyHere : s.listsExact → (a ∈ t.act.ready ↔ r.state = .queued ∧ hold = .none)) : Keeps s t := by
  have hc : SlotChange s t a (some r) (some { r with hold, stall }) := (State.slotChange_setRec hr _).congr recs
  refine ⟨hc.index_same index rfl, fun hl => ?_, fun _ ha => ?_, fun _ _ hx => ?_, fun _ hb => ?_, fun _ _ hs => ?_⟩
  · refine hc.lists_same_comb comb ready ?_ (by simp) ?_ hl
    · rw [readyHere hl]; simp [Record.waits]
    · rintro _ ⟨⟩; exact hhold hl
  · refine hc.active_of ?_ ha
    rintro _ ⟨⟩
    exact ha a r hr
  · exact hc.contexts_view ctxs (fun q => .rfl) (fun h => h) hx
  · refine hc.bounds_of ?_ hb
    rintro _ ⟨⟩
    have h := hb a r hr
    exact h.of_shape (h.1.congr rfl rfl rfl rfl rfl rfl) rfl rfl rfl rfl id
  · exact hc.slabs_same free rfl rfl rfl rfl hs

theorem Keeps.holdBody (e : Entry) (s : State) : Keeps s (holdBody e s).1 := by
  unfold Machine.holdBody
  split
  · exact .refl s
  rename_i a r hlook
  have hr := (State.lookup_some hlook).2
  split
  · exact .refl s
  split
  · rename_i hst
    refine .of_hold (hold := .requested (reqIdOf e)) (stall := r.stall) hr (fun _ => ⟨fun _ _ => hst, fun h => by cases h⟩)
      (fun _ => rfl) rfl rfl rfl (fun _ => by simp) (fun _ _ => .rfl) fun hl => ?_
    rw [State.setRec_act, hl.mem_ready hr]; simp [Record.waits, hst]
  · rename_i hst
    by_cases hq : r.state = .queued
    · simp only [hq, if_true]
      exact .of_hold (hold := .granted) (stall := none) hr (fun _ => ⟨fun _ h => (by cases h), fun _ => hst⟩)
        (fun _ => by rw [State.recAt_delist, hq]) rfl rfl rfl (fun _ => by simp)
        (fun b hb => by simp [hb]) fun _ => by simp
    · simp only [hq, if_false]
      refine .of_hold (hold := .granted) (stall := none) hr (fun _ => ⟨fun _ h => (by cases h), fun _ => hst⟩) (fun _ => rfl) rfl rfl
        rfl (fun _ => by simp) (fun _ _ => .rfl) fun hl => ?_
      rw [State.setRec_act, hl.mem_ready hr]; simp [Record.waits, hq]

theorem Keeps.releaseRecord {s : State} {a : Slot} {r : Record} (hr : s.recAt a = some r) : Keeps s (s.releaseRecord a r) := by
  have hnone : ∀ stall, Record.holdAgrees { r with hold := .none, stall } := fun _ => by simp [Record.holdAgrees]
  have plain : ∀ stall, r.state ≠ .queued → Keeps s (s.setRec a (some { r with hold := .none, stall })) := fun stall hq =>
    .of_hold hr (fun _ => hnone _) (fun _ => rfl) rfl rfl rfl (fun _ => by simp) (fun _ _ => .rfl) fun hl => by
      rw [State.setRec_act, hl.mem_ready hr]; simp [Record.waits, hq]
  unfold State.releaseRecord
  dsimp only
  split
  · split
    · rename_i hst
      exact .of_hold (stall := (Record.restartStall { r with hold := .none } s.settings.stallCode s.now).stall) hr (fun _ => hnone _)
        (fun _ => by rw [State.recAt_enlist]; rfl) rfl rfl rfl (fun _ => by simp) (fun b hb => by simp [hb]) fun _ => by simp [hst]
    · rename_i hst
      split
      · exact .enterCombining hr hst ‹_›
      · exact plain _ (by simp [hst])
    all_goals
      rename_i hst
      exact plain r.stall (by simp [hst])
  · rename_i hh
    refine .of_hold (stall := r.stall) hr (fun _ => hnone _) (fun _ => rfl) rfl rfl rfl (fun _ => by simp) (fun _ _ => .rfl) fun hl => ?_
    rw [State.setRec_act, hl.mem_ready hr]
    have hagree := (hl.holdAgrees hr).1
    simp only [Record.waits, and_true, and_iff_left_iff_imp]
    intro hq
    cases hhold : r.hold with
    | none => rfl
    | granted => exact absurd hhold hh
    | requested id => rw [hagree id hhold] at hq; cases hq

end Sys2Proof.Machine
end

