-- ==== Sys2Proof/Proofs/Plans.lean ====
section
/-! AMEND and REPLAN keep the invariants of the repair table: a survivor added or re-pointed, and the slabs that a new plan
moves. -/

namespace Sys2Proof.Machine

/-! ## AMEND -/

/-- R131: what an AMEND that passes every test has passed. -/
theorem testAmend_none {e : Entry} {r : Record} : testAmend e r = none ↔ r.hold = .granted ∧ r.live = true
    ∧ ((amendPosOf e = r.s ∧ r.s < r.n - r.t ∧ (operandOf e 25).toNat < r.n
        ∧ (operandOf e 25).toNat ∉ r.survs.map (·.frag) ∧ (operandOf e 25).toNat ∉ r.targets.map (·.frag))
      ∨ ∃ v, amendPosOf e < r.s ∧ r.survs[amendPosOf e]? = some v ∧ v.state ≠ .pulling ∧ v.state ≠ .staged) := by
  unfold testAmend
  dsimp only
  by_cases hh : r.hold = .granted
  swap
  · simp [hh]
  by_cases hl : r.live = true
  swap
  · simp [hh, hl]
  have hrange := Nat.lt_trichotomy (amendPosOf e) r.s
  rcases hrange with hlt | heq | hgt
  · have hsome : r.survs[amendPosOf e]? = some (r.survs[amendPosOf e]'hlt) := List.getElem?_eq_getElem hlt
    simp [hh, hl, hlt.ne, hlt, not_lt.mpr hlt.le, hsome]
  · by_cases hroom : r.n - r.t ≤ r.s
    · simp [hh, hl, heq, Nat.sub_le_iff_le_add.mp hroom, not_lt.mpr hroom]
    have hfirst : ¬ (r.s < amendPosOf e ∨ amendPosOf e = r.s ∧ r.n - r.t ≤ r.s) := by simp [heq, hroom]
    rw [if_neg (not_not.mpr hh), if_neg (by simp [hl]), if_neg hfirst, if_pos heq]
    have hfrag : ((operandOf e 25).toNat < r.n ∧ (operandOf e 25).toNat ∉ r.survs.map (·.frag)
        ∧ (operandOf e 25).toNat ∉ r.targets.map (·.frag)) ↔ ¬ (r.n ≤ (operandOf e 25).toNat
        ∨ (operandOf e 25).toNat ∈ r.survs.map (·.frag) ∨ (operandOf e 25).toNat ∈ r.targets.map (·.frag)) := by
      rw [not_or, not_or, not_le]
    rw [hfrag]
    split
    · rename_i hbad
      exact iff_of_false (by simp) fun ⟨_, _, h⟩ => h.elim (fun h => h.2.2 hbad) fun ⟨_, hlt, _⟩ => hlt.ne heq
    · rename_i hgood
      exact iff_of_true rfl ⟨hh, hl, .inl ⟨heq, not_le.mp hroom, hgood⟩⟩
  · simp [hh, hl, hgt, hgt.ne', hgt.le]

theorem getElem?_append_one {α : Type} (l : List α) (w : α) (q : Nat) :
    (l ++ [w])[q]? = if q = l.length then some w else l[q]? := by
  rcases Nat.lt_trichotomy q l.length with h | h | h
  · simp [List.getElem?_append_left h, h.ne]
  · simp [h]
  · have h1 : ¬ q = l.length := h.ne'
    rw [if_neg h1, List.getElem?_eq_none (by simpa using h), List.getElem?_eq_none h.le]

/-- A survivor that joins at the end without a slab, not PULLING. -/
theorem Keeps.addSurvivor {s : State} {a : Slot} {r : Record} {w : Survivor} (hr : s.recAt a = some r)
    (hstate : w.state ≠ .pulling) (hstag : w.staging = none) (hroom : r.s < r.n - r.t) (hfrag : w.frag < r.n)
    (hs : w.frag ∉ r.survs.map (·.frag)) (ht : w.frag ∉ r.targets.map (·.frag)) :
    Keeps s (s.setRec a (some { r with survs := r.survs ++ [w] })) := by
  have hc := State.slotChange_setRec hr (some { r with survs := r.survs ++ [w] })
  have hlen : r.survs.length = r.s := rfl
  have hpull : ∀ q, Record.pullingAt { r with survs := r.survs ++ [w] } q ↔ r.pullingAt q := by
    intro q
    unfold Record.pullingAt
    rw [getElem?_append_one]
    by_cases hq : q = r.survs.length <;> simp [hq, hstate]
  have hhold : ∀ x q, Record.holds { r with survs := r.survs ++ [w] } x q ↔ r.holds x q := by
    intro x q
    unfold Record.holds
    rw [getElem?_append_one]
    by_cases hq : q = r.survs.length <;> simp [hq, Survivor.slab, hstag]
  refine ⟨hc.index_same rfl rfl, fun hl => ?_, fun _ ha => ?_, fun _ _ hx => ?_, fun _ hb => ?_, fun _ _ hx => ?_⟩
  · refine hc.lists_same_comb rfl (fun _ _ => .rfl) ?_ (by simp) ?_ hl
    · rw [State.setRec_act, hl.mem_ready hr]; simp [Record.waits]
    · rintro _ ⟨⟩
      have := hl.holdAgrees hr
      exact this
  · refine hc.active_of ?_ ha
    rintro _ ⟨⟩
    exact ha a r hr
  · exact hc.contexts_view (fun _ => by simp) hpull (fun h q hq => h q ((hpull q).mp hq)) hx
  · refine hc.bounds_of ?_ hb
    rintro _ ⟨⟩
    obtain ⟨hw, h⟩ := hb a r hr
    refine ⟨?_, h⟩
    obtain ⟨h1, h2, h3, h4, h5, h6, h7, h8, -, h10, h11, h12, h13, h14, h15, h16⟩ := hw
    have hs' : Record.s { r with survs := r.survs ++ [w] } = r.s + 1 := by simp [Record.s]
    refine ⟨h1, h2, h3, h4, h5, h6, h7, by rw [hs']; exact Nat.le_succ_of_le h8, by rw [hs']; exact hroom, h10, fun v hv => ?_, ?_, h13, h14,
      fun p hp => by rw [hs']; exact Nat.lt_succ_of_lt (h15 p hp), h16⟩
    · rcases List.mem_append.mp hv with hv | hv
      · exact h11 v hv
      · rw [List.mem_singleton.mp hv]; exact hfrag
    · show (r.targets.map (·.frag) ++ (r.survs ++ [w]).map (·.frag)).Nodup
      rw [List.map_append, ← List.append_assoc, List.nodup_append]
      refine ⟨h12, List.nodup_singleton _, fun x hx y hy e => ?_⟩
      obtain rfl : y = w.frag := by simpa using hy
      rcases List.mem_append.mp hx with hx | hx
      · exact ht (e ▸ hx)
      · exact hs (e ▸ hx)
  · have hag := hx.slabsAgree hr
    refine hc.slabs_of ?_ (fun x => by simp [hhold]) ?_ ?_ hx.ascend hx
    · rintro _ ⟨⟩
      refine ⟨fun q v hv => ?_, hag.2.1, hag.2.2.1, fun p hp => ?_⟩
      · have hv' : (r.survs ++ [w])[q]? = some v := hv
        rw [getElem?_append_one] at hv'
        by_cases hq : q = r.survs.length
        · obtain rfl : w = v := by simpa [hq] using hv'
          have : q ∉ r.plan := fun hp => absurd (hag.2.2.2 q hp) (by rw [hq, hlen]; exact lt_irrefl _)
          simp [hstag, this]
        · rw [if_neg hq] at hv'
          exact hag.1 q v hv'
      · have := hag.2.2.2 p hp
        simp only [Record.s, List.length_append, List.length_singleton] at this ⊢
        omega
    · rintro x _ p hf ⟨⟩ hp
      exact hx.not_free hr ((hhold x p).mp hp) hf
    · rintro x _ p q ⟨⟩ hp hq
      exact hx.once hr ((hhold x p).mp hp) ((hhold x q).mp hq)

theorem State.rackGives_ne (s : State) (k : RackId) : s.rackGives k ≠ .pulling := by
  unfold State.rackGives; split <;> simp

theorem State.repoint_state (s : State) (e : Entry) (v : Survivor) : (s.repoint e v).state = s.rackGives (operandOf e 26) := by
  unfold State.repoint; dsimp only; split <;> rfl

theorem State.repoint_frag (s : State) (e : Entry) (v : Survivor) : (s.repoint e v).frag = v.frag := by
  unfold State.repoint; dsimp only; split <;> rfl

theorem State.repoint_slab (s : State) (e : Entry) (v : Survivor) : (s.repoint e v).slab = v.slab := by
  unfold State.repoint
  dsimp only
  split
  · rfl
  · rw [Survivor.uncover_slab]; rfl

theorem Keeps.amendSlot {s : State} {e : Entry} {a : Slot} {r : Record} (hr : s.recAt a = some r) (ht : testAmend e r = none) :
    Keeps s (s.amendSlot e a r) := by
  refine Keeps.trans (Keeps.trans ?_ (.clearVerify _ _)) (.reckon _ _ _)
  obtain ⟨-, -, ⟨hpos, hroom, hf, hs, htg⟩ | ⟨v, hpos, hv, hp, -⟩⟩ := testAmend_none.mp ht
  · rw [State.amendRecord, if_pos hpos]
    exact .addSurvivor hr (s.rackGives_ne _) rfl hroom hf hs htg
  · rw [State.amendRecord, if_neg hpos.ne, Record.modSurv_eq hv]
    refine .setRec_alike hr (.of_survs r.stall (map_set_of_eq _ hv ?_) (map_set_of_eq _ hv (s.repoint_frag e v)))
    simp [Survivor.view, s.repoint_slab, s.repoint_state, s.rackGives_ne, hp]

/-! ## REPLAN: the slabs that a new plan moves -/

theorem insertSlab_perm {x : Slab} {l : List Slab} (h : x ∉ l) : (insertSlab x l).Perm (x :: l) := by
  induction l with
  | nil => exact .refl _
  | cons y rest ih =>
    obtain ⟨hxy, hr⟩ : x ≠ y ∧ x ∉ rest := by simpa using h
    unfold insertSlab
    split
    · exact .refl _
    · exact ((ih hr).cons y).trans (.swap x y rest)

theorem sortSlabs_perm {l : List Slab} (h : l.Nodup) : (sortSlabs l).Perm l := by
  induction l with
  | nil => exact .refl _
  | cons x rest ih =>
    obtain ⟨hx, hr⟩ := List.nodup_cons.mp h
    exact (insertSlab_perm fun hm => hx ((ih hr).mem_iff.mp hm)).trans ((ih hr).cons x)

theorem mem_sortSlabs (l : List Slab) (x : Slab) : x ∈ sortSlabs l ↔ x ∈ l := by
  simp [sortSlabs, mem_foldr_insertSlab]

theorem sortSlabs_pairwise (l : List Slab) : (sortSlabs l).Pairwise (· < ·) := foldr_insertSlab_pairwise l List.Pairwise.nil

namespace Record

variable {r : Record} {plan : List Nat}

theorem mem_dropped {p : Nat} : p ∈ r.dropped plan ↔ p ∈ r.plan ∧ p ∉ plan := by simp [dropped]

theorem mem_newlySelected {p : Nat} : p ∈ r.newlySelected plan ↔ p ∈ plan ∧ p ∉ r.plan := by simp [newlySelected]

/-- R123: the slabs given up are those that dropped survivors hold. -/
theorem mem_givenUp {x : Slab} : x ∈ r.givenUp plan ↔ ∃ p, p ∈ r.plan ∧ p ∉ plan ∧ r.holds x p := by
  simp only [givenUp, mem_sortSlabs, List.mem_filterMap, mem_dropped, and_assoc, holds, Option.bind_eq_some_iff]

theorem givenUp_ascend : (r.givenUp plan).Pairwise (· < ·) := sortSlabs_pairwise _

theorem givenUp_nodup : (r.givenUp plan).Nodup := givenUp_ascend.imp ne_of_lt

/-- As many positions are newly selected as are dropped. -/
theorem length_newlySelected (h : r.plan.Nodup) (h' : plan.Nodup) (hl : plan.length = r.plan.length) :
    (r.newlySelected plan).length = (r.dropped plan).length := by
  have both : (plan.filter (r.plan.contains ·)).Perm (r.plan.filter (plan.contains ·)) :=
    (List.perm_ext_iff_of_nodup (h'.filter _) (h.filter _)).mpr fun p => by simp [and_comm]
  have h1 := List.length_eq_length_filter_add (l := plan) (r.plan.contains ·)
  have h2 := List.length_eq_length_filter_add (l := r.plan) (plan.contains ·)
  have h3 := both.length_eq
  simp only [newlySelected, dropped]
  omega

/-- Of an active record each dropped survivor gives up its own slab. -/
theorem length_givenUp (hag : r.slabsAgree) (ha : r.active = true)
    (once : ∀ x p q, r.holds x p → r.holds x q → p = q) : (r.givenUp plan).length = (r.dropped plan).length := by
  have hslab : ∀ p ∈ r.dropped plan, ∃ x, (r.survs[p]?).bind Survivor.slab = some x := by
    intro p hp
    have hplan := (mem_dropped.mp hp).1
    have hv : r.survs[p]? = some (r.survs[p]'(hag.2.2.2 p hplan)) := List.getElem?_eq_getElem _
    have := (hag.1 p _ hv).mpr ⟨ha, hplan⟩
    rw [← Survivor.slab_isSome] at this
    rw [hv]
    exact Option.isSome_iff_exists.mp this
  have hnodup : ((r.dropped plan).filterMap fun p => (r.survs[p]?).bind Survivor.slab).Nodup := by
    refine List.Nodup.filterMap (fun p q x hp hq => ?_) (hag.2.1.filter _)
    exact once x p q (Option.bind_eq_some_iff.mp hp) (Option.bind_eq_some_iff.mp hq)
  rw [givenUp, (sortSlabs_perm hnodup).length_eq, List.length_filterMap_eq_countP, List.countP_eq_length]
  intro p hp
  obtain ⟨x, hx⟩ := hslab p hp
  simp [hx]

/-- R123: the survivors after a new plan. -/
theorem getElem?_withPlan (plan : List Nat) (rows : List (List Byte)) (p : Nat) :
    (r.withPlan plan rows).survs[p]? = (r.survs[p]?).map (r.movedSurvivor plan p) := by
  simp [withPlan]

theorem movedSurvivor_dropped {p : Nat} (h : p ∈ r.dropped plan) (v : Survivor) : r.movedSurvivor plan p v = v.drop := by
  rw [movedSurvivor, if_pos h]

theorem movedSurvivor_kept {p : Nat} (h : p ∉ r.dropped plan) (h' : p ∉ r.newlySelected plan) (v : Survivor) :
    r.movedSurvivor plan p v = v := by
  rw [movedSurvivor, if_neg h, List.idxOf?_eq_none_iff.mpr h']

theorem not_dropped_of_newly {p : Nat} (h : p ∈ r.newlySelected plan) : p ∉ r.dropped plan := fun hd =>
  (mem_dropped.mp hd).2 (mem_newlySelected.mp h).1

theorem movedSurvivor_newly {p i : Nat} (hnd : plan.Nodup) (h : (r.newlySelected plan)[i]? = some p) (v : Survivor) :
    r.movedSurvivor plan p v = ((r.givenUp plan)[i]?).elim v fun x => { v with staging := some (r.freshStaging x) } := by
  have hmem := List.mem_of_getElem? h
  have hnodup : (r.newlySelected plan).Nodup := hnd.filter _
  rw [movedSurvivor, if_neg (not_dropped_of_newly hmem), idxOf?_of_nodup hnodup h]
  cases hg : (r.givenUp plan)[i]? <;> simp [hg]

theorem movedSurvivor_frag (p : Nat) (v : Survivor) : (r.movedSurvivor plan p v).frag = v.frag := by
  unfold movedSurvivor
  split
  · rfl
  · split
    · rfl
    · split <;> rfl

theorem drop_not_pulling (v : Survivor) : v.drop.state ≠ .pulling := by
  unfold Survivor.drop
  dsimp only
  split
  · simp
  · rename_i h; exact fun e => h (.inl e)

theorem movedSurvivor_state {p : Nat} (h : p ∉ r.dropped plan) (v : Survivor) : (r.movedSurvivor plan p v).state = v.state := by
  rw [movedSurvivor, if_neg h]
  split
  · rfl
  · split <;> rfl

/-- R123: after a new plan the survivors that pull are those that did and were not dropped. -/
theorem withPlan_pullingAt (plan : List Nat) (rows : List (List Byte)) (q : Nat) :
    (r.withPlan plan rows).pullingAt q ↔ r.pullingAt q ∧ q ∉ r.dropped plan := by
  unfold pullingAt
  rw [getElem?_withPlan]
  by_cases hd : q ∈ r.dropped plan
  · simp [hd, movedSurvivor_dropped hd, drop_not_pulling]
  · simp [hd, movedSurvivor_state hd]

/-- R123: who holds a slab after a new plan: a kept survivor its own, a newly selected one that which falls to it. -/
theorem withPlan_holds (hag : r.slabsAgree) (hnd : plan.Nodup) (rows : List (List Byte)) (x : Slab) (p : Nat) :
    (r.withPlan plan rows).holds x p ↔
      (p ∉ r.dropped plan ∧ r.holds x p)
      ∨ (p < r.s ∧ ∃ i : Nat, (r.newlySelected plan)[i]? = some p ∧ (r.givenUp plan)[i]? = some x) := by
  unfold holds
  rw [getElem?_withPlan]
  cases hv : r.survs[p]? with
  | none =>
    have : ¬ p < r.s := by simpa [Record.s] using hv
    simp [this]
  | some v =>
    have hp : p < r.s := (List.getElem?_eq_some_iff.mp hv).1
    by_cases hd : p ∈ r.dropped plan
    · have hn : ∀ i : Nat, ¬ (r.newlySelected plan)[i]? = some p := fun i hi => not_dropped_of_newly (List.mem_of_getElem? hi) hd
      simp [movedSurvivor_dropped hd, Survivor.drop, Survivor.slab, hd, hn]
    by_cases hn : p ∈ r.newlySelected plan
    · obtain ⟨i, hi⟩ := List.mem_iff_getElem?.mp hn
      have hnone : v.slab = none := by
        rw [Record.slab_eq_none, Bool.eq_false_iff]
        exact fun h => (mem_newlySelected.mp hn).2 ((hag.1 p v hv).mp h).2
      have huniq : ∀ j : Nat, (r.newlySelected plan)[j]? = some p → j = i := fun j hj =>
        (List.getElem?_inj (List.getElem?_eq_some_iff.mp hj).1 (hnd.filter _)).mp (hj.trans hi.symm)
      have hright : (∃ j : Nat, (r.newlySelected plan)[j]? = some p ∧ (r.givenUp plan)[j]? = some x) ↔ (r.givenUp plan)[i]? = some x :=
        ⟨fun ⟨j, hj, hx⟩ => huniq j hj ▸ hx, fun hx => ⟨i, hi, hx⟩⟩
      rw [hright]
      cases hg : (r.givenUp plan)[i]? with
      | none => simp [movedSurvivor_newly hnd hi, hg, hnone]
      | some y =>
        have hstag : v.staging = none := by simpa [Survivor.slab] using hnone
        simp [movedSurvivor_newly hnd hi, hg, hp, Survivor.slab, hstag, freshStaging]
    · have hno : ∀ i : Nat, ¬ (r.newlySelected plan)[i]? = some p := fun i hi => hn (List.mem_of_getElem? hi)
      simp [movedSurvivor_kept hd hn, hd, hno]

end Record

/-- R123: the slabs and the plan agree after a new plan of the same length. -/
theorem Record.slabsAgree.withPlan {r : Record} {plan : List Nat} (rows : List (List Byte)) (hag : r.slabsAgree)
    (once : ∀ x p q, r.holds x p → r.holds x q → p = q) (hnd : plan.Nodup) (hl : plan.length = r.k) (hlt : ∀ p ∈ plan, p < r.s) :
    (r.withPlan plan rows).slabsAgree := by
  refine ⟨fun p v' hv' => ?_, hnd, hl, by simpa [Record.s, Record.withPlan] using hlt⟩
  have hplan : (r.withPlan plan rows).plan = plan := rfl
  have hact : (r.withPlan plan rows).active = r.active := rfl
  rw [hplan, hact, ← Survivor.slab_isSome, Option.isSome_iff_exists]
  have hkey : (∃ x, v'.slab = some x) ↔ ∃ x, (r.withPlan plan rows).holds x p := by
    simp [Record.holds, hv']
  have hps : p < r.s := by
    simpa [Record.s, Record.withPlan] using (List.getElem?_eq_some_iff.mp hv').1
  have hv : r.survs[p]? = some (r.survs[p]'hps) := List.getElem?_eq_getElem hps
  have hown : (∃ x, r.holds x p) ↔ r.active = true ∧ p ∈ r.plan := by
    rw [← hag.1 p _ hv, ← Survivor.slab_isSome, Option.isSome_iff_exists]
    simp [Record.holds, hv]
  rw [hkey]
  simp only [Record.withPlan_holds hag hnd, Record.mem_dropped]
  constructor
  · rintro ⟨x, ⟨hd, hx⟩ | ⟨-, i, hi, hx⟩⟩
    · obtain ⟨ha, hp⟩ := hown.mp ⟨x, hx⟩
      exact ⟨ha, not_not.mp fun h => hd ⟨hp, h⟩⟩
    · obtain ⟨q, -, -, hq⟩ := Record.mem_givenUp.mp (List.mem_of_getElem? hx)
      refine ⟨?_, (Record.mem_newlySelected.mp (List.mem_of_getElem? hi)).1⟩
      by_contra hno
      exact hag.not_holds (by simpa using hno) x q hq
  · rintro ⟨ha, hp⟩
    by_cases hold : p ∈ r.plan
    · obtain ⟨x, hx⟩ := hown.mpr ⟨ha, hold⟩
      exact ⟨x, .inl ⟨fun h => h.2 hp, hx⟩⟩
    · obtain ⟨i, hi⟩ := List.mem_iff_getElem?.mp (Record.mem_newlySelected.mpr ⟨hp, hold⟩)
      have hlen : i < (r.givenUp plan).length := by
        rw [Record.length_givenUp hag ha once, ← Record.length_newlySelected hag.2.1 hnd (hl.trans hag.2.2.1.symm)]
        exact (List.getElem?_eq_some_iff.mp hi).1
      exact ⟨_, .inr ⟨hps, i, hi, List.getElem?_eq_getElem hlen⟩⟩

/-- R123: a new plan moves slabs within the record only. -/
theorem Record.slabsAgree.withPlan_total {r : Record} {plan : List Nat} (rows : List (List Byte)) (hag : r.slabsAgree)
    (hnd : plan.Nodup) (hl : plan.length = r.k) (hlt : ∀ p ∈ plan, p < r.s) (x : Slab) :
    (∃ p, (r.withPlan plan rows).holds x p) ↔ ∃ p, r.holds x p := by
  simp only [Record.withPlan_holds hag hnd]
  constructor
  · rintro ⟨p, ⟨-, hx⟩ | ⟨-, i, -, hx⟩⟩
    · exact ⟨p, hx⟩
    · obtain ⟨q, -, -, hq⟩ := Record.mem_givenUp.mp (List.mem_of_getElem? hx)
      exact ⟨q, hq⟩
  · rintro ⟨p, hx⟩
    by_cases hd : p ∈ r.dropped plan
    · have hgiven : x ∈ r.givenUp plan := Record.mem_givenUp.mpr ⟨p, (Record.mem_dropped.mp hd).1, (Record.mem_dropped.mp hd).2, hx⟩
      obtain ⟨i, hi⟩ := List.mem_iff_getElem?.mp hgiven
      have hle : (r.givenUp plan).length ≤ (r.newlySelected plan).length := by
        rw [Record.length_newlySelected hag.2.1 hnd (hl.trans hag.2.2.1.symm)]
        exact (Record.givenUp_nodup.subperm fun y hy =>
          (mem_sortSlabs _ _).mp hy).length_le.trans (List.length_filterMap_le _ _)
      have hlt' : i < (r.newlySelected plan).length := (List.getElem?_eq_some_iff.mp hi).1.trans_le hle
      have hq := List.getElem?_eq_getElem hlt'
      exact ⟨_, .inr ⟨hlt _ (Record.mem_newlySelected.mp (List.mem_of_getElem? hq)).1, i, hq, hi⟩⟩
    · exact ⟨p, .inl ⟨hd, hx⟩⟩

/-- R123: after a new plan a slab is held once if it was before. -/
theorem Record.slabsAgree.withPlan_once {r : Record} {plan : List Nat} (rows : List (List Byte)) (hag : r.slabsAgree)
    (once : ∀ x p q, r.holds x p → r.holds x q → p = q) (hnd : plan.Nodup) {x : Slab} {p q : Nat}
    (hp : (r.withPlan plan rows).holds x p) (hq : (r.withPlan plan rows).holds x q) : p = q := by
  have clash : ∀ {p i : Nat}, p ∉ r.dropped plan → r.holds x p → (r.givenUp plan)[i]? = some x → False := by
    intro p i hd hx hi
    obtain ⟨d, h1, h2, hdx⟩ := Record.mem_givenUp.mp (List.mem_of_getElem? hi)
    exact hd (Record.mem_dropped.mpr (once x p d hx hdx ▸ ⟨h1, h2⟩))
  rcases (Record.withPlan_holds hag hnd rows x p).mp hp with ⟨hdp, hxp⟩ | ⟨-, i, hip, hix⟩ <;>
    rcases (Record.withPlan_holds hag hnd rows x q).mp hq with ⟨hdq, hxq⟩ | ⟨-, j, hjq, hjx⟩
  · exact once x p q hxp hxq
  · exact (clash hdp hxp hjx).elim
  · exact (clash hdq hxq hix).elim
  · obtain rfl : i = j := (List.getElem?_inj (List.getElem?_eq_some_iff.mp hix).1 Record.givenUp_nodup).mp (hix.trans hjx.symm)
    exact Option.some.inj (hip.symm.trans hjq)

/-! ## REPLAN -/

/-- R122: what a REPLAN that passes every test has passed. -/
theorem State.testReplan_ok {s : State} {e : Entry} {b : List Byte} {a : Slot} {r : Record}
    (h : s.testReplan e b = .ok (a, r)) :
    s.lookup (stripeOf e) = some (a, r) ∧ r.live = true ∧ (byteAt b 0).toNat = r.k ∧ (byteAt b 1).toNat = r.t
    ∧ planOk r.survs (readPositions b 8 r.k) = true := by
  unfold State.testReplan at h
  split at h
  · cases h
  rename_i a' r' hlook
  split at h
  · cases h
  split at h
  · cases h
  split at h
  · cases h
  · rename_i h1 h2 h3
    obtain ⟨rfl, rfl⟩ := Prod.mk.inj (Except.ok.inj h)
    rw [not_or, not_not, not_not] at h2
    exact ⟨hlook, by simpa using h1, h2.1, h2.2, by simpa using h3⟩

/-- R123, R124: the record that a REPLAN leaves. -/
def State.replanned (s : State) (r : Record) (plan : List Nat) (rows : List (List Byte)) : Record :=
  { r.withPlan plan rows with
    state := r.replanState
    stall := if r.state = .planWait then
        (Record.restartStall { r.withPlan plan rows with state := r.replanState } s.settings.stallCode s.now).stall
      else r.stall }

theorem State.recAt_replanSlot (s : State) (a : Slot) (r : Record) (plan : List Nat) (rows : List (List Byte)) (b : Slot) :
    (s.replanSlot a r plan rows).recAt b = (s.setRec a (some (s.replanned r plan rows))).recAt b := by
  have key : ∀ (u : State) (o : Option Record), u.table = s.table → (u.setRec a o).recAt b = (s.setRec a o).recAt b := by
    intro u o hu
    simp only [State.recAt, State.setRec, hu]
  unfold State.replanSlot
  dsimp only
  by_cases hp : r.state = .planWait
  · rw [if_pos hp]
    have hrec : s.replanned r plan rows
        = Record.restartStall { r.withPlan plan rows with state := r.replanState } s.settings.stallCode s.now := by
      rw [State.replanned, if_pos hp]; rfl
    rw [hrec]
    split
    · rw [State.recAt_enlist]; exact key _ _ (by simp)
    · exact key _ _ (by simp)
  · rw [if_neg hp]
    have hrec : s.replanned r plan rows = { r.withPlan plan rows with state := r.replanState } := by
      rw [State.replanned, if_neg hp]; rfl
    rw [hrec]
    exact key _ _ (by simp)

theorem State.ctxAt_replanSlot (s : State) (a : Slot) (r : Record) (plan : List Nat) (rows : List (List Byte)) (tag : Tag) :
    (s.replanSlot a r plan rows).ctxAt tag = (s.ctxAt tag).filter fun c => !(c.slot == a && (r.dropped plan).contains c.pos) := by
  have key : (s.replanSlot a r plan rows).fetch.ctxs = (s.freeCtxs fun c => c.slot == a && (r.dropped plan).contains c.pos).fetch.ctxs := by
    unfold State.replanSlot
    dsimp only
    split
    · split <;> simp [State.clearVerify]
    · simp [State.clearVerify]
  rw [← State.ctxAt_freeCtxs]
  simp only [State.ctxAt, key]

theorem State.replanSlot_rest (s : State) (a : Slot) (r : Record) (plan : List Nat) (rows : List (List Byte)) :
    (s.replanSlot a r plan rows).table.index = s.table.index ∧ (s.replanSlot a r plan rows).comb = s.comb
    ∧ (s.replanSlot a r plan rows).act.free = s.act.free := by
  unfold State.replanSlot
  dsimp only
  split
  · split <;> simp [State.setRec]
  · simp [State.setRec]

theorem State.mem_ready_replanSlot (s : State) (a : Slot) (r : Record) (plan : List Nat) (rows : List (List Byte)) (b : Slot) :
    b ∈ (s.replanSlot a r plan rows).act.ready
      ↔ b ∈ s.act.ready ∨ (b = a ∧ r.state = .planWait ∧ r.active = false ∧ r.hold = .none) := by
  unfold State.replanSlot
  dsimp only
  split
  · rename_i hp
    split
    · rename_i h; simp [hp, h, or_comm]
    · rename_i h; simp [h]
  · rename_i hp; simp [hp]

theorem Record.replanState_ne {r : Record} (h : r.live = true) : r.replanState ≠ .combining := by
  unfold Record.replanState
  split
  · split <;> simp
  · exact Record.live_ne h

theorem Keeps.replanSlot {s : State} {a : Slot} {r : Record} {plan : List Nat} {rows : List (List Byte)} (hr : s.recAt a = some r)
    (hlive : r.live = true) (hplan : planOk r.survs plan = true) (hl : plan.length = r.k)
    (hrows : rows.length = r.t ∧ ∀ row ∈ rows, row.length = r.k) : Keeps s (s.replanSlot a r plan rows) := by
  have hc : SlotChange s (s.replanSlot a r plan rows) a (some r) (some (s.replanned r plan rows)) :=
    (State.slotChange_setRec hr _).congr (s.recAt_replanSlot a r plan rows)
  obtain ⟨hindex, hcomb, hfree⟩ := s.replanSlot_rest a r plan rows
  have hnd := ((planOk_iff _ _).mp hplan).1
  have hlt : ∀ p ∈ plan, p < r.s := planOk_lt hplan
  have hstate : (s.replanned r plan rows).state = r.replanState := rfl
  refine ⟨hc.index_same hindex rfl, fun hx => ?_, fun _ ha => ?_, fun _ ha hx => ?_, fun _ hb => ?_, fun _ _ hx => ?_⟩
  · refine hc.lists_same_comb hcomb (fun b hb => by simp [State.mem_ready_replanSlot, hb]) ?_ ?_ ?_ hx
    · rw [State.mem_ready_replanSlot, hx.mem_ready hr]
      simp only [Option.some.injEq, exists_eq_left', Record.waits, hstate, Record.replanState, true_and]
      have hh : (s.replanned r plan rows).hold = r.hold := rfl
      rw [hh]
      by_cases hp : r.state = .planWait
      · cases hact : r.active <;> simp [hp]
      · simp [hp]
    · simp [hstate, Record.replanState_ne hlive, Record.live_ne hlive]
    · intro r' hr'
      obtain rfl := Option.some.inj hr'
      exact (hx.holdAgrees hr).of_state rfl (Record.live_ne hlive) (Record.replanState_ne hlive)
  · refine hc.active_of ?_ ha
    intro r' hr'
    obtain rfl := Option.some.inj hr'
    have hact : (s.replanned r plan rows).active = r.active := rfl
    obtain ⟨h1, h2⟩ := ha a r hr
    rw [Record.activeAgrees, hact, Record.terminal_iff, hstate, Record.replanState]
    by_cases hp : r.state = .planWait
    · cases hb : r.active <;> simp [hp]
    · rw [if_neg hp, ← Record.terminal_iff]
      exact ⟨h1, h2⟩
  · have hpull : ∀ q, (s.replanned r plan rows).pullingAt q ↔ r.pullingAt q ∧ q ∉ r.dropped plan :=
      Record.withPlan_pullingAt plan rows
    refine hc.contexts_ended (· ∈ r.dropped plan) (s.ctxAt_replanSlot a r plan rows) (by simp)
      (fun q => by simpa using hpull q) ?_ hx
    intro r' hr' q hq
    obtain rfl := Option.some.inj hr'
    obtain ⟨hq, hd⟩ := (hpull q).mp hq
    obtain ⟨h1, h2, h3⟩ := hx.pullsAgree hr q hq
    refine ⟨not_not.mp fun h => hd (Record.mem_dropped.mpr ⟨h1, h⟩), h2, ?_⟩
    rw [hstate, Record.replanState]
    rcases h3 with h3 | h3 <;> simp [h3, h2]
  · refine hc.bounds_of ?_ hb
    intro r' hr'
    obtain rfl := Option.some.inj hr'
    have h := hb a r hr
    have hfrag : (s.replanned r plan rows).survs.map (·.frag) = r.survs.map (·.frag) :=
      map_mapIdx_of_eq _ fun p v => Record.movedSurvivor_frag p v
    obtain ⟨h1, h2, h3, h4, h5, h6, h7, h8, h9, h10, h11, h12, -⟩ := h.1
    have hs : (s.replanned r plan rows).s = r.s := List.length_mapIdx
    refine h.of_shape ⟨h1, h2, h3, h4, h5, h6, h7, hs ▸ h8, hs ▸ h9, h10, fun v hv => ?_, hfrag ▸ h12, hl, hnd, hs ▸ hlt, hrows⟩
      rfl rfl rfl rfl fun _ => Record.terminal_of_live hlive
    have hm : v.frag ∈ (s.replanned r plan rows).survs.map (·.frag) := List.mem_map_of_mem hv
    rw [hfrag] at hm
    obtain ⟨w, hw, e⟩ := List.mem_map.mp hm
    rw [← e]; exact h11 w hw
  · have hag := hx.slabsAgree hr
    have honce : ∀ x p q, r.holds x p → r.holds x q → p = q := fun x p q => hx.once hr
    have htot := hag.withPlan_total rows hnd hl hlt
    have hiff : ∀ x p, (s.replanned r plan rows).holds x p ↔ (r.withPlan plan rows).holds x p := fun _ _ => .rfl
    refine hc.slabs_of ?_ (fun x => ?_) ?_ ?_ (hfree ▸ hx.ascend) hx
    · intro r' hr'
      obtain rfl := Option.some.inj hr'
      exact slabsAgree_of_slab (r := r.withPlan plan rows) rfl rfl rfl rfl (hag.withPlan rows honce hnd hl hlt)
    · simp only [hfree, Option.some.injEq, exists_eq_left', exists_comm (α := Record), hiff]
      rw [htot]
    · intro x r' p hf hr' hp
      obtain rfl := Option.some.inj hr'
      obtain ⟨q, hq⟩ := (htot x).mp ⟨p, hp⟩
      exact hx.not_free hr hq (hfree ▸ hf)
    · intro x r' p q hr' hp hq
      obtain rfl := Option.some.inj hr'
      exact hag.withPlan_once rows honce hnd hp hq

end Sys2Proof.Machine
end

