-- ==== Sys2Proof/Proofs/StepKeeps.lean ====
section
/-! Every command keeps the invariants of the repair table, and so does every step. -/

namespace Sys2Proof.Machine

/-! ## Passes -/

theorem Record.passed_survs (r : Record) (checks : List Word) (d : Option FaultDetail) :
    (r.passed checks d).survs = r.survs.map fun v => { v with staging := none } := rfl

theorem Record.passed_staging (r : Record) (checks : List Word) (d : Option FaultDetail) :
    ∀ v ∈ (r.passed checks d).survs, v.staging = none := by
  intro v hv
  obtain ⟨w, -, rfl⟩ := List.mem_map.mp hv
  rfl

theorem Record.passed_terminal (r : Record) (checks : List Word) (d : Option FaultDetail) :
    (r.passed checks d).terminal = true := by
  rw [Record.terminal_iff]
  cases d
  · exact .inl rfl
  · exact .inr (.inl rfl)

theorem Record.passed_pullingAt (r : Record) (checks : List Word) (d : Option FaultDetail) (q : Nat) :
    (r.passed checks d).pullingAt q ↔ r.pullingAt q := by
  unfold Record.pullingAt
  rw [Record.passed_survs, List.getElem?_map]
  simp

theorem Record.passed_targets (r : Record) (checks : List Word) (d : Option FaultDetail) :
    (r.passed checks d).targets.map (fun g => (g.frag, g.landing)) = r.targets.map fun g => (g.frag, g.landing) :=
  map_mapIdx_of_eq _ fun j g => by split <;> rfl

theorem Hold.afterPass_not_requested (h : Hold) (id : ReqId) : h.afterPass ≠ .requested id := by
  cases h <;> simp [Hold.afterPass]

theorem State.grantNotice_fields (s : State) (a : Slot) (h : Hold) : (s.grantNotice a h).table = s.table
    ∧ (s.grantNotice a h).act = s.act ∧ (s.grantNotice a h).comb = s.comb ∧ (s.grantNotice a h).fetch = s.fetch := by
  cases h <;> simp [State.grantNotice]

theorem State.endPass_table (s : State) (a : Slot) (r : Record) (checks : List Word) (d : Option FaultDetail) :
    (s.endPass a r checks d).table = (s.setRec a (some (r.passed checks d))).table := by
  simp only [State.endPass, (State.grantNotice_fields _ _ _).1, State.notify_table, State.releaseSlabs_table]

theorem State.endPass_act (s : State) (a : Slot) (r : Record) (checks : List Word) (d : Option FaultDetail) :
    (s.endPass a r checks d).act = { s.act with free := r.slabs.foldr insertSlab s.act.free } := by
  simp only [State.endPass, (State.grantNotice_fields _ _ _).2.1, State.notify_act]
  simp [State.releaseSlabs]

theorem State.endPass_comb (s : State) (a : Slot) (r : Record) (checks : List Word) (d : Option FaultDetail) :
    (s.endPass a r checks d).comb = { s.comb with pass := none } := by
  simp only [State.endPass, (State.grantNotice_fields _ _ _).2.2.1, State.notify_comb]
  simp

theorem State.ctxAt_endPass (s : State) (a : Slot) (r : Record) (checks : List Word) (d : Option FaultDetail) (tag : Tag) :
    (s.endPass a r checks d).ctxAt tag = s.ctxAt tag := by
  have h : (s.endPass a r checks d).fetch.ctxs = s.fetch.ctxs := by
    simp only [State.endPass, (State.grantNotice_fields _ _ _).2.2.2, State.notify_fetch, State.releaseSlabs, State.clearVerify]
    simp
  simp only [State.ctxAt, h]

theorem Keeps.endPass {s : State} {p : Pass} {r : Record} (hp : s.comb.pass = some p) (hr : s.recAt p.slot = some r)
    (checks : List Word) (d : Option FaultDetail) : Keeps s (s.endPass p.slot r checks d) := by
  have hc : SlotChange s (s.endPass p.slot r checks d) p.slot (some r) (some (r.passed checks d)) :=
    (State.slotChange_setRec hr _).congr fun b => State.recAt_congr (s.endPass_table _ _ _ _) b
  have ht := r.passed_terminal checks d
  have hterm := (Record.terminal_iff _).mp ht
  have hcombining : s.listsExact → r.state = .combining := fun hl => (hl.combines_iff hr).mp (.inr ⟨p, hp, rfl⟩)
  refine ⟨hc.index_same (by rw [s.endPass_table]; rfl) rfl, fun hl => ?_, fun _ ha => ?_, fun hl _ hx => ?_, fun _ hb => ?_,
    fun _ _ hs => ?_⟩
  · obtain ⟨-, -, h3, h4, -⟩ := s.listsExact_iff.mp hl
    have hne : (r.passed checks d).state ≠ .combining := by rcases hterm with e | e | e <;> simp [e]
    have hnq : (r.passed checks d).state ≠ .queued := by rcases hterm with e | e | e <;> simp [e]
    refine hc.lists_of (fun b _ => by rw [s.endPass_act]) ?_ (fun b hb => ?_) ?_ ?_ ?_ ?_ hl
    · rw [s.endPass_act, hl.mem_ready hr]
      simp [Record.waits, hcombining hl, hnq]
    · simp only [combines_iff, s.endPass_comb, hp]
      simp [Ne.symm hb]
    · simp only [combines_iff, s.endPass_comb]
      simpa [hne] using h4 p hp
    · rw [s.endPass_comb]; exact h3
    · rw [s.endPass_comb]; exact fun q hq => by cases hq
    · intro r' hr'
      obtain rfl := Option.some.inj hr'
      exact ⟨fun id hid => absurd hid (Hold.afterPass_not_requested _ id), fun _ => hne⟩
  · refine hc.active_of ?_ ha
    intro r' hr'
    obtain rfl := Option.some.inj hr'
    refine ⟨fun h => ?_, fun _ => rfl⟩
    rcases hterm with e | e | e <;> simp [e] at h
  · have hno : ∀ q, ¬ r.pullingAt q := fun q hq => by
      have h := (hx.pullsAgree hr q hq).2.2
      simp [hcombining hl] at h
    exact hc.contexts_view (s.ctxAt_endPass _ _ _ _) (r.passed_pullingAt checks d)
      (fun _ q hq => absurd ((r.passed_pullingAt checks d q).mp hq) (hno q)) hx
  · refine hc.bounds_of ?_ hb
    intro r' hr'
    obtain rfl := Option.some.inj hr'
    have h := hb _ r hr
    exact h.of_terminal (h.1.congr rfl rfl (r.passed_targets checks d) (map_map_of_eq _ fun _ => rfl) rfl rfl) rfl rfl ht
  · refine hc.slabs_released (fun x => ?_) ?_ (fun h => ?_) (fun h => ?_) hs
    · rw [s.endPass_act, mem_foldr_insertSlab]
    · intro r' hr'
      obtain rfl := Option.some.inj hr'
      exact r.passed_staging checks d
    · intro r' hr'
      obtain rfl := Option.some.inj hr'
      have hs' : (r.passed checks d).s = r.s := List.length_map _
      exact slabsAgree_of_none rfl (r.passed_staging checks d) ⟨h.2.1, h.2.2.1, hs' ▸ h.2.2.2⟩
    · rw [s.endPass_act]; exact foldr_insertSlab_pairwise _ h

theorem State.passTarget_some {s : State} {p : Pass} {r : Record} {g : Target} :
    s.passTarget = some (p, r, g) ↔ s.comb.pass = some p ∧ s.recAt p.slot = some r ∧ r.targets[p.target]? = some g := by
  simp only [State.passTarget, Option.bind_eq_some_iff, Option.map_eq_some_iff, Prod.mk.injEq]
  constructor
  · rintro ⟨_, hp, _, hr, _, hg, rfl, rfl, rfl⟩; exact ⟨hp, hr, hg⟩
  · rintro ⟨hp, hr, hg⟩; exact ⟨p, hp, r, hr, g, hg, rfl, rfl, rfl⟩

/-- What the passes' landing outputs leave as it is. -/
theorem Keeps.endPass_emit {s : State} {p : Pass} {r : Record} {g : Target} (h : s.passTarget = some (p, r, g))
    (o : List Output) (checks : List Word) (d : Option FaultDetail) :
    Keeps s ((s.emit o).endPass p.slot r checks d) := by
  obtain ⟨hp, hr, -⟩ := State.passTarget_some.mp h
  exact (Keeps.emit s o).trans (.endPass (s := s.emit o) (r := r) hp (by simpa using hr) checks d)

/-! ## The ends of contexts -/

theorem State.recAt_modRec_of_some {s : State} {a : Slot} {r : Record} (hr : s.recAt a = some r) (f : Record → Record) (b : Slot) :
    (s.modRec a f).recAt b = (s.setRec a (some (f r))).recAt b := by
  rw [State.modRec, hr]

theorem State.modRec_index (s : State) (a : Slot) (f : Record → Record) : (s.modRec a f).table.index = s.table.index := by
  unfold State.modRec; split <;> rfl

theorem State.setRec_congr {s u : State} (a : Slot) (o : Option Record) (h : u.table = s.table) (b : Slot) :
    (u.setRec a o).recAt b = (s.setRec a o).recAt b := by
  simp only [State.recAt, State.setRec, h]

/-- R104, R111: a context freed and its survivor changed by `f`, with the changes of `pass` to what no invariant looks at. -/
theorem Keeps.endAt {s u : State} {tag : Tag} {c : Ctx} {r : Record} {v : Survivor} {f : Survivor → Survivor}
    (hc : s.ctxAt tag = some c) (hv : s.ctxSurvivor c = some (r, v)) (hstate : (f v).state ≠ .pulling)
    (hslab : (f v).slab = v.slab) (hfrag : (f v).frag = v.frag) (table : u.table = s.table) (act : u.act = s.act)
    (comb : u.comb = s.comb) (ctxs : ∀ w, u.ctxAt w = (s.freeCtx tag).ctxAt w) : Keeps s (u.modSurv c.slot c.pos f) := by
  obtain ⟨hr, hv⟩ := State.ctxSurvivor_some.mp hv
  refine .of_ctxEnded hc hr hv hstate hslab hfrag (fun b => ?_) (fun w => by rw [State.ctxAt_modSurv, ctxs]) ?_ (by simpa using act)
    (by rw [State.modSurv, State.modRec]; split <;> simpa using comb)
  · rw [State.modSurv, State.recAt_modRec_of_some (r := r) (by rw [State.recAt_congr table, hr]), Record.modSurv_eq hv]
    exact State.setRec_congr _ _ table b
  · rw [State.modSurv, State.modRec_index, table]

theorem State.passMark_fields (s : State) (v : Survivor) (c : Ctx) : (s.passMark v c).table = s.table
    ∧ (s.passMark v c).act = s.act ∧ (s.passMark v c).comb = s.comb ∧ ∀ w, (s.passMark v c).ctxAt w = s.ctxAt w := by
  unfold State.passMark
  split
  · exact ⟨rfl, rfl, rfl, fun _ => rfl⟩
  · exact ⟨rfl, rfl, rfl, fun _ => rfl⟩

theorem State.ctxAt_clearVerify (s : State) (l : List Slab) (tag : Tag) : (s.clearVerify l).ctxAt tag = s.ctxAt tag := by
  simp [State.ctxAt, State.clearVerify]

section Ends

variable {s u : State} {tag : Tag} {c : Ctx} {r : Record} {v : Survivor} (hc : s.ctxAt tag = some c)
  (hv : s.ctxSurvivor c = some (r, v)) (hu : u.table = s.table ∧ u.act = s.act ∧ u.comb = s.comb ∧
    ∀ w, u.ctxAt w = (s.freeCtx tag).ctxAt w)

include hc hv hu

theorem Keeps.backToAvailable {f : Survivor → Survivor} (hf : ∀ v, (f v).state = v.state ∧ (f v).slab = v.slab ∧ (f v).frag = v.frag) :
    Keeps s (u.backToAvailable c v f) := by
  obtain ⟨h1, h2, h3, h4⟩ := u.passMark_fields v c
  obtain ⟨e1, e2, e3⟩ := hf { v with state := .available }
  exact .endAt hc hv (by simp [e1]) (by rw [e2]; rfl) (by rw [e3]) (h1.trans hu.1) (h2.trans hu.2.1) (h3.trans hu.2.2.1)
    fun w => (h4 w).trans (hu.2.2.2 w)

theorem Keeps.loseSurvivor {st : SurvState} (hst : st ≠ .pulling) {f : Survivor → Survivor}
    (hf : ∀ v, (f v).state = v.state ∧ (f v).slab = v.slab ∧ (f v).frag = v.frag) : Keeps s (u.loseSurvivor c v st f) := by
  obtain ⟨e1, e2, e3⟩ := hf { v.uncover with state := st }
  refine .endAt hc hv (by simp [e1, hst]) (by rw [e2]; exact v.uncover_slab) (by rw [e3]; rfl) (by simpa using hu.1)
    (by simpa using hu.2.1) (by simpa using hu.2.2.1) fun w => ?_
  rw [State.ctxAt_clearVerify]
  exact hu.2.2.2 w

theorem Keeps.countRetry : Keeps s (u.countRetry c r v) := by
  unfold State.countRetry
  dsimp only
  split
  · exact .backToAvailable (u := { u with counters := { u.counters with retries := satAdd u.counters.retries 1 } })
      (f := fun v => { v with retries := v.retries + 1 }) hc hv hu fun _ => ⟨rfl, rfl, rfl⟩
  · exact Keeps.trans (.loseSurvivor hc hv (by exact hu) (by simp) fun _ => by exact ⟨rfl, rfl, rfl⟩) (.reckon _ _ _)

end Ends

theorem State.freeCtx_fields (s : State) (tag : Tag) : (s.freeCtx tag).table = s.table ∧ (s.freeCtx tag).act = s.act
    ∧ (s.freeCtx tag).comb = s.comb ∧ ∀ w, (s.freeCtx tag).ctxAt w = (s.freeCtx tag).ctxAt w :=
  ⟨by simp, by simp, by simp, fun _ => rfl⟩

theorem State.matching_some {s : State} {m : List Byte} {c : Ctx} :
    s.matching m = some c ↔ s.ctxAt (messageTag m) = some c ∧ c.serial = messageSerial m := by
  simp [State.matching, Option.filter_eq_some_iff]

theorem Keeps.endArrives (s : State) (m : List Byte) (st : EndStatus) : Keeps s (s.endArrives m st) := by
  unfold State.endArrives
  split
  · exact .refl s
  rename_i c hm
  have hc := (State.matching_some.mp hm).1
  split
  · exact .freeCtx_orphan hc ‹_›
  rename_i r v hv
  have hu := s.freeCtx_fields (messageTag m)
  cases st with
  | ok => exact .countRetry hc hv hu
  | busy =>
    unfold State.endOutcome
    exact .backToAvailable hc hv hu fun _ => by exact ⟨rfl, rfl, rfl⟩
  | notHeld => exact Keeps.trans (.loseSurvivor hc hv hu (by simp) fun _ => by exact ⟨rfl, rfl, rfl⟩) (.reckon _ _ _)
  | corrupt => exact Keeps.trans (.loseSurvivor hc hv hu (by simp) fun _ => by exact ⟨rfl, rfl, rfl⟩) (.reckon _ _ _)

theorem Keeps.expiry {s : State} {tag : Tag} {c : Ctx} {r : Record} {v : Survivor} (hc : s.ctxAt tag = some c)
    (hv : s.ctxSurvivor c = some (r, v)) : Keeps s ((s.freeCtx tag).expiryOutcome c r v) := by
  have hu := s.freeCtx_fields tag
  unfold State.expiryOutcome
  split
  · exact .loseSurvivor hc hv hu (by simp) fun _ => by exact ⟨rfl, rfl, rfl⟩
  split
  · exact .backToAvailable hc hv hu fun _ => by exact ⟨rfl, rfl, rfl⟩
  · exact .countRetry hc hv hu

/-! ## SPAN -/

theorem Survivor.cover_view (v : Survivor) (off len : Nat) : (v.cover off len).view = v.view := by
  cases h : v.staging <;> simp [Survivor.cover, Survivor.view, Survivor.slab, h]

theorem Keeps.writeSpan (s : State) (v : Survivor) (off : Nat) (payload : List Byte) : Keeps s (s.writeSpan v off payload) := by
  unfold State.writeSpan
  split
  · exact .refl s
  · exact .of_fields rfl rfl rfl rfl rfl

theorem State.writeSpan_fields (s : State) (v : Survivor) (off : Nat) (payload : List Byte) :
    (s.writeSpan v off payload).table = s.table ∧ (s.writeSpan v off payload).fetch = s.fetch := by
  unfold State.writeSpan
  split <;> exact ⟨rfl, rfl⟩

/-- R109: a context's survivor is staged. -/
theorem Keeps.stage {s : State} {tag : Tag} {c : Ctx} {r : Record} {v : Survivor} (hc : s.ctxAt tag = some c)
    (hv : s.ctxSurvivor c = some (r, v)) (d : Ctx) (hd : d.place = c.place) (v' : Survivor) : Keeps s (s.stage tag d v') := by
  have hslot : d.slot = c.slot := congrArg Prod.fst hd
  have hpos : d.pos = c.pos := congrArg Prod.snd hd
  have hu := s.freeCtx_fields tag
  unfold State.stage
  rw [hslot, hpos]
  refine Keeps.trans ?_ (.stagedIn _ _)
  refine Keeps.trans ?_ (.clearVerify _ _)
  exact .endAt hc hv (by simp) rfl rfl hu.1 hu.2.1 hu.2.2.1 hu.2.2.2

theorem Keeps.acceptSpan {s : State} {tag : Tag} {c : Ctx} {r : Record} {v : Survivor} (hc : s.ctxAt tag = some c)
    (hv : s.ctxSurvivor c = some (r, v)) (off : Nat) (payload : List Byte) : Keeps s (s.acceptSpan tag c v off payload) := by
  obtain ⟨htable, hfetch⟩ := s.writeSpan_fields v off payload
  unfold State.acceptSpan
  dsimp only
  generalize hs1 : (s.writeSpan v off payload).modSurv c.slot c.pos (fun v => v.cover off payload.length) = s1
  have h1 : Keeps s s1 := by
    rw [← hs1]
    exact (Keeps.writeSpan s v off payload).trans (.modSurv _ _ _ (fun v => v.cover_view _ _) fun _ => rfl)
  have hc1 : s1.ctxAt tag = some c := by
    rw [← hs1, State.ctxAt_modSurv, State.ctxAt_congr hfetch, hc]
  obtain ⟨hr, hsv⟩ := State.ctxSurvivor_some.mp hv
  have hv1 : s1.ctxSurvivor c = some ({ r with survs := r.survs.set c.pos (v.cover off payload.length) }, v.cover off payload.length) := by
    refine State.ctxSurvivor_some.mpr ⟨?_, ?_⟩
    · rw [← hs1, State.modSurv, State.recAt_modRec_of_some (r := r) (by rw [State.recAt_congr htable, hr]), Record.modSurv_eq hsv]
      simp
    · rw [getElem?_set_of_some hsv, if_pos rfl]
  generalize hs3 : ({ s1.setCtx tag (some { c with deadline := s.now + s.settings.idleTimeout * 1000 }) with
    counters := { (s1.setCtx tag (some { c with deadline := s.now + s.settings.idleTimeout * 1000 })).counters with
      accepted := satAdd (s1.setCtx tag (some { c with deadline := s.now + s.settings.idleTimeout * 1000 })).counters.accepted 1 } } : State) = s3
  have h3 : Keeps s1 s3 := by
    rw [← hs3]
    exact (Keeps.setCtx_same (c' := { c with deadline := s.now + s.settings.idleTimeout * 1000 }) hc1 rfl).trans (.of_fields rfl rfl rfl rfl rfl)
  have hc3 : s3.ctxAt tag = some { c with deadline := s.now + s.settings.idleTimeout * 1000 } := by
    rw [← hs3]
    exact State.ctxAt_setCtx_same _ _ _
  have hv3 : s3.ctxSurvivor { c with deadline := s.now + s.settings.idleTimeout * 1000 } = s1.ctxSurvivor c := by
    have : ∀ b, s3.recAt b = s1.recAt b := fun b => by rw [← hs3]; rfl
    simp only [State.ctxSurvivor, this]
  split
  · exact (h1.trans h3).trans (.stage hc3 (hv3.trans hv1) c rfl _)
  · exact h1.trans h3

theorem Keeps.spanArrives (s : State) (m : List Byte) : Keeps s (s.spanArrives m) := by
  unfold State.spanArrives
  split
  · exact .of_fields rfl rfl rfl rfl rfl
  rename_i c hm
  have hc := (State.matching_some.mp hm).1
  split
  · exact .of_fields rfl rfl rfl rfl rfl
  rename_i r v hv
  split
  · exact .of_fields rfl rfl rfl rfl rfl
  split
  · exact .of_fields rfl rfl rfl rfl rfl
  split
  · exact (Keeps.setCtx_same (c' := { c with badCheck := true }) hc rfl).trans (.of_fields rfl rfl rfl rfl rfl)
  · exact .acceptSpan hc hv _ _

/-! ## The sweep -/

theorem Sweep.touch_slab (w : Sweep) (v : Survivor) : (w.touch v).slab = v.slab := by
  unfold Sweep.touch
  split
  · exact v.uncover_slab
  · rfl

theorem Sweep.touch_frag (w : Sweep) (v : Survivor) : (w.touch v).frag = v.frag := by
  unfold Sweep.touch; split <;> rfl

/-- R64: after a visit the survivors that pull are those that did and were not hit. -/
theorem touch_pullingAt (w : Sweep) (r : Record) (q : Nat) :
    Record.pullingAt { r with survs := r.survs.map w.touch } q ↔ r.pullingAt q ∧ ¬ w.hitsAt r q = true := by
  unfold Record.pullingAt Sweep.hitsAt
  rw [List.getElem?_map]
  cases r.survs[q]? with
  | none => simp
  | some v => cases hh : w.hits v <;> simp [Sweep.touch, hh]

theorem Keeps.visitRecord {s : State} {w : Sweep} {a : Slot} {r : Record} (hr : s.recAt a = some r) :
    Keeps s (s.visitRecord w a r) := by
  refine Keeps.trans (Keeps.trans ?_ (.clearVerify _ _)) (.reckon _ _ _)
  have hc : SlotChange s ((s.freeCtxs fun c => c.slot == a && w.hitsAt r c.pos).setRec a (some { r with survs := r.survs.map w.touch }))
      a (some r) (some { r with survs := r.survs.map w.touch }) :=
    (State.slotChange_setRec hr _).congr fun b => State.setRec_congr _ _ rfl b
  refine ⟨hc.index_same rfl rfl, fun hl => ?_, fun _ ha => ?_, fun _ _ hx => ?_, fun _ hb => ?_, fun _ _ hs => ?_⟩
  · refine hc.lists_same_comb rfl (fun _ _ => .rfl) ?_ (by simp) ?_ hl
    · rw [State.setRec_act, State.freeCtxs_act, hl.mem_ready hr]; simp [Record.waits]
    · rintro _ ⟨⟩
      have := hl.holdAgrees hr
      exact this
  · refine hc.active_of ?_ ha
    rintro _ ⟨⟩
    exact ha a r hr
  · refine hc.contexts_ended (p := fun c => c.slot == a && w.hitsAt r c.pos) (fun q => w.hitsAt r q = true)
      (fun tag => by rw [State.ctxAt_setRec, State.ctxAt_freeCtxs]) (by simp) (fun q => by simpa using touch_pullingAt w r q) ?_ hx
    rintro _ ⟨⟩ q hq
    exact hx.pullsAgree hr q ((touch_pullingAt w r q).mp hq).1
  · refine hc.bounds_of ?_ hb
    rintro _ ⟨⟩
    have h := hb a r hr
    exact h.of_shape (h.1.congr rfl rfl rfl (map_map_of_eq _ w.touch_frag) rfl rfl) rfl rfl rfl rfl id
  · exact hc.slabs_same rfl (map_map_of_eq _ w.touch_slab) rfl rfl rfl hs

theorem Keeps.visit (s : State) (w : Sweep) (a : Slot) : Keeps s (s.visit w a) := by
  unfold State.visit
  split
  · exact .refl s
  rename_i r hr
  split
  · exact .visitRecord hr
  · exact .refl s

/-! ## Timers, boost and settings -/

theorem Record.Alike.of_older (r : Record) (code now : Nat) : r.Alike (r.older code now) :=
  .of_rescore fun hb => ⟨hb.2.1, Nat.min_le_left _ _, fun ht => ⟨(hb.2.2.2 ht).1, (hb.2.2.2 ht).2.1⟩⟩

theorem Record.Alike.of_boost (r : Record) {boost : Nat} (hb : boost ≤ 3) : r.Alike (r.withBoost boost) := by
  unfold Record.withBoost
  split
  · rename_i ht
    exact ⟨rfl, rfl, rfl, rfl, rfl, rfl, rfl, fun h => ⟨h.1, hb, h.2.2.1, fun hf => absurd (ht.symm.trans hf) (by simp)⟩⟩
  · exact .of_rescore fun h => ⟨hb, h.2.2.1, fun ht => ⟨(h.2.2.2 ht).1, (h.2.2.2 ht).2.1⟩⟩

theorem State.recAt_restartTimers (s : State) (code : Nat) (a : Slot) :
    (s.restartTimers code).recAt a = (s.recAt a).map fun r => r.restartStall code s.now := by
  simp only [State.recAt, State.restartTimers]
  exact getElem_mapVec _ _ _ _

theorem Keeps.restartTimers (s : State) (code : Nat) : Keeps s (s.restartTimers code) := by
  refine .of_alike (fun a => ?_) ⟨rfl, fun _ => .rfl, rfl, rfl, rfl, fun _ => rfl⟩
  rw [State.recAt_restartTimers]
  cases h : s.recAt a with
  | none => exact .inl rfl
  | some r => exact .inr ⟨r, _, rfl, rfl, .of_stall r _⟩

theorem Keeps.storeSettings (s : State) (g : Settings) : Keeps s (s.storeSettings g) := by
  unfold State.storeSettings
  dsimp only
  have h1 : Keeps s (if g.bucketDepth < s.settings.bucketDepth then
      { s with rackUnit := { s.rackUnit with racks := mapVec (Rack.clampCredit g.cap) s.rackUnit.racks } } else s) := by
    split
    · exact .of_fields rfl rfl rfl rfl rfl
    · exact .refl s
  have h2 : ∀ u : State, Keeps u (if g.stallCode ≠ s.settings.stallCode then u.restartTimers g.stallCode else u) := by
    intro u
    split
    · exact .restartTimers u _
    · exact .refl u
  exact (h1.trans (h2 _)).trans (.of_fields rfl rfl rfl rfl rfl)

/-! ## Resets -/

/-- A state with an empty table and everything at rest meets every invariant of the repair table. -/
theorem invariants_of_fresh {t : State} (table : t.table = .empty) (act : t.act = .fresh) (comb : t.comb = .fresh)
    (ctxs : t.fetch.ctxs = Vector.replicate 256 none) :
    t.indexExact ∧ t.listsExact ∧ t.activeExact ∧ t.contextsExact ∧ t.recordsInBounds ∧ t.slabsExact := by
  have hr : ∀ a, t.recAt a = none := fun a => by simp [State.recAt, table, RepairTable.empty]
  have hctx : ∀ tag, t.ctxAt tag = none := fun tag => by simp [State.ctxAt, ctxs]
  have hfree : ∀ x, x ∈ t.act.free := fun x => by simp only [act, Activation.fresh, List.mem_finRange]
  refine ⟨⟨fun id a => by simp [hr, table, RepairTable.empty], by simp [table, RepairTable.empty]⟩, ?_, fun a r h => ?_, ?_,
    fun a r h => ?_, ?_⟩
  · exact ⟨fun a => by simp [hr, act, Activation.fresh], fun a => by simp [hr, comb, CombineEngine.fresh],
      by simp [comb, CombineEngine.fresh], by simp [comb, CombineEngine.fresh], fun a r h => by simp [hr] at h⟩
  · simp [hr] at h
  · exact ⟨fun tag c h => by simp [hctx] at h, fun a r p v h => by simp [hr] at h, fun tag tag' c c' h => by simp [hctx] at h⟩
  · simp [hr] at h
  · have hheld : ∀ x a p, ¬ t.heldBy x a p := fun x a p ⟨r, _, h, _⟩ => by simp [hr] at h
    refine ⟨fun a r p v h => by simp [hr] at h, fun a r h => by simp [hr] at h, fun x => ?_, fun x a b p q h => absurd h (hheld x a p), ?_⟩
    · exact iff_of_true (hfree x) (hheld x)
    · simp only [act, Activation.fresh, List.pairwise_lt_finRange]

theorem Keeps.of_fresh (s : State) {t : State} (table : t.table = .empty) (act : t.act = .fresh) (comb : t.comb = .fresh)
    (ctxs : t.fetch.ctxs = Vector.replicate 256 none) : Keeps s t := by
  obtain ⟨h1, h2, h3, h4, h5, h6⟩ := invariants_of_fresh table act comb ctxs
  exact ⟨fun _ => h1, fun _ => h2, fun _ _ => h3, fun _ _ _ => h4, fun _ _ => h5, fun _ _ _ => h6⟩

theorem Keeps.powerOn (s : State) : Keeps s s.powerOn := .of_fresh s rfl rfl rfl rfl

theorem Keeps.writeControl (s : State) (value : Word) : Keeps s (s.writeControl value) := by
  unfold State.writeControl
  split
  · exact .of_fresh s rfl rfl rfl rfl
  · exact .of_fields rfl rfl rfl rfl rfl

/-! ## The register window -/

theorem Keeps.placeRequestRing (s : State) (reg : RingReg) (value : Word) : Keeps s (s.placeRequestRing reg value) := by
  unfold State.placeRequestRing
  split
  · exact .of_fields rfl rfl rfl rfl rfl
  · exact .refl s

theorem Keeps.placeCompletionRing (s : State) (reg : RingReg) (value : Word) : Keeps s (s.placeCompletionRing reg value) := by
  unfold State.placeCompletionRing
  split
  · exact .of_fields rfl rfl rfl rfl rfl
  · exact .refl s

theorem Keeps.writeTail (s : State) (value : Word) : Keeps s (s.writeTail value) := .of_fields rfl rfl rfl rfl rfl
theorem Keeps.writeCplHead (s : State) (value : Word) : Keeps s (s.writeCplHead value) := .of_fields rfl rfl rfl rfl rfl

theorem Keeps.writeArm (s : State) (value : Word) : Keeps s (s.writeArm value) := by
  unfold State.writeArm
  split
  · split <;> exact .of_fields rfl rfl rfl rfl rfl
  · exact .of_fields rfl rfl rfl rfl rfl

theorem Keeps.writeRegister (s : State) (offset : BitVec 12) (value : Word) : Keeps s (s.writeRegister offset value) := by
  unfold State.writeRegister
  split
  · exact .writeControl s value
  · exact .placeRequestRing s _ value
  · exact .placeRequestRing s _ value
  · exact .placeRequestRing s _ value
  · exact .writeTail s value
  · exact .placeCompletionRing s _ value
  · exact .placeCompletionRing s _ value
  · exact .placeCompletionRing s _ value
  · exact .writeCplHead s value
  · exact .writeArm s value
  · exact .refl s

/-! ## The taking of a request -/

theorem Keeps.writeEntry (s : State) (c : CplEntry) (cw : Dma) : Keeps s (s.writeEntry c cw) := .of_fields rfl rfl rfl rfl rfl

theorem Keeps.advanceHead (s : State) (i : Intake) : Keeps s (s.advanceHead i) := .of_fields rfl rfl rfl rfl rfl

theorem Keeps.finishTaking (s : State) (e : Entry) (cw : Dma) (r : Reply) : Keeps s (s.finishTaking e cw r) := by
  rw [State.finishTaking_rest]
  exact .of_fields rfl rfl rfl rfl rfl

theorem Keeps.takeChanging {e : Entry} {body : State → State × Reply} (h : ∀ u, Keeps u (body u).1) (op : Byte) (cw : Dma)
    (s : State) : Keeps s (s.takeChanging e op cw body) := by
  unfold State.takeChanging
  dsimp only
  split
  · exact ((Keeps.clearQuiesce s).trans (h _)).trans (.finishTaking _ _ _ _)
  · exact .refl s

theorem Keeps.takeReading {e : Entry} {body : State → State × Reply} (h : ∀ u, Keeps u (body u).1) (op : Byte) (cw : Dma)
    (s : State) : Keeps s (s.takeReading e op cw body) := by
  unfold State.takeReading
  split
  · exact (h s).trans (.finishTaking _ _ _ _)
  · exact .refl s

theorem Keeps.openBody (e : Entry) (block : List Byte) (s : State) : Keeps s (openBody e block s).1 := by
  unfold Machine.openBody
  dsimp only
  split
  · exact .emit _ _
  · exact (Keeps.emit s _).trans (.admitAt ‹_›)

theorem Keeps.cancelBody (e : Entry) (s : State) : Keeps s (cancelBody e s).1 := by
  unfold Machine.cancelBody
  split
  · exact .refl s
  · rename_i h
    exact .cancelRecord (State.lookup_some h).2

theorem Keeps.retireBody (e : Entry) (s : State) : Keeps s (retireBody e s).1 := by
  unfold Machine.retireBody
  split
  · exact .refl s
  rename_i h
  split
  · exact .freeSlot (State.lookup_some h).2 ‹_›
  · exact .refl s

theorem Keeps.queryBody (e : Entry) (s : State) : Keeps s (queryBody e s).1 := by
  unfold Machine.queryBody
  split
  · exact .refl s
  · split <;> exact .refl s

theorem Keeps.reprioritizeBody (e : Entry) (s : State) : Keeps s (reprioritizeBody e s).1 := by
  unfold Machine.reprioritizeBody
  split
  · exact .refl s
  · rename_i h
    exact (Keeps.setRec_alike (State.lookup_some h).2 (.of_boost _ (Nat.min_le_right _ _))).trans (.relist _ _)

theorem Keeps.rackDownBody (e : Entry) (s : State) : Keeps s (rackDownBody e s).1 := by
  unfold Machine.rackDownBody
  dsimp only
  split
  · exact .refl s
  · exact .of_fields rfl rfl rfl rfl rfl

theorem Keeps.rackUpBody (e : Entry) (s : State) : Keeps s (rackUpBody e s).1 := by
  unfold Machine.rackUpBody
  dsimp only
  split
  · exact .refl s
  · exact .setRack _ _ _

theorem Keeps.rackClassBody (e : Entry) (s : State) : Keeps s (rackClassBody e s).1 := .setRack _ _ _

theorem Keeps.releaseBody (e : Entry) (s : State) : Keeps s (releaseBody e s).1 := by
  unfold Machine.releaseBody
  split
  · exact .refl s
  rename_i h
  split
  · exact .refl s
  · exact .releaseRecord (State.lookup_some h).2

theorem Keeps.amendBody (e : Entry) (s : State) : Keeps s (amendBody e s).1 := by
  unfold Machine.amendBody
  split
  · exact .refl s
  rename_i h
  split
  · exact .refl s
  · exact .amendSlot (State.lookup_some h).2 ‹_›

theorem Keeps.replanBody (e : Entry) (block : List Byte) (s : State) : Keeps s (replanBody e block s).1 := by
  unfold Machine.replanBody
  dsimp only
  split
  · exact .emit _ _
  split
  · exact .emit _ _
  · rename_i h
    obtain ⟨hlook, hlive, -, -, hplan⟩ := State.testReplan_ok h
    exact (Keeps.emit s _).trans (.replanSlot (State.lookup_some hlook).2 hlive hplan (length_readPositions _ _ _)
      (length_readRows _ _ _ _))

theorem Keeps.quiesceBody (s : State) : Keeps s (quiesceBody s).1 := .of_fields rfl rfl rfl rfl rfl

theorem Keeps.setParamsBody (e : Entry) (block : List Byte) (s : State) : Keeps s (setParamsBody e block s).1 := by
  unfold Machine.setParamsBody
  dsimp only
  split
  · exact .emit _ _
  · exact (Keeps.emit s _).trans (.storeSettings _ _)

theorem Keeps.identifyBody (e : Entry) (s : State) : Keeps s (identifyBody e s).1 := by
  unfold Machine.identifyBody
  split <;> exact .refl s

theorem Keeps.reportBody (e : Entry) (s : State) : Keeps s (reportBody e s).1 := by
  unfold Machine.reportBody
  split
  · exact .refl s
  · split
    · exact .of_fields rfl rfl rfl rfl rfl
    · exact .refl s

/-! ## The Request Port's own steps -/

theorem Keeps.endSweep (s : State) : Keeps s s.endSweep := .of_fields rfl rfl rfl rfl rfl

theorem Keeps.bufferEnd (s : State) (job : BufferJob) (bw : Dma) : Keeps s (s.bufferEnd job bw) := by
  unfold State.bufferEnd
  dsimp only
  split
  · exact .of_fields rfl rfl rfl rfl rfl
  · split <;> exact .of_fields rfl rfl rfl rfl rfl

theorem Keeps.headNoticeWritten (s : State) (cw : Dma) : Keeps s (s.headNoticeWritten cw) := by
  unfold State.headNoticeWritten
  split
  · exact .refl s
  split
  · dsimp only
    split
    · exact Keeps.trans (u := s.writeNotice _ _ cw) (.of_fields rfl rfl rfl rfl rfl) (.endSweep _)
    · exact .of_fields rfl rfl rfl rfl rfl
  · exact .refl s

/-! ## Every command and every step -/

/-- An event keeps what its own effect on the settled state keeps. -/
theorem Keeps.event {s t : State} {f : State → State} (h : s.event f = .next t) (hf : ∀ u, Keeps u (f u)) : Keeps s t := by
  obtain rfl : f s.settled = t := by simpa using h
  exact (Keeps.settled s).trans (hf _)

theorem Keeps.exec {c : Instr} {s t : State} (h : exec c s = .next t) : Keeps s t := by
  cases c with
  | powerOnReset =>
    unfold Machine.exec execPowerOnReset at h
    exact .event h .powerOn
  | functionLevelReset =>
    unfold Machine.exec execFunctionLevelReset at h
    exact .event h .powerOn
  | controllerReset value =>
    unfold Machine.exec execControllerReset at h
    exact .event h fun u => .writeControl u value
  | writeRun value =>
    unfold Machine.exec execWriteRun at h
    exact .event h fun u => .writeControl u value
  | writeRequestRingPlacement reg value =>
    unfold Machine.exec execWriteRequestRingPlacement at h
    exact .event h fun u => .placeRequestRing u reg value
  | writeCompletionRingPlacement reg value =>
    unfold Machine.exec execWriteCompletionRingPlacement at h
    exact .event h fun u => .placeCompletionRing u reg value
  | requestRingTail value =>
    unfold Machine.exec execRequestRingTail at h
    exact .event h fun u => .writeTail u value
  | completionRingHead value =>
    unfold Machine.exec execCompletionRingHead at h
    exact .event h fun u => .writeCplHead u value
  | attentionArm value =>
    unfold Machine.exec execAttentionArm at h
    exact .event h fun u => .writeArm u value
  | registerWrite offset value =>
    unfold Machine.exec execRegisterWrite at h
    exact .event h fun u => .writeRegister u offset value
  | portLinkChange port up =>
    unfold Machine.exec execPortLinkChange at h
    exact .event h fun u => .setPort u port _
  | intakeReservation =>
    obtain rfl : s.intakeBegun = t := by simpa [Machine.exec, execIntakeReservation] using h
    exact .intakeBegun s
  | entryReadFault cw =>
    unfold Machine.exec execEntryReadFault at h
    refine .event h fun u => ?_
    split
    · exact (Keeps.advanceHead u _).trans (.writeEntry _ _ _)
    · exact .refl u
  | badRequest entry cw =>
    unfold Machine.exec execBadRequest at h
    refine .event h fun u => ?_
    split
    · exact .finishTaking _ _ _ _
    · exact .refl u
  | openRecord entry block cw =>
    unfold Machine.exec execOpen at h
    exact .event h (.takeChanging (.openBody entry block) _ cw)
  | cancel entry cw =>
    unfold Machine.exec execCancel at h
    exact .event h (.takeChanging (.cancelBody entry) _ cw)
  | retire entry cw =>
    unfold Machine.exec execRetire at h
    exact .event h (.takeChanging (.retireBody entry) _ cw)
  | query entry cw =>
    unfold Machine.exec execQuery at h
    exact .event h (.takeReading (.queryBody entry) _ cw)
  | reprioritize entry cw =>
    unfold Machine.exec execReprioritize at h
    exact .event h (.takeChanging (.reprioritizeBody entry) _ cw)
  | rackDown entry cw =>
    unfold Machine.exec execRackDown at h
    exact .event h (.takeChanging (.rackDownBody entry) _ cw)
  | rackUp entry cw =>
    unfold Machine.exec execRackUp at h
    exact .event h (.takeChanging (.rackUpBody entry) _ cw)
  | rackClass entry cw =>
    unfold Machine.exec execRackClass at h
    exact .event h (.takeChanging (.rackClassBody entry) _ cw)
  | hold entry cw =>
    unfold Machine.exec execHold at h
    exact .event h (.takeChanging (.holdBody entry) _ cw)
  | release entry cw =>
    unfold Machine.exec execRelease at h
    exact .event h (.takeChanging (.releaseBody entry) _ cw)
  | amend entry cw =>
    unfold Machine.exec execAmend at h
    exact .event h (.takeChanging (.amendBody entry) _ cw)
  | replan entry block cw =>
    unfold Machine.exec execReplan at h
    exact .event h (.takeChanging (.replanBody entry block) _ cw)
  | quiesce entry cw =>
    unfold Machine.exec execQuiesce at h
    exact .event h (.takeReading .quiesceBody _ cw)
  | setParams entry block cw =>
    unfold Machine.exec execSetParams at h
    exact .event h (.takeChanging (.setParamsBody entry block) _ cw)
  | identify entry cw =>
    unfold Machine.exec execIdentify at h
    exact .event h (.takeReading (.identifyBody entry) _ cw)
  | report entry cw =>
    unfold Machine.exec execReport at h
    exact .event h (.takeReading (.reportBody entry) _ cw)
  | bufferWriteDone bw cw =>
    unfold Machine.exec execBufferWriteDone at h
    refine .event h fun u => ?_
    split
    · exact (Keeps.bufferEnd u _ bw).trans (.writeEntry _ _ _)
    all_goals exact .refl u
  | noticeWrite cw =>
    obtain rfl : s.arbitersServed.headNoticeWritten cw = t := by simpa [Machine.exec, execNoticeWrite] using h
    exact (Keeps.arbitersServed s).trans (.headNoticeWritten _ cw)
  | activation =>
    simp only [Machine.exec, execActivation, Host.Outcome.next.injEq] at h
    subst h
    split
    · exact .refl s
    · exact .activate ‹_›
  | issue =>
    simp only [Machine.exec, execIssue, Host.Outcome.next.injEq] at h
    subst h
    split
    · exact .refl s
    · exact .issueTo ‹_›
  | refill =>
    unfold Machine.exec execRefill at h
    refine .event h fun u => ?_
    split
    · exact .of_fields rfl rfl rfl rfl rfl
    · exact .refl u
  | stallExpiry slot =>
    unfold Machine.exec execStallExpiry at h
    refine .event h fun u => ?_
    split
    · exact .refl u
    rename_i r hr
    split
    · exact (Keeps.setRec_alike hr (.of_older r _ _)).trans (.relist _ _)
    · exact .refl u
  | holdoffExpiry slot pos =>
    unfold Machine.exec execHoldoffExpiry at h
    exact .event h fun u => .modSurv u slot pos (fun v => by split <;> rfl) fun v => by split <;> rfl
  | idleExpiry tag =>
    unfold Machine.exec execIdleExpiry at h
    refine .event h fun u => ?_
    split
    · exact .refl u
    rename_i c hc
    split
    · split
      · exact .freeCtx_orphan hc ‹_›
      · exact .expiry hc ‹_›
    · exact .refl u
  | spanArrival port frame =>
    unfold Machine.exec execSpanArrival at h
    refine .event h fun u => ?_
    split
    · exact .spanArrives u _
    all_goals exact .refl u
  | endArrival port frame =>
    unfold Machine.exec execEndArrival at h
    refine .event h fun u => ?_
    split
    · split
      · exact .refl u
      · exact .endArrives u _ _
    all_goals exact .refl u
  | neighbourSolicitation port frame =>
    unfold Machine.exec execNeighbourSolicitation at h
    refine .event h fun u => ?_
    split
    · exact .emit u _
    all_goals exact .refl u
  | frameDiscard port frame =>
    unfold Machine.exec execFrameDiscard at h
    exact .event h .refl
  | sweepVisit =>
    unfold Machine.exec execSweepVisit at h
    refine .event h fun u => ?_
    split
    · dsimp only
      split
      · exact (Keeps.visit u _ _).trans (.of_fields rfl rfl rfl rfl rfl)
      · exact .refl u
    · exact .refl u
  | sweepEnd =>
    unfold Machine.exec execSweepEnd at h
    refine .event h fun u => ?_
    split
    · exact .endSweep u
    · exact .refl u
  | passStart =>
    obtain rfl : s.passStarted = t := by simpa [Machine.exec, execPassStart] using h
    exact .passStarted s
  | passEnd =>
    unfold Machine.exec execPassEnd at h
    refine .event h fun u => ?_
    split
    · exact .refl u
    split
    · exact .endPass_emit ‹_› _ _ _
    · exact .refl u
  | landingFault =>
    unfold Machine.exec execLandingFault at h
    refine .event h fun u => ?_
    split
    · exact .refl u
    · exact .endPass_emit ‹_› _ _ _
  | landingWriteComplete =>
    unfold Machine.exec execLandingWriteComplete at h
    refine .event h fun u => ?_
    split
    · exact .refl u
    rename_i p r g hp
    split
    · refine .of_alike (fun a => .inl rfl) ⟨rfl, fun _ => .rfl, rfl, rfl, ?_, fun _ => rfl⟩
      rw [(State.passTarget_some.mp hp).1]
      rfl
    · exact .refl u

theorem Keeps.sendOne (s : State) (p : PortNo) : Keeps s (s.sendOne p) := by
  unfold State.sendOne
  split
  · exact (Keeps.setPort s p _).trans (.emit _ _)
  · exact .refl s

theorem Keeps.tick (s : State) : Keeps s s.tick :=
  (((Keeps.settled s).trans (.sendOne _ .p0)).trans (.sendOne _ .p1)).trans (.of_fields rfl rfl rfl rfl rfl)

/-- Every step keeps the invariants of the repair table. -/
theorem Keeps.step {s t : State} (h : step s = .next t) : Keeps s t := by
  unfold Machine.step at h
  split at h
  · obtain rfl : s.tick = t := by simpa using h
    exact .tick s
  · rename_i c rest _
    exact Keeps.trans (u := { s with pending := rest }) (.of_fields rfl rfl rfl rfl rfl) (.exec h)

/-- Settles O53: the index follows the slots that become FREE or occupied. -/
theorem stepKeepsTheIndexExact : Obligations.StepKeepsTheIndexExact := fun _ _ h => (Keeps.step h).index

/-- Settles O54: a record enters and leaves the lists where its state or hold changes. -/
theorem stepKeepsTheListsExact : Obligations.StepKeepsTheListsExact := fun _ _ h hl ha =>
  ⟨(Keeps.step h).lists hl, (Keeps.step h).active hl ha⟩

/-- Settles O55: a survivor enters PULLING with a context and leaves it with that context's end. -/
theorem stepKeepsTheContextsExact : Obligations.StepKeepsTheContextsExact := fun _ _ h => (Keeps.step h).contexts

/-- Settles O57. -/
theorem stepKeepsRecordsInBounds : Obligations.StepKeepsRecordsInBounds :=
  ⟨fun _ _ h => (Keeps.step h).bounds, Record.terminal_iff⟩

/-- Settles O58: slabs pass between the pool and the survivors of one record at a time. -/
theorem stepKeepsTheSlabsExact : Obligations.StepKeepsTheSlabsExact := by
  refine ⟨fun _ _ h => (Keeps.step h).slabs, fun v x => ?_, fun r x => ?_⟩
  · simp [Survivor.slab]
  · simp [Record.slabs]

end Sys2Proof.Machine
end

