-- ==== Sys2Proof/Proofs/Taking.lean ====
section
/-! What the taking of a request leaves as it is, its refusals, and the requests that change no record: the taking's end at a
returned buffer (O13), the lookup of a stripe id (O21), RETIRE (O23) and the returned buffers (O24). -/

namespace Sys2Proof.Machine

/-- A state is its fields. -/
theorem State.ext_fields {s t : State} (port : t.port = s.port) (table : t.table = s.table) (act : t.act = s.act)
    (rackUnit : t.rackUnit = s.rackUnit) (refillAt : t.refillAt = s.refillAt) (fetch : t.fetch = s.fetch)
    (comb : t.comb = s.comb) (settings : t.settings = s.settings) (counters : t.counters = s.counters) (dram : t.dram = s.dram)
    (now : t.now = s.now) (outputs : t.outputs = s.outputs) (pending : t.pending = s.pending) : t = s := by
  cases s; cases t; simp_all

/-! ## The end of a taking -/

section FinishTaking

variable (u : State) (e : Entry) (cw : Dma) (r : Reply)

@[simp] theorem State.finishTaking_table : (u.finishTaking e cw r).table = u.table := by cases r <;> rfl
@[simp] theorem State.finishTaking_act : (u.finishTaking e cw r).act = u.act := by cases r <;> rfl
@[simp] theorem State.finishTaking_rackUnit : (u.finishTaking e cw r).rackUnit = u.rackUnit := by cases r <;> rfl
@[simp] theorem State.finishTaking_refillAt : (u.finishTaking e cw r).refillAt = u.refillAt := by cases r <;> rfl
@[simp] theorem State.finishTaking_fetch : (u.finishTaking e cw r).fetch = u.fetch := by cases r <;> rfl
@[simp] theorem State.finishTaking_comb : (u.finishTaking e cw r).comb = u.comb := by cases r <;> rfl
@[simp] theorem State.finishTaking_settings : (u.finishTaking e cw r).settings = u.settings := by cases r <;> rfl
@[simp] theorem State.finishTaking_counters : (u.finishTaking e cw r).counters = u.counters := by cases r <;> rfl
@[simp] theorem State.finishTaking_dram : (u.finishTaking e cw r).dram = u.dram := by cases r <;> rfl
@[simp] theorem State.finishTaking_now : (u.finishTaking e cw r).now = u.now := by cases r <;> rfl
@[simp] theorem State.finishTaking_pending : (u.finishTaking e cw r).pending = u.pending := by cases r <;> rfl
@[simp] theorem State.finishTaking_notices : (u.finishTaking e cw r).port.notices = u.port.notices := by cases r <;> rfl

@[simp] theorem State.recAt_finishTaking (a : Slot) : (u.finishTaking e cw r).recAt a = u.recAt a :=
  State.recAt_congr (u.finishTaking_table e cw r) a

@[simp] theorem State.rackAt_finishTaking (k : RackId) : (u.finishTaking e cw r).rackAt k = u.rackAt k :=
  State.rackAt_congr (u.finishTaking_rackUnit e cw r) k

@[simp] theorem State.ctxAt_finishTaking (tag : Tag) : (u.finishTaking e cw r).ctxAt tag = u.ctxAt tag :=
  State.ctxAt_congr (u.finishTaking_fetch e cw r) tag

@[simp] theorem State.verifyAt_finishTaking (x : Slab) : (u.finishTaking e cw r).verifyAt x = u.verifyAt x := by
  simp [State.verifyAt]

end FinishTaking

@[simp] theorem State.clearQuiesce_notices (s : State) : s.clearQuiesce.port.notices = s.port.notices := rfl

/-- A state-changing request is taken as its rule says of the state with the quiesce flag clear. -/
theorem takeChanging_of_body {s u : State} {e : Entry} {op : Byte} {cw : Dma} {body : State → State × Reply} {r : Reply}
    (h : s.reading e op) (hb : body s.clearQuiesce = (u, r)) : s.takeChanging e op cw body = u.finishTaking e cw r := by
  rw [State.takeChanging_reading h, hb]

theorem takeReading_of_body {s u : State} {e : Entry} {op : Byte} {cw : Dma} {body : State → State × Reply} {r : Reply}
    (h : s.reading e op) (hb : body s = (u, r)) : s.takeReading e op cw body = u.finishTaking e cw r := by
  rw [State.takeReading_reading h, hb]

/-- A request whose buffer begins to be written. -/
theorem reading_buffered {s u : State} {e : Entry} {op : Byte} {cw : Dma} {body : State → State × Reply} {job : BufferJob}
    (h : s.reading e op) (hb : body s = (u, .buffer job)) : s.takeReading e op cw body = { u with
      port := { u.port with reqHead := (u.port.reqHead + 1) % 2 ^ u.port.reqSize, intake := .writing job } } := by
  rw [takeReading_of_body h hb]
  rfl

/-- What a refusal needs of the state that a request's rule leaves: only reads of the request's block have left the part. -/
theorem refused_of_body {s u : State} {e : Entry} {cw : Dma} {a : Answer} {q : Bool} {before : List Output}
    (hu : u = { s with port := { s.port with quiesce := q }, outputs := s.outputs ++ before }) :
    Refused s (u.finishTaking e cw (.answer a)) before e a cw q := by
  subst hu
  refine ⟨State.answered_of_body rfl rfl, ?_, by simp⟩
  rw [State.finishTaking_rest]

/-- A state-changing request that its rule refuses without a read of its own. -/
theorem changing_refused {s : State} {e : Entry} {op : Byte} {cw : Dma} {body : State → State × Reply} {a : Answer}
    (h : s.reading e op) (hb : body s.clearQuiesce = (s.clearQuiesce, .answer a)) :
    Refused s (s.takeChanging e op cw body) [] e a cw false := by
  rw [takeChanging_of_body h hb]
  exact refused_of_body (by simp [State.clearQuiesce])

/-- A state-changing request that its rule refuses after reads of its block. -/
theorem changing_refused_after {s : State} {e : Entry} {op : Byte} {cw : Dma} {body : State → State × Reply} {a : Answer}
    {before : List Output} (h : s.reading e op) (hb : body s.clearQuiesce = (s.clearQuiesce.emit before, .answer a)) :
    Refused s (s.takeChanging e op cw body) before e a cw false := by
  rw [takeChanging_of_body h hb]
  exact refused_of_body rfl

/-- A request that leaves the quiesce flag and is refused by its rule. -/
theorem reading_refused {s : State} {e : Entry} {op : Byte} {cw : Dma} {body : State → State × Reply} {a : Answer}
    (h : s.reading e op) (hb : body s = (s, .answer a)) : Refused s (s.takeReading e op cw body) [] e a cw s.port.quiesce := by
  rw [takeReading_of_body h hb]
  exact refused_of_body (by simp)

/-! ## Lookups -/

theorem State.lookup_clearQuiesce (s : State) (id : StripeId) : s.clearQuiesce.lookup id = s.lookup id := rfl
theorem State.lookup_emit (s : State) (o : List Output) (id : StripeId) : (s.emit o).lookup id = s.lookup id := rfl
theorem State.refusal_clearQuiesce (s : State) (st : Status) (id : StripeId) : s.clearQuiesce.refusal st id = s.refusal st id := rfl
theorem State.refusal_emit (s : State) (o : List Output) (st : Status) (id : StripeId) :
    (s.emit o).refusal st id = s.refusal st id := rfl

/-- Section 11.2: the slot field of a refusal of a request whose stripe id names a record. -/
theorem State.refusal_of_lookup {s : State} {id : StripeId} {a : Slot} {r : Record} (h : s.lookup id = some (a, r)) (st : Status) :
    s.refusal st id = { status := st, slot := a.val, stripe := id, results := [] } := by
  simp [State.refusal, (State.lookup_some h).1]

/-- Section 11.2: the slot field of a refusal of a request whose stripe id names none. -/
theorem State.refusal_of_absent {s : State} {id : StripeId} (h : ∀ a, (id, a) ∉ s.table.index) (st : Status) :
    s.refusal st id = { status := st, slot := 0xFFFF, stripe := id, results := [] } := by
  simp [State.refusal, (s.slotOf_none id).mpr h]

theorem State.lookup_absent {s : State} {id : StripeId} (h : ∀ a, (id, a) ∉ s.table.index) : s.lookup id = none := by
  simp [State.lookup, (s.slotOf_none id).mpr h]

theorem State.slotOf_mem {s : State} {id : StripeId} {a : Slot} (h : s.slotOf id = some a) : (id, a) ∈ s.table.index := by
  obtain ⟨⟨id', a'⟩, hf, rfl⟩ := Option.map_eq_some_iff.mp h
  obtain rfl : id' = id := by simpa using List.find?_some hf
  exact List.mem_of_find?_eq_some hf

/-- R2: where the index is exact, a stripe id names the record that has it. -/
theorem State.indexExact.lookup_iff {s : State} (h : s.indexExact) (id : StripeId) (a : Slot) (r : Record) :
    s.lookup id = some (a, r) ↔ s.recAt a = some r ∧ r.stripe = id := by
  constructor
  · intro hl
    obtain ⟨hs, hr⟩ := State.lookup_some hl
    obtain ⟨r', hr', hid⟩ := (h.1 id a).mp (State.slotOf_mem hs)
    obtain rfl := Option.some.inj (hr'.symm.trans hr)
    exact ⟨hr, hid⟩
  · rintro ⟨hr, hid⟩
    have hmem := (h.1 id a).mpr ⟨r, hr, hid⟩
    cases hs : s.slotOf id with
    | none => exact absurd hmem ((s.slotOf_none id).mp hs a)
    | some b =>
      obtain rfl : b = a := congrArg Prod.snd (List.inj_on_of_nodup_map h.2 (State.slotOf_mem hs) hmem rfl)
      simp [State.lookup, hs, hr]

theorem State.indexExact.lookup_none {s : State} (h : s.indexExact) (id : StripeId) :
    s.lookup id = none ↔ ∀ a, (id, a) ∉ s.table.index := by
  refine ⟨fun hl a hm => ?_, State.lookup_absent⟩
  obtain ⟨r, hr, hid⟩ := (h.1 id a).mp hm
  rw [(h.lookup_iff id a r).mpr ⟨hr, hid⟩] at hl
  cases hl

/-! ## The reads of a parameter block -/

/-- R21, R122, R161: the reads begun, for a full size that is never short of the header. -/
theorem blockReads_eq {header : Nat} {size : List Byte → Nat} {block : List Byte} (h : header ≤ size block) (len addr : Nat) :
    blockReads header size len block addr = readsBegun header (size block) len block.length addr := by
  have hs : size block ≤ header ↔ size block = header := ⟨fun h' => le_antisymm h' h, fun e => e.le⟩
  simp only [blockReads, readsBegun, hs, List.singleton_append]

theorem header_le_openBlockSize (b : List Byte) : 16 ≤ openBlockSize b := by simp only [openBlockSize]; omega
theorem header_le_planBlockSize (b : List Byte) : 8 ≤ planBlockSize b := by simp only [planBlockSize]; omega

/-- R21: a block that fails no test of its lengths is read. -/
theorem readBlock_of_le {header len : Nat} {size : List Byte → Nat} {block : List Byte} (h1 : header ≤ len)
    (h2 : size block ≤ len) (h3 : size block ≤ block.length) (h : header ≤ size block) :
    readBlock header size len block = .ok (block.take (size block)) := by
  rw [readBlock, if_neg (by omega), if_neg (by omega), if_neg (by omega), if_neg (by omega)]

/-- R21, R122: the status of a block that is not read. -/
theorem readBlock_error {header len : Nat} {size : List Byte → Nat} {block : List Byte} {st : Status}
    (h : (if len < header then some Status.badShape
      else if block.length < header then some .hostFault
      else if len < size block then some .badShape
      else if block.length < size block then some .hostFault
      else none) = some st) : readBlock header size len block = .error st := by
  unfold readBlock
  split_ifs at h ⊢
  all_goals exact congrArg Except.error (Option.some.inj h)

/-! ## The obligations -/

theorem satAdd_toNat (a b : Word) : (satAdd a b).toNat = min (a.toNat + b.toNat) 0xFFFFFFFF := by
  unfold satAdd
  split
  · rw [BitVec.toNat_add]; omega
  · rw [BitVec.toNat_ofNat]; omega

/-- Settles O13, along the outcome of the buffer's write and what it has to restore. -/
theorem bufferWriteDone : Obligations.BufferWriteDone := by
  refine ⟨satAdd_toNat, fun job bw cw s₀ => ?_⟩
  dsimp only
  intro hw
  refine ⟨(s₀.settled.bufferEnd job bw).writeEntry (job.entry bw) cw, ?_, ?_⟩
  · show execBufferWriteDone bw cw s₀ = _
    rw [execBufferWriteDone, State.event_eq, hw]
  · cases bw with
    | ok =>
      refine ⟨by simp [State.writeEntry_port, State.bufferEnd, State.emit], ?_, ?_, ?_⟩
      · rw [State.writeEntry_outputs]; rfl
      · simp [State.bufferEnd, State.emit]
      · rfl
    | failed =>
      cases hr : job.restore with
      | none =>
        refine ⟨?_, ?_, ?_, ?_⟩ <;> simp only [State.bufferEnd, hr]
        · rfl
        · rw [State.writeEntry_outputs]; rfl
        · rfl
        · rfl
      | some copied =>
        refine ⟨?_, ?_, ?_, ?_⟩ <;> simp only [State.bufferEnd, hr]
        · rfl
        · rw [State.writeEntry_outputs]; rfl
        · rfl
        · rfl

/-- A request that reads a stripe id, by the lookup with which its rule begins. -/
theorem changing_notFound {s : State} {e : Entry} {op : Byte} {cw : Dma} {body : State → State × Reply}
    (h : s.reading e op) (habs : ∀ a, (stripeOf e, a) ∉ s.table.index)
    (hb : ∀ u, u.lookup (stripeOf e) = none → body u = (u, .answer (u.refusal .notFound (stripeOf e)))) :
    Refused s (s.takeChanging e op cw body) [] e
      { status := .notFound, slot := 0xFFFF, stripe := stripeOf e, results := [] } cw false := by
  refine changing_refused h ?_
  rw [hb s.clearQuiesce (State.lookup_absent habs), State.refusal_clearQuiesce, State.refusal_of_absent habs]

/-- Settles O21: the index gives the record, and each of the eight rules begins with the lookup. -/
theorem stripeIdsNameRecords : Obligations.StripeIdsNameRecords := by
  refine ⟨fun s id h => ⟨h.lookup_iff id, h.lookup_none id⟩, fun e cw s₀ => ?_⟩
  intro s habs a
  have hlook : s.lookup (stripeOf e) = none := State.lookup_absent habs
  refine ⟨fun h => ⟨_, rfl, changing_notFound h habs fun u hu => ?_⟩, fun h => ⟨_, rfl, changing_notFound h habs fun u hu => ?_⟩,
    fun h => ⟨_, rfl, reading_refused h ?_⟩, fun h => ⟨_, rfl, changing_notFound h habs fun u hu => ?_⟩,
    fun h => ⟨_, rfl, changing_notFound h habs fun u hu => ?_⟩, fun h => ⟨_, rfl, changing_notFound h habs fun u hu => ?_⟩,
    fun h => ⟨_, rfl, changing_notFound h habs fun u hu => ?_⟩,
    fun block h h1 h2 h3 => ⟨_, rfl, changing_refused_after h ?_⟩, fun block st h hst => ⟨_, rfl, changing_refused_after h ?_⟩⟩
  · rw [cancelBody, hu]
  · rw [retireBody, hu]
  · rw [queryBody, hlook, State.refusal_of_absent habs]
  · rw [reprioritizeBody, hu]
  · rw [holdBody, hu]
  · rw [releaseBody, hu]
  · rw [amendBody, hu]
  · rw [← blockReads_eq (header_le_planBlockSize block)]
    have htest : ∀ b, (s.clearQuiesce.readsBlock 8 planBlockSize e block).testReplan e b = .error .notFound := fun b => by
      rw [State.testReplan, State.readsBlock, State.lookup_emit, State.lookup_clearQuiesce, hlook]
    rw [replanBody, readBlock_of_le h1 h2 h3 (header_le_planBlockSize block)]
    dsimp only
    rw [htest]
    dsimp only
    rw [State.readsBlock, State.refusal_emit, State.refusal_clearQuiesce, State.refusal_of_absent habs]
  · rw [← blockReads_eq (header_le_planBlockSize block)]
    rw [replanBody, readBlock_error hst]
    dsimp only
    rw [State.readsBlock, State.refusal_emit, State.refusal_clearQuiesce, State.refusal_of_absent habs]

theorem State.freeSlot_table (s : State) (a : Slot) : (s.freeSlot a).table = { s.table with
    slots := (s.freeSlot a).table.slots, index := s.table.index.filter fun x => x.2 ≠ a } := rfl

theorem State.freeSlot_port (s : State) (a : Slot) :
    (s.freeSlot a).port = { s.port with notices := s.port.notices.filter fun n => n.slot ≠ some a } := rfl

/-- Settles O23, along the record's states. -/
theorem retireFreesATerminalRecord : Obligations.RetireFreesATerminalRecord := by
  intro e cw s₀ slot r s h hlook
  have hl : s.clearQuiesce.lookup (stripeOf e) = some (slot, r) := hlook
  refine ⟨fun ht => ?_, fun hn => ⟨_, rfl, changing_refused h ?_⟩⟩
  · have hb : retireBody e s.clearQuiesce = (s.clearQuiesce.freeSlot slot, .answer (.about .ok slot r [])) := by
      rw [retireBody, hl]
      exact if_pos (r.terminal_iff.mpr ht)
    refine ⟨_, (congrArg Host.Outcome.next (takeChanging_of_body (cw := cw) h hb)), by simp, fun b hb => ?_, ?_, ?_,
      State.answered_of_body rfl ?_, ?_⟩
    · rw [State.recAt_finishTaking, State.recAt_freeSlot_ne _ hb]; rfl
    · rw [State.finishTaking_table]; rfl
    · rw [State.finishTaking_notices]; rfl
    · simp
    · rw [State.finishTaking_rest]; rfl
  · rw [retireBody, hl]
    dsimp only
    rw [if_neg (by simpa using r.terminal_eq_false_iff.mpr hn), State.refusal_clearQuiesce, State.refusal_of_lookup hlook]

/-- Settles O24, along the length of the buffer. -/
theorem bufferRequestsCopyAtTheTaking : Obligations.BufferRequestsCopyAtTheTaking := by
  intro e cw s₀ s taken
  refine ⟨fun slot r h hlook => ⟨fun hlen => ?_, fun hlen => ⟨_, rfl, reading_refused h ?_⟩⟩,
    fun h => ⟨fun hlen => ?_, fun hlen => ⟨_, rfl, reading_refused h ?_⟩⟩,
    fun h => ⟨fun hlen => ?_, fun hlen => ⟨_, rfl, reading_refused h ?_⟩⟩⟩
  · refine congrArg Host.Outcome.next (reading_buffered (u := s) h ?_)
    rw [queryBody, hlook]
    exact if_neg (by omega)
  · rw [queryBody, hlook]
    dsimp only
    rw [if_pos hlen, State.refusal_of_lookup hlook]
  · refine congrArg Host.Outcome.next (reading_buffered (u := s) h ?_)
    exact if_neg (by omega)
  · rw [identifyBody, if_pos hlen]; rfl
  · by_cases hc : clearFlagOf e = true
    · simp only [hc, if_true]
      refine congrArg Host.Outcome.next (reading_buffered (u := { s with counters := .zero }) h ?_)
      rw [reportBody, if_neg (by omega), if_pos hc]; rfl
    · simp only [hc]
      refine congrArg Host.Outcome.next (reading_buffered (u := s) h ?_)
      rw [reportBody, if_neg (by omega), if_neg hc]; rfl
  · rw [reportBody, if_pos hlen]; rfl

end Sys2Proof.Machine
end

