-- ==== Sys2Proof/Proofs/OpenCancel.lean ====
section
/-! OPEN (O19, O20), CANCEL (O22) and RELEASE (O31). -/

namespace Sys2Proof.Machine

/-! ## Tables searched from the lowest index on -/

theorem listVec_eq {α : Type} {n : Nat} (v : Vector α n) : listVec v = (List.finRange n).map fun i => (i, v[i]) := by
  apply List.ext_getElem
  · simp [listVec]
  · intro i h1 h2
    simp [listVec]

/-- A search of a table is a search of its indices. -/
theorem find?_listVec {α : Type} {n : Nat} (v : Vector α n) (p : α → Bool) :
    ((listVec v).find? fun e => p e.2).map (·.1) = (List.finRange n).find? fun i => p v[i] := by
  rw [listVec_eq, List.find?_map, Option.map_map]
  exact congrFun Option.map_id _

/-- The first index that satisfies `p`: one that does, and none below it does. -/
theorem find?_finRange_eq_some {n : Nat} {p : Fin n → Bool} {i : Fin n} :
    (List.finRange n).find? p = some i ↔ p i = true ∧ ∀ j < i, p j = false := by
  rw [List.find?_eq_some_iff_append]
  constructor
  · rintro ⟨hp, as, bs, heq, has⟩
    refine ⟨hp, fun j hj => ?_⟩
    have hmem : j ∈ as ++ i :: bs := heq ▸ List.mem_finRange j
    have hlt : (as ++ i :: bs).Pairwise (· < ·) := heq ▸ List.pairwise_lt_finRange n
    rcases List.mem_append.mp hmem with hm | hm
    · simpa using has j hm
    · rcases List.mem_cons.mp hm with rfl | hm
      · exact absurd hj (lt_irrefl _)
      · exact absurd hj (lt_asymm ((List.pairwise_cons.mp (List.pairwise_append.mp hlt).2.1).1 j hm))
  · rintro ⟨hp, hlow⟩
    obtain ⟨as, bs, heq⟩ := List.append_of_mem (List.mem_finRange i)
    have hlt : (as ++ i :: bs).Pairwise (· < ·) := heq ▸ List.pairwise_lt_finRange n
    refine ⟨hp, as, bs, heq, fun j hj => ?_⟩
    simpa using hlow j ((List.pairwise_append.mp hlt).2.2 j hj i List.mem_cons_self)

/-- R3: the lowest-numbered FREE slot. -/
theorem State.lowestFreeSlot_eq_some {s : State} {a : Slot} :
    s.lowestFreeSlot = some a ↔ s.recAt a = none ∧ ∀ b, b < a → s.recAt b ≠ none := by
  have h : s.lowestFreeSlot = (List.finRange 2048).find? fun b => (s.recAt b).isNone :=
    find?_listVec s.table.slots Option.isNone
  rw [h, find?_finRange_eq_some]
  simp [Option.isSome_iff_ne_none]

theorem State.lowestFreeSlot_eq_none {s : State} : s.lowestFreeSlot = none ↔ ∀ a, s.recAt a ≠ none := by
  simp only [State.lowestFreeSlot, listVec_eq, List.find?_map, Option.map_map, Option.map_eq_none_iff, List.find?_eq_none]
  constructor
  · intro h a ha
    exact h a (List.mem_finRange a) (by simpa [State.recAt] using ha)
  · intro h a _ ha
    exact h a (by simpa [State.recAt] using ha)

/-! ## The plan test -/

/-- A list counts as many elements with a property as it has positions with one. -/
theorem countP_eq_countP_range {α : Type} (p : α → Bool) (l : List α) :
    l.countP p = (List.range l.length).countP fun i => (l[i]?).any p := by
  induction l with
  | nil => rfl
  | cons x rest ih =>
    rw [List.length_cons, List.range_succ_eq_map, List.countP_cons, List.countP_cons, List.countP_map, ih]
    simp [Function.comp_def]

/-- R23: a plan that passes names no more survivors than are usable. -/
theorem planOk_length_le {survs : List Survivor} {plan : List Nat} (h : planOk survs plan = true) :
    plan.length ≤ survs.countP Survivor.usable := by
  obtain ⟨hnd, hall⟩ := (planOk_iff survs plan).mp h
  rw [countP_eq_countP_range, List.countP_eq_length_filter]
  refine (List.subperm_of_subset hnd fun p hp => ?_).length_le
  obtain ⟨v, hv, hu⟩ := hall p hp
  rw [List.mem_filter, hv]
  exact ⟨List.mem_range.mpr (List.getElem?_eq_some_iff.mp hv).1, hu⟩

theorem State.admitSurvivor_usable {s : State} {b : List Byte} {v : Survivor} (hv : v ∈ (readOpenBlock b).survs) :
    (s.admitSurvivor v).usable = !(s.rackAt v.rack).down := by
  unfold State.admitSurvivor Survivor.usable
  cases (s.rackAt v.rack).down <;> simp [(readOpenBlock_entered hv).1]

/-- R17, R23: the plan test of an OPEN: a named survivor is usable where its rack is UP. -/
theorem planOk_admit_iff {s : State} {b : List Byte} : planOk ((readOpenBlock b).survs.map s.admitSurvivor) (readOpenBlock b).plan = true
    ↔ (readOpenBlock b).plan.Nodup
      ∧ ∀ p ∈ (readOpenBlock b).plan, ∃ v, (readOpenBlock b).survs[p]? = some v ∧ (s.rackAt v.rack).down = false := by
  rw [planOk_iff]
  refine and_congr_right fun _ => forall₂_congr fun p _ => ?_
  simp only [List.getElem?_map, Option.map_eq_some_iff]
  constructor
  · rintro ⟨_, ⟨v, hv, rfl⟩, hu⟩
    exact ⟨v, hv, by simpa [State.admitSurvivor_usable (List.mem_of_getElem? hv)] using hu⟩
  · rintro ⟨v, hv, hd⟩
    exact ⟨_, ⟨v, hv, rfl⟩, by simp [State.admitSurvivor_usable (List.mem_of_getElem? hv), hd]⟩

/-! ## OPEN -/

/-- What OPEN's tests look at of a state in which its reads have begun. -/
theorem State.testOpen_reads (s : State) (e : Entry) (block : List Byte) :
    (s.clearQuiesce.readsBlock 16 openBlockSize e block).testOpen e block = s.testOpen e block := by
  have hadmit : (s.clearQuiesce.readsBlock 16 openBlockSize e block).admitSurvivor = s.admitSurvivor := rfl
  have hslot : (s.clearQuiesce.readsBlock 16 openBlockSize e block).slotOf = s.slotOf := rfl
  have hfree : (s.clearQuiesce.readsBlock 16 openBlockSize e block).lowestFreeSlot = s.lowestFreeSlot := by
    simp [State.lowestFreeSlot, State.readsBlock]
  simp only [State.testOpen, hadmit, hslot, hfree]

/-- R21 to R23: the first test that an OPEN fails. -/
theorem State.testOpen_error {s : State} {e : Entry} {block : List Byte} {st : Status}
    (h : (if lengthOf e < 16 then some Status.badShape
      else if block.length < 16 then some .hostFault
      else if lengthOf e < openBlockSize block then some .badShape
      else if block.length < openBlockSize block then some .hostFault
      else if (readOpenBlock (block.take (openBlockSize block))).shapeOk = false then some .badShape
      else if ∃ a, (stripeOf e, a) ∈ s.table.index then some .duplicate
      else if ∀ a, s.recAt a ≠ none then some .tableFull
      else if ¬ ((readOpenBlock (block.take (openBlockSize block))).plan.Nodup
          ∧ ∀ p ∈ (readOpenBlock (block.take (openBlockSize block))).plan,
              ∃ v, (readOpenBlock (block.take (openBlockSize block))).survs[p]? = some v ∧ (s.rackAt v.rack).down = false) then
        some .badPlan
      else none) = some st) : s.testOpen e block = .error st := by
  rw [State.testOpen]
  by_cases hread : lengthOf e < 16 ∨ block.length < 16 ∨ lengthOf e < openBlockSize block ∨ block.length < openBlockSize block
  · rw [readBlock_error (st := st)]
    rw [← h]
    split_ifs <;> first | rfl | omega
  · rw [readBlock_of_le (by omega) (by omega) (by omega) (header_le_openBlockSize block)]
    rw [if_neg (by omega), if_neg (by omega), if_neg (by omega), if_neg (by omega)] at h
    dsimp only
    split_ifs at h with hshape hdup hfull hplan
    · rw [if_pos hshape, Option.some.inj h]
    · obtain ⟨a, ha⟩ := hdup
      have : (s.slotOf (stripeOf e)).isSome = true := by
        rw [Option.isSome_iff_ne_none]
        exact fun hn => (s.slotOf_none _).mp hn a ha
      rw [if_neg hshape, if_pos this, Option.some.inj h]
    · have hnone := (s.slotOf_none _).mpr fun a ha => hdup ⟨a, ha⟩
      rw [if_neg hshape, hnone, if_neg (by simp), State.lowestFreeSlot_eq_none.mpr hfull, ← Option.some.inj h]
    · have hnone := (s.slotOf_none _).mpr fun a ha => hdup ⟨a, ha⟩
      rw [if_neg hshape, hnone, if_neg (by simp)]
      cases hfree : s.lowestFreeSlot with
      | none => exact absurd (State.lowestFreeSlot_eq_none.mp hfree) hfull
      | some a =>
        dsimp only
        rw [if_pos (by rw [← planOk_admit_iff] at hplan; simpa using hplan), Option.some.inj h]

/-- R24: an OPEN that passes every test. -/
theorem State.testOpen_of {s : State} {e : Entry} {block : List Byte} {a : Slot} (h1 : 16 ≤ lengthOf e)
    (h2 : openBlockSize block ≤ lengthOf e) (h3 : openBlockSize block ≤ block.length)
    (hshape : (readOpenBlock (block.take (openBlockSize block))).shapeOk = true) (hdup : ∀ b, (stripeOf e, b) ∉ s.table.index)
    (hfree : s.lowestFreeSlot = some a)
    (hplan : planOk ((readOpenBlock (block.take (openBlockSize block))).survs.map s.admitSurvivor)
      (readOpenBlock (block.take (openBlockSize block))).plan = true) :
    s.testOpen e block = .ok (a, readOpenBlock (block.take (openBlockSize block))) := by
  have hk := planOk_length_le hplan
  rw [(length_readOpenBlock _).1] at hk
  rw [State.testOpen, readBlock_of_le h1 h2 h3 (header_le_openBlockSize block)]
  dsimp only
  rw [if_neg (by simp [hshape]), (s.slotOf_none _).mpr hdup, if_neg (by simp), hfree]
  dsimp only
  rw [if_neg (by simp [hplan]), if_neg (by omega)]

/-- Settles O20: the tests of OPEN, each against the model's own test. -/
theorem openRefusals : Obligations.OpenRefusals := by
  refine ⟨OpenBlock.shapeOk_iff, fun e block cw s₀ st => ?_⟩
  intro s o h hst
  refine ⟨_, rfl, changing_refused_after h ?_⟩
  rw [openBody, State.testOpen_reads, State.testOpen_error hst, ← blockReads_eq (header_le_openBlockSize block)]
  rfl

/-! ### The fields of an entry and of an Open Block -/

theorem leValue_lt (l : List Byte) : leValue l < 256 ^ l.length := by
  induction l with
  | nil => simp [leValue]
  | cons b rest ih =>
    have hb : b.toNat < 256 := b.isLt
    have hstep : leValue (b :: rest) = b.toNat + 256 * leValue rest := rfl
    rw [List.length_cons, Nat.pow_succ, hstep]
    omega

theorem leAt_lt (l : List Byte) (off len : Nat) : leAt l off len < 256 ^ len := by
  have h := leValue_lt (field l off len)
  rwa [length_field] at h

theorem beAt_lt (l : List Byte) (off len : Nat) : beAt l off len < 256 ^ len := by
  have h := leValue_lt (field l off len).reverse
  rwa [List.length_reverse, length_field] at h

/-- A number of `len` bytes stands in a word of as many. -/
theorem toNat_ofNat_of_lt {w x : Nat} (h : x < 2 ^ w) : (BitVec.ofNat w x).toNat = x := by
  rw [BitVec.toNat_ofNat, Nat.mod_eq_of_lt h]

theorem entry_fields (e : Entry) : (reqIdOf e).toNat = leAt e.toList 2 2 ∧ (stripeOf e).toNat = leAt e.toList 8 8
    ∧ (addressOf e).toNat = leAt e.toList 16 8 :=
  ⟨toNat_ofNat_of_lt (leAt_lt _ 2 2), toNat_ofNat_of_lt (leAt_lt _ 8 8), toNat_ofNat_of_lt (leAt_lt _ 16 8)⟩

theorem getElem?_readTargets {b : List Byte} {j : Nat} (h : j < (byteAt b 2).toNat) :
    (readOpenBlock b).targets[j]? = some (readTarget b (16 + 16 * j)) := by
  simp [readOpenBlock, h]

theorem getElem?_readSurvivors {b : List Byte} {i : Nat} (h : i < (byteAt b 3).toNat) :
    (readOpenBlock b).survs[i]? = some (readSurvivor b (16 + 16 * (byteAt b 2).toNat + 24 * i)) := by
  simp [readOpenBlock, h]

theorem getElem?_readPositions {b : List Byte} {off k i : Nat} (h : i < k) :
    (readPositions b off k)[i]? = some (byteAt b (off + i)).toNat := by
  simp [readPositions, h]

theorem getElem?_field {l : List Byte} {off len i : Nat} (h : i < len) : (field l off len)[i]? = some (byteAt l (off + i)) := by
  simp [field, h, byteAt]

theorem getElem?_readRows {b : List Byte} {off t k j : Nat} (h : j < t) :
    (readRows b off t k)[j]? = some (field b (off + j * k) k) := by
  simp [readRows, h]

/-! ### An admission -/

/-- R30: the margin of a record as it is admitted. -/
theorem State.admitRecord_margin (s : State) (id : StripeId) (b : List Byte) : (s.admitRecord id (readOpenBlock b)).margin
    = ((readOpenBlock b).survs.countP fun v => !(s.rackAt v.rack).down : Nat) - ((readOpenBlock b).k : Int) := by
  have hcount : ((readOpenBlock b).survs.map s.admitSurvivor).countP Survivor.usable
      = (readOpenBlock b).survs.countP fun v => !(s.rackAt v.rack).down := by
    rw [List.countP_map]
    refine List.countP_congr fun v hv => ?_
    show (s.admitSurvivor v).usable = true ↔ _
    rw [State.admitSurvivor_usable hv]
  exact congrArg (fun n : Nat => (n : Int) - ((readOpenBlock b).k : Int)) hcount

/-- R34: the stall timer of a QUEUED record with hold NONE. -/
theorem State.admitRecord_eq (s : State) (id : StripeId) (b : List Byte) : s.admitRecord id (readOpenBlock b) =
    { stripe := id, k := (readOpenBlock b).k, n := (readOpenBlock b).n, lcode := (readOpenBlock b).lcode
      boost := (readOpenBlock b).boost, serial := s.table.serial, order := s.table.admitted, state := .queued, active := false
      hold := .none, margin := (s.admitRecord id (readOpenBlock b)).margin, age := 0
      score := (3 - (s.admitRecord id (readOpenBlock b)).margin).toNat * 64 + (readOpenBlock b).boost * 16
      stall := freshPeriod s.settings.stallCode s.now, fault := none, targets := (readOpenBlock b).targets
      survs := (readOpenBlock b).survs.map fun v => if (s.rackAt v.rack).down then { v with state := .gone } else v
      plan := (readOpenBlock b).plan, rows := (readOpenBlock b).rows } := rfl

theorem State.admitAt_table (s : State) (a : Slot) (id : StripeId) (o : OpenBlock) : (s.admitAt a id o).table = { s.table with
    slots := (s.admitAt a id o).table.slots, index := s.table.index ++ [(id, a)], serial := s.table.serial + 1
    admitted := s.table.admitted + 1 } := rfl

/-- R24: an admission changes the Repair Table and the Ready List, and nothing else. -/
theorem State.admitAt_rest (s : State) (a : Slot) (id : StripeId) (o : OpenBlock) : s.admitAt a id o = { s with
    table := (s.admitAt a id o).table, act := { s.act with ready := (s.admitAt a id o).act.ready } } := rfl

theorem byteAt_take {l : List Byte} {n i : Nat} (h : i < n) : byteAt (l.take n) i = byteAt l i := by
  simp [byteAt, List.getD_eq_getElem?_getD, h]

/-- R21: the two reads of a block whose shape passes: it has a target, so something follows the header. -/
theorem openReads_of_shapeOk {e : Entry} {block : List Byte} (h1 : 16 ≤ lengthOf e) (h2 : openBlockSize block ≤ lengthOf e)
    (h3 : openBlockSize block ≤ block.length) (hshape : (readOpenBlock (block.take (openBlockSize block))).shapeOk = true) :
    blockReads 16 openBlockSize (lengthOf e) block (addressOf e).toNat
      = [.hostRead (addressOf e).toNat 16, .hostRead ((addressOf e).toNat + 16) (openBlockSize block - 16)] := by
  have ht : 1 ≤ (byteAt block 2).toNat := by
    have h := ((OpenBlock.shapeOk_iff _).mp hshape).2.2.2.2.2.1
    have hb : byteAt (block.take (openBlockSize block)) 2 = byteAt block 2 := byteAt_take (by simp only [openBlockSize]; omega)
    simpa [readOpenBlock, hb] using h
  have hsize : 32 ≤ openBlockSize block := by simp only [openBlockSize]; omega
  rw [blockReads, if_neg (by omega), if_neg (by omega)]

/-- Settles O19: the layouts field by field, and the admission by the model's own record. -/
theorem openAdmits : Obligations.OpenAdmits := by
  refine ⟨fun r => ⟨?_, rfl, rfl⟩, fun e => ⟨rfl, rfl, (entry_fields e).1, rfl, (entry_fields e).2.1, (entry_fields e).2.2⟩,
    fun b => ?_, fun e block cw s₀ slot => ?_⟩
  · unfold Record.length fragLength
    split <;> rfl
  · refine ⟨rfl, rfl, rfl, rfl, rfl, by simp [readOpenBlock], by simp [readOpenBlock], length_readPositions _ _ _,
      (length_readRows _ _ _ _).1, fun j hj => ⟨_, getElem?_readTargets hj, rfl, ?_, ?_, rfl⟩,
      fun i hi => ⟨_, getElem?_readSurvivors hi, rfl, rfl, ?_, ?_⟩, fun i hi => getElem?_readPositions hi,
      fun j hj => ⟨_, getElem?_readRows hj, length_field _ _ _, fun i hi => getElem?_field hi⟩⟩
    · exact toNat_ofNat_of_lt (leAt_lt _ _ 4)
    · exact toNat_ofNat_of_lt (leAt_lt _ _ 8)
    · exact toNat_ofNat_of_lt (beAt_lt _ _ 2)
    · exact toNat_ofNat_of_lt (beAt_lt _ _ 16)
  · intro s o h h1 h2 h3 hshape hdup hfree hlow hnd hplan
    have hpok : planOk (o.survs.map s.admitSurvivor) o.plan = true := planOk_admit_iff.mpr ⟨hnd, hplan⟩
    have htest := State.testOpen_of h1 h2 h3 hshape hdup (State.lowestFreeSlot_eq_some.mpr ⟨hfree, hlow⟩) hpok
    generalize hu : s.clearQuiesce.readsBlock 16 openBlockSize e block = u
    have hrec : u.admitRecord (stripeOf e) o = s.admitRecord (stripeOf e) o := by rw [← hu]; rfl
    have hb : openBody e block s.clearQuiesce = (u.admitAt slot (stripeOf e) o,
        .answer { status := .ok, slot := slot.val, stripe := stripeOf e, results := leBytes 4 s.table.serial.toNat }) := by
      rw [openBody, State.testOpen_reads, htest, ← hu]
      rfl
    have hout : u.outputs = s.outputs ++ [.hostRead (addressOf e).toNat 16,
        .hostRead ((addressOf e).toNat + 16) (openBlockSize block - 16)] := by
      rw [← hu]
      exact congrArg (s.outputs ++ ·) (openReads_of_shapeOk h1 h2 h3 hshape)
    have hrest := u.admitAt_rest slot (stripeOf e) o
    have hc : SlotChange u (u.admitAt slot (stripeOf e) o) slot none (some (u.admitRecord (stripeOf e) o)) :=
      State.slotChange_admitAt (by rw [← hu]; exact hfree) _ _
    refine ⟨_, s.admitRecord (stripeOf e) o, congrArg Host.Outcome.next (takeChanging_of_body (cw := cw) h hb), ?_, ?_, ?_,
      fun g hg => ?_, Nat.min_le_right _ _, ?_, fun v hv => ?_, ?_, fun a => ?_, ?_, ?_, ?_⟩
    · rw [State.recAt_finishTaking, hc.after, hrec]
    · intro b hb
      rw [State.recAt_finishTaking, hc.others b hb, ← hu]
      rfl
    · rw [State.admitRecord_eq s]
      rw [s.admitRecord_margin]
    · obtain ⟨j, -, rfl⟩ := List.mem_map.mp hg
      rfl
    · exact ((s.admitRecord_inBounds _ hshape hpok (by
        rw [← (length_readOpenBlock _).1]; exact planOk_length_le hpok)).2.2.2 rfl).1
    · obtain ⟨w, hw, rfl⟩ := List.mem_map.mp hv
      obtain ⟨e1, e2, e3, e4, e5⟩ := readOpenBlock_entered hw
      unfold State.admitSurvivor
      cases hd : (s.rackAt w.rack).down <;> simp [hd, e1, e2, e3, e4, e5]
    · rw [State.finishTaking_table, State.admitAt_table, ← hu]
      rfl
    · rw [State.finishTaking_act, State.mem_ready_admitAt, ← hu]
      rfl
    · refine State.answered_of_body ?_ ?_
      · rw [hrest, ← hu]; rfl
      · rw [hrest]; exact hout
    · rw [State.finishTaking_notices, hrest]
      rw [← hu]; rfl
    · rw [State.finishTaking_rest, hrest, ← hu]
      rfl

/-! ## Contexts freed and slabs given back -/

theorem State.freeCtxs_congr {s u : State} (table : u.table = s.table) (fetch : u.fetch = s.fetch) (rackUnit : u.rackUnit = s.rackUnit)
    (p : Ctx → Bool) : (u.freeCtxs p).fetch = (s.freeCtxs p).fetch ∧ (u.freeCtxs p).rackUnit = (s.freeCtxs p).rackUnit := by
  have hrack : ∀ c, u.ctxRack c = s.ctxRack c := fun c => by simp only [State.ctxRack, State.recAt, table]
  have hcount : ∀ k, u.ctxCount p k = s.ctxCount p k := fun k => by simp only [State.ctxCount, hrack, fetch]
  simp only [State.freeCtxs, hcount, fetch, rackUnit, and_self]

/-- R104: contexts are freed where the tables of contexts and racks are those of a state with the contexts freed. -/
theorem contextsFreed_of {s t : State} {p : Ctx → Bool} (fetch : t.fetch = { (s.freeCtxs p).fetch with verify := t.fetch.verify })
    (rackUnit : t.rackUnit = (s.freeCtxs p).rackUnit) : ContextsFreed s t p := by
  refine ⟨fun tag => ?_, fun k => ?_, ?_, ?_⟩
  · rw [← State.ctxAt_freeCtxs]
    have hctxs : t.fetch.ctxs = (s.freeCtxs p).fetch.ctxs := by rw [fetch]
    simp only [State.ctxAt, hctxs]
  · rw [State.rackAt_congr rackUnit, State.rackAt_freeCtxs]
    rfl
  · rw [rackUnit]; rfl
  · rw [fetch]; rfl

/-- R111: verify marks are cleared where they are those of a state with them cleared. -/
theorem verifyCleared_of {s t : State} {l : List Slab} (h : t.fetch.verify = (s.clearVerify l).fetch.verify) : VerifyCleared s t l := by
  intro x
  rw [← State.verifyAt_clearVerify]
  simp only [State.verifyAt, h]

/-- R46: slabs join the free ones where these are the old ones with the slabs put in. -/
theorem slabsFreed_of {s t : State} {l : List Slab} (h : t.act.free = l.foldr insertSlab s.act.free) : SlabsFreed s t l := by
  intro x
  rw [h, mem_foldr_insertSlab]

/-! ## CANCEL -/

theorem State.cancelRecord_fetch (s : State) (a : Slot) (r : Record) :
    (s.cancelRecord a r).fetch = ((s.freeCtxs fun c => c.slot == a).clearVerify r.slabs).fetch
    ∧ (s.cancelRecord a r).rackUnit = (s.freeCtxs fun c => c.slot == a).rackUnit := by
  have h := State.freeCtxs_congr (s := s) (u := { s.abortPass a r with
      act := { s.act with ready := s.act.ready.filter (· ≠ a) }
      comb := { queue := s.comb.queue.filter (· ≠ a), pass := if s.inPass a then none else s.comb.pass } })
    (by rw [State.abortPass_rest]) (by rw [State.abortPass_rest]) (by rw [State.abortPass_rest]) (fun c => c.slot == a)
  rw [State.cancelRecord_eq, State.freeSlot_fetch, State.freeSlot_rackUnit, State.releaseSlabs_rackUnit]
  refine ⟨?_, h.2⟩
  simp only [State.releaseSlabs, State.clearVerify, h.1]

theorem State.cancelRecord_table (s : State) (a : Slot) (r : Record) : (s.cancelRecord a r).table = { s.table with
    slots := (s.cancelRecord a r).table.slots, index := s.table.index.filter fun e => e.2 ≠ a } := by
  rw [State.cancelRecord_eq]
  conv_lhs => rw [State.freeSlot_table]
  simp [State.abortPass_rest]

/-- R25: what a CANCEL leaves as it is. -/
theorem State.cancelRecord_rest (s : State) (a : Slot) (r : Record) : s.cancelRecord a r = { s with
    port := { s.port with notices := s.port.notices.filter fun n => n.slot ≠ some a }
    table := { s.table with
      slots := (s.cancelRecord a r).table.slots, index := s.table.index.filter fun e => e.2 ≠ a }
    act := (s.cancelRecord a r).act, rackUnit := (s.cancelRecord a r).rackUnit, fetch := (s.cancelRecord a r).fetch
    comb := (s.cancelRecord a r).comb, outputs := s.outputs ++ if s.inPass a then r.landingUndefined else [] } := by
  refine State.ext_fields ?_ (s.cancelRecord_table a r) rfl rfl ?_ rfl rfl ?_ ?_ ?_ ?_ ?_ ?_ <;> rw [State.cancelRecord_eq]
  · rw [State.freeSlot_port]; simp [State.abortPass_rest]
  all_goals simp [State.abortPass_rest]

/-- Settles O22: each part of a CANCEL by the law of the operation that does it. -/
theorem cancelFreesTheSlot : Obligations.CancelFreesTheSlot := by
  intro e cw s₀ slot r s h hlook
  generalize hu : s.clearQuiesce = u
  have hb : cancelBody e s.clearQuiesce = (u.cancelRecord slot r, .answer (.about .ok slot r [])) := by
    rw [cancelBody, State.lookup_clearQuiesce, hlook, hu]
  obtain ⟨hfetch, hracks⟩ := u.cancelRecord_fetch slot r
  have hfree := State.freeCtxs_congr (s := s) (u := u) (by rw [← hu]; rfl) (by rw [← hu]; rfl) (by rw [← hu]; rfl)
    (fun c => c.slot == slot)
  refine ⟨_, congrArg Host.Outcome.next (takeChanging_of_body (cw := cw) h hb), ?_, fun b hb => ?_, ?_, ?_, ?_,
    contextsFreed_of ?_ ?_, slabsFreed_of ?_, verifyCleared_of ?_, ?_, State.answered_of_body ?_ ?_, ?_⟩
  · rw [State.recAt_finishTaking]; exact State.recAt_freeSlot_same _ _
  · rw [State.recAt_finishTaking, State.recAt_cancelRecord_ne _ _ hb, ← hu]; rfl
  · rw [State.finishTaking_table, State.cancelRecord_rest, ← hu]; rfl
  · rw [State.finishTaking_act, State.cancelRecord_act, ← hu]; rfl
  · simp only [State.finishTaking_comb, State.cancelRecord_comb, State.inPass_iff, ← hu]
    rfl
  · rw [State.finishTaking_fetch, hfetch]
    simp only [State.clearVerify, hfree.1]
  · rw [State.finishTaking_rackUnit, hracks, hfree.2]
  · rw [State.finishTaking_act, State.cancelRecord_act, ← hu]; rfl
  · rw [State.finishTaking_fetch, hfetch, ← hu]; rfl
  · rw [State.finishTaking_notices, State.cancelRecord_rest, ← hu]; rfl
  · rw [State.cancelRecord_rest, ← hu]; rfl
  · rw [State.cancelRecord_rest, ← hu]
    simp only [State.inPass_iff]
    rfl
  · rw [State.finishTaking_rest, State.cancelRecord_rest, ← hu]; rfl

/-! ## RELEASE -/

/-- R130: what a RELEASE makes of a record, and what of the lists. -/
theorem State.releaseRecord_cases (s : State) {r : Record} (a : Slot) :
    (r.hold = .granted ∧ r.state = .fetching ∧ r.allStaged = true
      ∧ s.releaseRecord a r = s.enterCombining a { r with hold := .none })
    ∨ (r.hold = .granted ∧ r.state = .fetching ∧ r.allStaged = false
      ∧ s.releaseRecord a r = s.setRec a (some { r with hold := .none, stall := freshPeriod s.settings.stallCode s.now }))
    ∨ (r.hold = .granted ∧ r.state = .queued ∧ s.releaseRecord a r
      = (s.setRec a (some { r with hold := .none, stall := freshPeriod s.settings.stallCode s.now })).enlist a)
    ∨ (¬ (r.hold = .granted ∧ r.state = .fetching) ∧ ¬ (r.hold = .granted ∧ r.state = .queued)
      ∧ s.releaseRecord a r = s.setRec a (some { r with hold := .none })) := by
  by_cases hg : r.hold = .granted
  · cases hst : r.state <;> simp [State.releaseRecord, hg, hst, Record.restartStall, Record.mayStall, freshPeriod]
    cases r.allStaged <;> simp
  · simp [State.releaseRecord, hg]

/-- R130: what a RELEASE leaves as it is. -/
theorem State.releaseRecord_rest (s : State) (a : Slot) (r : Record) : s.releaseRecord a r = { s with
    table := { s.table with slots := (s.releaseRecord a r).table.slots }, act := (s.releaseRecord a r).act
    comb := (s.releaseRecord a r).comb } := by
  rcases s.releaseRecord_cases (r := r) a with ⟨-, -, -, e⟩ | ⟨-, -, -, e⟩ | ⟨-, -, e⟩ | ⟨-, -, e⟩ <;> rw [e] <;> rfl

/-- R130: what a RELEASE of a hold that is not NONE makes of the record `r`, of the Ready List and of the Combine Queue. -/
def Released (s : State) (act : Activation) (comb : CombineEngine) (slot : Slot) (r r' : Record) : Prop :=
  if r.hold = .granted ∧ r.state = .fetching ∧ (∀ p ∈ r.plan, ∃ v, r.survs[p]? = some v ∧ v.state = .staged) then
    r' = { r with hold := .none, state := .combining, stall := none }
    ∧ act = s.act ∧ comb = { s.comb with queue := s.comb.queue ++ [slot] }
  else if r.hold = .granted ∧ r.state = .fetching then
    r' = { r with hold := .none, stall := freshPeriod s.settings.stallCode s.now } ∧ act = s.act ∧ comb = s.comb
  else if r.hold = .granted ∧ r.state = .queued then
    r' = { r with hold := .none, stall := freshPeriod s.settings.stallCode s.now }
    ∧ (∀ a, a ∈ act.ready ↔ a = slot ∨ a ∈ s.act.ready) ∧ act = { s.act with ready := act.ready } ∧ comb = s.comb
  else r' = { r with hold := .none } ∧ act = s.act ∧ comb = s.comb

theorem State.releaseRecord_released (s : State) (slot : Slot) (r : Record) : ∃ r' : Record,
    (∀ b, (s.releaseRecord slot r).recAt b = (s.setRec slot (some r')).recAt b)
    ∧ releaseAnswer slot r = .about .ok slot r [r.hold.code, r'.state.code]
    ∧ Released s (s.releaseRecord slot r).act (s.releaseRecord slot r).comb slot r r' := by
  rcases s.releaseRecord_cases (r := r) slot with ⟨hg, hf, hall, e⟩ | ⟨hg, hf, hall, e⟩ | ⟨hg, hq, e⟩ | ⟨hf, hq, e⟩
  · refine ⟨{ r with hold := .none, state := .combining, stall := none }, fun b => by rw [e]; rfl,
      by simp [releaseAnswer, hg, hf, hall], ?_⟩
    rw [Released, if_pos ⟨hg, hf, r.allStaged_iff.mp hall⟩, e]
    exact ⟨rfl, rfl, rfl⟩
  · refine ⟨_, fun b => by rw [e], by simp [releaseAnswer, hf, hall], ?_⟩
    rw [Released, if_neg fun hc => absurd (r.allStaged_iff.mpr hc.2.2) (by simp [hall]), if_pos ⟨hg, hf⟩, e]
    exact ⟨rfl, rfl, rfl⟩
  · refine ⟨_, fun b => by rw [e, State.recAt_enlist], by simp [releaseAnswer, hq], ?_⟩
    rw [Released, if_neg (by simp [hq]), if_neg (by simp [hq]), if_pos ⟨hg, hq⟩, e]
    exact ⟨rfl, fun b => by rw [State.mem_ready_enlist]; rfl, rfl, rfl⟩
  · refine ⟨_, fun b => by rw [e], by rw [releaseAnswer, if_neg fun hc => hf ⟨hc.1, hc.2.1⟩], ?_⟩
    rw [Released, if_neg fun hc => hf ⟨hc.1, hc.2.1⟩, if_neg hf, if_neg hq, e]
    exact ⟨rfl, rfl, rfl⟩

/-- Settles O31, by the outcomes of a RELEASE. -/
theorem releaseEndsTheHold : Obligations.ReleaseEndsTheHold := by
  intro e cw s₀ slot r s h hlook
  refine ⟨fun hn => ⟨_, rfl, changing_refused h ?_⟩, fun hn => ?_⟩
  · rw [releaseBody, State.lookup_clearQuiesce, hlook]
    dsimp only
    rw [if_pos hn, State.refusal_clearQuiesce, State.refusal_of_lookup hlook]
  · generalize hu : s.clearQuiesce = u
    have hb : releaseBody e s.clearQuiesce = (u.releaseRecord slot r, .answer (releaseAnswer slot r)) := by
      rw [releaseBody, State.lookup_clearQuiesce, hlook, hu]
      exact if_neg hn
    have hrest := u.releaseRecord_rest slot r
    obtain ⟨r', hrec, hans, hout⟩ := u.releaseRecord_released slot r
    refine ⟨_, r', congrArg Host.Outcome.next (takeChanging_of_body (cw := cw) h hb), ?_, fun b hb => ?_, ?_, ?_, ?_, ?_⟩
    · rw [State.recAt_finishTaking, hrec, State.recAt_setRec_same]
    · rw [State.recAt_finishTaking, hrec, State.recAt_setRec_ne _ _ hb, ← hu]; rfl
    · rw [State.finishTaking_act, State.finishTaking_comb]
      rw [← hu] at hout ⊢
      exact hout
    · rw [hans]
      refine State.answered_of_body (before := []) ?_ ?_ <;> rw [hrest, ← hu]
      · rfl
      · simp
    · rw [State.finishTaking_notices, hrest, ← hu]; rfl
    · rw [State.finishTaking_rest, hrest, ← hu]; rfl

end Sys2Proof.Machine
end

