-- ==== Sys2Proof/Proofs/Reset.lean ====
section
/-! The state after power-on reset: its values (O4) and the invariants (O49). -/

namespace Sys2Proof.Machine

theorem reset_recAt (a : Slot) : State.reset.recAt a = none := by
  simp [State.recAt, State.reset, RepairTable.empty]

theorem reset_rackAt (k : RackId) : State.reset.rackAt k = .fresh 512 := by
  simp [State.rackAt, State.reset, RackUnit.fresh]

theorem reset_ctxAt (tag : Tag) : State.reset.ctxAt tag = none := by
  simp [State.ctxAt, State.reset, FetchEngine.fresh]

theorem reset_verifyAt (x : Slab) : State.reset.verifyAt x = false := by
  simp [State.verifyAt, State.reset, FetchEngine.fresh]

theorem reset_free : State.reset.act.free = List.finRange 3584 := by
  simp only [State.reset, Activation.fresh]

/-- R151: with the intake idle, the quiesce flag clear and no sweep, only the link bits of Status can be set. -/
theorem reset_status_low {i : Nat} (h : i < 3) : State.reset.status.getLsbD i = false := by
  have hs : ∀ a b : Bool, (BitVec.ofNat 32 (0 + 0 + 0 + (if a then 8 else 0) + (if b then 16 else 0))).getLsbD i = false := by
    have : i = 0 ∨ i = 1 ∨ i = 2 := by omega
    rcases this with rfl | rfl | rfl <;> decide
  exact hs State.reset.fetch.port0.linkUp State.reset.fetch.port1.linkUp

/-- R149: the offsets of the two size codes are the only ones that read as other than 0, Status left out. -/
theorem reset_readRegister {offset : BitVec 12} (h : offset ≠ 0x004#12) :
    State.reset.readRegister offset = if offset = 0x010#12 ∨ offset = 0x028#12 then 6 else 0 := by
  have ht : offset.toNat ≠ 4 := fun e => h (BitVec.eq_of_toNat_eq e)
  have h16 : offset = 0x010#12 ↔ offset.toNat = 16 := ⟨fun e => by rw [e]; rfl, fun e => BitVec.eq_of_toNat_eq e⟩
  have h40 : offset = 0x028#12 ↔ offset.toNat = 40 := ⟨fun e => by rw [e]; rfl, fun e => BitVec.eq_of_toNat_eq e⟩
  simp only [h16, h40]
  unfold State.readRegister
  split <;> simp_all <;> rfl

/-- Settles O4. -/
theorem resetValues : Obligations.ResetValues :=
  ⟨fun _ h => reset_readRegister h, fun _ h => reset_status_low h, reset_recAt, rfl, rfl, rfl,
    by rw [reset_free, List.length_finRange], fun x => by rw [reset_free]; exact List.mem_finRange x, reset_rackAt, rfl, reset_ctxAt,
    rfl, reset_verifyAt, rfl, rfl, rfl, rfl, rfl⟩

/-- Settles O49: the invariants of the tables from their emptiness, and those of settings, credits and window by their values. -/
theorem resetMeetsTheInvariants : Obligations.ResetMeetsTheInvariants := by
  obtain ⟨hindex, hlists, hactive, hctxs, hbounds, hslabs⟩ := invariants_of_fresh (t := State.reset) rfl rfl rfl rfl
  refine ⟨Memory.reset_wf, by unfold Settings.inRange; decide, fun k => ?_, by unfold State.windowLegal; decide, hindex,
    hlists, hactive, hctxs, fun k => ?_, hbounds, hslabs,
    ⟨fun a b x y hx => ?_, fun a x hx => ?_, List.Pairwise.nil⟩,
    ⟨List.Pairwise.nil, fun n hn => ?_, fun a r hr => ?_, by decide⟩⟩
  · rw [reset_rackAt]; decide
  · rw [reset_rackAt]
    have h : State.reset.fetch.ctxs.toList = List.replicate 256 none := by simp [State.reset, FetchEngine.fresh]
    rw [h, List.countP_replicate]
    rfl
  · rw [reset_recAt] at hx; cases hx
  · rw [reset_recAt] at hx; cases hx
  · cases hn
  · rw [reset_recAt] at hr; cases hr

end Sys2Proof.Machine
end

