-- ==== Sys2Proof/Proofs/Reckoning.lean ====
section
/-! The margin recomputation as `Reckoned` says it, and the events that end in one: AMEND (O32), END (O41), IDLE_EXPIRY (O42)
and SWEEP_VISIT (O44). -/

namespace Sys2Proof.Machine

/-! ## The recomputation -/

theorem Record.asLost_eq_lost (r : Record) : r.asLost r.freshMargin = r.lost := rfl

theorem State.notify_placed (s : State) (n : Notice) :
    (s.notify n).port = { s.port with notices := placed s.port.notices n } := by
  rw [State.notify_port, State.notify_notices]
  rfl

theorem State.enterLost_rest (s : State) (a : Slot) (r : Record) (m : Int) : s.enterLost a r m = { s with
    port := { s.port with notices := placed s.port.notices (.lost a) }
    table := { s.table with slots := (s.enterLost a r m).table.slots }, act := (s.enterLost a r m).act
    rackUnit := (s.freeCtxs fun c => c.slot == a).rackUnit
    fetch := ((s.freeCtxs fun c => c.slot == a).clearVerify r.slabs).fetch
    counters := { s.counters with lost := satAdd s.counters.lost 1 } } := by
  apply State.ext_fields <;> simp [State.enterLost, State.notify_placed, State.releaseSlabs, State.setRec, State.clearVerify]

theorem State.recAt_enterLost (s : State) (a : Slot) (r : Record) (m : Int) (b : Slot) :
    (s.enterLost a r m).recAt b = (s.setRec a (some (r.asLost m))).recAt b := by
  simp [State.enterLost, State.recAt, State.setRec]

theorem State.enterPlanWait_rest (s : State) (a : Slot) (r : Record) : s.enterPlanWait a r = { s with
    port := { s.port with notices := placed s.port.notices (.planNeeded a) }
    table := (s.setRec a (some { r with state := .planWait, stall := none })).table
    act := { s.act with ready := s.act.ready.filter (· ≠ a) } } := by
  apply State.ext_fields <;> simp [State.enterPlanWait, State.notify_placed, State.delist]

theorem State.relist_rest (s : State) (a : Slot) : s.relist a = { s with act := { s.act with ready := (s.relist a).act.ready } } := by
  unfold State.relist
  split <;> rfl

/-- R11, R12, R31, R65, R133: a recomputation is what `Reckoned` says, outcome by outcome. -/
theorem reckoned {u : State} {a : Slot} {r : Record} (hr : u.recAt a = some r) (hl : r.live = true) (lostSelected : Bool) :
    Reckoned u (u.reckon a lostSelected) a r lostSelected := by
  rcases u.reckon_cases a lostSelected with ⟨hn, -⟩ | ⟨r', hr', hcases⟩
  · rw [hn] at hr; cases hr
  obtain rfl := Option.some.inj (hr'.symm.trans hr)
  have others : ∀ x : State, (∃ y, ∀ b, x.recAt b = (u.setRec a y).recAt b) → OnlySlot u x a := by
    rintro x ⟨y, hx⟩ b hb
    rw [hx, State.recAt_setRec_ne _ _ hb]
  rcases hcases with ⟨hd, -⟩ | ⟨-, hm, e⟩ | ⟨-, hm, x, rfl, ⟨hp, e⟩ | ⟨hp, hs, e⟩ | ⟨hp, hs, e⟩⟩
  · rw [hl] at hd; cases hd
  · have hrest := u.enterLost_rest a r' r'.freshMargin
    rw [e]
    refine ⟨others _ ⟨_, u.recAt_enterLost a r' _⟩, ?_⟩
    rw [if_pos hm]
    refine ⟨by rw [State.recAt_enterLost, State.recAt_setRec_same, Record.asLost_eq_lost], fun b => ?_, contextsFreed_of ?_ ?_,
      slabsFreed_of ?_, verifyCleared_of ?_, ?_, ?_⟩
    · rw [State.enterLost_act]; simp
    · rw [hrest]; rfl
    · rw [hrest]
    · rw [State.enterLost_act]
    · rw [hrest]; rfl
    · rw [hrest]
    · exact hrest.trans (by rw [hrest])
  · refine ⟨others _ ⟨some r'.remeasured, fun b => ?_⟩, ?_⟩
    · rw [e]
      cases lostSelected
      · rfl
      · exact State.recAt_notify _ _ b
    · rw [if_neg (not_lt.mpr hm), if_pos hp, e]
      cases lostSelected
      · exact ⟨State.recAt_setRec_same _ _ _, rfl, rfl⟩
      · refine ⟨by rw [if_pos rfl, State.recAt_notify]; exact State.recAt_setRec_same _ _ _, ?_, ?_⟩
        · simp only [if_true, State.notify_placed]; rfl
        · apply State.ext_fields <;> simp [State.setRec]
  · have hrest := u.enterPlanWait_rest a ({ r' with margin := r'.freshMargin } : Record).rescore
    rw [e]
    refine ⟨others _ ⟨_, fun b => State.recAt_congr (by rw [hrest]) b⟩, ?_⟩
    rw [if_neg (not_lt.mpr hm), if_neg hp, if_pos hs]
    refine ⟨?_, fun b => ?_, ?_, ?_⟩
    · rw [State.recAt_congr (s := u.setRec a _) (by rw [hrest]), State.recAt_setRec_same]
      rfl
    · rw [hrest]; simp
    · rw [hrest]
    · exact hrest.trans (by rw [hrest]; rfl)
  · have hrest := (u.setRec a (some r'.remeasured)).relist_rest a
    rw [e]
    refine ⟨others _ ⟨some r'.remeasured, fun b => by rw [State.recAt_relist]; rfl⟩, ?_⟩
    rw [if_neg (not_lt.mpr hm), if_neg hp, if_neg (by simp [hs])]
    refine ⟨by rw [State.recAt_relist, State.recAt_setRec_same]; rfl, fun b => by rw [State.mem_ready_relist]; rfl,
      hrest.trans ?_⟩
    simp only [State.relist_table]
    rfl

/-- What a recomputation leaves of the Request Port and of what has left the part. -/
theorem State.reckon_port (s : State) (a : Slot) (b : Bool) :
    (s.reckon a b).port = { s.port with notices := (s.reckon a b).port.notices } ∧ (s.reckon a b).outputs = s.outputs := by
  rcases s.reckon_cases a b with ⟨-, e⟩ | ⟨r, -, ⟨-, e⟩ | ⟨-, -, e⟩ | ⟨-, -, x, -, ⟨-, e⟩ | ⟨-, -, e⟩ | ⟨-, -, e⟩⟩⟩ <;> rw [e]
  · exact ⟨rfl, rfl⟩
  · exact ⟨rfl, rfl⟩
  · rw [State.enterLost_rest]; exact ⟨rfl, rfl⟩
  · split
    · rw [State.notify_placed, State.notify_outputs]; exact ⟨rfl, rfl⟩
    · exact ⟨rfl, rfl⟩
  · rw [State.enterPlanWait_rest]; exact ⟨rfl, rfl⟩
  · rw [State.relist_rest]; exact ⟨rfl, rfl⟩

/-! ## A context that ends -/

section Ends

variable {s : State} {tag : Tag} {c : Ctx} {r : Record} {v : Survivor} (hc : s.ctxAt tag = some c)
  (hr : s.recAt c.slot = some r) (hv : r.survs[c.pos]? = some v)

include hc hr hv

/-- R104: the freeing of a context whose survivor the table holds. -/
theorem State.freeCtx_eq : s.freeCtx tag = (s.setCtx tag none).setRack v.rack ((s.rackAt v.rack).freed 1) := by
  have hk : s.ctxRack c = some v.rack := by simp [State.ctxRack, hr, hv]
  rw [State.freeCtx, hc]
  dsimp only
  rw [hk]

/-- R104: a context has ended where the tables of contexts and racks are those of a state with it freed. -/
theorem contextEnded_of {t : State} (fetch : t.fetch = { (s.freeCtx tag).fetch with verify := t.fetch.verify })
    (rackUnit : t.rackUnit = (s.freeCtx tag).rackUnit) : ContextEnded s t tag v.rack := by
  have heq := State.freeCtx_eq hc hr hv
  refine ⟨fun w => ?_, fun j => ?_, ?_, ?_⟩
  · rw [← State.ctxAt_freeCtx]
    have hctxs : t.fetch.ctxs = (s.freeCtx tag).fetch.ctxs := by rw [fetch]
    simp only [State.ctxAt, hctxs]
  · rw [State.rackAt_congr rackUnit, heq]
    split
    · rename_i hj
      rw [hj, State.rackAt_setRack_same]
      rfl
    · rename_i hj
      rw [State.rackAt_setRack_ne _ _ hj, State.rackAt_setCtx]
  · rw [rackUnit, heq]; rfl
  · rw [fetch, heq]; rfl

theorem State.rackAt_freeCtx_down (j : RackId) : ((s.freeCtx tag).rackAt j).down = (s.rackAt j).down := by
  rw [State.freeCtx_eq hc hr hv]
  by_cases hj : j = v.rack
  · rw [hj, State.rackAt_setRack_same]; rfl
  · rw [State.rackAt_setRack_ne _ _ hj, State.rackAt_setCtx]

end Ends

/-! ## What END and IDLE_EXPIRY make of a survivor -/

theorem State.modSurv_eq {s : State} {a : Slot} {pos : Nat} {r : Record} {v : Survivor} (hr : s.recAt a = some r)
    (hv : r.survs[pos]? = some v) (f : Survivor → Survivor) :
    s.modSurv a pos f = s.setRec a (some { r with survs := r.survs.set pos (f v) }) := by
  rw [State.modSurv, State.modRec, hr]
  exact congrArg (fun x => s.setRec a (some x)) (Record.modSurv_eq hv f)

theorem State.passMark_verify (s : State) (v : Survivor) (c : Ctx) (x : Slab) :
    (s.passMark v c).verifyAt x = if v.slab = some x then c.badCheck else s.verifyAt x := by
  unfold State.passMark
  split
  · rename_i h; simp [h]
  · rename_i y h
    rw [h]
    by_cases hx : y = x
    · simp [hx]
    · have hval : y.val ≠ x.val := fun e => hx (Fin.ext e)
      simp [State.verifyAt, State.setVerify, hx, hval]

theorem State.passMark_rest (s : State) (v : Survivor) (c : Ctx) :
    s.passMark v c = { s with fetch := { s.fetch with verify := (s.passMark v c).fetch.verify } } := by
  unfold State.passMark; split <;> rfl

section Outcomes

variable {s u : State} {tag : Tag} {c : Ctx} {r : Record} {v : Survivor} (hc : s.ctxAt tag = some c)
  (hr : s.recAt c.slot = some r) (hv : r.survs[c.pos]? = some v) (hu : u = { s.freeCtx tag with counters := u.counters })

include hc hr hv hu

/-- What a state with the context freed shares with the state before. -/
theorem freed_congr : u.table = s.table ∧ u.fetch.verify = s.fetch.verify ∧ u.fetch = (s.freeCtx tag).fetch
    ∧ u.rackUnit = (s.freeCtx tag).rackUnit := by
  rw [hu]
  refine ⟨State.freeCtx_table s tag, ?_, rfl, rfl⟩
  rw [State.freeCtx_eq hc hr hv]
  rfl

/-- R111, R116: a survivor whose context has been freed goes back to AVAILABLE. -/
theorem wentBack (f : Survivor → Survivor) : WentBack s (u.backToAvailable c v f) tag c r v (f { v with state := .available })
    ∧ (u.backToAvailable c v f).counters = u.counters := by
  obtain ⟨htable, hverify, hfetch, hracks⟩ := freed_congr hc hr hv hu
  have hmark := u.passMark_rest v c
  have hru : (u.passMark v c).recAt c.slot = some r := by rw [hmark]; exact (State.recAt_congr htable c.slot).trans hr
  rw [State.backToAvailable, State.modSurv_eq hru hv]
  refine ⟨⟨contextEnded_of hc hr hv ?_ ?_, fun b hb => ?_, State.recAt_setRec_same _ _ _, fun x => ?_, ?_⟩, ?_⟩
  · rw [State.setRec_fetch, hmark, hfetch]
  · rw [State.setRec_rackUnit, hmark, hracks]
  · rw [State.recAt_setRec_ne _ _ hb, hmark]; exact State.recAt_congr htable b
  · show (u.passMark v c).verifyAt x = _
    rw [State.passMark_verify]
    simp only [State.verifyAt, hverify]
  · rw [hmark, hu, State.freeCtx_eq hc hr hv]; rfl
  · rw [hmark]; rfl

/-- R111, R113: a survivor whose context has been freed becomes FAILED or GONE. -/
theorem wasLost (st : SurvState) (f : Survivor → Survivor) :
    WasLost s (u.loseSurvivor c v st f) tag c r v (f { v.uncover with state := st })
    ∧ (u.loseSurvivor c v st f).counters = u.counters := by
  obtain ⟨htable, hverify, hfetch, hracks⟩ := freed_congr hc hr hv hu
  obtain ⟨w, hw⟩ : ∃ w, w = u.clearVerify v.slab.toList := ⟨_, rfl⟩
  have hclear : w = { u with fetch := { u.fetch with verify := w.fetch.verify } } := by rw [hw]; rfl
  have hru : w.recAt c.slot = some r := by rw [hw, State.recAt_clearVerify, State.recAt_congr htable, hr]
  rw [State.loseSurvivor, ← hw, State.modSurv_eq hru hv]
  refine ⟨⟨contextEnded_of hc hr hv ?_ ?_, fun b hb => ?_, State.recAt_setRec_same _ _ _, verifyCleared_of ?_, ?_⟩, ?_⟩
  · rw [State.setRec_fetch, hclear, hfetch]
  · rw [State.setRec_rackUnit, hclear, hracks]
  · rw [State.recAt_setRec_ne _ _ hb, hw, State.recAt_clearVerify, State.recAt_congr htable]
  · rw [State.setRec_fetch, hw]
    simp only [State.clearVerify, hverify]
  · rw [hclear, hu, State.freeCtx_eq hc hr hv]; rfl
  · rw [hclear]; rfl

/-- R31, R113: a survivor lost to an END or to its retries, and the recomputation that follows. -/
theorem wasLost_reckoned (hl : r.state = .fetching ∨ r.state = .planWait) (st : SurvState) (f : Survivor → Survivor) :
    Reckoned (u.loseSurvivor c v st f) ((u.loseSurvivor c v st f).reckon c.slot (r.selected c.pos)) c.slot
      { r with survs := r.survs.set c.pos (f { v.uncover with state := st }) } (r.selected c.pos) :=
  reckoned (wasLost hc hr hv hu st f).1.2.2.1 ((Record.live_congr rfl).trans (r.live_iff.mpr (.inr hl))) _

end Outcomes

/-- R117: a retry counted, below the limit and at it. -/
theorem retryCounted {s : State} {tag : Tag} {c : Ctx} {r : Record} {v : Survivor} (hc : s.ctxAt tag = some c)
    (hr : s.recAt c.slot = some r) (hv : r.survs[c.pos]? = some v) (hl : r.state = .fetching ∨ r.state = .planWait) :
    RetryCounted s ((s.freeCtx tag).countRetry c r v) tag c r v := by
  have hset : (s.freeCtx tag).settings = s.settings := State.freeCtx_settings s tag
  obtain ⟨u, hu⟩ : ∃ u : State, u = { s.freeCtx tag with
    counters := { (s.freeCtx tag).counters with retries := satAdd (s.freeCtx tag).counters.retries 1 } } := ⟨_, rfl⟩
  have heq : (s.freeCtx tag).countRetry c r v = if v.retries < s.settings.retryLimit then
      u.backToAvailable c v fun v => { v with retries := v.retries + 1 }
    else (u.loseSurvivor c v (.failed .timeoutLimit) id).reckon c.slot (r.selected c.pos) := by
    rw [hu, ← hset]
    rfl
  have hcount : u.counters = { s.counters with retries := satAdd s.counters.retries 1 } := by rw [hu, State.freeCtx_counters]
  have hfreed : u = { s.freeCtx tag with counters := u.counters } := by rw [hu]
  rw [heq, RetryCounted]
  by_cases hlt : v.retries < s.settings.retryLimit
  · rw [if_pos hlt, if_pos hlt]
    have h := wentBack hc hr hv hfreed fun v => { v with retries := v.retries + 1 }
    exact ⟨h.1, h.2.trans hcount⟩
  · rw [if_neg hlt, if_neg hlt]
    have h := wasLost hc hr hv hfreed (.failed .timeoutLimit) id
    exact ⟨_, h.1, h.2.trans hcount, wasLost_reckoned hc hr hv hfreed hl _ id⟩

/-- Settles O42, along the cases of R116. -/
theorem idleExpiryTakesTheFirstCase : Obligations.IdleExpiryTakesTheFirstCase := by
  intro s₀ tag s
  have hex : exec (.idleExpiry tag) s₀ = execIdleExpiry tag s₀ := rfl
  refine ⟨fun hn => ?_, fun c r v hc hd hr hv hl => ⟨(s.freeCtx tag).expiryOutcome c r v, ?_, ?_⟩⟩
  · rw [hex, execIdleExpiry, State.event_eq, hn]
  · rw [hex, execIdleExpiry, State.event_eq, hc]
    dsimp only
    rw [if_pos hd, State.ctxSurvivor_some.mpr ⟨hr, hv⟩]
  · have hdown := State.rackAt_freeCtx_down hc hr hv v.rack
    have hport : (s.freeCtx tag).portAt c.port = s.portAt c.port := by
      rw [State.freeCtx_eq hc hr hv]
      cases c.port <;> rfl
    have hcount : (s.freeCtx tag).counters = s.counters := State.freeCtx_counters s tag
    rw [State.expiryOutcome, hdown, hport, State.freeCtx_port]
    split
    · have h := wasLost hc hr hv (u := s.freeCtx tag) rfl .gone id
      exact ⟨h.1, h.2.trans hcount⟩
    split
    · have h := wentBack hc hr hv (u := s.freeCtx tag) rfl id
      exact ⟨h.1, h.2.trans hcount⟩
    · exact retryCounted hc hr hv hl

/-- R114: the hint brought into the range from the floor to 1000 ms. -/
theorem clampTo_hint {floor hint : Nat} (h : floor ≤ 1000) :
    clampTo floor 1000 hint = if hint < floor then floor else if 1000 < hint then 1000 else hint := by
  unfold clampTo
  split_ifs <;> omega

/-- Settles O41, along the statuses of an END. -/
theorem endEndsItsContext : Obligations.EndEndsItsContext := by
  refine ⟨fun m => ?_, fun p f m s₀ => ?_⟩
  · unfold endStatus
    split <;> rfl
  intro s hm
  have hex : exec (.endArrival p f) s₀ = execEndArrival p f s₀ := rfl
  have hrun : ∀ st, endStatus m = some st → exec (.endArrival p f) s₀ = .next (s.endArrives m st) := fun st hst => by
    rw [hex, execEndArrival, State.event_eq, hm]
    dsimp only
    rw [hst]
  refine ⟨fun hno => ?_, fun c r v hc hser hr hv hl => ?_⟩
  · cases hst : endStatus m with
    | none =>
      rw [hex, execEndArrival, State.event_eq, hm]
      dsimp only
      rw [hst]
    | some st =>
      have hmatch : s.matching m = none := by
        rcases hno with h | h | ⟨c, h, hne⟩
        · rw [hst] at h; cases h
        · simp [State.matching, h]
        · simp [State.matching, h, hne]
      rw [hrun st hst, State.endArrives, hmatch]
  · intro hint ms lost
    have hmatch : s.matching m = some c := State.matching_some.mpr ⟨hc, hser⟩
    have harr : ∀ st, endStatus m = some st →
        exec (.endArrival p f) s₀ = .next ((s.freeCtx (messageTag m)).endOutcome m c r v st) := fun st hst => by
      rw [hrun st hst, State.endArrives, hmatch]
      dsimp only
      rw [State.ctxSurvivor_some.mpr ⟨hr, hv⟩]
    have hcount : (s.freeCtx (messageTag m)).counters = s.counters := State.freeCtx_counters s _
    refine ⟨fun hst => ⟨_, harr _ hst, retryCounted hc hr hv hl⟩, fun hst hfloor => ?_, fun hst => ?_, fun hst => ?_⟩
    · have hback := wentBack hc hr hv (u := s.freeCtx (messageTag m)) rfl fun v =>
        { v with holdoff := some ((s.freeCtx (messageTag m)).holdoffUntil (endHint m)) }
      refine ⟨_, harr _ hst, ?_, hback.2.trans hcount⟩
      have hms : (s.freeCtx (messageTag m)).holdoffUntil (endHint m) = s.now + ms * 1000 := by
        rw [State.holdoffUntil, State.freeCtx_now, State.freeCtx_settings, clampTo_hint hfloor]
        rfl
      rw [← hms]
      exact hback.1
    · have hlost := wasLost hc hr hv (u := s.freeCtx (messageTag m)) rfl (.failed .notHeld) fun v => { v with holdoff := none }
      exact ⟨_, _, harr _ hst, hlost.1, hlost.2.trans hcount, wasLost_reckoned hc hr hv rfl hl _ _⟩
    · have hlost := wasLost hc hr hv (u := s.freeCtx (messageTag m)) rfl (.failed .corrupt) fun v =>
        { v with holdoff := none, faultOffset := some (endFaultOffset m) }
      exact ⟨_, _, harr _ hst, hlost.1, hlost.2.trans hcount, wasLost_reckoned hc hr hv rfl hl _ _⟩

end Sys2Proof.Machine
end

