-- ==== Sys2Proof/Proofs/AmendSweep.lean ====
section
/-! The two events that change the survivors of a record before a recomputation: SWEEP_VISIT (O44) and AMEND (O32). -/

namespace Sys2Proof.Machine

/-! ## The sweep -/

theorem Survivor.uncover_eq (v : Survivor) : v.uncover = { v with
    staging := v.staging.map fun h => { slab := h.slab, cover := List.replicate h.cover.length false } } := by
  simp [Survivor.uncover]

theorem Sweep.hits_eq (w : Sweep) (v : Survivor) :
    w.hits v = ((v.state == .available || v.state == .pulling) && decide (v.rack ∈ w.downSet)) := by
  simp [Sweep.hits]

theorem Sweep.wrapped_downSet (w : Sweep) : w.wrapped.downSet = w.downSet := by unfold Sweep.wrapped; split <;> rfl

/-- R61 to R63: the slot a visit finds the sweep at, and where it leaves it. -/
theorem Sweep.wrapped_advanced (w : Sweep) (slot : Slot)
    (h : slot.val = if (decide (2048 ≤ w.position) && w.wrapMark) = true then 0 else w.position) :
    w.wrapped.position = slot.val ∧ w.wrapped.advanced = { w with
      position := if slot.val + 1 = 2048 ∧ (w.wrapMark && !(decide (2048 ≤ w.position) && w.wrapMark)) = true then 0 else slot.val + 1
      wrapMark := (w.wrapMark && !(decide (2048 ≤ w.position) && w.wrapMark)) && decide (slot.val + 1 ≠ 2048) } := by
  cases hm : w.wrapMark with
  | false => simp_all [Sweep.wrapped, Sweep.advanced]
  | true =>
    by_cases hp : 2048 ≤ w.position
    · simp_all [Sweep.wrapped, Sweep.advanced]
    · simp only [hm, hp, decide_false, Bool.false_and, Bool.false_eq_true, if_false] at h
      simp only [Sweep.wrapped, Sweep.advanced, hp, hm, false_and, if_false, h]
      by_cases hl : w.position + 1 = 2048 <;> simp [hl]

/-- R64: the records and contexts as a visit changes them, before the recomputation. -/
def State.visited (s : State) (w : Sweep) (slot : Slot) (r : Record) : State :=
  ((s.freeCtxs fun c => c.slot == slot && w.hitsAt r c.pos).setRec slot (some { r with survs := r.survs.map w.touch })).clearVerify
    ((r.survs.filter w.hits).filterMap Survivor.slab)

theorem State.visitRecord_eq (s : State) (w : Sweep) (slot : Slot) (r : Record) :
    s.visitRecord w slot r = (s.visited w slot r).reckon slot (r.plan.any (w.hitsAt r)) := rfl

/-- R64: what a visit changes before the recomputation. -/
theorem State.visited_spec (s : State) (w : Sweep) (slot : Slot) (r : Record) :
    OnlySlot s (s.visited w slot r) slot
    ∧ (s.visited w slot r).recAt slot = some { r with survs := r.survs.map w.touch }
    ∧ ContextsFreed s (s.visited w slot r) (fun c => c.slot == slot && w.hitsAt r c.pos)
    ∧ VerifyCleared s (s.visited w slot r) ((r.survs.filter w.hits).filterMap Survivor.slab)
    ∧ s.visited w slot r = { s with
        table := { s.table with slots := (s.visited w slot r).table.slots }, rackUnit := (s.visited w slot r).rackUnit
        fetch := (s.visited w slot r).fetch } := by
  refine ⟨fun b hb => ?_, ?_, contextsFreed_of rfl rfl, verifyCleared_of rfl, rfl⟩
  · rw [State.visited, State.recAt_clearVerify, State.recAt_setRec_ne _ _ hb, State.recAt_freeCtxs]
  · rw [State.visited, State.recAt_clearVerify, State.recAt_setRec_same]

/-- Settles O44, along the state of the record visited. -/
theorem sweepVisitBringsARecordUpToDate : Obligations.SweepVisitBringsARecordUpToDate := by
  refine ⟨Survivor.uncover_eq, fun s₀ slot => ?_⟩
  intro s w wraps mark after hit hrun hend hslot
  obtain ⟨hpos, hadv⟩ := w.wrapped_advanced slot hslot
  have hhits : w.wrapped.hits = hit := funext fun v => by rw [Sweep.hits_eq, Sweep.wrapped_downSet]
  have hmay : s.mayVisit = true := by
    have hnot : ¬ (w.wrapMark = false ∧ w.position = w.endPoint) := hend
    show (w.running && !(w.running && !w.wrapMark && w.position == w.endPoint)) = true
    rw [show w.running = true from hrun]
    cases hm : w.wrapMark <;> simp_all
  have hlt : w.wrapped.position < 2048 := by rw [hpos]; exact slot.isLt
  have hfin : (⟨w.wrapped.position, hlt⟩ : Slot) = slot := Fin.ext hpos
  have hex : exec .sweepVisit s₀ = .next { s.visit w.wrapped slot with
      rackUnit := { (s.visit w.wrapped slot).rackUnit with sweep := after } } := by
    show execSweepVisit s₀ = _
    rw [execSweepVisit, State.event_eq, if_pos hmay]
    dsimp only
    rw [dif_pos hlt, hfin, hadv]
  refine ⟨fun r hr hl => ?_, fun hno => ?_⟩
  · obtain ⟨h1, h2, h3, h4, h5⟩ := s.visited_spec w.wrapped slot r
    have hat : w.wrapped.hitsAt r = fun p => (r.survs[p]?).any hit := funext fun p => by rw [Sweep.hitsAt, hhits]
    have hvisit : s.visit w.wrapped slot = (s.visited w.wrapped slot r).reckon slot (r.plan.any fun p => (r.survs[p]?).any hit) := by
      rw [State.visit, hr]
      exact (if_pos (r.live_iff.mpr hl)).trans ((s.visitRecord_eq _ _ _).trans (by rw [hat]))
    have htouch : w.wrapped.touch = fun v => if hit v then { v.uncover with state := .gone } else v :=
      funext fun v => by rw [Sweep.touch, hhits]
    have hreck := reckoned h2 ((Record.live_congr rfl).trans (r.live_iff.mpr hl)) (r.plan.any (w.wrapped.hitsAt r))
    refine ⟨s.visited w.wrapped slot r, _, _, hex, h1, ?_, ?_, ?_, h5, ?_, by rw [hvisit]⟩
    · rw [h2, htouch]
    · rw [hat] at h3; exact h3
    · rw [hhits] at h4; exact h4
    · rw [htouch, hat] at hreck; exact hreck
  · have hvisit : s.visit w.wrapped slot = s := by
      unfold State.visit
      split
      · rfl
      · rename_i r hr
        refine if_neg fun hl => ?_
        rcases r.live_iff.mp hl with e | e | e <;> simpa [e] using hno r hr
    rw [hex, hvisit]

/-! ## AMEND -/

theorem Survivor.usable_iff (v : Survivor) : v.usable = true ↔ v.state = .available ∨ v.state = .pulling ∨ v.state = .staged := by
  unfold Survivor.usable
  cases v.state <;> simp

theorem Survivor.isLost_iff (v : Survivor) : v.isLost = true ↔ (∃ reason, v.state = .failed reason) ∨ v.state = .gone := by
  unfold Survivor.isLost Survivor.usable
  cases v.state <;> simp

theorem Record.freshMargin_eq (r : Record) : r.freshMargin = ((r.survs.filter fun v =>
    v.state = .available ∨ v.state = .pulling ∨ v.state = .staged).length : Int) - r.k := by
  rw [Record.freshMargin, Record.usableCount, List.countP_eq_length_filter]
  simp only [← Survivor.usable_iff, Bool.decide_eq_true]

theorem Record.selectedLost_iff (r : Record) : r.selectedLost = true ↔
    ∃ p v, p ∈ r.plan ∧ r.survs[p]? = some v ∧ ((∃ reason, v.state = .failed reason) ∨ v.state = .gone) := by
  simp only [Record.selectedLost, List.any_eq_true, Option.any_eq_true, Survivor.isLost_iff]
  exact ⟨fun ⟨p, hp, v, hv, hl⟩ => ⟨p, v, hp, hv, hl⟩, fun ⟨p, v, hp, hv, hl⟩ => ⟨p, hp, v, hv, hl⟩⟩

/-- Every outcome of a recomputation leaves a record in the slot. -/
theorem Reckoned.recAt {u t : State} {a : Slot} {r : Record} {b : Bool} (h : Reckoned u t a r b) : ∃ r', t.recAt a = some r' := by
  obtain ⟨-, h⟩ := h
  split at h
  · exact ⟨_, h.1⟩
  split at h
  · exact ⟨_, h.1⟩
  split at h
  all_goals exact ⟨_, h.1⟩

/-- R131, R132: the two ways in which an AMEND passes its tests, with the record it makes. -/
theorem amend_passes {s : State} {e : Entry} {r r₁ : Record} (hg : r.hold = .granted)
    (hl : r.state = .queued ∨ r.state = .fetching ∨ r.state = .planWait)
    (h : (amendPosOf e = r.s ∧ r.s < r.n - r.t ∧ (operandOf e 25).toNat < r.n
        ∧ (∀ v ∈ r.survs, v.frag ≠ (operandOf e 25).toNat) ∧ (∀ g ∈ r.targets, g.frag ≠ (operandOf e 25).toNat)
        ∧ r₁ = { r with survs := r.survs ++
            [{ frag := (operandOf e 25).toNat, rack := operandOf e 26, addr := amendAddrOf e, svc := amendPortOf e
               state := if (s.rackAt (operandOf e 26)).down then .gone else .available, staging := none, retries := 0
               holdoff := none, faultOffset := none }] })
      ∨ ∃ v, amendPosOf e < r.s ∧ r.survs[amendPosOf e]? = some v ∧ v.state ≠ .pulling ∧ v.state ≠ .staged
        ∧ r₁ = { r with survs := r.survs.set (amendPosOf e) { v with
            rack := operandOf e 26, addr := amendAddrOf e, svc := amendPortOf e
            state := if (s.rackAt (operandOf e 26)).down then .gone else .available, retries := 0, holdoff := none
            faultOffset := none
            staging := if v.state = .available ∧ (s.rackAt (operandOf e 26)).down = false then v.staging
              else v.uncover.staging } }) :
    testAmend e r = none ∧ s.amendRecord e r = r₁ := by
  rcases h with ⟨hpos, hroom, hfrag, hs, ht, rfl⟩ | ⟨v, hpos, hv, hnp, hns, rfl⟩
  · refine ⟨testAmend_none.mpr ⟨hg, r.live_iff.mpr hl, .inl ⟨hpos, hroom, hfrag, ?_, ?_⟩⟩, ?_⟩
    · simpa using hs
    · simpa using ht
    · rw [State.amendRecord, if_pos hpos]
      rfl
  · refine ⟨testAmend_none.mpr ⟨hg, r.live_iff.mpr hl, .inr ⟨v, hpos, hv, hnp, hns⟩⟩, ?_⟩
    rw [State.amendRecord, if_neg (by omega), Record.modSurv_eq hv]
    congr 2
    unfold State.repoint State.rackGives Survivor.uncover
    by_cases ha : v.state = .available <;> cases hd : (s.rackAt (operandOf e 26)).down <;> simp [ha, hd]

/-- Settles O32: the survivor by the ways an AMEND passes, the rest by the recomputation. -/
theorem amendSetsTheSurvivor : Obligations.AmendSetsTheSurvivor := by
  refine ⟨Survivor.usable_iff, fun r => ⟨r.freshMargin_eq, fun pos => by simp [Record.selected], r.selectedLost_iff⟩,
    fun e cw s₀ slot r => ?_⟩
  intro s pos frag k gone addr svc h hlook hg hl r₁ hr₁
  obtain ⟨htest, hrec⟩ := amend_passes (s := s) hg hl hr₁
  have hlive₁ : r₁.live = true := by
    rcases hr₁ with ⟨-, -, -, -, -, rfl⟩ | ⟨v, -, -, -, -, rfl⟩ <;> exact r.live_iff.mpr hl
  have hgives : s.rackGives k = .gone ↔ gone = true := by
    unfold State.rackGives
    split <;> simp_all [gone]
  obtain ⟨u, hu⟩ : ∃ u, u = (s.clearQuiesce.setRec slot (some r₁)).clearVerify (s.amendClears e r) := ⟨_, rfl⟩
  have hur : u.recAt slot = some r₁ := by rw [hu, State.recAt_clearVerify, State.recAt_setRec_same]
  have hreck := reckoned hur hlive₁ (gone && r.selected pos)
  obtain ⟨r₂, hr₂⟩ := hreck.recAt
  have hslot : s.clearQuiesce.amendSlot e slot r = u.reckon slot (gone && r.selected pos) := by
    have hbit : decide (s.rackGives k = .gone) = gone := by simp [hgives]
    rw [hu, ← hrec, ← hbit]
    rfl
  have hb : amendBody e s.clearQuiesce = (u.reckon slot (gone && r.selected pos),
      .answer (.about .ok slot r [0#8, r₂.state.code, marginByte r₂.margin, numByte r₂.s])) := by
    rw [amendBody, State.lookup_clearQuiesce, hlook]
    dsimp only
    rw [htest]
    dsimp only
    rw [hslot, State.amendAnswer, hr₂]
    rfl
  obtain ⟨hport, hout⟩ := u.reckon_port slot (gone && r.selected pos)
  refine ⟨u, _, _, r₂, congrArg Host.Outcome.next (takeChanging_of_body (cw := cw) h hb), fun b hb => ?_, hur, ?_, ?_, hreck, ?_,
    State.answered_of_body (before := []) ?_ ?_, State.finishTaking_notices _ _ _ _, State.finishTaking_rest _ _ _ _⟩
  · rw [hu, State.recAt_clearVerify, State.recAt_setRec_ne _ _ hb]
    rfl
  · have hclears : s.amendClears e r = if gone then ((r.survs[pos]?).bind (·.slab)).toList else [] := by
      unfold State.amendClears
      by_cases hgone : gone = true
      · exact (if_pos (hgives.mpr hgone)).trans (if_pos hgone).symm
      · exact (if_neg fun hc => hgone (hgives.mp hc)).trans (if_neg hgone).symm
    rw [← hclears, hu]
    exact verifyCleared_of rfl
  · rw [hu]; rfl
  · rw [State.recAt_finishTaking]; exact hr₂
  · rw [hport, hu]; rfl
  · rw [hout, hu]; simp

end Sys2Proof.Machine
end

