-- ==== Sys2Proof/Proofs/Spans.lean ====
section
/-! An accepted SPAN (O40): the bytes written, the granules marked, and the staging that the last of them brings. -/

namespace Sys2Proof.Machine

/-! ## The DRAM after a write -/

/-- R108: what a write leaves at each address. -/
theorem Memory.read_write (m : List Host.Cell) (a : Nat) (bytes : List Byte) (x : Nat) : Memory.read (Memory.write m a bytes) x
    = if a ≤ x ∧ x < a + bytes.length then byteAt bytes (x - a) else Memory.read m x := by
  split
  · rename_i h
    have hlt : x - a < bytes.length := by omega
    have hread := Memory.read_write_same m a bytes (x - a) hlt
    rw [show a + (x - a) = x by omega] at hread
    rw [hread]
    simp [byteAt, hlt]
  · exact Memory.read_write_other m a bytes x (by omega)

theorem byteAt_drop (l : List Byte) (n i : Nat) : byteAt (l.drop n) i = byteAt l (n + i) := by
  simp [byteAt, List.getD_eq_getElem?_getD]

/-! ## Granules -/

/-- R108: a granule lies in a span of whole granules when its first byte does. -/
theorem markCover_eq (cover : List Bool) {off len : Nat} (ho : off % 512 = 0) (hl : len % 512 = 0) : markCover cover off len
    = cover.mapIdx fun g marked => marked || decide (off ≤ 512 * g ∧ 512 * g < off + len) := by
  unfold markCover
  congr 1
  funext g marked
  have h : (off / Config.granule ≤ g ∧ g < (off + len) / Config.granule) ↔ (off ≤ 512 * g ∧ 512 * g < off + len) := by
    show (off / 512 ≤ g ∧ g < (off + len) / 512) ↔ _
    omega
  simp only [h]

/-! ## Staging -/

/-- R13, R36, R109: what a record learns of a staging. -/
theorem State.stagedIn_spec {s : State} {a : Slot} {r : Record} (hr : s.recAt a = some r) : ∃ r₂ : Record,
    (s.stagedIn a).recAt a = some r₂ ∧ OnlySlot s (s.stagedIn a) a
    ∧ (if r.state = .fetching ∧ r.hold = .none ∧ (∀ q ∈ r.plan, ∃ w, r.survs[q]? = some w ∧ w.state = .staged) then
        r₂ = { r with state := .combining, stall := none }
        ∧ (s.stagedIn a).comb = { s.comb with queue := s.comb.queue ++ [a] }
      else if r.state = .fetching ∧ r.hold = .none ∧ r.stall.isSome = true then
        r₂ = { r with stall := freshPeriod s.settings.stallCode s.now } ∧ (s.stagedIn a).comb = s.comb
      else r₂ = r ∧ (s.stagedIn a).comb = s.comb)
    ∧ s.stagedIn a = { s with
        table := { s.table with slots := (s.stagedIn a).table.slots }, comb := (s.stagedIn a).comb } := by
  have heq : s.stagedIn a = if r.state = .fetching ∧ r.hold = .none then
      if r.allStaged then s.enterCombining a r
      else s.setRec a (some (if r.stall.isSome then r.restartStall s.settings.stallCode s.now else r))
    else s := by rw [State.stagedIn, hr]
  have hall := r.allStaged_iff
  by_cases hf : r.state = .fetching ∧ r.hold = .none
  · rw [if_pos hf] at heq
    by_cases hs : r.allStaged = true
    · rw [if_pos hs] at heq
      refine ⟨{ r with state := .combining, stall := none }, ?_, fun b hb => ?_, ?_, ?_⟩
      · rw [heq]; exact State.recAt_setRec_same _ _ _
      · rw [heq]; exact State.recAt_setRec_ne s _ hb
      · rw [if_pos ⟨hf.1, hf.2, hall.mp hs⟩, heq]
        exact ⟨rfl, rfl⟩
      · rw [heq]; rfl
    · rw [if_neg hs] at heq
      refine ⟨_, by rw [heq, State.recAt_setRec_same], fun b hb => by rw [heq, State.recAt_setRec_ne _ _ hb], ?_, ?_⟩
      · rw [if_neg fun hc => hs (hall.mpr hc.2.2), heq]
        by_cases hst : r.stall.isSome = true
        · rw [if_pos ⟨hf.1, hf.2, hst⟩, if_pos hst]
          refine ⟨?_, rfl⟩
          simp [Record.restartStall, Record.mayStall, hf.1, hf.2, freshPeriod]
        · rw [if_neg fun hc => hst hc.2.2, if_neg hst]
          exact ⟨rfl, rfl⟩
      · rw [heq]; rfl
  · rw [if_neg hf] at heq
    refine ⟨r, by rw [heq, hr], fun b _ => by rw [heq], ?_, by rw [heq]⟩
    rw [if_neg fun hc => hf ⟨hc.1, hc.2.1⟩, if_neg fun hc => hf ⟨hc.1, hc.2.1⟩, heq]
    exact ⟨rfl, rfl⟩

section Accepted

variable {s : State} {tag : Tag} {c : Ctx} {r : Record} {v : Survivor} {h : Staging} (hc : s.ctxAt tag = some c)
  (hr : s.recAt c.slot = some r) (hv : r.survs[c.pos]? = some v) (hh : v.staging = some h) (off : Nat) (payload : List Byte)

/-- R108: the survivor with the granules of an accepted SPAN marked. -/
def Survivor.marked (v : Survivor) (h : Staging) (off len : Nat) : Survivor :=
  { v with staging := some { h with cover := markCover h.cover off len } }

/-- R108: the state after an accepted SPAN, before a staging. -/
def State.spanStored (s : State) (tag : Tag) (c : Ctx) (r : Record) (v : Survivor) (h : Staging) (off : Nat)
    (payload : List Byte) : State :=
  { (s.setRec c.slot (some { r with survs := r.survs.set c.pos (v.marked h off payload.length) })).setCtx tag
      (some { c with deadline := s.now + s.settings.idleTimeout * 1000 }) with
    counters := { s.counters with accepted := satAdd s.counters.accepted 1 }
    dram := Memory.write s.dram (slabAddr h.slab off) payload }

/-- R109: the state after the last granule, before the record learns of it. -/
def State.spanStaged (s : State) (tag : Tag) (c : Ctx) (r : Record) (v : Survivor) (h : Staging) (off : Nat)
    (payload : List Byte) : State :=
  { (((s.setCtx tag none).setRack v.rack ((s.rackAt v.rack).freed 1)).setRec c.slot
      (some { r with survs := r.survs.set c.pos { v.marked h off payload.length with state := .staged } })).clearVerify [h.slab] with
    counters := { s.counters with accepted := satAdd s.counters.accepted 1 }
    dram := Memory.write s.dram (slabAddr h.slab off) payload }

theorem State.recAt_spanStaged (b : Slot) : (s.spanStaged tag c r v h off payload).recAt b = (s.setRec c.slot
    (some { r with survs := r.survs.set c.pos { v.marked h off payload.length with state := .staged } })).recAt b :=
  State.recAt_congr rfl b

include hr hv hh in
theorem State.acceptSpan_eq : s.acceptSpan tag c v off payload = if coverComplete (markCover h.cover off payload.length) then
    (s.spanStored tag c r v h off payload).stage tag c (v.marked h off payload.length)
    else s.spanStored tag c r v h off payload := by
  have hcover : v.cover off payload.length = v.marked h off payload.length := by
    simp [Survivor.cover, Survivor.marked, hh]
  have hwrite : s.writeSpan v off payload = { s with dram := Memory.write s.dram (slabAddr h.slab off) payload } := by
    simp [State.writeSpan, Survivor.slab, hh]
  have hr' : (s.writeSpan v off payload).recAt c.slot = some r := by rw [hwrite]; exact hr
  rw [State.acceptSpan, State.modSurv_eq hr' hv, hcover, hwrite]
  rfl

include hv in
theorem State.stage_eq : (s.spanStored tag c r v h off payload).stage tag c (v.marked h off payload.length)
    = (s.spanStaged tag c r v h off payload).stagedIn c.slot := by
  obtain ⟨w, hw⟩ : ∃ w, w = s.spanStored tag c r v h off payload := ⟨_, rfl⟩
  have hcw : w.ctxAt tag = some { c with deadline := s.now + s.settings.idleTimeout * 1000 } := by
    rw [hw]; exact State.ctxAt_setCtx_same _ _ _
  have hrw : w.recAt c.slot = some { r with survs := r.survs.set c.pos (v.marked h off payload.length) } := by
    rw [hw]; exact State.recAt_setRec_same s _ _
  have hvw : (r.survs.set c.pos (v.marked h off payload.length))[c.pos]? = some (v.marked h off payload.length) := by
    rw [getElem?_set_of_some hv, if_pos rfl]
  have hfree := State.freeCtx_eq hcw hrw hvw
  have hrf : (w.freeCtx tag).recAt c.slot = some { r with survs := r.survs.set c.pos (v.marked h off payload.length) } := by
    rw [State.recAt_freeCtx, hrw]
  rw [State.stage, ← hw, State.modSurv_eq hrf hvw, hfree, hw]
  congr 1
  refine State.ext_fields rfl ?_ rfl rfl rfl ?_ rfl rfl rfl rfl rfl rfl rfl
  · simp [State.spanStored, State.spanStaged, State.setRec]
  · simp [State.spanStored, State.spanStaged, State.setCtx, State.setRec, State.clearVerify, Survivor.slab, Survivor.marked, State.setRack]

include hc hr hv in
/-- R109: what the table and the Fetch Engine hold after the last granule. -/
theorem State.spanStaged_spec {t : State} (hrest : t = { s.spanStaged tag c r v h off payload with
      table := { s.table with slots := t.table.slots }, comb := t.comb }) :
    ContextEnded s t tag v.rack ∧ VerifyCleared s t [h.slab] ∧ t = { s with
      table := { s.table with slots := t.table.slots }, rackUnit := t.rackUnit, fetch := t.fetch, comb := t.comb
      counters := t.counters, dram := t.dram } := by
  refine ⟨contextEnded_of hc hr hv ?_ ?_, verifyCleared_of ?_, ?_⟩
  · rw [hrest, State.freeCtx_eq hc hr hv]; rfl
  · rw [hrest, State.freeCtx_eq hc hr hv]; rfl
  · rw [hrest]; rfl
  · rw [hrest]; rfl

end Accepted

/-- Settles O40, along whether the SPAN marks the last granule. -/
theorem spanIsAcceptedAndStages : Obligations.SpanIsAcceptedAndStages := by
  intro p f m s₀ c r v h s hm hc hser hr hv hup hh off len h20 hlen hmod hmin hmax hoff hend hcheck base cover v₁ r₁
  have hpay : (spanPayload m).length = len := by rw [hlen]; exact List.length_drop
  have hmal : spanMalformed m r.length = false := by
    have h1 : spanLength m = len := rfl
    have h2 : spanOffset m = off := rfl
    simp only [spanMalformed, h1, h2, hpay, decide_eq_false_iff_not]
    omega
  have hcrc : check (spanPayload m) = spanCheck m := by
    refine BitVec.eq_of_toNat_eq (hcheck.trans ?_)
    rw [spanCheck, toNat_ofNat_of_lt (beAt_lt m 16 4)]
  have hcov : markCover h.cover off (spanPayload m).length = cover := by rw [hpay]; exact markCover_eq _ hoff hmod
  have hex : exec (.spanArrival p f) s₀ = .next (s.acceptSpan (messageTag m) c v off (spanPayload m)) := by
    show execSpanArrival p f s₀ = _
    rw [execSpanArrival, State.event_eq, hm]
    dsimp only
    rw [State.spanArrives, State.matching_some.mpr ⟨hc, hser⟩]
    dsimp only
    rw [State.ctxSurvivor_some.mpr ⟨hr, hv⟩]
    dsimp only
    rw [hup, hmal, if_neg Bool.false_ne_true, if_neg Bool.false_ne_true, if_neg (not_not.mpr hcrc)]
    rfl
  have hread : ∀ a, Memory.read (Memory.write s.dram (slabAddr h.slab off) (spanPayload m)) a
      = if base ≤ a ∧ a < base + len then byteAt m (20 + (a - base)) else Memory.read s.dram a := fun a => by
    rw [Memory.read_write, hpay, spanPayload, byteAt_drop]
    rfl
  have hacc := s.acceptSpan_eq (tag := messageTag m) hr hv hh off (spanPayload m)
  rw [hcov] at hacc
  by_cases hall : cover.all id = true
  · have hmarked : { v.marked h off (spanPayload m).length with state := .staged } = v₁ := by
      simp only [v₁, hall, Survivor.marked, hcov, if_true]
    obtain ⟨w, hw⟩ : ∃ w, w = s.spanStaged (messageTag m) c r v h off (spanPayload m) := ⟨_, rfl⟩
    have hwr : w.recAt c.slot = some r₁ := by
      rw [hw, State.recAt_spanStaged, hmarked, State.recAt_setRec_same]
    obtain ⟨r₂, h1, h2, h3, h4⟩ := State.stagedIn_spec hwr
    have hrest : w.stagedIn c.slot = { s.spanStaged (messageTag m) c r v h off (spanPayload m) with
        table := { s.table with slots := (w.stagedIn c.slot).table.slots }, comb := (w.stagedIn c.slot).comb } :=
      h4.trans (by rw [hw]; rfl)
    obtain ⟨hctx, hver, hframe⟩ := State.spanStaged_spec hc hr hv off (spanPayload m) hrest
    rw [if_pos (show coverComplete cover = true from hall), State.stage_eq hv, ← hw] at hacc
    refine ⟨_, r₂, hex.trans (congrArg Host.Outcome.next hacc), fun a => ?_, h1, fun b hb => ?_, ?_, ?_, hframe⟩
    · rw [hrest]; exact hread a
    · rw [h2 b hb, hw, State.recAt_spanStaged, State.recAt_setRec_ne _ _ hb]
    · rw [hrest]; rfl
    · rw [if_pos hall]
      refine ⟨hctx, hver, ?_⟩
      rw [hw] at h3 ⊢
      exact h3
  · have hmarked : v.marked h off (spanPayload m).length = v₁ := by
      simp only [v₁, hall, Survivor.marked, hcov]
      rfl
    rw [if_neg (show ¬ coverComplete cover = true from hall), State.spanStored, hmarked] at hacc
    refine ⟨_, r₁, hex.trans (congrArg Host.Outcome.next hacc), hread, State.recAt_setRec_same s _ _,
      fun b hb => State.recAt_setRec_ne s _ hb, rfl, ?_, rfl⟩
    rw [if_neg hall]
    refine ⟨rfl, rfl, rfl, fun u => ?_, rfl⟩
    split
    · rename_i hu
      rw [hu]; exact State.ctxAt_setCtx_same _ _ _
    · rename_i hu
      exact State.ctxAt_setCtx_ne _ _ hu

end Sys2Proof.Machine
end

