-- ==== Sys2Proof/Proofs/Passes.lean ====
section
/-! The combine passes (O48): the start of a pass, which the settling makes, the targets' writes, and the ends. -/

namespace Sys2Proof.Machine

/-! ## The start of a pass -/

theorem State.passStarted_starts {s : State} {a : Slot} {rest : List Slot} (hq : s.comb.queue = a :: rest)
    (hp : s.comb.pass = none) (hz : s.port.quiesce = false) : s.passStarted = { s with
      comb := { queue := rest, pass := some { slot := a, target := 0, checks := [], mismatch := none } } } := by
  rw [State.passStarted, if_pos (by simp [State.mayStartPass, hq, hp, hz]), hq]

theorem State.passStarted_waits {s : State} (h : s.comb.queue = [] ∨ s.comb.pass ≠ none ∨ s.port.quiesce = true) :
    s.passStarted = s := by
  refine if_neg fun hm => ?_
  obtain ⟨⟨hq, hp⟩, hz⟩ : (s.comb.queue ≠ [] ∧ s.comb.pass = none) ∧ s.port.quiesce = false := by
    simpa [State.mayStartPass] using hm
  rcases h with h | h | h
  · exact hq h
  · exact h hp
  · rw [hz] at h; cases h

/-- R139: the start of a pass looks at the Combine Engine and the quiesce flag alone. -/
theorem State.passStarted_comb_congr {s u : State} (hc : u.comb = s.comb) (hp : u.port = s.port) :
    u.passStarted.comb = s.passStarted.comb := by
  rcases s.passStarted_cases with ⟨hm, e⟩ | ⟨a, rest, hq, hn, hz, e⟩
  · have hm' : u.mayStartPass = false := by rw [← hm, State.mayStartPass, State.mayStartPass, hc, hp]
    rw [e, State.passStarted, if_neg (by simp [hm']), hc]
  · rw [e, State.passStarted_starts (a := a) (rest := rest) (by rw [hc, hq]) (by rw [hc, hn]) (by rw [hp, hz])]

theorem State.issueRun_comb (n : Nat) (s : State) : (s.issueRun n).comb = s.comb :=
  State.issueRun_induction (P := fun u => u.comb = s.comb)
    (fun u _ _ _ _ _ h _ => by rw [State.issueTo_rest]; exact h) n rfl

/-- R139, R144: the settled Combine Engine is as a PASS_START leaves it. -/
theorem State.settled_comb (s : State) : s.settled.comb = s.passStarted.comb := by
  have hserved : s.arbitersServed.comb = s.passStarted.comb := by
    rw [State.arbitersServed, State.candidatesServed, State.issueRun_comb]
    exact State.passStarted_comb_congr s.headsServed_comb s.headsServed_port
  rw [← hserved, State.settled]
  rcases s.arbitersServed.intakeBegun_cases with ⟨-, e⟩ | ⟨-, e⟩ <;> rw [e]

/-! ## The end of a pass -/

theorem Record.passed_eq (r : Record) (checks : List Word) (d : Option FaultDetail) : r.passed checks d = { r with
    state := if d = none then .delivered else .faulted
    fault := d, active := false, stall := none, hold := r.hold.afterPass
    survs := r.survs.map fun v => { v with staging := none }
    targets := r.targets.mapIdx fun j g => { g with computed := (checks[j]?).or g.computed } } := by
  have htargets : (r.withChecks checks).targets = r.targets.mapIdx fun j g => { g with computed := (checks[j]?).or g.computed } := by
    show r.targets.mapIdx _ = _
    congr 1
    funext j g
    cases checks[j]? <;> rfl
  unfold Record.passed
  rw [Record.withoutSlabs, htargets]
  cases d <;> rfl

theorem State.notify_rest (s : State) (n : Notice) :
    s.notify n = { s with port := { s.port with notices := placed s.port.notices n } } := by
  unfold State.notify placed
  by_cases h : s.port.notices.any n.sameKindAndSlot = true
  · rw [if_pos h, if_pos h]
  · rw [if_neg h, if_neg h]

/-- R129: the Notice Queue after the HOLD_GRANTED notice of a hold, if it is REQUESTED. -/
def Hold.noticed (h : Hold) (a : Slot) (queue : List Notice) : List Notice :=
  match h with
  | .requested id => placed queue (.holdGranted a id)
  | .none | .granted => queue

theorem State.grantNotice_rest (s : State) (a : Slot) (h : Hold) :
    s.grantNotice a h = { s with port := { s.port with notices := h.noticed a s.port.notices } } := by
  cases h with
  | none => rfl
  | requested id => exact s.notify_rest _
  | granted => rfl

/-- R143, R144: everything the end of a pass changes. -/
theorem State.endPass_rest (s : State) (a : Slot) (r : Record) (checks : List Word) (d : Option FaultDetail) :
    s.endPass a r checks d = { s with
      port := { s.port with
        notices := r.hold.noticed a (placed s.port.notices (if d.isNone then .delivered a else .faulted a)) }
      table := (s.setRec a (some (r.passed checks d))).table
      act := { s.act with free := r.slabs.foldr insertSlab s.act.free }
      fetch := (s.clearVerify r.slabs).fetch, comb := { s.comb with pass := none }, counters := s.counters.outcome d } := by
  rw [State.endPass, State.grantNotice_rest, State.notify_rest]
  rfl

/-- R142 to R144: the end of a pass is what `PassEnded` says, `out` having left the part before it. -/
theorem passEnded (s : State) (a : Slot) (r : Record) (checks : List Word) (d : Option FaultDetail) (out : List Output) :
    PassEnded s ((s.emit out).endPass a r checks d) a r checks d out := by
  have hrest := (s.emit out).endPass_rest a r checks d
  have hrec : ∀ b, ((s.emit out).endPass a r checks d).recAt b = (s.setRec a (some (r.passed checks d))).recAt b := fun b =>
    State.recAt_congr (by rw [hrest]; rfl) b
  have hnone : d.isNone = true ↔ d = none := Option.isNone_iff_eq_none
  refine ⟨fun b hb => ?_, ?_, slabsFreed_of ?_, verifyCleared_of ?_, ?_, ?_, ?_, ?_, ?_⟩
  · rw [hrec, State.recAt_setRec_ne _ _ hb]
  · rw [hrec, State.recAt_setRec_same, Record.passed_eq]
    cases r.hold <;> rfl
  · rw [hrest]; rfl
  · rw [hrest]; rfl
  · rw [hrest]; rfl
  · rw [hrest]
    cases r.hold <;> simp only [hnone] <;> rfl
  · rw [hrest]
    simp only [Counters.outcome, hnone]
    rfl
  · rw [hrest]; rfl
  · rw [hrest]; rfl

/-- R144, R146: after the end of a pass the settling starts the next waiting record's. -/
theorem endPass_nextStarts (s : State) (a : Slot) (r : Record) (checks : List Word) (d : Option FaultDetail) (out : List Output)
    {b : Slot} {rest : List Slot} (hq : s.comb.queue = b :: rest) (hz : s.port.quiesce = false) :
    ((s.emit out).endPass a r checks d).settled.comb
      = { queue := rest, pass := some { slot := b, target := 0, checks := [], mismatch := none } } := by
  have hrest := (s.emit out).endPass_rest a r checks d
  rw [State.settled_comb, State.passStarted_starts (a := b) (rest := rest)]
  · rw [hrest]; exact hq
  · rw [hrest]
  · rw [hrest]; exact hz

/-- R140: the lowest mismatch after one more target. -/
theorem Pass.finished_mismatch (p : Pass) (g : Target) (c : Word) :
    (p.finished g c).mismatch = p.mismatch.or (if c = g.expected then none else some p.target) := by
  cases h : p.mismatch <;> by_cases hc : c = g.expected <;> simp [Pass.finished, h, hc]

/-- Settles O48: each of the four commands by the settled state's pass. -/
theorem passesStartWriteAndEnd : Obligations.PassesStartWriteAndEnd := by
  refine ⟨fun s => ⟨fun a rest hq hp hz => ?_, fun h => ?_, fun t ht => ?_⟩, fun s₀ p r g => ?_, fun s₀ p r g => ?_⟩
  · exact congrArg Host.Outcome.next (State.passStarted_starts hq hp hz)
  · exact congrArg Host.Outcome.next (State.passStarted_waits h)
  · obtain rfl : s.passStarted = t := Host.Outcome.next.inj ht
    exact s.settled_comb
  · intro s hp hr hg bytes mismatch hlt
    show execLandingWriteComplete s₀ = _
    rw [execLandingWriteComplete, State.event_eq, State.passTarget_some.mpr ⟨hp, hr, hg⟩]
    dsimp only
    have hfin : p.finished g (check bytes) =
        { slot := p.slot, target := p.target + 1, checks := p.checks ++ [check bytes], mismatch } := by
      rw [show mismatch = (p.finished g (check bytes)).mismatch from (p.finished_mismatch g _).symm]
      rfl
    rw [if_pos hlt, hfin]
    rfl
  · intro s hp hr hg bytes mismatch nextStarts
    have hpass := State.passTarget_some.mpr ⟨hp, hr, hg⟩
    refine ⟨fun hlast => ⟨_, ?_, fun b rest hq hz => endPass_nextStarts s p.slot r _ _ _ hq hz, passEnded s p.slot r _ _ _⟩,
      ⟨_, ?_, fun b rest hq hz => endPass_nextStarts s p.slot r _ _ _ hq hz, passEnded s p.slot r _ _ _⟩⟩
    · show execPassEnd s₀ = _
      rw [execPassEnd, State.event_eq, hpass]
      dsimp only
      rw [if_pos hlast, Pass.detail, p.finished_mismatch]
      rfl
    · show execLandingFault s₀ = _
      rw [execLandingFault, State.event_eq, hpass]
      rfl

end Sys2Proof.Machine
end

