-- ==== Sys2Proof/Proofs/Replan.lean ====
section
/-! An accepted REPLAN (O34): the survivors that a new plan drops, newly selects and keeps, and the rest of its effects. -/

namespace Sys2Proof.Machine

theorem State.mem_dropped_bool (r : Record) (plan : List Nat) (p : Nat) :
    (r.dropped plan).contains p = decide (p ∈ r.plan ∧ p ∉ plan) := by
  rw [List.contains_eq_mem, decide_eq_decide]
  exact Record.mem_dropped

/-- R123, R124: everything an accepted REPLAN changes. -/
theorem State.replanSlot_frame (s : State) (a : Slot) (r : Record) (plan : List Nat) (rows : List (List Byte)) :
    s.replanSlot a r plan rows = { s with
      table := { s.table with slots := (s.replanSlot a r plan rows).table.slots }
      act := { s.act with ready := (s.replanSlot a r plan rows).act.ready }
      rackUnit := (s.freeCtxs fun c => c.slot == a && (r.dropped plan).contains c.pos).rackUnit
      fetch := ((s.freeCtxs fun c => c.slot == a && (r.dropped plan).contains c.pos).clearVerify (r.givenUp plan)).fetch } := by
  unfold State.replanSlot
  dsimp only
  split
  · split <;> rfl
  · rfl

/-- R34, R124: the stall timer after an accepted REPLAN. -/
theorem State.replanned_stall (s : State) (r : Record) (plan : List Nat) (rows : List (List Byte)) :
    (s.replanned r plan rows).stall = if r.state = .planWait then
      (if r.hold = .none then freshPeriod s.settings.stallCode s.now else none) else r.stall := by
  show (if r.state = .planWait then _ else _) = _
  by_cases hp : r.state = .planWait
  · rw [if_pos hp, if_pos hp]
    have hmay : Record.mayStall { r.withPlan plan rows with state := r.replanState } = decide (r.hold = .none) := by
      show ((r.replanState == .queued || r.replanState == .fetching) && r.hold == .none) = _
      rw [Record.replanState, if_pos hp]
      cases r.active <;> cases r.hold <;> simp
    show (if Record.mayStall _ then _ else _) = _
    rw [hmay]
    simp only [decide_eq_true_eq]
    rfl
  · rw [if_neg hp, if_neg hp]

/-- R123: what becomes of each survivor under a new plan. -/
theorem withPlan_survivor {r : Record} {plan : List Nat} (rows : List (List Byte)) (hnd : plan.Nodup) {p : Nat} {v : Survivor}
    (hv : r.survs[p]? = some v) :
    (p ∈ r.plan → p ∉ plan → (r.withPlan plan rows).survs[p]? = some v.drop)
    ∧ (∀ (j : Nat) (x : Slab), (r.newlySelected plan)[j]? = some p → (r.givenUp plan)[j]? = some x →
        (r.withPlan plan rows).survs[p]? = some { v with staging := some (r.freshStaging x) })
    ∧ (∀ j : Nat, (r.newlySelected plan)[j]? = some p → (r.givenUp plan)[j]? = none →
        (r.withPlan plan rows).survs[p]? = some v)
    ∧ ((p ∈ r.plan ↔ p ∈ plan) → (r.withPlan plan rows).survs[p]? = some v) := by
  have hget : (r.withPlan plan rows).survs[p]? = some (r.movedSurvivor plan p v) := by
    rw [Record.getElem?_withPlan, hv]
    rfl
  rw [hget]
  refine ⟨fun hp hn => ?_, fun j x hj hx => ?_, fun j hj hx => ?_, fun hiff => ?_⟩
  · rw [Record.movedSurvivor_dropped (Record.mem_dropped.mpr ⟨hp, hn⟩)]
  · rw [Record.movedSurvivor_newly hnd hj, hx]
    rfl
  · rw [Record.movedSurvivor_newly hnd hj, hx]
    rfl
  · rw [Record.movedSurvivor_kept fun h => (Record.mem_dropped.mp h).2 (hiff.mp (Record.mem_dropped.mp h).1)]
    exact fun h => (Record.mem_newlySelected.mp h).2 (hiff.mpr (Record.mem_newlySelected.mp h).1)

/-- R122: a REPLAN that passes every test. -/
theorem State.testReplan_of {s : State} {e : Entry} {b : List Byte} {a : Slot} {r : Record} (h : s.lookup (stripeOf e) = some (a, r))
    (hl : r.live = true) (hk : (byteAt b 0).toNat = r.k) (ht : (byteAt b 1).toNat = r.t)
    (hp : planOk r.survs (readPositions b 8 r.k) = true) : s.testReplan e b = .ok (a, r) := by
  rw [State.testReplan, h]
  dsimp only
  rw [if_neg (by simp [hl]), if_neg (by simp [hk, ht]), if_neg (by simp [hp])]

/-- Settles O34: the survivors one by one, the tables by their laws. -/
theorem replanMovesTheSelection : Obligations.ReplanMovesTheSelection := by
  intro e block cw s₀ slot r s b plan newly h h1 h2 h3 hlook hl hk ht hnd hplan
  have hpok : planOk r.survs plan = true := (planOk_iff _ _).mpr ⟨hnd, hplan⟩
  have htest : ∀ x : State, x.lookup (stripeOf e) = some (slot, r) → x.testReplan e b = .ok (slot, r) := fun x hx =>
    State.testReplan_of hx (r.live_iff.mpr hl) hk ht hpok
  obtain ⟨u, hu⟩ : ∃ u, u = s.clearQuiesce.readsBlock 8 planBlockSize e block := ⟨_, rfl⟩
  obtain ⟨rows, hrows⟩ : ∃ rows, rows = readRows b (8 + roundUp8 r.k) r.t r.k := ⟨_, rfl⟩
  have hb : replanBody e block s.clearQuiesce
      = (u.replanSlot slot r plan rows, .answer (.about .ok slot r [0#8, r.replanState.code])) := by
    rw [replanBody, ← hu, readBlock_of_le h1 h2 h3 (header_le_planBlockSize block)]
    dsimp only
    rw [htest u (by rw [hu]; exact hlook), hrows]
    rfl
  have hframe := u.replanSlot_frame slot r plan rows
  have hfree := State.freeCtxs_congr (s := s) (u := u) (by rw [hu]; rfl) (by rw [hu]; rfl) (by rw [hu]; rfl)
    (fun c => c.slot == slot && (r.dropped plan).contains c.pos)
  have hcontains : (fun c : Ctx => c.slot == slot && (r.dropped plan).contains c.pos)
      = fun c => c.slot == slot && decide (c.pos ∈ r.plan ∧ c.pos ∉ plan) :=
    funext fun c => by rw [State.mem_dropped_bool]
  have hnewly : newly = r.newlySelected plan := List.filter_congr fun p _ => by simp
  have hstall := u.replanned_stall r plan rows
  refine ⟨_, u.replanned r plan rows, r.givenUp plan, congrArg Host.Outcome.next (takeChanging_of_body (cw := cw) h hb),
    Record.givenUp_ascend, fun x => ?_, ?_, fun c hc => ?_, List.length_mapIdx, fun p v hv => ?_, ?_, ?_, verifyCleared_of ?_,
    fun a => ?_, State.answered_of_body ?_ ?_, ?_, ?_⟩
  · rw [Record.mem_givenUp]
    exact ⟨fun ⟨p, hp, hn, v, hv, hx⟩ => ⟨p, v, hp, hn, hv, hx⟩, fun ⟨p, v, hp, hn, hv, hx⟩ => ⟨p, hp, hn, v, hv, hx⟩⟩
  · rw [State.recAt_finishTaking, State.recAt_replanSlot, State.recAt_setRec_same]
  · rw [State.recAt_finishTaking, State.recAt_replanSlot, State.recAt_setRec_ne _ _ hc, hu]
    rfl
  · rw [hnewly]
    exact withPlan_survivor rows hnd hv
  · have heq : u.replanned r plan rows =
        { r.withPlan plan rows with state := r.replanState, stall := (u.replanned r plan rows).stall } := rfl
    rw [heq, hstall, hrows, hu]
    rfl
  · rw [← hcontains]
    refine contextsFreed_of ?_ ?_
    · rw [State.finishTaking_fetch, hframe]
      simp only [State.clearVerify, hfree.1]
    · rw [State.finishTaking_rackUnit, hframe, hfree.2]
  · rw [State.finishTaking_fetch, hframe, hu]; rfl
  · rw [State.finishTaking_act, State.mem_ready_replanSlot, hu]; rfl
  · rw [hframe, hu]; rfl
  · rw [hframe, hu, ← blockReads_eq (header_le_planBlockSize block)]; rfl
  · rw [State.finishTaking_notices, hframe, hu]; rfl
  · rw [State.finishTaking_rest, hframe, hu]; rfl

end Sys2Proof.Machine
end

