-- ==== Sys2Proof/Proofs/Snapshot.lean ====
section
/-! The QUERY snapshot (O16): where each of its parts stands, and what each part holds. -/

namespace Sys2Proof.Machine

/-! ## Numbers as bytes, and back -/

theorem leValue_leBytes (len x : Nat) : leValue (leBytes len x) = x % 256 ^ len := by
  induction len generalizing x with
  | zero => simp [leBytes, leValue, Nat.mod_one]
  | succ len ih =>
    have hstep : leValue (leBytes (len + 1) x) = x % 256 + 256 * leValue (leBytes len (x / 256)) := rfl
    rw [hstep, ih, Nat.pow_succ', Nat.mod_mul]

theorem beValue_beBytes (len x : Nat) : beValue (beBytes len x) = x % 256 ^ len := by
  rw [beValue, beBytes, List.reverse_reverse, leValue_leBytes]

@[simp] theorem length_leBytes (len x : Nat) : (leBytes len x).length = len := by
  induction len generalizing x with
  | zero => rfl
  | succ len ih => rw [leBytes, List.length_cons, ih]

@[simp] theorem length_beBytes (len x : Nat) : (beBytes len x).length = len := by simp [beBytes]

@[simp] theorem length_zeros (len : Nat) : (zeros len).length = len := List.length_replicate

theorem leAt_of_field {b : List Byte} {off len x : Nat} (h : field b off len = leBytes len x) : leAt b off len = x % 256 ^ len := by
  rw [leAt, h, leValue_leBytes]

/-- A word written in as many bytes as it has is read back. -/
theorem leAt_word {b : List Byte} {off len w : Nat} (x : BitVec w) (h : field b off len = leBytes len x.toNat)
    (hw : 2 ^ w = 256 ^ len) : leAt b off len = x.toNat := by
  rw [leAt_of_field h, ← hw, Nat.mod_eq_of_lt x.isLt]

theorem beAt_word {b : List Byte} {off len w : Nat} (x : BitVec w) (h : field b off len = beBytes len x.toNat)
    (hw : 2 ^ w = 256 ^ len) : beAt b off len = x.toNat := by
  rw [beAt, h, beValue_beBytes, ← hw, Nat.mod_eq_of_lt x.isLt]

/-! ## Parts of a byte string -/

theorem byteAt_append_left {a b : List Byte} {i : Nat} (h : i < a.length) : byteAt (a ++ b) i = byteAt a i := by
  simp [byteAt, List.getD_eq_getElem?_getD, List.getElem?_append_left h]

theorem byteAt_append_right (a b : List Byte) (i : Nat) : byteAt (a ++ b) (a.length + i) = byteAt b i := by
  simp [byteAt, List.getD_eq_getElem?_getD, List.getElem?_append_right]

theorem byteAt_of_length_le {l : List Byte} {i : Nat} (h : l.length ≤ i) : byteAt l i = 0#8 := by
  simp [byteAt, List.getD_eq_getElem?_getD, List.getElem?_eq_none h]

theorem byteAt_zeros (len i : Nat) : byteAt (zeros len) i = 0#8 := by
  rcases Nat.lt_or_ge i len with h | h
  · simp [byteAt, zeros, List.getD_eq_getElem?_getD, h]
  · exact byteAt_of_length_le (by simpa [zeros] using h)

/-! ### A field of a concatenation -/

theorem byteAt_append_of_le {a b : List Byte} {i : Nat} (h : a.length ≤ i) : byteAt (a ++ b) i = byteAt b (i - a.length) := by
  rw [← byteAt_append_right a b, Nat.add_sub_cancel' h]

@[simp] theorem byteAt_cons_zero (x : Byte) (l : List Byte) : byteAt (x :: l) 0 = x := rfl

@[simp] theorem byteAt_cons_succ (x : Byte) (l : List Byte) (i : Nat) : byteAt (x :: l) (i + 1) = byteAt l i := rfl

theorem field_append_left {a b : List Byte} {off len : Nat} (h : off + len ≤ a.length) : field (a ++ b) off len = field a off len :=
  List.map_congr_left fun i hi => byteAt_append_left (by have := List.mem_range.mp hi; omega)

theorem field_append_of_le {a b : List Byte} {off len : Nat} (h : a.length ≤ off) :
    field (a ++ b) off len = field b (off - a.length) len := by
  refine List.map_congr_left fun i _ => (byteAt_append_of_le (h.trans (Nat.le_add_right off i))).trans ?_
  rw [Nat.sub_add_comm h]
  rfl

@[simp] theorem field_cons_succ (x : Byte) (l : List Byte) (off len : Nat) : field (x :: l) (off + 1) len = field l off len :=
  List.map_congr_left fun i _ => by rw [Nat.add_right_comm, List.getD_cons_succ]

theorem field_self {l : List Byte} {len : Nat} (h : l.length = len) : field l 0 len = l := by
  subst h
  refine List.ext_getElem (length_field _ _ _) fun i h1 h2 => ?_
  simp [field, h2]

/-! ### Padding and tables -/

theorem length_padTo (len : Nat) (l : List Byte) : (padTo len l).length = len := by
  simp only [padTo, zeros, List.length_append, List.length_take, List.length_replicate]
  omega

/-- Padding a list to `len` bytes changes none of its first `len`: those past its end read as zero. -/
theorem byteAt_padTo {l : List Byte} {len i : Nat} (h : i < len) : byteAt (padTo len l) i = byteAt l i := by
  rcases Nat.lt_or_ge i l.length with hi | hi
  · rw [padTo, byteAt_append_left (by simp [h, hi]), byteAt_take h]
  · have hoff : (l.take len).length + (i - (l.take len).length) = i := by
      rw [List.length_take]
      omega
    rw [padTo, ← hoff, byteAt_append_right, byteAt_zeros, hoff, byteAt_of_length_le hi]

/-- A list of entries of `n` bytes each holds at `n * j + i` the byte `i` of entry `j`, and zero where there is no entry `j`. -/
theorem byteAt_flatMap {α : Type} {f : α → List Byte} {n i : Nat} (hf : ∀ x, (f x).length = n) (hi : i < n) (l : List α) (j : Nat) :
    byteAt (l.flatMap f) (n * j + i) = byteAt ((l[j]?.map f).getD []) i := by
  induction l generalizing j with
  | nil => rfl
  | cons x rest ih =>
    rw [List.flatMap_cons]
    cases j with
    | zero => rw [Nat.mul_zero, Nat.zero_add, byteAt_append_left (by rw [hf]; exact hi)]; rfl
    | succ j =>
      have hoff : n * (j + 1) + i = (f x).length + (n * j + i) := by rw [hf]; ring
      rw [hoff, byteAt_append_right, ih, List.getElem?_cons_succ]

/-- From `off` on, `len` bytes of `b` are the first of `p`. -/
def Places (b : List Byte) (off len : Nat) (p : List Byte) : Prop := ∀ i < len, byteAt b (off + i) = byteAt p i

theorem Places.field {b p : List Byte} {off len : Nat} (h : Places b off len p) {o n : Nat} (hn : o + n ≤ len) :
    field b (off + o) n = field p o n := by
  refine List.map_congr_left fun i hi => ?_
  have hlt : o + i < len := by
    have := List.mem_range.mp hi
    omega
  have := h (o + i) hlt
  rwa [← Nat.add_assoc] at this

theorem Places.leAt {b p : List Byte} {off len : Nat} (h : Places b off len p) {o n : Nat} (hn : o + n ≤ len) :
    leAt b (off + o) n = leAt p o n := congrArg leValue (h.field hn)

theorem Places.beAt {b p : List Byte} {off len : Nat} (h : Places b off len p) {o n : Nat} (hn : o + n ≤ len) :
    beAt b (off + o) n = beAt p o n := congrArg beValue (h.field hn)

theorem Places.append_left {a : List Byte} {len : Nat} (ha : a.length = len) (b : List Byte) : Places (a ++ b) 0 len a := fun i hi => by
  rw [Nat.zero_add, byteAt_append_left (ha ▸ hi)]

theorem Places.append_right {a b p : List Byte} {n off len : Nat} (h : Places b off len p) (ha : a.length = n) :
    Places (a ++ b) (n + off) len p := fun i hi => by
  rw [← ha, Nat.add_assoc, byteAt_append_right, h i hi]

theorem field_nil (off len : Nat) : field [] off len = List.replicate len 0#8 := by
  simp [field, List.map_const']

/-! ## The parts of the snapshot -/

/-- The first 64 bytes of the snapshot. -/
def State.snapshotHeader (s : State) (slot : Slot) (r : Record) : List Byte :=
  leBytes 2 slot.val ++ [numByte r.k, numByte r.n, numByte r.t, numByte r.s, r.lcode, numByte r.boost]
    ++ leBytes 8 r.stripe.toNat ++ leBytes 4 r.serial.toNat
    ++ [r.state.code, numByte ((if r.active then 1 else 0) + (if r.stall.isSome then 2 else 0) + (if s.inPass slot then 4 else 0)),
      r.hold.code, marginByte r.margin, dangerByte r.margin, numByte r.age, numByte r.score]
    ++ faultCodes r.fault ++ zeros 35

@[simp] theorem length_faultCodes (f : Option FaultDetail) : (faultCodes f).length = 2 := by
  unfold faultCodes
  split <;> rfl

theorem State.length_snapshotHeader (s : State) (slot : Slot) (r : Record) : (s.snapshotHeader slot r).length = 64 := by
  simp [State.snapshotHeader, length_leBytes, length_faultCodes, zeros]

theorem Target.length_snapshot (g : Target) : g.snapshot.length = 24 := rfl

theorem State.length_survSnapshot (s : State) (slot : Slot) (r : Record) (pos : Nat) (v : Survivor) :
    (s.survSnapshot slot r pos v).length = 40 := rfl

theorem State.snapshot_eq (s : State) (slot : Slot) (r : Record) : s.snapshot slot r = s.snapshotHeader slot r
    ++ (padTo 96 (r.targets.flatMap Target.snapshot)
    ++ (padTo 600 (r.survs.zipIdx.flatMap fun e => s.survSnapshot slot r e.2 e.1)
    ++ (padTo 16 (r.plan.map numByte) ++ padTo 48 (r.rows.flatMap (padTo 12))))) := by
  simp only [State.snapshot, State.snapshotHeader, List.append_assoc]

theorem State.length_snapshot (s : State) (slot : Slot) (r : Record) : (s.snapshot slot r).length = 824 := by
  simp only [State.snapshot_eq, List.length_append, length_padTo, State.length_snapshotHeader]

/-- The places of `len` bytes, a table padded to that length, `n` bytes an entry: the entry `j` of the table, if any. -/
theorem Places.entry {α : Type} {f : α → List Byte} {n len off j : Nat} {b : List Byte} {l : List α}
    (h : Places b off len (Machine.padTo len (l.flatMap f))) (hf : ∀ x, (f x).length = n) (hj : n * j + n ≤ len) :
    Places b (off + n * j) n ((l[j]?.map f).getD []) := fun i hi => by
  rw [Nat.add_assoc, h (n * j + i) (by omega), byteAt_padTo (by omega), byteAt_flatMap hf hi]

section
variable (s : State) (slot : Slot) (r : Record)

/-- The four tables of the snapshot stand behind its header, each behind the one before it. -/
theorem State.snapshot_tables : Places (s.snapshot slot r) 64 96 (padTo 96 (r.targets.flatMap Target.snapshot))
    ∧ Places (s.snapshot slot r) 160 600 (padTo 600 (r.survs.zipIdx.flatMap fun e => s.survSnapshot slot r e.2 e.1))
    ∧ Places (s.snapshot slot r) 760 16 (padTo 16 (r.plan.map numByte))
    ∧ Places (s.snapshot slot r) 776 48 (padTo 48 (r.rows.flatMap (padTo 12))) := by
  rw [State.snapshot_eq]
  have hheader := s.length_snapshotHeader slot r
  have htargets := length_padTo 96 (r.targets.flatMap Target.snapshot)
  have hsurvs := length_padTo 600 (r.survs.zipIdx.flatMap fun e => s.survSnapshot slot r e.2 e.1)
  have hplan := length_padTo 16 (r.plan.map numByte)
  have hrows : Places (padTo 48 (r.rows.flatMap (padTo 12))) 0 48 (padTo 48 (r.rows.flatMap (padTo 12))) :=
    fun i _ => by rw [Nat.zero_add]
  exact ⟨(Places.append_left htargets _).append_right (off := 0) hheader,
    ((Places.append_left hsurvs _).append_right htargets).append_right (off := 96) hheader,
    (((Places.append_left hplan _).append_right hsurvs).append_right htargets).append_right (off := 696) hheader,
    (((hrows.append_right hplan).append_right hsurvs).append_right htargets).append_right (off := 712) hheader⟩

theorem State.snapshot_target {j : Nat} (hj : j < 4) :
    Places (s.snapshot slot r) (64 + 24 * j) 24 ((r.targets[j]?.map Target.snapshot).getD []) :=
  (s.snapshot_tables slot r).1.entry Target.length_snapshot (by omega)

theorem State.snapshot_surv {pos : Nat} (hp : pos < 15) : Places (s.snapshot slot r) (160 + 40 * pos) 40
    ((r.survs[pos]?.map fun v => s.survSnapshot slot r pos v).getD []) := by
  have hentry := (s.snapshot_tables slot r).2.1.entry (n := 40) (j := pos)
    (fun e => s.length_survSnapshot slot r e.2 e.1) (by omega)
  rwa [List.getElem?_zipIdx, Option.map_map, Nat.zero_add] at hentry

theorem State.snapshot_plan {i : Nat} (hi : i < 16) :
    byteAt (s.snapshot slot r) (760 + i) = byteAt (r.plan.map numByte) i :=
  ((s.snapshot_tables slot r).2.2.1 i hi).trans (byteAt_padTo hi)

theorem State.snapshot_row {j i : Nat} (hj : j < 4) (hi : i < 12) :
    byteAt (s.snapshot slot r) (776 + 12 * j + i) = byteAt (r.rows.getD j []) i := by
  refine ((s.snapshot_tables slot r).2.2.2.entry (length_padTo 12) (by omega) i hi).trans ?_
  rw [List.getD_eq_getElem?_getD]
  cases r.rows[j]? with
  | none => rfl
  | some row => exact byteAt_padTo hi

end

/-! ## What the parts hold -/

/-- R174: the fields of a target entry. -/
theorem Target.snapshot_fields (g : Target) :
    byteAt g.snapshot 0 = BitVec.ofNat 8 g.frag
    ∧ byteAt g.snapshot 1 = (if g.computed.isSome then 1#8 else 0#8)
    ∧ leAt g.snapshot 4 4 = g.expected.toNat ∧ leAt g.snapshot 8 4 = (g.computed.getD 0).toNat
    ∧ leAt g.snapshot 16 8 = g.landing.toNat
    ∧ field g.snapshot 2 2 = [0#8, 0#8] ∧ field g.snapshot 12 4 = [0#8, 0#8, 0#8, 0#8] := by
  have hcomputed : (g.computed.map (·.toNat)).getD 0 = (g.computed.getD 0).toNat := by cases g.computed <;> rfl
  have h4 : field g.snapshot 4 4 = leBytes 4 g.expected.toNat := by
    simp [Target.snapshot, field_append_left, field_self]
  have h8 : field g.snapshot 8 4 = leBytes 4 (g.computed.getD 0).toNat := by
    simp [Target.snapshot, field_append_left, field_append_of_le, field_self, hcomputed]
  have h16 : field g.snapshot 16 8 = leBytes 8 g.landing.toNat := by
    simp [Target.snapshot, field_append_of_le, field_self]
  exact ⟨rfl, rfl, leAt_word _ h4 (by norm_num), leAt_word _ h8 (by norm_num), leAt_word _ h16 (by norm_num), rfl, rfl⟩

/-- R29, R174: the fields of a survivor entry. -/
theorem State.survSnapshot_fields (s : State) (slot : Slot) (r : Record) (pos : Nat) (v : Survivor) :
    let b := s.survSnapshot slot r pos v
    let left := (v.holdoff.filter fun u => decide (s.now < u)).map (· - s.now)
    let tag := if v.state = .pulling then s.tagOf slot pos else none
    byteAt b 0 = BitVec.ofNat 8 v.frag ∧ byteAt b 1 = v.rack
    ∧ beAt b 2 2 = v.svc.toNat ∧ beAt b 4 16 = v.addr.toNat ∧ byteAt b 20 = v.state.code
    ∧ byteAt b 21 = BitVec.ofNat 8 ((if pos ∈ r.plan then 1 else 0)
        + (if v.staging.isSome then 2 else 0) + (if tag.isSome then 4 else 0) + (if left.isSome then 8 else 0)
        + (if v.faultOffset.isSome then 16 else 0))
    ∧ byteAt b 22 = BitVec.ofNat 8 v.retries ∧ byteAt b 23 = v.state.reasonCode
    ∧ leAt b 24 2 = (v.staging.map (·.slab.val)).getD 0
    ∧ leAt b 26 2 = (v.staging.map (·.cover.count true)).getD 0 % 65536
    ∧ byteAt b 28 = tag.getD 0#8 ∧ leAt b 32 4 = left.getD 0 % 2 ^ 32
    ∧ leAt b 36 4 = (v.faultOffset.getD 0).toNat ∧ field b 29 3 = [0#8, 0#8, 0#8] := by
  intro b left tag
  have hflag : (if r.selected pos then 1 else 0) = if pos ∈ r.plan then 1 else 0 := by simp [Record.selected]
  have hslab : (v.staging.map (·.slab.val)).getD 0 < 256 ^ 2 := by
    cases v.staging with
    | none => decide
    | some h => exact h.slab.isLt.trans (by decide)
  have hcover : (v.staging.map fun h => h.cover.countP id).getD 0 = (v.staging.map (·.cover.count true)).getD 0 := by
    cases v.staging with
    | none => rfl
    | some h => exact (List.countP_congr fun b _ => by cases b <;> rfl)
  have hfault : (v.faultOffset.map (·.toNat)).getD 0 = (v.faultOffset.getD 0).toNat := by cases v.faultOffset <;> rfl
  have h2 : field b 2 2 = beBytes 2 v.svc.toNat := by
    simp [b, State.survSnapshot, field_append_left, field_self]
  have h4 : field b 4 16 = beBytes 16 v.addr.toNat := by
    simp [b, State.survSnapshot, field_append_left, field_append_of_le, field_self]
  have h24 : field b 24 2 = leBytes 2 ((v.staging.map (·.slab.val)).getD 0) := by
    simp [b, State.survSnapshot, field_append_left, field_append_of_le, field_self]
  have h26 : field b 26 2 = leBytes 2 ((v.staging.map (·.cover.count true)).getD 0) := by
    simp [b, State.survSnapshot, field_append_left, field_append_of_le, field_self, ← hcover]
  have h29 : field b 29 3 = zeros 3 := by
    simp [b, State.survSnapshot, field_append_left, field_append_of_le, field_self]
  have h32 : field b 32 4 = leBytes 4 (left.getD 0) := by
    simp [b, State.survSnapshot, field_append_left, field_append_of_le, field_self, left]
  have h36 : field b 36 4 = leBytes 4 (v.faultOffset.getD 0).toNat := by
    simp [b, State.survSnapshot, field_append_of_le, field_self, hfault]
  have h20 : byteAt b 20 = v.state.code ∧ byteAt b 22 = BitVec.ofNat 8 v.retries ∧ byteAt b 23 = v.state.reasonCode := by
    simp [b, State.survSnapshot, byteAt_append_of_le, numByte]
  have h21 : byteAt b 21 = BitVec.ofNat 8 ((if r.selected pos then 1 else 0) + (if v.staging.isSome then 2 else 0)
      + (if tag.isSome then 4 else 0) + (if left.isSome then 8 else 0) + (if v.faultOffset.isSome then 16 else 0)) := by
    simp [b, State.survSnapshot, byteAt_append_of_le, numByte, tag, left]
  have h28 : byteAt b 28 = tag.getD 0#8 := by
    simp [b, State.survSnapshot, byteAt_append_of_le, tag]
  rw [hflag] at h21
  exact ⟨rfl, rfl, beAt_word _ h2 (by norm_num), beAt_word _ h4 (by norm_num), h20.1, h21, h20.2.1, h20.2.2,
    (leAt_of_field h24).trans (Nat.mod_eq_of_lt hslab), leAt_of_field h26, h28, leAt_of_field h32,
    leAt_word _ h36 (by norm_num), h29⟩

/-- R29, R174: the fields of the header. -/
theorem State.snapshot_header (s : State) (slot : Slot) (r : Record) :
    let b := s.snapshot slot r
    leAt b 0 2 = slot.val ∧ byteAt b 2 = BitVec.ofNat 8 r.k ∧ byteAt b 3 = BitVec.ofNat 8 r.n
    ∧ byteAt b 4 = BitVec.ofNat 8 r.t ∧ byteAt b 5 = BitVec.ofNat 8 r.s ∧ byteAt b 6 = r.lcode
    ∧ byteAt b 7 = BitVec.ofNat 8 r.boost ∧ leAt b 8 8 = r.stripe.toNat ∧ leAt b 16 4 = r.serial.toNat
    ∧ byteAt b 20 = r.state.code
    ∧ byteAt b 21 = BitVec.ofNat 8 ((if r.active then 1 else 0) + (if r.stall.isSome then 2 else 0)
        + (if s.inPass slot then 4 else 0))
    ∧ byteAt b 22 = r.hold.code
    ∧ byteAt b 23 = (if r.margin < 0 then 0xFF#8 else BitVec.ofNat 8 r.margin.toNat)
    ∧ byteAt b 24 = (if r.margin < 0 then 4#8 else BitVec.ofNat 8 (3 - r.margin).toNat)
    ∧ byteAt b 25 = BitVec.ofNat 8 r.age ∧ byteAt b 26 = BitVec.ofNat 8 r.score
    ∧ field b 27 2 = faultCodes r.fault ∧ field b 29 35 = List.replicate 35 0#8 := by
  intro b
  obtain ⟨rest, hb⟩ : ∃ rest, b = s.snapshotHeader slot r ++ rest := ⟨_, s.snapshot_eq slot r⟩
  have h0 : field b 0 2 = leBytes 2 slot.val := by
    simp [hb, State.snapshotHeader, field_append_left, field_self]
  have h8 : field b 8 8 = leBytes 8 r.stripe.toNat := by
    simp [hb, State.snapshotHeader, field_append_left, field_append_of_le, field_self]
  have h16 : field b 16 4 = leBytes 4 r.serial.toNat := by
    simp [hb, State.snapshotHeader, field_append_left, field_append_of_le, field_self]
  have h27 : field b 27 2 = faultCodes r.fault := by
    simp [hb, State.snapshotHeader, field_append_left, field_append_of_le, field_self]
  have h29 : field b 29 35 = zeros 35 := by
    simp [hb, State.snapshotHeader, field_append_left, field_append_of_le, field_self]
  refine ⟨(leAt_of_field h0).trans (Nat.mod_eq_of_lt (slot.isLt.trans (by decide))), ?_⟩
  refine ⟨?_, ?_, ?_, ?_, ?_, ?_, leAt_word _ h8 (by norm_num), leAt_word _ h16 (by norm_num), ?_, ?_, ?_, ?_, ?_, ?_, ?_, h27, h29⟩
  all_goals simp [hb, State.snapshotHeader, byteAt_append_of_le, numByte, marginByte, dangerByte]

/-! ## The tag shown -/

/-- The tag found for a survivor is that of an OPEN context of it. -/
theorem State.ctxAt_of_tagOf {s : State} {slot : Slot} {pos : Nat} {tag : Tag} (h : s.tagOf slot pos = some tag) :
    ∃ c, s.ctxAt tag = some c ∧ c.slot = slot ∧ c.pos = pos := by
  obtain ⟨e, hfind, rfl⟩ := Option.map_eq_some_iff.mp h
  obtain ⟨tag, o⟩ := e
  have hmem := List.mem_of_find?_eq_some hfind
  have hopen := List.find?_some hfind
  rw [listVec_eq, List.mem_map] at hmem
  obtain ⟨i, -, hi⟩ := hmem
  obtain ⟨rfl, rfl⟩ := Prod.mk.injEq _ _ _ _ ▸ hi
  obtain ⟨c, hc, hat⟩ := (Option.any_eq_true _ _).mp hopen
  simp only [Bool.and_eq_true, beq_iff_eq] at hat
  exact ⟨c, hc, hat⟩

/-- A tag is found for a survivor that has an OPEN context. -/
theorem State.tagOf_isSome {s : State} {tag : Tag} {c : Ctx} (h : s.ctxAt tag = some c) :
    (s.tagOf c.slot c.pos).isSome = true := by
  rw [State.tagOf, Option.isSome_map, List.find?_isSome]
  refine ⟨(tag.toFin, some c), ?_, by simp⟩
  rw [listVec_eq, List.mem_map]
  exact ⟨tag.toFin, List.mem_finRange _, Prod.ext rfl h⟩

/-- R29: where each survivor has one OPEN context at most, the tag found is that of the context. -/
theorem State.tagOf_eq {s : State} (h : s.ctxsApart) {tag : Tag} {c : Ctx} (hc : s.ctxAt tag = some c) :
    s.tagOf c.slot c.pos = some tag := by
  obtain ⟨tag', htag⟩ := Option.isSome_iff_exists.mp (State.tagOf_isSome hc)
  obtain ⟨c', hc', hslot, hpos⟩ := State.ctxAt_of_tagOf htag
  rw [htag, h tag' tag c' c hc' hc hslot hpos]

/-! ## The statement -/

/-- Where a table has no entry, the places of the entry are zero. -/
theorem Places.zero {b : List Byte} {off len : Nat} (h : Places b off len []) : Machine.field b off len = List.replicate len 0#8 :=
  (h.field (o := 0) (Nat.zero_add len).le).trans (field_nil 0 len)

theorem State.snapshot_target_fields (s : State) (slot : Slot) (r : Record) {j : Nat} {g : Target} (hg : r.targets[j]? = some g)
    (hj : j < 4) :
    let b := s.snapshot slot r
    byteAt b (64 + 24 * j) = BitVec.ofNat 8 g.frag
    ∧ byteAt b (64 + 24 * j + 1) = (if g.computed.isSome then 1#8 else 0#8)
    ∧ leAt b (64 + 24 * j + 4) 4 = g.expected.toNat
    ∧ leAt b (64 + 24 * j + 8) 4 = (g.computed.getD 0).toNat
    ∧ leAt b (64 + 24 * j + 16) 8 = g.landing.toNat
    ∧ field b (64 + 24 * j + 2) 2 = [0#8, 0#8] ∧ field b (64 + 24 * j + 12) 4 = [0#8, 0#8, 0#8, 0#8] := by
  have h := s.snapshot_target slot r hj
  rw [hg] at h
  obtain ⟨hfrag, hflag, hexpected, hcomputed, hlanding, hpad, hpad'⟩ := g.snapshot_fields
  exact ⟨(h 0 (by decide)).trans hfrag, (h 1 (by decide)).trans hflag, (h.leAt (by decide)).trans hexpected,
    (h.leAt (by decide)).trans hcomputed, (h.leAt (by decide)).trans hlanding, (h.field (by decide)).trans hpad,
    (h.field (by decide)).trans hpad'⟩

/-- Settles O16: each part of the snapshot stands at its place, and in each part the fields at theirs. -/
theorem snapshotLayout : Obligations.SnapshotLayout := by
  intro s slot r b
  obtain ⟨hslot, hk, hn, ht, hs, hlcode, hboost, hstripe, hserial, hstate, hflags, hhold, hmargin, hdanger, hage, hscore, hfault,
    hpad⟩ := s.snapshot_header slot r
  refine ⟨s.length_snapshot slot r, hslot, hk, hn, ht, hs, hlcode, hboost, hstripe, hserial, hstate, hflags, hhold, hmargin, hdanger,
    hage, hscore, hfault, hpad, fun j g hg hj => s.snapshot_target_fields slot r hg hj, fun j ht hj => ?_, fun pos v hv hp => ?_,
    fun pos hs hp => ?_, fun i p hp hi => ?_, fun j row i c hrow hc hj hi => ?_, fun i hi hi' => ?_, fun j i hj hi hrow => ?_, ?_,
    fun pos tag h => State.ctxAt_of_tagOf h, fun hx => ⟨fun tag c hc hcs => ?_, fun pos v hr hv hpull => ?_⟩⟩
  · have h := s.snapshot_target slot r hj
    rw [List.getElem?_eq_none ht] at h
    exact h.zero
  · have h := s.snapshot_surv slot r hp
    rw [hv] at h
    intro left tag
    obtain ⟨hfrag, hrack, hsvc, haddr, hstate, hflags, hretries, hreason, hslab, hcover, htag, hleft, hoffset, hpad⟩ :=
      s.survSnapshot_fields slot r pos v
    exact ⟨(h 0 (by decide)).trans hfrag, (h 1 (by decide)).trans hrack, (h.beAt (by decide)).trans hsvc,
      (h.beAt (by decide)).trans haddr, (h 20 (by decide)).trans hstate, (h 21 (by decide)).trans hflags,
      (h 22 (by decide)).trans hretries, (h 23 (by decide)).trans hreason, (h.leAt (by decide)).trans hslab,
      (h.leAt (by decide)).trans hcover, (h 28 (by decide)).trans htag, (h.leAt (by decide)).trans hleft,
      (h.leAt (by decide)).trans hoffset, (h.field (by decide)).trans hpad⟩
  · have h := s.snapshot_surv slot r hp
    rw [List.getElem?_eq_none hs] at h
    exact h.zero
  · rw [s.snapshot_plan slot r hi]
    simp [byteAt, List.getD_eq_getElem?_getD, hp, numByte]
  · rw [s.snapshot_row slot r hj hi]
    simp [byteAt, List.getD_eq_getElem?_getD, hrow, hc]
  · rw [s.snapshot_plan slot r hi', byteAt_of_length_le (by simpa using hi)]
  · rw [s.snapshot_row slot r hj hi, byteAt_of_length_le hrow]
  · exact (s.inPass_iff slot).trans Option.map_eq_some_iff
  · rw [← hcs]
    exact State.tagOf_eq hx.apart hc
  · obtain ⟨tag, c, hc, rfl, rfl⟩ := hx.2.1 slot r pos v hr hv hpull
    exact State.tagOf_isSome hc

end Sys2Proof.Machine

end

/-! What the steps of the part do to the Ready List and to the staging DRAM, said once as a relation between states, and the two
invariants that rest on it: the order of the Ready List (O59) and the canonical form of the DRAM (O50). -/

namespace Sys2Proof.Machine

/-! ## The order of a list of slots -/

/-- Placing keeps a list ordered where the new entry compares with every other. -/
theorem placeBy_pairwise {before : Slot → Slot → Bool} {a : Slot} {l : List Slot}
    (trans : ∀ x y z, before x y = true → before y z = true → before x z = true)
    (total : ∀ b ∈ l, before a b = false → before b a = true) (h : l.Pairwise fun x y => before x y = true) :
    (placeBy before a l).Pairwise fun x y => before x y = true := by
  induction l with
  | nil => exact List.pairwise_singleton _ a
  | cons b rest ih =>
    obtain ⟨hb, hrest⟩ := List.pairwise_cons.mp h
    unfold placeBy
    split
    · rename_i hab
      refine List.pairwise_cons.mpr ⟨fun c hc => ?_, h⟩
      rcases List.mem_cons.mp hc with rfl | hc
      · exact hab
      · exact trans a b c hab (hb c hc)
    · rename_i hab
      have hba : before b a = true := total b List.mem_cons_self (by simpa using hab)
      refine List.pairwise_cons.mpr ⟨fun c hc => ?_, ih (fun c hc => total c (List.mem_cons_of_mem b hc)) hrest⟩
      rcases (mem_placeBy before a c rest).mp hc with rfl | hc
      · exact hba
      · exact hb c hc

/-- R40: what it takes for one slot to come before another. -/
theorem State.before_iff (s : State) (a b : Slot) : s.before a b = true ↔ ∃ x y, s.recAt a = some x ∧ s.recAt b = some y
    ∧ (y.score < x.score ∨ (x.score = y.score ∧ x.order < y.order)) := by
  unfold State.before
  split
  · rename_i x y hx hy
    simp [Record.before, hx, hy]
  · rename_i hno
    refine iff_of_false Bool.false_ne_true ?_
    rintro ⟨x, y, hx, hy, -⟩
    exact hno x y hx hy

theorem State.before_trans (s : State) (a b c : Slot) (h : s.before a b = true) (h' : s.before b c = true) :
    s.before a c = true := by
  rw [State.before_iff] at h h' ⊢
  obtain ⟨x, y, hx, hy, hxy⟩ := h
  obtain ⟨y', z, hy', hz, hyz⟩ := h'
  obtain rfl := Option.some.inj (hy.symm.trans hy')
  exact ⟨x, z, hx, hz, by omega⟩

/-- R40: of two records with different places in the order of admission one comes before the other. -/
theorem State.before_total {s : State} {a b : Slot} {x y : Record} (hx : s.recAt a = some x) (hy : s.recAt b = some y)
    (hne : x.order ≠ y.order) (h : s.before a b = false) : s.before b a = true := by
  have hn : ¬ (y.score < x.score ∨ (x.score = y.score ∧ x.order < y.order)) := fun hc =>
    Bool.false_ne_true (h.symm.trans ((s.before_iff a b).mpr ⟨x, y, hx, hy, hc⟩))
  exact (s.before_iff b a).mpr ⟨y, x, hy, hx, by omega⟩

/-! ## What the order looks at -/

/-- `r'` stands where `r` does in the record order, and is QUEUED if `r` is. -/
def Record.RanksAs (r r' : Record) : Prop :=
  r'.order = r.order ∧ r'.score = r.score ∧ (r.state = .queued → r'.state = .queued)

theorem Record.RanksAs.refl (r : Record) : r.RanksAs r := ⟨rfl, rfl, id⟩

theorem Record.RanksAs.optionRefl (o : Option Record) : Option.Rel Record.RanksAs o o := by
  cases o with
  | none => exact .none
  | some r => exact .some (.refl r)

/-- R40, R42, R43: the ordered Ready List, its records QUEUED. -/
structure State.InOrder (s : State) : Prop where
  apart : ∀ a b x y, s.recAt a = some x → s.recAt b = some y → a ≠ b → x.order ≠ y.order
  below : ∀ a x, s.recAt a = some x → x.order < s.table.admitted
  sorted : s.act.ready.Pairwise fun a b => s.before a b = true
  queued : ∀ a ∈ s.act.ready, ∃ x, s.recAt a = some x ∧ x.state = .queued

theorem State.inOrder_of_lists {s : State} (hl : s.listsExact) (h : s.readyOrdered) : s.InOrder := by
  obtain ⟨h1, h2, h3⟩ := h
  refine ⟨h1, h2, h3.imp fun hab => (s.before_iff _ _).mpr hab, fun a ha => ?_⟩
  obtain ⟨r, hr, hq, -⟩ := (hl.1 a).mp ha
  exact ⟨r, hr, hq⟩

theorem State.InOrder.readyOrdered {s : State} (h : s.InOrder) : s.readyOrdered :=
  ⟨h.apart, h.below, h.sorted.imp fun hab => (s.before_iff _ _).mp hab⟩

/-! ## One change -/

/-- One change of the records, of the Ready List or of the DRAM, as the steps of the part make them. -/
inductive Change (s t : State) : Prop
  /-- Every record keeps its place, and the list stays. -/
  | ranked (recs : ∀ b, Option.Rel Record.RanksAs (s.recAt b) (t.recAt b)) (admitted : t.table.admitted = s.table.admitted)
      (ready : t.act.ready = s.act.ready) (dram : t.dram = s.dram)
  /-- The record of a slot changes or ends, and the slot leaves the list if it can be on it. -/
  | off (a : Slot) (r : Record) (o' : Option Record) (slot : SlotChange s t a (some r) o')
      (order : ∀ r', o' = some r' → r'.order = r.order) (admitted : t.table.admitted = s.table.admitted)
      (ready : t.act.ready = s.act.ready.filter (· ≠ a) ∨ t.act.ready = s.act.ready ∧ r.state ≠ .queued) (dram : t.dram = s.dram)
  /-- The record of a slot, QUEUED or in the state in which it was listed, takes its place in the list. -/
  | placed (a : Slot) (r r' : Record) (slot : SlotChange s t a (some r) (some r')) (order : r'.order = r.order)
      (admitted : t.table.admitted = s.table.admitted) (state : r'.state = .queued ∨ a ∈ s.act.ready ∧ r'.state = r.state)
      (ready : t.act.ready = placeBy t.before a (s.act.ready.filter (· ≠ a))) (dram : t.dram = s.dram)
  /-- A record is admitted behind every other, and takes its place in the list. -/
  | admitted (a : Slot) (r' : Record) (slot : SlotChange s t a none (some r')) (order : r'.order = s.table.admitted)
      (admitted : t.table.admitted = s.table.admitted + 1) (state : r'.state = .queued)
      (ready : t.act.ready = placeBy t.before a (s.act.ready.filter (· ≠ a))) (dram : t.dram = s.dram)
  /-- The table and the list become empty, and the DRAM may too. -/
  | reset (table : t.table = .empty) (act : t.act = .fresh) (dram : t.dram = s.dram ∨ t.dram = [])
  /-- Bytes are written into the DRAM. -/
  | write (table : t.table = s.table) (act : t.act = s.act) (addr : Nat) (bytes : List Byte)
      (dram : t.dram = Memory.write s.dram addr bytes)

/-- The order among slots that keep their records. -/
theorem State.before_congr {s t : State} {a b : Slot} (ha : t.recAt a = s.recAt a) (hb : t.recAt b = s.recAt b) :
    t.before a b = s.before a b := by
  rw [State.before, State.before, ha, hb]

section Changes

variable {s t : State}

theorem State.InOrder.of_ranked (h : s.InOrder) (recs : ∀ b, Option.Rel Record.RanksAs (s.recAt b) (t.recAt b))
    (admitted : t.table.admitted = s.table.admitted) (ready : t.act.ready = s.act.ready) : t.InOrder := by
  have forth : ∀ {a x}, s.recAt a = some x → ∃ x', t.recAt a = some x' ∧ x.RanksAs x' := fun {a x} hx => by
    have hrel := recs a
    rw [hx] at hrel
    cases e : t.recAt a with
    | none => rw [e] at hrel; cases hrel
    | some x' => rw [e] at hrel; cases hrel with | some h => exact ⟨x', rfl, h⟩
  have back : ∀ {a x'}, t.recAt a = some x' → ∃ x, s.recAt a = some x ∧ x.RanksAs x' := fun {a x'} hx' => by
    have hrel := recs a
    rw [hx'] at hrel
    cases e : s.recAt a with
    | none => rw [e] at hrel; cases hrel
    | some x => rw [e] at hrel; cases hrel with | some h => exact ⟨x, rfl, h⟩
  refine ⟨fun a b x y hx hy hab => ?_, fun a x hx => ?_, ?_, fun a ha => ?_⟩
  · obtain ⟨x₀, hx₀, ex, -⟩ := back hx
    obtain ⟨y₀, hy₀, ey, -⟩ := back hy
    rw [ex, ey]
    exact h.apart a b x₀ y₀ hx₀ hy₀ hab
  · obtain ⟨x₀, hx₀, ex, -⟩ := back hx
    rw [ex, admitted]
    exact h.below a x₀ hx₀
  · rw [ready]
    refine h.sorted.imp fun hab => ?_
    obtain ⟨x, y, hx, hy, hlt⟩ := (s.before_iff _ _).mp hab
    obtain ⟨x', hx', ex, sx, -⟩ := forth hx
    obtain ⟨y', hy', ey, sy, -⟩ := forth hy
    exact (t.before_iff _ _).mpr ⟨x', y', hx', hy', by rw [ex, ey, sx, sy]; exact hlt⟩
  · obtain ⟨x, hx, hq⟩ := h.queued a (ready ▸ ha)
    obtain ⟨x', hx', -, -, hq'⟩ := forth hx
    exact ⟨x', hx', hq' hq⟩

/-- The order of admission after a change of one slot, whose record keeps its place in it or stands behind every other. -/
theorem State.InOrder.admission (h : s.InOrder) {a : Slot} {o o' : Option Record} (slot : SlotChange s t a o o')
    (order : ∀ r', o' = some r' → (∃ r, o = some r ∧ r'.order = r.order) ∨ r'.order = s.table.admitted)
    (le : s.table.admitted ≤ t.table.admitted) (lt : ∀ r', o' = some r' → r'.order < t.table.admitted) :
    (∀ b c x y, t.recAt b = some x → t.recAt c = some y → b ≠ c → x.order ≠ y.order)
    ∧ ∀ b x, t.recAt b = some x → x.order < t.table.admitted := by
  have apart : ∀ c x y, t.recAt a = some x → t.recAt c = some y → c ≠ a → x.order ≠ y.order := by
    intro c x y hx hy hc
    have hy₀ := slot.others c hc ▸ hy
    rcases order x (slot.after.symm.trans hx) with ⟨x₀, hx₀, e⟩ | e
    · rw [e]
      exact h.apart a c x₀ y (slot.before.trans hx₀) hy₀ (Ne.symm hc)
    · rw [e]
      exact (h.below c y hy₀).ne'
  refine ⟨fun b c x y hx hy hbc => ?_, slot.forall_iff (P := fun _ x => x.order < t.table.admitted)
    (fun b x hx => (h.below b x hx).trans_le le) lt⟩
  by_cases hb : b = a
  · subst hb
    exact apart c x y hx hy (Ne.symm hbc)
  by_cases hc : c = a
  · subst hc
    exact (apart b y x hy hx hb).symm
  · exact h.apart b c x y (slot.others b hb ▸ hx) (slot.others c hc ▸ hy) hbc

/-- The list without one slot stays ordered where every other slot keeps its record. -/
theorem State.InOrder.sorted_filter (h : s.InOrder) {a : Slot} (others : OnlySlot s t a) :
    (s.act.ready.filter (· ≠ a)).Pairwise fun x y => t.before x y = true := by
  refine (h.sorted.filter _).imp_of_mem fun {x y} hx hy hxy => ?_
  have hx' : x ≠ a := by simpa using (List.mem_filter.mp hx).2
  have hy' : y ≠ a := by simpa using (List.mem_filter.mp hy).2
  rw [State.before_congr (others x hx') (others y hy')]
  exact hxy

theorem State.InOrder.queued_filter (h : s.InOrder) {a b : Slot} (others : OnlySlot s t a)
    (hb : b ∈ s.act.ready.filter (· ≠ a)) : ∃ x, t.recAt b = some x ∧ x.state = .queued := by
  obtain ⟨hmem, hne⟩ := List.mem_filter.mp hb
  rw [others b (by simpa using hne)]
  exact h.queued b hmem

theorem State.InOrder.not_ready (h : s.InOrder) {a : Slot} {r : Record} (hr : s.recAt a = some r) (hq : r.state ≠ .queued) :
    a ∉ s.act.ready := fun ha => by
  obtain ⟨x, hx, hxq⟩ := h.queued a ha
  obtain rfl := Option.some.inj (hr.symm.trans hx)
  exact hq hxq

/-- A list that lacks a slot is itself without it. -/
theorem filter_ne_self {l : List Slot} {a : Slot} (h : a ∉ l) : l.filter (· ≠ a) = l :=
  List.filter_eq_self.mpr fun b hb => by simpa using fun e : b = a => h (e ▸ hb)

theorem State.InOrder.of_off (h : s.InOrder) {a : Slot} {r : Record} {o' : Option Record} (slot : SlotChange s t a (some r) o')
    (order : ∀ r', o' = some r' → r'.order = r.order) (admitted : t.table.admitted = s.table.admitted)
    (ready : t.act.ready = s.act.ready.filter (· ≠ a) ∨ t.act.ready = s.act.ready ∧ r.state ≠ .queued) : t.InOrder := by
  have hready : t.act.ready = s.act.ready.filter (· ≠ a) := by
    rcases ready with e | ⟨e, hq⟩
    · exact e
    · rw [e, filter_ne_self (h.not_ready slot.before hq)]
  obtain ⟨apart, below⟩ := h.admission slot (fun r' hr' => .inl ⟨r, rfl, order r' hr'⟩) admitted.ge fun r' hr' => by
    rw [order r' hr', admitted]
    exact h.below a r slot.before
  refine ⟨apart, below, hready ▸ h.sorted_filter slot.others, fun b hb => ?_⟩
  rw [hready] at hb
  exact h.queued_filter slot.others hb

/-- R40, R43: a QUEUED record that takes its place in the list. -/
theorem State.InOrder.of_placed (h : s.InOrder) {a : Slot} {o : Option Record} {r' : Record}
    (slot : SlotChange s t a o (some r')) (order : (∃ r, o = some r ∧ r'.order = r.order) ∨ r'.order = s.table.admitted)
    (le : s.table.admitted ≤ t.table.admitted) (lt : r'.order < t.table.admitted) (state : r'.state = .queued)
    (ready : t.act.ready = placeBy t.before a (s.act.ready.filter (· ≠ a))) : t.InOrder := by
  obtain ⟨apart, below⟩ := h.admission slot (by rintro _ ⟨⟩; exact order) le (by rintro _ ⟨⟩; exact lt)
  refine ⟨apart, below, ?_, fun b hb => ?_⟩
  · rw [ready]
    refine placeBy_pairwise t.before_trans (fun b hb hab => ?_) (h.sorted_filter slot.others)
    obtain ⟨y, hy, -⟩ := h.queued_filter slot.others hb
    have hne : b ≠ a := by simpa using (List.mem_filter.mp hb).2
    exact State.before_total slot.after hy (apart a b r' y slot.after hy (Ne.symm hne)) hab
  · rw [ready, mem_placeBy] at hb
    rcases hb with rfl | hb
    · exact ⟨r', slot.after, state⟩
    · exact h.queued_filter slot.others hb

theorem State.InOrder.of_empty (table : t.table = .empty) (act : t.act = .fresh) : t.InOrder := by
  have hr : ∀ a, t.recAt a = none := fun a => by simp [State.recAt, table, RepairTable.empty]
  have hready : t.act.ready = [] := by rw [act]; rfl
  exact ⟨fun a b x y hx => by simp [hr] at hx, fun a x hx => by simp [hr] at hx, by simp [hready], by simp [hready]⟩

/-- R43: a change keeps the Ready List in order. -/
theorem Change.inOrder (hc : Change s t) (h : s.InOrder) : t.InOrder := by
  cases hc with
  | ranked recs admitted ready => exact h.of_ranked recs admitted ready
  | off a r o' slot order admitted ready => exact h.of_off slot order admitted ready
  | placed a r r' slot order admitted state ready =>
    refine h.of_placed slot (.inl ⟨r, rfl, order⟩) admitted.ge ?_ ?_ ready
    · rw [order, admitted]
      exact h.below a r slot.before
    · rcases state with hq | ⟨hmem, hst⟩
      · exact hq
      · obtain ⟨x, hx, hq⟩ := h.queued a hmem
        obtain rfl := Option.some.inj (slot.before.symm.trans hx)
        exact hst.trans hq
  | admitted a r' slot order admitted state ready =>
    exact h.of_placed slot (.inr order) (by omega) (by omega) state ready
  | reset table act => exact .of_empty table act
  | write table act =>
    exact h.of_ranked (fun b => by rw [State.recAt_congr table b]; exact Record.RanksAs.optionRefl _) (by rw [table]) (by rw [act])

/-- A change keeps the DRAM in its canonical form. -/
theorem Change.dramWf (hc : Change s t) (h : Memory.wf s.dram) : Memory.wf t.dram := by
  cases hc with
  | ranked _ _ _ dram => exact dram ▸ h
  | off _ _ _ _ _ _ _ dram => exact dram ▸ h
  | placed _ _ _ _ _ _ _ _ dram => exact dram ▸ h
  | admitted _ _ _ _ _ _ _ dram => exact dram ▸ h
  | reset _ _ dram =>
    rcases dram with e | e
    · exact e ▸ h
    · exact e ▸ Memory.reset_wf
  | write _ _ addr bytes dram => exact dram ▸ Memory.write_wf h addr bytes

end Changes

/-! ## Runs of changes -/

/-- From `s` to `t` the records, the Ready List and the DRAM went through changes. -/
def Evolves : State → State → Prop := Relation.ReflTransGen Change

theorem Evolves.refl (s : State) : Evolves s s := Relation.ReflTransGen.refl

theorem Evolves.trans {s u t : State} (h : Evolves s u) (h' : Evolves u t) : Evolves s t := Relation.ReflTransGen.trans h h'

theorem Evolves.of_change {s t : State} (h : Change s t) : Evolves s t := Relation.ReflTransGen.single h

theorem Evolves.inOrder {s t : State} (h : Evolves s t) (hs : s.InOrder) : t.InOrder := by
  induction h with
  | refl => exact hs
  | tail _ hc ih => exact hc.inOrder ih

theorem Evolves.dramWf {s t : State} (h : Evolves s t) (hs : Memory.wf s.dram) : Memory.wf t.dram := by
  induction h with
  | refl => exact hs
  | tail _ hc ih => exact hc.dramWf ih

/-! ### Changes that leave every record in its place -/

theorem Evolves.of_ranked {s t : State} (recs : ∀ b, Option.Rel Record.RanksAs (s.recAt b) (t.recAt b))
    (admitted : t.table.admitted = s.table.admitted) (ready : t.act.ready = s.act.ready) (dram : t.dram = s.dram) :
    Evolves s t := .of_change (.ranked recs admitted ready dram)

/-- A change of nothing that the relation looks at. -/
theorem Evolves.of_fields {s t : State} (table : t.table = s.table) (act : t.act = s.act) (dram : t.dram = s.dram) :
    Evolves s t :=
  .of_ranked (fun b => by rw [State.recAt_congr table b]; exact Record.RanksAs.optionRefl _) (by rw [table]) (by rw [act]) dram

/-- One record changes in its place. -/
theorem Evolves.of_rec {s t : State} {a : Slot} {r r' : Record} (slot : SlotChange s t a (some r) (some r')) (h : r.RanksAs r')
    (admitted : t.table.admitted = s.table.admitted) (ready : t.act.ready = s.act.ready) (dram : t.dram = s.dram) :
    Evolves s t := by
  refine .of_ranked (fun b => ?_) admitted ready dram
  by_cases hb : b = a
  · subst hb
    rw [slot.before, slot.after]
    exact .some h
  · rw [slot.others b hb]
    exact Record.RanksAs.optionRefl _

theorem Evolves.setRec {s : State} {a : Slot} {r r' : Record} (hr : s.recAt a = some r) (h : r.RanksAs r') :
    Evolves s (s.setRec a (some r')) := .of_rec (.setRec hr) h rfl rfl rfl

theorem Record.RanksAs.modSurv (r : Record) (pos : Nat) (f : Survivor → Survivor) : r.RanksAs (r.modSurv pos f) := ⟨rfl, rfl, id⟩

theorem Evolves.modSurv (s : State) (a : Slot) (pos : Nat) (f : Survivor → Survivor) : Evolves s (s.modSurv a pos f) := by
  rw [State.modSurv, State.modRec]
  split
  · exact .refl s
  · exact .setRec ‹_› (.modSurv _ pos f)

theorem Evolves.emit (s : State) (o : List Output) : Evolves s (s.emit o) := .of_fields rfl rfl rfl
theorem Evolves.setRack (s : State) (k : RackId) (e : Rack) : Evolves s (s.setRack k e) := .of_fields rfl rfl rfl
theorem Evolves.clearQuiesce (s : State) : Evolves s s.clearQuiesce := .of_fields rfl rfl rfl
theorem Evolves.clearVerify (s : State) (l : List Slab) : Evolves s (s.clearVerify l) := .of_fields (by simp) (by simp) (by simp)
theorem Evolves.freeCtx (s : State) (tag : Tag) : Evolves s (s.freeCtx tag) := .of_fields (by simp) (by simp) (by simp)
theorem Evolves.notify (s : State) (n : Notice) : Evolves s (s.notify n) := .of_fields (by simp) (by simp) (by simp)

/-! ### Changes of the list -/

/-- A record changes or ends, and its slot leaves the list. -/
theorem Evolves.of_delisted {s t : State} {a : Slot} {r : Record} {o' : Option Record} (slot : SlotChange s t a (some r) o')
    (order : ∀ r', o' = some r' → r'.order = r.order) (admitted : t.table.admitted = s.table.admitted)
    (ready : t.act.ready = s.act.ready.filter (· ≠ a)) (dram : t.dram = s.dram) : Evolves s t :=
  .of_change (.off a r o' slot order admitted (.inl ready) dram)

/-- A record that is not QUEUED changes or ends. -/
theorem Evolves.of_unlisted {s t : State} {a : Slot} {r : Record} {o' : Option Record} (slot : SlotChange s t a (some r) o')
    (hq : r.state ≠ .queued) (order : ∀ r', o' = some r' → r'.order = r.order) (admitted : t.table.admitted = s.table.admitted)
    (ready : t.act.ready = s.act.ready) (dram : t.dram = s.dram) : Evolves s t :=
  .of_change (.off a r o' slot order admitted (.inr ⟨ready, hq⟩) dram)

theorem State.before_enlist (s : State) (a : Slot) : (s.enlist a).before = s.before :=
  funext fun x => funext fun y => State.before_congr (s.recAt_enlist a x) (s.recAt_enlist a y)

/-- R43: the list after a slot joins it. -/
theorem State.enlist_ready (s : State) (a : Slot) :
    (s.enlist a).act.ready = placeBy (s.enlist a).before a (s.act.ready.filter (· ≠ a)) := by
  rw [State.before_enlist]
  rfl

/-- R43: a record takes its place in the list. -/
theorem Evolves.enlist {s u : State} {a : Slot} {r r' : Record} (slot : SlotChange s u a (some r) (some r'))
    (order : r'.order = r.order) (state : r'.state = .queued ∨ a ∈ s.act.ready ∧ r'.state = r.state)
    (admitted : u.table.admitted = s.table.admitted) (ready : u.act.ready = s.act.ready) (dram : u.dram = s.dram) :
    Evolves s (u.enlist a) :=
  .of_change (.placed a r r' (slot.congr fun b => u.recAt_enlist a b) order (by simpa using admitted) state
    (ready ▸ u.enlist_ready a) (by simpa using dram))

/-- R43: a record with a new score moves in the list if it is listed. -/
theorem Evolves.relist {s : State} {a : Slot} {r r' : Record} (hr : s.recAt a = some r) (order : r'.order = r.order)
    (state : r'.state = r.state) : Evolves s ((s.setRec a (some r')).relist a) := by
  unfold State.relist
  split
  · rename_i hmem
    exact .enlist (.setRec hr) order (.inr ⟨hmem, state⟩) rfl rfl rfl
  · rename_i hmem
    exact .of_delisted (.setRec hr) (by rintro _ ⟨⟩; exact order) rfl (filter_ne_self hmem).symm rfl

/-! ### The shared operations -/

theorem State.slotChange_enterPlanWait {s : State} {a : Slot} {r₀ : Record} (hr : s.recAt a = some r₀) (r : Record) :
    SlotChange s (s.enterPlanWait a r) a (some r₀) (some { r with state := .planWait, stall := none }) :=
  (SlotChange.setRec hr).congr fun b => by simp [State.enterPlanWait]

/-- R11, R12, R31: a margin recomputed, and its outcome. -/
theorem Evolves.reckon (s : State) (a : Slot) (lostSelected : Bool) : Evolves s (s.reckon a lostSelected) := by
  rcases s.reckon_cases a lostSelected with ⟨-, e⟩ | ⟨r, hr, ⟨-, e⟩ | ⟨-, -, e⟩ | ⟨-, -, r', rfl, h⟩⟩
  · rw [e]; exact .refl s
  · rw [e]; exact .refl s
  · rw [e]
    exact .of_delisted (State.slotChange_enterLost hr _) (by rintro _ ⟨⟩; rfl) (by rw [s.enterLost_rest]) (by rw [s.enterLost_act])
      (by simp)
  rcases h with ⟨hp, e⟩ | ⟨-, -, e⟩ | ⟨-, -, e⟩ <;> rw [e]
  · have hset : Evolves s (s.setRec a (some ({ r with margin := r.freshMargin } : Record).rescore)) :=
      .of_unlisted (.setRec hr) (by simp [hp]) (by rintro _ ⟨⟩; rfl) rfl rfl rfl
    split
    · exact hset.trans (.notify _ _)
    · exact hset
  · exact .of_delisted (State.slotChange_enterPlanWait hr _) (by rintro _ ⟨⟩; rfl) (by rw [State.enterPlanWait_rest]; rfl)
      (by rw [State.enterPlanWait_rest]) (by simp)
  · exact .relist hr rfl rfl

/-- R13: a FETCHING record enters COMBINING. -/
theorem Evolves.enterCombining {s : State} {a : Slot} {r : Record} (hr : s.recAt a = some r) (hf : r.state = .fetching)
    (hold : Hold) : Evolves s (s.enterCombining a { r with hold }) := by
  refine .of_rec (r' := { r with hold, state := .combining, stall := none })
    ((SlotChange.setRec hr).congr fun b => State.recAt_congr rfl b) ⟨rfl, rfl, fun hq => ?_⟩ rfl rfl rfl
  rw [hf] at hq
  cases hq

theorem Evolves.stagedIn (s : State) (a : Slot) : Evolves s (s.stagedIn a) := by
  unfold State.stagedIn
  split
  · exact .refl s
  rename_i r hr
  split
  · rename_i h
    split
    · exact .enterCombining hr h.1 r.hold
    · refine .setRec hr ?_
      split <;> exact ⟨rfl, rfl, id⟩
  · exact .refl s

/-! ### What the part does of itself -/

theorem Evolves.activate {s : State} {a : Slot} {r : Record} (h : s.headToActivate = some (a, r)) : Evolves s (s.activate a r) := by
  obtain ⟨-, hr, -⟩ := State.headToActivate_some.mp h
  exact .of_delisted (s.slotChange_activate hr) (by rintro _ ⟨⟩; rfl) rfl (s.activate_ready a r) rfl

theorem Evolves.passStarted (s : State) : Evolves s s.passStarted := by
  rcases s.passStarted_cases with ⟨-, e⟩ | ⟨_, _, -, -, -, e⟩ <;> rw [e]
  · exact .refl s
  · exact .of_fields rfl rfl rfl

theorem Evolves.issueTo {s : State} {tag : Tag} {a : Slot} {r : Record} {pos : Nat} {v : Survivor}
    (h : s.decision = some (tag, a, r, pos, v)) : Evolves s (s.issueTo tag a r pos v) := by
  obtain ⟨-, -, -, hr, -⟩ := State.decision_some.mp h
  exact .of_rec ((SlotChange.setRec hr).congr fun b => s.recAt_issueTo tag a r pos v b) (.modSurv r pos _)
    (by rw [State.issueTo_rest]) (by rw [State.issueTo_rest]) (by rw [State.issueTo_rest])

theorem Evolves.arbitersServed (s : State) : Evolves s s.arbitersServed :=
  State.arbitersServed_induction (P := Evolves s) (fun _ _ _ h hs => h.trans (.activate hs)) (fun _ h => h.trans (.passStarted _))
    (fun _ _ _ _ _ _ h hs => h.trans (.issueTo hs)) (.refl s)

theorem Evolves.intakeBegun (s : State) : Evolves s s.intakeBegun := by
  rcases s.intakeBegun_cases with ⟨-, e⟩ | ⟨-, e⟩ <;> rw [e]
  · exact .refl s
  · exact .of_fields rfl rfl rfl

theorem Evolves.settled (s : State) : Evolves s s.settled := (Evolves.arbitersServed s).trans (.intakeBegun _)

/-! ### Resets and the register window -/

theorem Evolves.powerOn (s : State) : Evolves s s.powerOn := .of_change (.reset rfl rfl (.inr rfl))

theorem Evolves.writeControl (s : State) (value : Word) : Evolves s (s.writeControl value) := by
  unfold State.writeControl
  split
  · exact .of_change (.reset rfl rfl (.inl rfl))
  · exact .of_fields rfl rfl rfl

theorem Evolves.placeRequestRing (s : State) (reg : RingReg) (value : Word) : Evolves s (s.placeRequestRing reg value) := by
  unfold State.placeRequestRing
  split
  · exact .of_fields rfl rfl rfl
  · exact .refl s

theorem Evolves.placeCompletionRing (s : State) (reg : RingReg) (value : Word) : Evolves s (s.placeCompletionRing reg value) := by
  unfold State.placeCompletionRing
  split
  · exact .of_fields rfl rfl rfl
  · exact .refl s

theorem Evolves.writeTail (s : State) (value : Word) : Evolves s (s.writeTail value) := .of_fields rfl rfl rfl
theorem Evolves.writeCplHead (s : State) (value : Word) : Evolves s (s.writeCplHead value) := .of_fields rfl rfl rfl

theorem Evolves.writeArm (s : State) (value : Word) : Evolves s (s.writeArm value) := by
  unfold State.writeArm
  split
  · split <;> exact .of_fields rfl rfl rfl
  · exact .of_fields rfl rfl rfl

theorem Evolves.writeRegister (s : State) (offset : BitVec 12) (value : Word) : Evolves s (s.writeRegister offset value) := by
  unfold State.writeRegister
  split
  · exact .writeControl s value
  · exact .placeRequestRing s _ value
  · exact .placeRequestRing s _ value
  · exact .placeRequestRing s _ value
  · exact .writeTail s value
  · exact .placeCompletionRing s _ value
  · exact .placeCompletionRing s _ value
  · exact .placeCompletionRing s _ value
  · exact .writeCplHead s value
  · exact .writeArm s value
  · exact .refl s

/-! ### The requests -/

theorem Evolves.finishTaking (s : State) (e : Entry) (cw : Dma) (r : Reply) : Evolves s (s.finishTaking e cw r) :=
  .of_fields (by simp) (by simp) (by simp)

theorem Evolves.takeChanging {e : Entry} {body : State → State × Reply} (h : ∀ u, Evolves u (body u).1) (op : Byte) (cw : Dma)
    (s : State) : Evolves s (s.takeChanging e op cw body) := by
  unfold State.takeChanging
  dsimp only
  split
  · exact ((Evolves.clearQuiesce s).trans (h _)).trans (.finishTaking _ _ _ _)
  · exact .refl s

theorem Evolves.takeReading {e : Entry} {body : State → State × Reply} (h : ∀ u, Evolves u (body u).1) (op : Byte) (cw : Dma)
    (s : State) : Evolves s (s.takeReading e op cw body) := by
  unfold State.takeReading
  split
  · exact (h s).trans (.finishTaking _ _ _ _)
  · exact .refl s

/-- R24: an admission. -/
theorem Evolves.admitAt {s : State} {a : Slot} (h : s.recAt a = none) (id : StripeId) (o : OpenBlock) :
    Evolves s (s.admitAt a id o) :=
  .of_change (.admitted a _ (State.slotChange_admitAt h id o) rfl (by rw [State.admitAt_table]) rfl (State.enlist_ready _ a) rfl)

theorem Evolves.openBody (e : Entry) (block : List Byte) (s : State) : Evolves s (openBody e block s).1 := by
  unfold Machine.openBody
  dsimp only
  split
  · exact .emit _ _
  · rename_i h
    obtain ⟨-, -, -, hfree, -⟩ := State.testOpen_ok h
    exact (Evolves.emit s _).trans (.admitAt (State.lowestFreeSlot_none hfree) _ _)

theorem Evolves.cancelBody (e : Entry) (s : State) : Evolves s (cancelBody e s).1 := by
  unfold Machine.cancelBody
  split
  · exact .refl s
  · rename_i h
    exact .of_delisted (State.slotChange_cancelRecord (State.lookup_some h).2) (by rintro _ ⟨⟩) (by rw [State.cancelRecord_rest])
      (by rw [State.cancelRecord_act]) (by rw [State.cancelRecord_rest])

theorem Evolves.retireBody (e : Entry) (s : State) : Evolves s (retireBody e s).1 := by
  unfold Machine.retireBody
  split
  · exact .refl s
  rename_i r h
  split
  · rename_i ht
    refine .of_unlisted (State.slotChange_freeSlot (State.lookup_some h).2) (fun hq => ?_) (by rintro _ ⟨⟩) rfl rfl rfl
    simp [Record.terminal, hq] at ht
  · exact .refl s

theorem Evolves.queryBody (e : Entry) (s : State) : Evolves s (queryBody e s).1 := by
  unfold Machine.queryBody
  split
  · exact .refl s
  · split <;> exact .refl s

/-- R41: a new boost changes neither the order of admission nor the state. -/
theorem Record.withBoost_keeps (r : Record) (boost : Nat) :
    (r.withBoost boost).order = r.order ∧ (r.withBoost boost).state = r.state := by
  unfold Record.withBoost
  split <;> exact ⟨rfl, rfl⟩

theorem Evolves.reprioritizeBody (e : Entry) (s : State) : Evolves s (reprioritizeBody e s).1 := by
  unfold Machine.reprioritizeBody
  split
  · exact .refl s
  · rename_i h
    obtain ⟨horder, hstate⟩ := Record.withBoost_keeps _ (min (operandOf e 24).toNat 3)
    exact .relist (State.lookup_some h).2 horder hstate

theorem Evolves.rackDownBody (e : Entry) (s : State) : Evolves s (rackDownBody e s).1 := by
  unfold Machine.rackDownBody
  dsimp only
  split
  · exact .refl s
  · exact .of_fields rfl rfl rfl

theorem Evolves.rackUpBody (e : Entry) (s : State) : Evolves s (rackUpBody e s).1 := by
  unfold Machine.rackUpBody
  dsimp only
  split
  · exact .refl s
  · exact .setRack _ _ _

theorem Evolves.rackClassBody (e : Entry) (s : State) : Evolves s (rackClassBody e s).1 := .setRack _ _ _

theorem Evolves.quiesceBody (s : State) : Evolves s (quiesceBody s).1 := .of_fields rfl rfl rfl

theorem Evolves.holdBody (e : Entry) (s : State) : Evolves s (holdBody e s).1 := by
  unfold Machine.holdBody
  split
  · exact .refl s
  rename_i a r h
  have hr := (State.lookup_some h).2
  split
  · exact .refl s
  split
  · exact .setRec hr ⟨rfl, rfl, id⟩
  · dsimp only
    split
    · exact .of_delisted ((SlotChange.setRec hr).congr fun b => State.recAt_delist _ a b) (by rintro _ ⟨⟩; rfl) rfl rfl rfl
    · exact .setRec hr ⟨rfl, rfl, id⟩

theorem Evolves.releaseRecord {s : State} {a : Slot} {r : Record} (hr : s.recAt a = some r) : Evolves s (s.releaseRecord a r) := by
  rcases s.releaseRecord_cases (r := r) a with ⟨-, hf, -, e⟩ | ⟨-, -, -, e⟩ | ⟨-, hq, e⟩ | ⟨-, -, e⟩ <;> rw [e]
  · exact .enterCombining hr hf .none
  · exact .setRec hr ⟨rfl, rfl, id⟩
  · exact .enlist (.setRec hr) rfl (.inl hq) rfl rfl rfl
  · exact .setRec hr ⟨rfl, rfl, id⟩

theorem Evolves.releaseBody (e : Entry) (s : State) : Evolves s (releaseBody e s).1 := by
  unfold Machine.releaseBody
  split
  · exact .refl s
  rename_i h
  split
  · exact .refl s
  · exact .releaseRecord (State.lookup_some h).2

theorem Record.RanksAs.amendRecord (s : State) (e : Entry) (r : Record) : r.RanksAs (s.amendRecord e r) := by
  unfold State.amendRecord
  split <;> exact ⟨rfl, rfl, id⟩

theorem Evolves.amendBody (e : Entry) (s : State) : Evolves s (amendBody e s).1 := by
  unfold Machine.amendBody
  split
  · exact .refl s
  rename_i h
  split
  · exact .refl s
  · exact ((Evolves.setRec (State.lookup_some h).2 (.amendRecord s e _)).trans (.clearVerify _ _)).trans (.reckon _ _ _)

/-- R123, R124: an accepted REPLAN. -/
theorem Evolves.replanSlot {s : State} {a : Slot} {r : Record} (hr : s.recAt a = some r) (plan : List Nat)
    (rows : List (List Byte)) : Evolves s (s.replanSlot a r plan rows) := by
  have hslot : ∀ (u : State) (o' : Option Record), u.table = s.table → SlotChange s (u.setRec a o') a (some r) o' := fun u o' hu =>
    (SlotChange.setRec hr).congr (State.setRec_congr a o' hu)
  unfold State.replanSlot
  dsimp only
  split
  · rename_i hp
    split
    · rename_i h
      refine .enlist (hslot _ _ (by simp)) rfl (.inl ?_) (by simp [State.setRec]) (by simp) (by simp)
      simp [Record.restartStall, Record.replanState, hp, h.1]
    · refine .of_rec (hslot _ _ (by simp)) ⟨rfl, rfl, fun hq => ?_⟩ (by simp [State.setRec]) (by simp) (by simp)
      rw [hp] at hq
      cases hq
  · rename_i hp
    refine .of_rec (hslot _ _ (by simp)) ⟨rfl, rfl, fun hq => ?_⟩ (by simp [State.setRec]) (by simp) (by simp)
    simpa [Record.replanState, hp] using hq

theorem Evolves.replanBody (e : Entry) (block : List Byte) (s : State) : Evolves s (replanBody e block s).1 := by
  unfold Machine.replanBody
  dsimp only
  split
  · exact .emit _ _
  split
  · exact .emit _ _
  · rename_i h
    exact (Evolves.emit s _).trans (.replanSlot (State.lookup_some (State.testReplan_ok h).1).2 _ _)

theorem Evolves.restartTimers (s : State) (code : Nat) : Evolves s (s.restartTimers code) := by
  refine .of_ranked (fun a => ?_) rfl rfl rfl
  rw [State.recAt_restartTimers]
  cases s.recAt a with
  | none => exact .none
  | some r => exact .some ⟨rfl, rfl, id⟩

theorem Evolves.storeSettings (s : State) (g : Settings) : Evolves s (s.storeSettings g) := by
  unfold State.storeSettings
  dsimp only
  generalize hs₁ : (if g.bucketDepth < s.settings.bucketDepth then _ else s : State) = s₁
  have h₁ : Evolves s s₁ := by
    rw [← hs₁]
    split
    · exact .of_fields rfl rfl rfl
    · exact .refl s
  split
  · exact (h₁.trans (.restartTimers s₁ _)).trans (.of_fields rfl rfl rfl)
  · exact h₁.trans (.of_fields rfl rfl rfl)

theorem Evolves.setParamsBody (e : Entry) (block : List Byte) (s : State) : Evolves s (setParamsBody e block s).1 := by
  unfold Machine.setParamsBody
  dsimp only
  split
  · exact .emit _ _
  · exact (Evolves.emit s _).trans (.storeSettings _ _)

theorem Evolves.identifyBody (e : Entry) (s : State) : Evolves s (identifyBody e s).1 := by
  unfold Machine.identifyBody
  split <;> exact .refl s

theorem Evolves.reportBody (e : Entry) (s : State) : Evolves s (reportBody e s).1 := by
  unfold Machine.reportBody
  split
  · exact .refl s
  · split
    · exact .of_fields rfl rfl rfl
    · exact .refl s

theorem Evolves.bufferEnd (s : State) (job : BufferJob) (bw : Dma) : Evolves s (s.bufferEnd job bw) := by
  unfold State.bufferEnd
  dsimp only
  split
  · exact .of_fields rfl rfl rfl
  · split <;> exact .of_fields rfl rfl rfl

theorem Evolves.headNoticeWritten (s : State) (cw : Dma) : Evolves s (s.headNoticeWritten cw) := by
  unfold State.headNoticeWritten
  split
  · exact .refl s
  split
  · dsimp only
    split <;> exact .of_fields rfl rfl rfl
  · exact .refl s

/-! ### The fabric and the sweep -/

theorem Evolves.passMark (s : State) (v : Survivor) (c : Ctx) : Evolves s (s.passMark v c) := by
  unfold State.passMark
  split
  · exact .refl s
  · exact .of_fields rfl rfl rfl

theorem Evolves.backToAvailable (s : State) (c : Ctx) (v : Survivor) (f : Survivor → Survivor) :
    Evolves s (s.backToAvailable c v f) := (Evolves.passMark s v c).trans (.modSurv _ _ _ _)

theorem Evolves.loseSurvivor (s : State) (c : Ctx) (v : Survivor) (st : SurvState) (f : Survivor → Survivor) :
    Evolves s (s.loseSurvivor c v st f) := (Evolves.clearVerify s _).trans (.modSurv _ _ _ _)

theorem Evolves.countRetry (s : State) (c : Ctx) (r : Record) (v : Survivor) : Evolves s (s.countRetry c r v) := by
  unfold State.countRetry
  dsimp only
  have hcount : Evolves s { s with counters := { s.counters with retries := satAdd s.counters.retries 1 } } :=
    .of_fields rfl rfl rfl
  split
  · exact hcount.trans (.backToAvailable _ _ _ _)
  · exact (hcount.trans (.loseSurvivor _ _ _ _ _)).trans (.reckon _ _ _)

theorem Evolves.endArrives (s : State) (m : List Byte) (st : EndStatus) : Evolves s (s.endArrives m st) := by
  unfold State.endArrives
  split
  · exact .refl s
  split
  · exact .freeCtx s _
  refine (Evolves.freeCtx s (messageTag m)).trans ?_
  cases st with
  | ok => exact .countRetry _ _ _ _
  | busy =>
    unfold State.endOutcome
    exact .backToAvailable _ _ _ _
  | notHeld => exact (Evolves.loseSurvivor _ _ _ _ _).trans (.reckon _ _ _)
  | corrupt => exact (Evolves.loseSurvivor _ _ _ _ _).trans (.reckon _ _ _)

theorem Evolves.expiryOutcome (s : State) (c : Ctx) (r : Record) (v : Survivor) : Evolves s (s.expiryOutcome c r v) := by
  unfold State.expiryOutcome
  split
  · exact .loseSurvivor _ _ _ _ _
  split
  · exact .backToAvailable _ _ _ _
  · exact .countRetry _ _ _ _

/-- R108: the payload of an accepted SPAN is written into its slab. -/
theorem Evolves.writeSpan (s : State) (v : Survivor) (off : Nat) (payload : List Byte) : Evolves s (s.writeSpan v off payload) := by
  unfold State.writeSpan
  split
  · exact .refl s
  · exact .of_change (.write rfl rfl _ _ rfl)

theorem Evolves.stage (s : State) (tag : Tag) (c : Ctx) (v : Survivor) : Evolves s (s.stage tag c v) :=
  (((Evolves.freeCtx s tag).trans (.modSurv _ _ _ _)).trans (.clearVerify _ _)).trans (.stagedIn _ _)

theorem Evolves.acceptSpan (s : State) (tag : Tag) (c : Ctx) (v : Survivor) (off : Nat) (payload : List Byte) :
    Evolves s (s.acceptSpan tag c v off payload) := by
  unfold State.acceptSpan
  dsimp only
  have h := ((Evolves.writeSpan s v off payload).trans (.modSurv _ c.slot c.pos fun v => v.cover off payload.length))
  generalize (s.writeSpan v off payload).modSurv c.slot c.pos (fun v => v.cover off payload.length) = s₁ at h ⊢
  split
  · refine Evolves.trans ?_ (.stage _ _ _ _)
    exact h.trans (.of_fields rfl rfl rfl)
  · exact h.trans (.of_fields rfl rfl rfl)

theorem Evolves.spanArrives (s : State) (m : List Byte) : Evolves s (s.spanArrives m) := by
  unfold State.spanArrives
  split
  · exact .of_fields rfl rfl rfl
  split
  · exact .of_fields rfl rfl rfl
  split
  · exact .of_fields rfl rfl rfl
  split
  · exact .of_fields rfl rfl rfl
  split
  · exact .of_fields rfl rfl rfl
  · exact .acceptSpan _ _ _ _ _ _

theorem Evolves.visit (s : State) (w : Sweep) (a : Slot) : Evolves s (s.visit w a) := by
  unfold State.visit
  split
  · exact .refl s
  rename_i r hr
  split
  · have hset : Evolves s ((s.freeCtxs fun c => c.slot == a && w.hitsAt r c.pos).setRec a (some { r with survs := r.survs.map w.touch })) :=
      .of_rec ((SlotChange.setRec hr).congr (State.setRec_congr a _ rfl)) ⟨rfl, rfl, id⟩ rfl rfl rfl
    exact (hset.trans (.clearVerify _ _)).trans (.reckon _ _ _)
  · exact .refl s

/-! ## Every command and every step -/

/-- An event is an evolution when its own effect on the settled state is. -/
theorem Evolves.event {s t : State} {f : State → State} (h : s.event f = .next t) (hf : ∀ u, Evolves u (f u)) : Evolves s t := by
  obtain rfl : f s.settled = t := by simpa using h
  exact (Evolves.settled s).trans (hf _)

/-- Every command but the two that end a pass is an evolution, whatever the state it meets. -/
theorem Evolves.exec {c : Instr} {s t : State} (h : exec c s = .next t) (hpass : c ≠ .passEnd) (hfault : c ≠ .landingFault) :
    Evolves s t := by
  cases c with
  | powerOnReset =>
    unfold Machine.exec execPowerOnReset at h
    exact .event h .powerOn
  | functionLevelReset =>
    unfold Machine.exec execFunctionLevelReset at h
    exact .event h .powerOn
  | controllerReset value =>
    unfold Machine.exec execControllerReset at h
    exact .event h fun u => .writeControl u value
  | writeRun value =>
    unfold Machine.exec execWriteRun at h
    exact .event h fun u => .writeControl u value
  | writeRequestRingPlacement reg value =>
    unfold Machine.exec execWriteRequestRingPlacement at h
    exact .event h fun u => .placeRequestRing u reg value
  | writeCompletionRingPlacement reg value =>
    unfold Machine.exec execWriteCompletionRingPlacement at h
    exact .event h fun u => .placeCompletionRing u reg value
  | requestRingTail value =>
    unfold Machine.exec execRequestRingTail at h
    exact .event h fun u => .writeTail u value
  | completionRingHead value =>
    unfold Machine.exec execCompletionRingHead at h
    exact .event h fun u => .writeCplHead u value
  | attentionArm value =>
    unfold Machine.exec execAttentionArm at h
    exact .event h fun u => .writeArm u value
  | registerWrite offset value =>
    unfold Machine.exec execRegisterWrite at h
    exact .event h fun u => .writeRegister u offset value
  | portLinkChange port up =>
    unfold Machine.exec execPortLinkChange at h
    refine .event h fun u => ?_
    cases port <;> exact .of_fields rfl rfl rfl
  | intakeReservation =>
    obtain rfl : s.intakeBegun = t := by simpa [Machine.exec, execIntakeReservation] using h
    exact .intakeBegun s
  | entryReadFault cw =>
    unfold Machine.exec execEntryReadFault at h
    refine .event h fun u => ?_
    split
    · exact .of_fields rfl rfl rfl
    · exact .refl u
  | badRequest entry cw =>
    unfold Machine.exec execBadRequest at h
    refine .event h fun u => ?_
    split
    · exact .finishTaking _ _ _ _
    · exact .refl u
  | openRecord entry block cw =>
    unfold Machine.exec execOpen at h
    exact .event h (.takeChanging (.openBody entry block) _ cw)
  | cancel entry cw =>
    unfold Machine.exec execCancel at h
    exact .event h (.takeChanging (.cancelBody entry) _ cw)
  | retire entry cw =>
    unfold Machine.exec execRetire at h
    exact .event h (.takeChanging (.retireBody entry) _ cw)
  | query entry cw =>
    unfold Machine.exec execQuery at h
    exact .event h (.takeReading (.queryBody entry) _ cw)
  | reprioritize entry cw =>
    unfold Machine.exec execReprioritize at h
    exact .event h (.takeChanging (.reprioritizeBody entry) _ cw)
  | rackDown entry cw =>
    unfold Machine.exec execRackDown at h
    exact .event h (.takeChanging (.rackDownBody entry) _ cw)
  | rackUp entry cw =>
    unfold Machine.exec execRackUp at h
    exact .event h (.takeChanging (.rackUpBody entry) _ cw)
  | rackClass entry cw =>
    unfold Machine.exec execRackClass at h
    exact .event h (.takeChanging (.rackClassBody entry) _ cw)
  | hold entry cw =>
    unfold Machine.exec execHold at h
    exact .event h (.takeChanging (.holdBody entry) _ cw)
  | release entry cw =>
    unfold Machine.exec execRelease at h
    exact .event h (.takeChanging (.releaseBody entry) _ cw)
  | amend entry cw =>
    unfold Machine.exec execAmend at h
    exact .event h (.takeChanging (.amendBody entry) _ cw)
  | replan entry block cw =>
    unfold Machine.exec execReplan at h
    exact .event h (.takeChanging (.replanBody entry block) _ cw)
  | quiesce entry cw =>
    unfold Machine.exec execQuiesce at h
    exact .event h (.takeReading .quiesceBody _ cw)
  | setParams entry block cw =>
    unfold Machine.exec execSetParams at h
    exact .event h (.takeChanging (.setParamsBody entry block) _ cw)
  | identify entry cw =>
    unfold Machine.exec execIdentify at h
    exact .event h (.takeReading (.identifyBody entry) _ cw)
  | report entry cw =>
    unfold Machine.exec execReport at h
    exact .event h (.takeReading (.reportBody entry) _ cw)
  | bufferWriteDone bw cw =>
    unfold Machine.exec execBufferWriteDone at h
    refine .event h fun u => ?_
    split
    · exact (Evolves.bufferEnd u _ bw).trans (.of_fields rfl rfl rfl)
    all_goals exact .refl u
  | noticeWrite cw =>
    obtain rfl : s.arbitersServed.headNoticeWritten cw = t := by simpa [Machine.exec, execNoticeWrite] using h
    exact (Evolves.arbitersServed s).trans (.headNoticeWritten _ cw)
  | activation =>
    simp only [Machine.exec, execActivation, Host.Outcome.next.injEq] at h
    subst h
    split
    · exact .refl s
    · exact .activate ‹_›
  | issue =>
    simp only [Machine.exec, execIssue, Host.Outcome.next.injEq] at h
    subst h
    split
    · exact .refl s
    · exact .issueTo ‹_›
  | refill =>
    unfold Machine.exec execRefill at h
    refine .event h fun u => ?_
    split
    · exact .of_fields rfl rfl rfl
    · exact .refl u
  | stallExpiry slot =>
    unfold Machine.exec execStallExpiry at h
    refine .event h fun u => ?_
    split
    · exact .refl u
    rename_i r hr
    split
    · exact .relist hr rfl rfl
    · exact .refl u
  | holdoffExpiry slot pos =>
    unfold Machine.exec execHoldoffExpiry at h
    exact .event h fun u => .modSurv u slot pos _
  | idleExpiry tag =>
    unfold Machine.exec execIdleExpiry at h
    refine .event h fun u => ?_
    split
    · exact .refl u
    split
    · split
      · exact .freeCtx u tag
      · exact (Evolves.freeCtx u tag).trans (.expiryOutcome _ _ _ _)
    · exact .refl u
  | spanArrival port frame =>
    unfold Machine.exec execSpanArrival at h
    refine .event h fun u => ?_
    split
    · exact .spanArrives u _
    all_goals exact .refl u
  | endArrival port frame =>
    unfold Machine.exec execEndArrival at h
    refine .event h fun u => ?_
    split
    · split
      · exact .refl u
      · exact .endArrives u _ _
    all_goals exact .refl u
  | neighbourSolicitation port frame =>
    unfold Machine.exec execNeighbourSolicitation at h
    refine .event h fun u => ?_
    split
    · exact .emit u _
    all_goals exact .refl u
  | frameDiscard port frame =>
    unfold Machine.exec execFrameDiscard at h
    exact .event h .refl
  | sweepVisit =>
    unfold Machine.exec execSweepVisit at h
    refine .event h fun u => ?_
    split
    · dsimp only
      split
      · exact (Evolves.visit u _ _).trans (.of_fields rfl rfl rfl)
      · exact .refl u
    · exact .refl u
  | sweepEnd =>
    unfold Machine.exec execSweepEnd at h
    refine .event h fun u => ?_
    split
    · exact .of_fields rfl rfl rfl
    · exact .refl u
  | passStart =>
    obtain rfl : s.passStarted = t := by simpa [Machine.exec, execPassStart] using h
    exact .passStarted s
  | passEnd => exact absurd rfl hpass
  | landingFault => exact absurd rfl hfault
  | landingWriteComplete =>
    unfold Machine.exec execLandingWriteComplete at h
    refine .event h fun u => ?_
    split
    · exact .refl u
    split
    · exact .of_fields rfl rfl rfl
    · exact .refl u

/-- R142, R143: a command that ends a pass meets none, or ends that of the settled state. -/
theorem exec_ends_pass {c : Instr} {s t : State} (h : exec c s = .next t) (hc : c = .passEnd ∨ c = .landingFault) :
    t = s.settled ∨ ∃ p r g o checks d, s.settled.passTarget = some (p, r, g) ∧ t = (s.settled.emit o).endPass p.slot r checks d := by
  rcases hc with rfl | rfl
  · obtain rfl := Host.Outcome.next.inj h
    dsimp only
    split
    · exact .inl rfl
    rename_i p r g hp
    split
    · exact .inr ⟨p, r, g, _, _, _, hp, rfl⟩
    · exact .inl rfl
  · obtain rfl := Host.Outcome.next.inj h
    dsimp only
    split
    · exact .inl rfl
    · rename_i p r g hp
      exact .inr ⟨p, r, g, _, _, _, hp, rfl⟩

/-- R142, R143: the end of the pass of a COMBINING record. -/
theorem Evolves.endPass {s : State} {a : Slot} {r : Record} (hr : s.recAt a = some r) (hc : r.state = .combining)
    (o : List Output) (checks : List Word) (d : Option FaultDetail) : Evolves s ((s.emit o).endPass a r checks d) :=
  .of_unlisted ((SlotChange.setRec hr).congr fun b => State.recAt_congr ((s.emit o).endPass_table a r checks d) b) (by simp [hc])
    (by rintro _ ⟨⟩; rfl) (by rw [State.endPass_table]; rfl) (by rw [State.endPass_act]; rfl) (by rw [State.endPass_rest]; rfl)

theorem exec_keeps_inOrder {c : Instr} {s t : State} (h : exec c s = .next t) (hl : s.listsExact) (hs : s.InOrder) : t.InOrder := by
  by_cases hc : c = .passEnd ∨ c = .landingFault
  · have hset := (Evolves.settled s).inOrder hs
    rcases exec_ends_pass h hc with rfl | ⟨p, r, g, o, checks, d, hp, rfl⟩
    · exact hset
    · obtain ⟨hpass, hr, -⟩ := State.passTarget_some.mp hp
      have hcomb : r.state = .combining := (((Keeps.settled s).lists hl).combines_iff hr).mp (.inr ⟨p, hpass, rfl⟩)
      exact (Evolves.endPass hr hcomb o checks d).inOrder hset
  · rw [not_or] at hc
    exact (Evolves.exec h hc.1 hc.2).inOrder hs

theorem exec_keeps_dramWf {c : Instr} {s t : State} (h : exec c s = .next t) (hs : Memory.wf s.dram) : Memory.wf t.dram := by
  by_cases hc : c = .passEnd ∨ c = .landingFault
  · have hset := (Evolves.settled s).dramWf hs
    rcases exec_ends_pass h hc with rfl | ⟨p, r, g, o, checks, d, -, rfl⟩
    · exact hset
    · rw [State.endPass_rest]
      exact hset
  · rw [not_or] at hc
    exact (Evolves.exec h hc.1 hc.2).dramWf hs

theorem Evolves.sendOne (s : State) (p : PortNo) : Evolves s (s.sendOne p) := by
  unfold State.sendOne
  split
  · exact .of_fields (by simp) (by simp) (by simp)
  · exact .refl s

theorem Evolves.tick (s : State) : Evolves s s.tick :=
  (((Evolves.settled s).trans (.sendOne _ .p0)).trans (.sendOne _ .p1)).trans (.of_fields rfl rfl rfl)

/-- A step is a µs that passes, or a command that runs on the rest of the queue. -/
theorem step_cases {s t : State} (h : step s = .next t) :
    s.tick = t ∨ ∃ c rest, s.pending = c :: rest ∧ exec c { s with pending := rest } = .next t := by
  unfold step at h
  split at h
  · exact .inl (Host.Outcome.next.inj h)
  · exact .inr ⟨_, _, ‹_›, h⟩

/-- Settles O50: the DRAM changes by writes and resets only. -/
theorem stepKeepsTheDramCanonical : Obligations.StepKeepsTheDramCanonical := by
  intro s t h hs
  rcases step_cases h with rfl | ⟨c, rest, -, hc⟩
  · exact (Evolves.tick s).dramWf hs
  · exact exec_keeps_dramWf hc hs

/-- Settles O59: between changes that each keep the list in order, the records on it stay QUEUED. -/
theorem stepKeepsTheReadyListOrdered : Obligations.StepKeepsTheReadyListOrdered := by
  intro s t h hl hs
  have hin := s.inOrder_of_lists hl hs
  rcases step_cases h with rfl | ⟨c, rest, -, hc⟩
  · exact ((Evolves.tick s).inOrder hin).readyOrdered
  · exact (exec_keeps_inOrder (s := { s with pending := rest }) hc hl ⟨hin.apart, hin.below, hin.sorted, hin.queued⟩).readyOrdered

/-! ## Priority: REPRIORITIZE (O25) -/

/-- R32, R39, R41: the record with a new boost. -/
theorem Record.withBoost_eq (r : Record) (boost : Nat) : r.withBoost boost = { r with
    boost
    score := if r.state = .delivered ∨ r.state = .faulted ∨ r.state = .lost then r.score
      else (3 - r.margin).toNat * 64 + boost * 16 + r.age } := by
  unfold Record.withBoost
  simp only [← r.terminal_iff]
  split <;> rfl

/-- A record written and moved in the Ready List: what changes, and that the list keeps its members. -/
theorem State.setRec_relist_rest (s : State) (a : Slot) (o : Option Record) : (s.setRec a o).relist a = { s with
    table := { s.table with slots := (s.setRec a o).table.slots }
    act := { s.act with ready := ((s.setRec a o).relist a).act.ready } } := by
  conv_lhs => rw [State.relist_rest]
  rfl

/-- Settles O25: the record by R41, the list by the law of a move within it. -/
theorem reprioritizeSetsTheBoost : Obligations.ReprioritizeSetsTheBoost := by
  intro e cw s₀ slot r s h hlook
  generalize hu : s.clearQuiesce = u
  have hb : reprioritizeBody e s.clearQuiesce
      = ((u.setRec slot (some (r.withBoost (min (operandOf e 24).toNat 3)))).relist slot,
        .answer (.about .ok slot r [numByte (min (operandOf e 24).toNat 3)])) := by
    rw [reprioritizeBody, State.lookup_clearQuiesce, hlook, hu]
  have hrest := u.setRec_relist_rest slot (some (r.withBoost (min (operandOf e 24).toNat 3)))
  refine ⟨_, congrArg Host.Outcome.next (takeChanging_of_body (cw := cw) h hb), ?_, fun b hb => ?_, fun a => ?_,
    State.answered_of_body ?_ ?_, ?_, ?_⟩
  · rw [State.recAt_finishTaking, State.recAt_relist, State.recAt_setRec_same, Record.withBoost_eq]
    rfl
  · rw [State.recAt_finishTaking, State.recAt_relist, State.recAt_setRec_ne _ _ hb, ← hu, State.recAt_clearQuiesce]
  · rw [State.finishTaking_act, State.mem_ready_relist, State.setRec_act, ← hu, State.clearQuiesce_act]
  · rw [hrest, ← hu]; rfl
  · rw [hrest, ← hu]; simp
  · rw [State.finishTaking_notices, hrest, ← hu]; rfl
  · rw [State.finishTaking_rest, hrest, ← hu]; rfl

/-! ## HOLD (O30) -/

theorem State.recAt_withAct (s : State) (act : Activation) (b : Slot) : ({ s with act } : State).recAt b = s.recAt b := rfl

/-- R127: a hold that is not NONE refuses the HOLD. -/
theorem holdBody_refused {e : Entry} {s : State} {slot : Slot} {r : Record} (h : s.lookup (stripeOf e) = some (slot, r))
    (hn : r.hold ≠ .none) : holdBody e s = (s, .answer (s.refusal .wrongState (stripeOf e))) := by
  rw [holdBody, h]
  exact if_pos hn

/-- R127: in COMBINING the answer is deferred. -/
theorem holdBody_requested {e : Entry} {s : State} {slot : Slot} {r : Record} (h : s.lookup (stripeOf e) = some (slot, r))
    (hn : r.hold = .none) (hc : r.state = .combining) :
    holdBody e s = (s.setRec slot (some { r with hold := .requested (reqIdOf e) }), .deferred) := by
  rw [holdBody, h]
  dsimp only
  rw [if_neg (not_not.mpr hn), if_pos hc]

/-- R43, R127: in any other state the hold is granted at once, and a QUEUED record leaves the Ready List. -/
theorem holdBody_granted {e : Entry} {s : State} {slot : Slot} {r : Record} (h : s.lookup (stripeOf e) = some (slot, r))
    (hn : r.hold = .none) (hc : r.state ≠ .combining) : holdBody e s =
      ({ s.setRec slot (some { r with hold := .granted, stall := none }) with
        act := { s.act with ready := if r.state = .queued then s.act.ready.filter (· ≠ slot) else s.act.ready } },
        .answer (holdAnswer slot r)) := by
  rw [holdBody, h]
  dsimp only
  rw [if_neg (not_not.mpr hn), if_neg hc]
  split <;> rfl

/-- Settles O30, by the three outcomes of a HOLD. -/
theorem holdIsGrantedOrRequested : Obligations.HoldIsGrantedOrRequested := by
  intro e cw s₀ slot r s h hlook
  have hlook' : s.clearQuiesce.lookup (stripeOf e) = some (slot, r) := hlook
  refine ⟨fun hn => ⟨_, rfl, changing_refused h ?_⟩, fun hn hc => ?_, fun hn hc => ?_⟩
  · rw [holdBody_refused hlook' hn, State.refusal_clearQuiesce, State.refusal_of_lookup hlook]
  · refine ⟨_, congrArg Host.Outcome.next (takeChanging_of_body (cw := cw) h (holdBody_requested hlook' hn hc)), ?_, fun b hb => ?_, rfl⟩
    · rw [State.recAt_finishTaking, State.recAt_setRec_same]
    · rw [State.recAt_finishTaking, State.recAt_setRec_ne _ _ hb, State.recAt_clearQuiesce]
  · refine ⟨_, congrArg Host.Outcome.next (takeChanging_of_body (cw := cw) h (holdBody_granted hlook' hn hc)), ?_, fun b hb => ?_, ?_,
      State.answered_of_body rfl (List.append_nil _).symm, ?_, ?_⟩
    · rw [State.recAt_finishTaking, State.recAt_withAct, State.recAt_setRec_same]
    · rw [State.recAt_finishTaking, State.recAt_withAct, State.recAt_setRec_ne _ _ hb, State.recAt_clearQuiesce]
    · rw [State.finishTaking_act]; rfl
    · rw [State.finishTaking_notices]; rfl
    · rw [State.finishTaking_rest]; rfl

/-! ## Timers (O38) -/

theorem hasCome_of_le {o : Option Nat} {ends now : Nat} (ho : o = some ends) (h : ends ≤ now) : hasCome o now = true := by
  simp [hasCome, ho, h]

/-- Settles O38: the periods by the bounds of the code, and each expiry by the record it leaves. -/
theorem timersExpire : Obligations.TimersExpire := by
  refine ⟨⟨rfl, fun c h1 h2 => ?_, fun c h1 h2 => ?_, rfl, rfl, rfl, rfl, rfl⟩, fun s₀ slot r ends => ?_,
    fun s₀ slot r pos v ends => ?_⟩
  · rw [stallPeriod, if_neg (by omega), if_pos h2]
    exact congrArg some (by omega)
  · rw [stallPeriod, if_neg (by omega), if_neg (by omega), if_pos h2]
    exact congrArg some (by omega)
  · intro s hr hstall hends
    have hrest := s.setRec_relist_rest slot (some (r.older s.settings.stallCode s.now))
    refine ⟨(s.setRec slot (some (r.older s.settings.stallCode s.now))).relist slot, ?_, ?_, fun b hb => ?_, fun a => ?_, ?_⟩
    · show execStallExpiry slot s₀ = _
      rw [execStallExpiry, State.event_eq, hr]
      exact congrArg Host.Outcome.next (if_pos (hasCome_of_le hstall hends))
    · rw [State.recAt_relist, State.recAt_setRec_same]
      rfl
    · rw [State.recAt_relist, State.recAt_setRec_ne _ _ hb]
    · rw [State.mem_ready_relist, State.setRec_act]
    · rw [hrest]
  · intro s hr hv hhold hends
    refine ⟨s.setRec slot (some { r with survs := r.survs.set pos { v with holdoff := none } }), ?_, by simp,
      fun b hb => s.recAt_setRec_ne _ hb, rfl⟩
    show execHoldoffExpiry slot pos s₀ = _
    rw [execHoldoffExpiry, State.event_eq, State.modSurv_eq hr hv, if_pos (hasCome_of_le hhold hends)]

/-! ## SET_PARAMS (O29) -/

/-- R161: a value brought into a range. -/
theorem clampTo_eq {lo hi : Nat} (h : lo ≤ hi) (x : Nat) : clampTo lo hi x = if x < lo then lo else if hi < x then hi else x := by
  unfold clampTo
  split_ifs <;> omega

/-! ### The bits that a completion reports -/

theorem testBit_foldr_bit (l : List Bool) (i : Nat) : (l.foldr Nat.bit 0).testBit i = l.getD i false := by
  induction l generalizing i with
  | nil => simp
  | cons b rest ih =>
    cases i with
    | zero => simp
    | succ i => simpa [Nat.testBit_bit_succ] using ih i

theorem foldr_bit_lt (l : List Bool) : l.foldr Nat.bit 0 < 2 ^ l.length := by
  induction l with
  | nil => simp
  | cons b rest ih =>
    rw [List.foldr_cons, List.length_cons, Nat.pow_succ, Nat.bit_val]
    cases b <;> simp only [Bool.toNat_false, Bool.toNat_true] <;> omega

/-- Section 11.2: one bit for each setting, from the span size code on. -/
theorem Settings.changedBits_eq (given stored : Settings) : given.changedBits stored =
    [decide (given.spanCode ≠ stored.spanCode), decide (given.idleTimeout ≠ stored.idleTimeout),
      decide (given.retryLimit ≠ stored.retryLimit), decide (given.stallCode ≠ stored.stallCode),
      decide (given.baseRate ≠ stored.baseRate), decide (given.outLimit ≠ stored.outLimit),
      decide (given.bucketDepth ≠ stored.bucketDepth), decide (given.reserve ≠ stored.reserve),
      decide (given.busyFloor ≠ stored.busyFloor)].foldr Nat.bit 0 := by
  have hbit : ∀ x y w : Nat, (if x = y then 0 else w) = w * (decide (x ≠ y)).toNat := fun x y w => by
    by_cases h : x = y <;> simp [h]
  simp only [Settings.changedBits, hbit, List.foldr_cons, List.foldr_nil, Nat.bit_val]
  omega

/-! ### What storing the settings changes -/

theorem State.storeSettings_rest (s : State) (g : Settings) : s.storeSettings g = { s with
    settings := g, rackUnit := { s.rackUnit with racks := (s.storeSettings g).rackUnit.racks }
    table := { s.table with slots := (s.storeSettings g).table.slots } } := by
  unfold State.storeSettings
  dsimp only
  split <;> split <;> rfl

/-- R74: a lowered bucket depth clamps every credit. -/
theorem State.rackAt_storeSettings (s : State) (g : Settings) (k : RackId) : (s.storeSettings g).rackAt k = { s.rackAt k with
    credit := if g.bucketDepth < s.settings.bucketDepth then min (s.rackAt k).credit (g.bucketDepth * 32)
      else (s.rackAt k).credit } := by
  have hracks : (s.storeSettings g).rackUnit.racks = if g.bucketDepth < s.settings.bucketDepth then
      mapVec (Rack.clampCredit g.cap) s.rackUnit.racks else s.rackUnit.racks := by
    unfold State.storeSettings
    dsimp only
    split <;> split <;> rfl
  simp only [State.rackAt, hracks]
  split
  · rw [getElem_mapVec]
    rfl
  · rfl

/-- R38: a changed stall period code restarts or stops every timer. -/
theorem State.recAt_storeSettings (s : State) (g : Settings) (a : Slot) : (s.storeSettings g).recAt a =
    (s.recAt a).map fun r => { r with
      stall := if g.stallCode = s.settings.stallCode then r.stall
        else if (r.state = .queued ∨ r.state = .fetching) ∧ r.hold = .none then freshPeriod g.stallCode s.now else none } := by
  have hrec : (s.storeSettings g).recAt a =
      if g.stallCode ≠ s.settings.stallCode then (s.restartTimers g.stallCode).recAt a else s.recAt a := by
    unfold State.storeSettings
    dsimp only
    split <;> split <;> rfl
  rw [hrec, State.recAt_restartTimers]
  by_cases hc : g.stallCode = s.settings.stallCode
  · simp only [hc, ne_eq, not_true_eq_false, if_false, if_true]
    cases s.recAt a <;> rfl
  · simp only [hc, ne_eq, not_false_eq_true, if_true, if_false]
    simp only [Record.restartStall, Record.mayStall, Bool.and_eq_true, Bool.or_eq_true, beq_iff_eq]
    rfl

theorem State.emit_nil (s : State) : s.emit [] = s := by
  simp [State.emit]

/-- R161: the read of a Settings Block that leaves once the block length passes. -/
theorem settingsReads {e : Entry} (h : 80 ≤ lengthOf e) (block : List Byte) :
    blockReads 80 (fun _ => 80) (lengthOf e) block (addressOf e).toNat = [.hostRead (addressOf e).toNat 80] := by
  rw [blockReads, if_neg (by omega), if_pos (.inr (.inr le_rfl))]

/-- Section 11.3: a Settings Block's stall period code is a byte, so that it is in its range. -/
theorem readSettings_stallCode_le (b : List Byte) : (readSettings b).stallCode ≤ 255 := by
  have h : (byteAt b 3).toNat < 256 := (byteAt b 3).isLt
  exact Nat.le_of_lt_succ h

/-- Settles O29: the settings value by value, the credits and timers by what storing them changes. -/
theorem setParamsStoresTheSettings : Obligations.SetParamsStoresTheSettings := by
  intro e block cw s₀ s given bring stored h
  have hstored : stored = given.clamped := by
    have hstall : clampTo 0 255 given.stallCode = given.stallCode := by
      have hle : given.stallCode ≤ 255 := readSettings_stallCode_le (block.take 80)
      rw [clampTo_eq (by omega), if_neg (by omega), if_neg (by omega)]
    simp only [Settings.clamped, hstall]
    simp (disch := omega) only [clampTo_eq]
    rfl
  refine ⟨fun h1 h2 => ?_, fun h1 => ⟨_, rfl, changing_refused h ?_⟩, fun h1 h2 => ⟨_, rfl, changing_refused_after h ?_⟩⟩
  · generalize hu : s.clearQuiesce.readsBlock 80 (fun _ => 80) e block = u
    have hout : u.outputs = s.outputs ++ [.hostRead (addressOf e).toNat 80] := by
      rw [← hu]
      exact congrArg (s.outputs ++ ·) (settingsReads h1 block)
    have hb : setParamsBody e block s.clearQuiesce
        = (u.storeSettings stored, .answer (.plain .ok (leBytes 2 (given.changedBits stored)))) := by
      rw [setParamsBody, readBlock_of_le h1 h1 h2 le_rfl, hu, hstored]
    have hrest := u.storeSettings_rest stored
    clear_value stored
    refine ⟨_, given.changedBits stored, congrArg Host.Outcome.next (takeChanging_of_body (cw := cw) h hb), ?_, ?_,
      fun i x y hm => ?_, fun k => ?_, fun a => ?_, State.answered_of_body ?_ ?_, ?_, ?_⟩
    · rw [State.finishTaking_settings, hrest]
    · rw [Settings.changedBits_eq]
      exact (foldr_bit_lt _).trans_le (by simp)
    · rw [Settings.changedBits_eq, testBit_foldr_bit]
      simp only [List.mem_cons, Prod.mk.injEq, List.not_mem_nil, or_false] at hm
      rcases hm with ⟨rfl, rfl, rfl⟩ | ⟨rfl, rfl, rfl⟩ | ⟨rfl, rfl, rfl⟩ | ⟨rfl, rfl, rfl⟩ | ⟨rfl, rfl, rfl⟩ | ⟨rfl, rfl, rfl⟩
        | ⟨rfl, rfl, rfl⟩ | ⟨rfl, rfl, rfl⟩ | ⟨rfl, rfl, rfl⟩ <;> rfl
    · rw [State.rackAt_finishTaking, State.rackAt_storeSettings, ← hu]
      rfl
    · rw [State.recAt_finishTaking, State.recAt_storeSettings, ← hu]
      rfl
    · rw [hrest, ← hu]; rfl
    · rw [hrest]; exact hout
    · rw [State.finishTaking_notices, hrest, ← hu]; rfl
    · rw [State.finishTaking_rest, hrest, ← hu]; rfl
  · rw [setParamsBody, State.readsBlock, blockReads, if_pos h1, State.emit_nil, readBlock, if_pos h1]
    rfl
  · rw [setParamsBody, State.readsBlock, settingsReads h1, readBlock, if_neg (by omega), if_pos h2]
    rfl

/-! ## ACTIVATION, and what other events find done (O35) -/

/-! ### Runs of a step that decreases a measure -/

/-- At most `n` steps of `f`, until it gives none. -/
def runSteps (f : State → Option State) : Nat → State → State
  | 0, s => s
  | n + 1, s => match f s with
    | none => s
    | some t => runSteps f n t

section Runs

variable {f : State → Option State} {μ : State → Nat} (hμ : ∀ s t, f s = some t → μ t < μ s)

include hμ

theorem step_eq_none_of_getD {s : State} (h : (f s).getD s = s) : f s = none := by
  cases hs : f s with
  | none => rfl
  | some t =>
    rw [hs] at h
    obtain rfl : t = s := h
    exact absurd (hμ t t hs) (lt_irrefl _)

/-- A run with as many steps as the measure allows ends where no step is left. -/
theorem runSteps_done (n : Nat) (s : State) (hn : μ s ≤ n) : f (runSteps f n s) = none := by
  induction n generalizing s with
  | zero =>
    cases hs : f s with
    | none => exact hs
    | some t => exact absurd (hμ s t hs) (by omega)
  | succ n ih =>
    unfold runSteps
    split
    · assumption
    · rename_i t hs
      have hlt := hμ s t hs
      exact ih t (by omega)

/-- Steps beyond what the measure allows make no difference. -/
theorem runSteps_stable (n m : Nat) (s : State) (hn : μ s ≤ n) (hm : μ s ≤ m) : runSteps f n s = runSteps f m s := by
  induction n generalizing s m with
  | zero =>
    cases m with
    | zero => rfl
    | succ m =>
      have hs : f s = none := runSteps_done hμ 0 s hn
      simp [runSteps, hs]
  | succ n ih =>
    cases hs : f s with
    | none => cases m <;> simp [runSteps, hs]
    | some t =>
      have hlt := hμ s t hs
      cases m with
      | zero => omega
      | succ m =>
        simp only [runSteps, hs]
        exact ih m t (by omega) (by omega)

/-- The run from a state is the run from the one after its first step. -/
theorem runSteps_of_step {s t : State} (h : f s = some t) {n m : Nat} (hn : μ s ≤ n) (hm : μ t ≤ m) :
    runSteps f n s = runSteps f m t := by
  have hlt := hμ s t h
  rw [runSteps_stable hμ n (n + 1) s hn (by omega)]
  simp only [runSteps, h]
  exact runSteps_stable hμ n m t (by omega) hm

end Runs

/-! ### Activations -/

/-- R47: the state that an activation of the head leaves, where the head is activated. -/
def State.nextActivation (s : State) : Option State := s.headToActivate.map fun x => s.activate x.1 x.2

theorem State.nextActivation_none {s : State} : s.nextActivation = none ↔ s.headToActivate = none := Option.map_eq_none_iff

theorem exec_activation_eq (s : State) : exec .activation s = .next (s.nextActivation.getD s) := by
  show Host.Outcome.next _ = _
  rw [State.nextActivation]
  cases s.headToActivate <;> rfl

theorem State.activateHeads_eq (n : Nat) (s : State) : s.activateHeads n = runSteps State.nextActivation n s := by
  induction n generalizing s with
  | zero => rfl
  | succ n ih =>
    unfold State.activateHeads runSteps State.nextActivation
    cases s.headToActivate with
    | none => rfl
    | some x => exact ih _

/-- R47: an activation takes its record out of the Ready List. -/
theorem State.nextActivation_lt (s t : State) (h : s.nextActivation = some t) : t.act.ready.length < s.act.ready.length := by
  obtain ⟨⟨a, r⟩, hh, rfl⟩ := Option.map_eq_some_iff.mp h
  obtain ⟨⟨rest, hready⟩, -, -⟩ := State.headToActivate_some.mp hh
  rw [State.activate_ready, List.length_filter_lt_length_iff_exists]
  exact ⟨a, by simp [hready], by simp⟩

theorem State.headsServed_eq (s : State) : s.headsServed = runSteps State.nextActivation s.act.ready.length s :=
  State.activateHeads_eq _ s

/-- R48: the run of activations ends at an empty list or a head that waits. -/
theorem State.headsServed_done (s : State) : s.headsServed.headToActivate = none := by
  rw [← State.nextActivation_none, State.headsServed_eq]
  exact runSteps_done State.nextActivation_lt _ s le_rfl

theorem State.headsServed_of_step {s t : State} (h : s.nextActivation = some t) : s.headsServed = t.headsServed := by
  rw [State.headsServed_eq, State.headsServed_eq]
  exact runSteps_of_step State.nextActivation_lt h le_rfl le_rfl

/-- R47, R48: the head of the Ready List, if there is one, waits. -/
def State.HeadWaits (s : State) : Prop := ∀ slot rest r, s.act.ready = slot :: rest → s.recAt slot = some r →
  s.act.free.length < r.k + s.settings.reserve ∧ (r.margin ≠ 0 ∨ s.act.free.length < r.k)

theorem State.mayActivate_eq_false {s : State} {r : Record} : s.mayActivate r = false ↔
    s.act.free.length < r.k + s.settings.reserve ∧ (r.margin ≠ 0 ∨ s.act.free.length < r.k) := by
  rw [State.mayActivate, decide_eq_false_iff_not]
  omega

theorem State.headWaits_iff (s : State) : s.HeadWaits ↔ s.headToActivate = none := by
  constructor
  · intro h
    rw [Option.eq_none_iff_forall_not_mem]
    rintro ⟨a, r⟩ ha
    obtain ⟨⟨rest, hready⟩, hr, hmay⟩ := State.headToActivate_some.mp ha
    rw [State.mayActivate_eq_false.mpr (h a rest r hready hr)] at hmay
    cases hmay
  · intro h a rest r hready hr
    rw [← State.mayActivate_eq_false, ← Bool.not_eq_true]
    intro hmay
    rw [State.headToActivate_some.mpr ⟨⟨rest, hready⟩, hr, hmay⟩] at h
    cases h

/-- A head waits on where the list, the pool, the settings and each record's k and margin stay. -/
theorem State.HeadWaits.congr {s t : State} (h : s.HeadWaits) (act : t.act = s.act) (settings : t.settings = s.settings)
    (recs : ∀ b r', t.recAt b = some r' → ∃ r, s.recAt b = some r ∧ r'.k = r.k ∧ r'.margin = r.margin) : t.HeadWaits := by
  intro a rest r' hready hr'
  obtain ⟨r, hr, hk, hm⟩ := recs a r' hr'
  rw [act, settings, hk, hm]
  exact h a rest r (act ▸ hready) hr

/-! ### Issues -/

/-- R81: the state that an issue leaves, where a decision finds a candidate. -/
def State.nextIssue (s : State) : Option State := s.decision.map fun x => s.issueTo x.1 x.2.1 x.2.2.1 x.2.2.2.1 x.2.2.2.2

theorem State.nextIssue_none {s : State} : s.nextIssue = none ↔ s.decision = none := Option.map_eq_none_iff

theorem exec_issue_eq (s : State) : exec .issue s = .next (s.nextIssue.getD s) := by
  show Host.Outcome.next _ = _
  rw [State.nextIssue]
  cases s.decision <;> rfl

theorem State.issueRun_eq (n : Nat) (s : State) : s.issueRun n = runSteps State.nextIssue n s := by
  induction n generalizing s with
  | zero => rfl
  | succ n ih =>
    unfold State.issueRun runSteps State.nextIssue
    cases s.decision with
    | none => rfl
    | some x => exact ih _

/-- R101: the number of FREE contexts. -/
def State.freeTags (s : State) : Nat := s.fetch.ctxs.toList.countP (·.isNone)

theorem State.freeTags_le (s : State) : s.freeTags ≤ Config.contexts :=
  List.countP_le_length.trans (by simp [Config.contexts])

/-- R102: the opening of a FREE context leaves one fewer. -/
theorem State.freeTags_setCtx {s : State} {tag : Tag} (h : s.ctxAt tag = none) (c : Ctx) :
    (s.setCtx tag (some c)).freeTags < s.freeTags := by
  have hlt : tag.toNat < s.fetch.ctxs.toList.length := by simpa using tag.isLt
  have hnone : s.fetch.ctxs.toList[tag.toNat] = none := by simpa [State.ctxAt] using h
  have hpos : 0 < s.fetch.ctxs.toList.countP (·.isNone) :=
    List.countP_pos_iff.mpr ⟨none, hnone ▸ List.getElem_mem hlt, rfl⟩
  have hset : (s.setCtx tag (some c)).fetch.ctxs.toList = s.fetch.ctxs.toList.set tag.toNat (some c) :=
    Array.toList_set _ _ _ hlt
  rw [State.freeTags, State.freeTags, hset, List.countP_set hlt, hnone]
  simp only [Option.isNone_none, Option.isNone_some, if_true]
  simpa using hpos

theorem State.nextIssue_lt (s t : State) (h : s.nextIssue = some t) : t.freeTags < s.freeTags := by
  obtain ⟨⟨tag, a, r, pos, v⟩, hd, rfl⟩ := Option.map_eq_some_iff.mp h
  obtain ⟨-, htag, -⟩ := State.decision_some.mp hd
  have hctxs : (s.issueTo tag a r pos v).fetch.ctxs = (s.setCtx tag (some (s.newCtx a pos v))).fetch.ctxs := by
    simp only [State.issueTo, State.setPort]
    split <;> rfl
  have hlt := State.freeTags_setCtx (State.lowestFreeTag_none htag) (s.newCtx a pos v)
  rw [State.freeTags, ← hctxs] at hlt
  exact hlt

theorem State.candidatesServed_eq (s : State) : s.candidatesServed = runSteps State.nextIssue Config.contexts s :=
  State.issueRun_eq _ s

/-- R81: the run of issues ends where no candidate passes. -/
theorem State.candidatesServed_done (s : State) : s.candidatesServed.decision = none := by
  rw [← State.nextIssue_none, State.candidatesServed_eq]
  exact runSteps_done State.nextIssue_lt _ s s.freeTags_le

theorem State.candidatesServed_of_step {s t : State} (h : s.nextIssue = some t) : s.candidatesServed = t.candidatesServed := by
  rw [State.candidatesServed_eq, State.candidatesServed_eq]
  exact runSteps_of_step State.nextIssue_lt h s.freeTags_le t.freeTags_le

/-! ### The state in which the arbiters are served -/

theorem State.passStarted_done (s : State) : s.passStarted.mayStartPass = false := by
  rcases s.passStarted_cases with ⟨hm, e⟩ | ⟨_, _, -, -, -, e⟩ <;> rw [e]
  · exact hm
  · simp [State.mayStartPass]

theorem State.passStarted_of_done {s : State} (h : s.mayStartPass = false) : s.passStarted = s := by
  simp [State.passStarted, h]

theorem State.HeadWaits.passStarted {s : State} (h : s.HeadWaits) : s.passStarted.HeadWaits := by
  rcases s.passStarted_cases with ⟨-, e⟩ | ⟨_, _, -, -, -, e⟩ <;> rw [e]
  · exact h
  · exact h.congr rfl rfl fun b r' hr' => ⟨r', hr', rfl, rfl⟩

theorem State.HeadWaits.issueTo {s : State} {tag : Tag} {a : Slot} {r : Record} {pos : Nat} {v : Survivor} (h : s.HeadWaits)
    (hd : s.decision = some (tag, a, r, pos, v)) : (s.issueTo tag a r pos v).HeadWaits := by
  obtain ⟨-, -, -, hr, -⟩ := State.decision_some.mp hd
  refine h.congr (by rw [State.issueTo_rest]) (by rw [State.issueTo_rest]) fun b r' hr' => ?_
  rw [State.recAt_issueTo] at hr'
  by_cases hb : b = a
  · subst hb
    rw [State.recAt_setRec_same] at hr'
    obtain rfl := Option.some.inj hr'
    exact ⟨r, hr, rfl, rfl⟩
  · rw [State.recAt_setRec_ne s _ hb] at hr'
    exact ⟨r', hr', rfl, rfl⟩

/-- What the run of issues leaves to the two arbiters before it. -/
theorem State.candidatesServed_keeps {s : State} (hw : s.HeadWaits) (hp : s.mayStartPass = false) :
    s.candidatesServed.HeadWaits ∧ s.candidatesServed.mayStartPass = false := by
  refine State.issueRun_induction (P := fun u => u.HeadWaits ∧ u.mayStartPass = false) (fun u tag a r pos v h hd => ?_) _ ⟨hw, hp⟩
  refine ⟨h.1.issueTo hd, ?_⟩
  rw [State.issueTo_rest]
  exact h.2

/-- R48, R82, R139: none of the three arbiters has anything left to do. -/
theorem State.arbitersServed_done (s : State) : s.arbitersServed.HeadWaits ∧ s.arbitersServed.mayStartPass = false
    ∧ s.arbitersServed.decision = none := by
  have hw := (s.headsServed.headWaits_iff.mpr s.headsServed_done).passStarted
  obtain ⟨h1, h2⟩ := State.candidatesServed_keeps hw s.headsServed.passStarted_done
  exact ⟨h1, h2, State.candidatesServed_done _⟩

/-! ### One decision of each arbiter, and its fixed points -/

theorem exec_activation_of_none {s : State} (h : s.headToActivate = none) : exec .activation s = .next s := by
  rw [exec_activation_eq, State.nextActivation_none.mpr h]
  rfl

theorem exec_issue_of_none {s : State} (h : s.decision = none) : exec .issue s = .next s := by
  rw [exec_issue_eq, State.nextIssue_none.mpr h]
  rfl

theorem headToActivate_of_fixed {s : State} (h : exec .activation s = .next s) : s.headToActivate = none := by
  rw [exec_activation_eq] at h
  exact State.nextActivation_none.mp (step_eq_none_of_getD State.nextActivation_lt (Host.Outcome.next.inj h))

theorem decision_of_fixed {s : State} (h : exec .issue s = .next s) : s.decision = none := by
  rw [exec_issue_eq] at h
  exact State.nextIssue_none.mp (step_eq_none_of_getD State.nextIssue_lt (Host.Outcome.next.inj h))

/-- R48: an activation is the first of those that the arbiters make. -/
theorem arbitersServed_of_activation {s t : State} (h : exec .activation s = .next t) : s.arbitersServed = t.arbitersServed := by
  rw [exec_activation_eq] at h
  obtain rfl := Host.Outcome.next.inj h
  cases hs : s.nextActivation with
  | none => rfl
  | some t =>
    rw [State.arbitersServed, State.headsServed_of_step hs]
    rfl

/-- R139: where no head is activated, the start of a pass is what the arbiters do first. -/
theorem arbitersServed_of_passStart {s : State} (ha : s.headToActivate = none) : s.arbitersServed = s.passStarted.arbitersServed := by
  have ht := s.passStarted.headWaits_iff.mp ((s.headWaits_iff.mpr ha).passStarted)
  rw [State.arbitersServed, State.arbitersServed, State.headsServed_waits ha, State.headsServed_waits ht,
    State.passStarted_of_done s.passStarted_done]

/-- R81: where no head is activated and no pass starts, an issue is what the arbiters do first. -/
theorem arbitersServed_of_issue {s t : State} (ha : s.headToActivate = none) (hp : s.passStarted = s)
    (h : exec .issue s = .next t) : s.arbitersServed = t.arbitersServed := by
  rw [exec_issue_eq] at h
  obtain rfl := Host.Outcome.next.inj h
  cases hs : s.nextIssue with
  | none => rfl
  | some t =>
    obtain ⟨⟨tag, a, r, pos, v⟩, hd, rfl⟩ := Option.map_eq_some_iff.mp hs
    have hmay : s.mayStartPass = false := hp ▸ s.passStarted_done
    have hmay' : (s.issueTo tag a r pos v).mayStartPass = false := by
      rw [State.issueTo_rest]
      exact hmay
    have ha' := (State.headWaits_iff _).mp ((s.headWaits_iff.mpr ha).issueTo hd)
    show _ = (s.issueTo tag a r pos v).arbitersServed
    rw [State.arbitersServed, State.arbitersServed, State.headsServed_waits ha, State.headsServed_waits ha', hp,
      State.passStarted_of_done hmay', State.candidatesServed_of_step hs]

/-! ### The activation of the head -/

/-- R34, R39, R45, R47: the record that an activation leaves. -/
theorem State.activated_eq (s : State) (r : Record) : s.activated r = { r with
    survs := (s.activated r).survs, active := true, state := .fetching, age := 0
    score := (3 - r.margin).toNat * 64 + r.boost * 16
    stall := if r.hold = .none then freshPeriod s.settings.stallCode s.now else none } := by
  have hstall : (s.activated r).stall = if r.hold = .none then freshPeriod s.settings.stallCode s.now else none := by
    cases hh : r.hold <;>
      simp [State.activated, Record.restartStall, Record.mayStall, Record.rescore, Record.granted, hh, freshPeriod]
  rw [← hstall]
  rfl

/-- R45: the survivor at the plan's position `i` receives the free slab `i`. -/
theorem State.activated_survivor {s : State} {r : Record} (hnd : r.plan.Nodup) (hl : r.plan.length = r.k)
    (hk : r.k ≤ s.act.free.length) {i p : Nat} {v : Survivor} (hp : r.plan[i]? = some p) (hv : r.survs[p]? = some v) :
    ∃ x : Slab, s.act.free[i]? = some x ∧ (s.activated r).survs[p]? = some { v with
      staging := some { slab := x, cover := List.replicate (r.length / 512) false } } := by
  have hi : i < r.k := hl ▸ (List.getElem?_eq_some_iff.mp hp).1
  have hx : s.act.free[i]? = some (s.act.free[i]'(hi.trans_le hk)) := List.getElem?_eq_getElem _
  refine ⟨_, hx, ?_⟩
  show (r.granted (s.act.free.take r.k)).survs[p]? = _
  rw [getElem?_granted, hv, idxOf?_of_nodup hnd hp, Option.bind_some, List.getElem?_take_of_lt hi, hx]
  rfl

theorem State.activated_survivor_of_not_mem {s : State} {r : Record} {p : Nat} {v : Survivor} (hp : p ∉ r.plan)
    (hv : r.survs[p]? = some v) : (s.activated r).survs[p]? = some v := by
  show (r.granted (s.act.free.take r.k)).survs[p]? = _
  rw [getElem?_granted, hv, List.idxOf?_eq_none_iff.mpr hp]
  rfl

/-- Settles O35: the arbiters by the runs of their steps, which end, and an activation by the record that it leaves. -/
theorem activationAndServedArbiters : Obligations.ActivationAndServedArbiters := by
  refine ⟨fun s h => ?_, fun s => ?_, fun s t => ⟨arbitersServed_of_activation, fun ha hp => ?_, fun ha hp => ?_, fun ha hp hi => ?_⟩,
    fun s slot rest r hready hr => ⟨fun hnd hl hmay => ?_, fun h1 h2 => ?_⟩⟩
  · refine exec_activation_of_none (s.headWaits_iff.mp fun slot rest r hready => ?_)
    rw [h] at hready
    cases hready
  · obtain ⟨hw, hp, hd⟩ := s.arbitersServed_done
    exact ⟨hw, exec_activation_of_none ((State.headWaits_iff _).mp hw), congrArg Host.Outcome.next (State.passStarted_of_done hp),
      exec_issue_of_none hd, rfl⟩
  · obtain rfl : s.passStarted = t := Host.Outcome.next.inj hp
    exact arbitersServed_of_passStart (headToActivate_of_fixed ha)
  · exact arbitersServed_of_issue (headToActivate_of_fixed ha) (Host.Outcome.next.inj hp)
  · have hp' : s.passStarted = s := Host.Outcome.next.inj hp
    exact State.arbitersServed_of_quiet (headToActivate_of_fixed ha) (hp' ▸ s.passStarted_done) (decision_of_fixed hi)
  · have hhead : s.headToActivate = some (slot, r) :=
      State.headToActivate_some.mpr ⟨⟨rest, hready⟩, hr, decide_eq_true (by omega)⟩
    have hslot := s.slotChange_activate hr
    refine ⟨s.activate slot r, s.activated r, ?_, hslot.after, hslot.others, List.length_mapIdx,
      fun i p v hp hv => State.activated_survivor hnd hl (by omega) hp hv, fun p v hp hv => State.activated_survivor_of_not_mem hp hv,
      s.activated_eq r, rfl, verifyCleared_of rfl, s.activate_rest slot r⟩
    rw [exec_activation_eq, State.nextActivation, hhead]
    rfl
  · refine exec_activation_of_none (s.headWaits_iff.mp fun slot' rest' r' hready' hr' => ?_)
    obtain ⟨rfl, -⟩ := List.cons.inj (hready.symm.trans hready')
    obtain rfl := Option.some.inj (hr.symm.trans hr')
    exact ⟨h1, h2⟩

end Sys2Proof.Machine

/-! The OPEN contexts of a rack as a set of tags, and how changes of the tables move it: the counting behind the outstanding
counts (O56). -/

namespace Sys2Proof.Machine

/-! ## Contexts counted -/

/-- R55: the rack of the context with a tag; absent where the context is FREE. -/
def State.rackOf (s : State) (tag : Tag) : Option RackId := (s.ctxAt tag).bind s.ctxRack

/-- R55: the tags of the contexts that lie on a rack. -/
def State.tagsOn (s : State) (k : RackId) : Finset Tag := Finset.univ.filter fun tag => s.rackOf tag = some k

@[simp] theorem State.mem_tagsOn (s : State) (k : RackId) (tag : Tag) : tag ∈ s.tagsOn k ↔ s.rackOf tag = some k := by
  simp [State.tagsOn]

theorem countP_range_eq_card (q : Tag → Bool) :
    (List.range 256).countP (fun i => q (BitVec.ofNat 8 i)) = (Finset.univ.filter fun tag => q tag = true).card := by
  have hlist : (List.range 256).countP (fun i => q (BitVec.ofNat 8 i))
      = ((Finset.range 256).filter fun i => q (BitVec.ofNat 8 i) = true).card := by
    rw [List.countP_eq_length_filter]
    simp [Finset.card, Finset.filter, Finset.range, Multiset.range]
  rw [hlist]
  refine Finset.card_nbij' (BitVec.ofNat 8) BitVec.toNat ?_ ?_ ?_ ?_
  · intro i hi
    simpa using (Finset.mem_filter.mp hi).2
  · intro tag htag
    simpa using ⟨tag.isLt, by simpa using htag⟩
  · intro i hi
    have hlt := (Finset.mem_filter.mp hi).1
    rw [Finset.mem_range] at hlt
    simp [Nat.mod_eq_of_lt hlt]
  · intro tag _
    simp

/-- The contexts counted by their numbers. -/
theorem State.countP_ctxs (s : State) (q : Ctx → Bool) : s.fetch.ctxs.toList.countP (fun o => o.any q)
    = (List.range 256).countP fun i => (s.ctxAt (BitVec.ofNat 8 i)).any q := by
  rw [countP_eq_countP_range, Vector.length_toList]
  refine List.countP_congr fun i hi => ?_
  have hlt : i < 256 := List.mem_range.mp hi
  have hget : s.fetch.ctxs.toList[i]? = some (s.ctxAt (BitVec.ofNat 8 i)) := by
    simp [State.ctxAt, hlt, Nat.mod_eq_of_lt hlt]
  rw [hget, Option.any_some]

theorem State.outstandingExact_iff (s : State) :
    s.outstandingExact ↔ ∀ k, (s.rackAt k).outstanding = (s.tagsOn k).card := by
  refine forall_congr' fun k => ?_
  rw [s.countP_ctxs fun c => decide (s.ctxRack c = some k), countP_range_eq_card fun tag => (s.ctxAt tag).any fun c => decide (s.ctxRack c = some k)]
  simp [State.tagsOn, State.rackOf, Option.any_eq_true, Option.bind_eq_some_iff]

theorem State.ctxCount_eq (s : State) (p : Ctx → Bool) (k : RackId) :
    s.ctxCount p k = ((s.tagsOn k).filter fun tag => (s.ctxAt tag).any p = true).card := by
  rw [State.ctxCount, s.countP_ctxs fun c => p c && decide (s.ctxRack c = some k),
    countP_range_eq_card fun tag => (s.ctxAt tag).any fun c => p c && decide (s.ctxRack c = some k)]
  congr 1
  ext tag
  simp only [Finset.mem_filter, Finset.mem_univ, true_and, State.mem_tagsOn, State.rackOf]
  cases s.ctxAt tag with
  | none => simp
  | some c => simp [and_comm]

/-! ## Changes of the contexts -/

section Counts

variable {s t : State}

/-- No context changes its rack, and no rack its count. -/
theorem State.outstandingExact.of_same (h : s.outstandingExact)
    (racks : ∀ k, (t.rackAt k).outstanding = (s.rackAt k).outstanding) (ctxs : ∀ tag, t.rackOf tag = s.rackOf tag) :
    t.outstandingExact := by
  rw [State.outstandingExact_iff] at h ⊢
  intro k
  have htags : t.tagsOn k = s.tagsOn k := by ext tag; simp [ctxs]
  rw [racks, h, htags]

/-- R104: the contexts of `gone` end, and each rack's count falls by the number of its own. -/
theorem State.outstandingExact.of_ended (h : s.outstandingExact) (gone : Tag → Bool)
    (racks : ∀ k, (t.rackAt k).outstanding = (s.rackAt k).outstanding - ((s.tagsOn k).filter fun tag => gone tag = true).card)
    (ctxs : ∀ tag, t.rackOf tag = if gone tag then none else s.rackOf tag) : t.outstandingExact := by
  rw [State.outstandingExact_iff] at h ⊢
  intro k
  have htags : t.tagsOn k = (s.tagsOn k).filter fun tag => ¬ gone tag = true := by
    ext tag
    cases hg : gone tag <;> simp [ctxs, hg]
  rw [racks, h, htags, ← (s.tagsOn k).card_filter_add_card_filter_not fun tag => gone tag = true]
  omega

/-- R81: a context is opened on a rack, whose count rises by one. -/
theorem State.outstandingExact.of_opened (h : s.outstandingExact) {tag : Tag} {k : RackId} (free : s.rackOf tag = none)
    (opened : t.rackOf tag = some k) (others : ∀ u, u ≠ tag → t.rackOf u = s.rackOf u)
    (rack : (t.rackAt k).outstanding = (s.rackAt k).outstanding + 1)
    (racks : ∀ j, j ≠ k → (t.rackAt j).outstanding = (s.rackAt j).outstanding) : t.outstandingExact := by
  rw [State.outstandingExact_iff] at h ⊢
  intro j
  by_cases hj : j = k
  · subst hj
    have htags : t.tagsOn j = insert tag (s.tagsOn j) := by
      ext u
      by_cases hu : u = tag
      · simp [hu, opened]
      · simp [hu, others u hu]
    rw [rack, h, htags, Finset.card_insert_of_notMem (by simp [free])]
  · have htags : t.tagsOn j = s.tagsOn j := by
      ext u
      by_cases hu : u = tag
      · simp [hu, opened, free, Ne.symm hj]
      · simp [others u hu]
    rw [racks j hj, h, htags]

end Counts

/-! ## What the rack of a context looks at -/

/-- The racks of a record's survivors, by position. -/
def Record.racks (r : Record) : List RackId := r.survs.map (·.rack)

/-- R55: the rack at a place. -/
def State.rackAtPlace (s : State) (x : Slot × Nat) : Option RackId := (s.recAt x.1).bind fun r => r.racks[x.2]?

theorem State.rackOf_eq (s : State) (tag : Tag) : s.rackOf tag = ((s.ctxAt tag).map Ctx.place).bind s.rackAtPlace := by
  have hrack : ∀ c, s.ctxRack c = s.rackAtPlace c.place := fun c => by
    simp [State.ctxRack, State.rackAtPlace, Ctx.place, Record.racks]
  simp [State.rackOf, hrack, Option.bind_map]

end Sys2Proof.Machine

/-! The Notice Queue: when a pending notice agrees with the record it names, and how changes of the queue and of the records keep
the queue exact (O60). -/

namespace Sys2Proof.Machine

/-! ## Notices and the records they name -/

/-- R168: a notice of the end of a record is for a record in that end state; the others are for any record. -/
def Notice.suits : Notice → RecState → Prop
  | .delivered _, st => st = .delivered
  | .faulted _, st => st = .faulted
  | .lost _, st => st = .lost
  | .planNeeded _, _ | .holdGranted _ _, _ | .sweepDone _ _, _ => True

/-- R171: a record notice names an occupied slot, whose record is in a state that the notice suits. -/
def State.backs (s : State) (n : Notice) : Prop := ∀ a, n.slot = some a → ∃ r, s.recAt a = some r ∧ n.suits r.state

theorem Notice.slot_some (n : Notice) (a : Slot) : n.slot = some a ↔
    n = .planNeeded a ∨ n = .delivered a ∨ n = .faulted a ∨ n = .lost a ∨ ∃ id, n = .holdGranted a id := by
  cases n <;> simp [Notice.slot]

theorem Notice.sameKindAndSlot_iff (m n : Notice) : m.sameKindAndSlot n = true ↔ ∃ a,
    (m = .planNeeded a ∧ n = .planNeeded a) ∨ (m = .delivered a ∧ n = .delivered a) ∨ (m = .faulted a ∧ n = .faulted a)
    ∨ (m = .lost a ∧ n = .lost a) ∨ ∃ id id', m = .holdGranted a id ∧ n = .holdGranted a id' := by
  constructor
  · intro h
    cases m <;> cases n <;> simp_all [Notice.sameKindAndSlot]
  · rintro ⟨a, ⟨rfl, rfl⟩ | ⟨rfl, rfl⟩ | ⟨rfl, rfl⟩ | ⟨rfl, rfl⟩ | ⟨id, id', rfl, rfl⟩⟩ <;> simp [Notice.sameKindAndSlot]

theorem Notice.sameKindAndSlot_comm (m n : Notice) : m.sameKindAndSlot n = n.sameKindAndSlot m := by
  cases m <;> cases n <;> simp only [Notice.sameKindAndSlot, BEq.comm]

/-- A record that has not ended suits a notice in any state that suits it in its own. -/
theorem Notice.suits.of_state {n : Notice} {r r' : Record} (h : n.suits r.state) (hs : r'.state = r.state ∨ r.terminal = false) :
    n.suits r'.state := by
  rcases hs with e | hr
  · rw [e]; exact h
  · rw [Record.terminal_eq_false_iff] at hr
    cases n with
    | delivered | faulted | lost => simp [show r.state = _ from h] at hr
    | planNeeded | holdGranted | sweepDone => trivial

theorem State.noticesExact_iff (s : State) : s.noticesExact ↔
    s.port.notices.Pairwise (fun m n => m.sameKindAndSlot n = false) ∧ (∀ n ∈ s.port.notices, s.backs n)
    ∧ s.sweepDonePending ≤ 2048 := by
  constructor
  · rintro ⟨h1, h2, h3, h4⟩
    refine ⟨h1, fun n hn a ha => ?_, h4⟩
    obtain ⟨r, hr⟩ := Option.isSome_iff_exists.mp (h2 n hn a ha)
    obtain ⟨hd, hf, hl⟩ := h3 a r hr
    refine ⟨r, hr, ?_⟩
    rcases (n.slot_some a).mp ha with rfl | rfl | rfl | rfl | ⟨id, rfl⟩
    · trivial
    · exact hd hn
    · exact hf hn
    · exact hl hn
    · trivial
  · rintro ⟨h1, h2, h4⟩
    have suits : ∀ n a r, n ∈ s.port.notices → n.slot = some a → s.recAt a = some r → n.suits r.state := by
      intro n a r hn ha hr
      obtain ⟨r', hr', h⟩ := h2 n hn a ha
      obtain rfl := Option.some.inj (hr.symm.trans hr')
      exact h
    refine ⟨h1, fun n hn a ha => ?_, fun a r hr => ⟨fun hn => ?_, fun hn => ?_, fun hn => ?_⟩, h4⟩
    · obtain ⟨r, hr, -⟩ := h2 n hn a ha
      exact Option.isSome_iff_exists.mpr ⟨r, hr⟩
    · exact suits _ a r hn rfl hr
    · exact suits _ a r hn rfl hr
    · exact suits _ a r hn rfl hr

/-! ## Changes of the queue -/

/-- A SWEEP_DONE notice. -/
def Notice.isSweepDone : Notice → Bool
  | .sweepDone _ _ => true
  | .planNeeded _ | .delivered _ | .faulted _ | .lost _ | .holdGranted _ _ => false

theorem State.sweepDonePending_eq (s : State) : s.sweepDonePending = s.port.notices.countP Notice.isSweepDone := by
  unfold State.sweepDonePending
  congr 1
  funext n
  cases n <;> rfl

section Queue

variable {s t : State}

/-- Notices leave the queue, and those that stay still agree with their records. -/
theorem State.noticesExact.of_sublist (h : s.noticesExact) (queue : t.port.notices.Sublist s.port.notices)
    (backs : ∀ n ∈ t.port.notices, s.backs n → t.backs n) : t.noticesExact := by
  rw [State.noticesExact_iff, State.sweepDonePending_eq] at h ⊢
  obtain ⟨h1, h2, h3⟩ := h
  exact ⟨h1.sublist queue, fun n hn => backs n hn (h2 n (queue.mem hn)), (queue.countP_le).trans h3⟩

/-- R168: a notice of a record is placed. -/
theorem State.noticesExact.of_placed (h : s.noticesExact) {n : Notice} (hn : n.isSweepDone = false)
    (queue : t.port.notices = placed s.port.notices n) (recs : ∀ a, t.recAt a = s.recAt a) (back : s.backs n) :
    t.noticesExact := by
  have backs : ∀ m, s.backs m → t.backs m := fun m hm a ha => by rw [recs]; exact hm a ha
  by_cases hdouble : s.port.notices.any n.sameKindAndSlot = true
  · have hq : t.port.notices = s.port.notices := by rw [queue, placed, if_pos hdouble]
    exact h.of_sublist (by rw [hq]) fun m _ => backs m
  · have hq : t.port.notices = s.port.notices ++ [n] := by rw [queue, placed, if_neg hdouble]
    rw [State.noticesExact_iff, State.sweepDonePending_eq, hq] at *
    obtain ⟨h1, h2, h3⟩ := h
    refine ⟨List.pairwise_append.mpr ⟨h1, List.pairwise_singleton _ _, fun m hm x hx => ?_⟩, fun m hm => ?_, ?_⟩
    · obtain rfl := List.mem_singleton.mp hx
      rw [Notice.sameKindAndSlot_comm, Bool.eq_false_iff]
      exact fun e => hdouble (List.any_eq_true.mpr ⟨m, hm, e⟩)
    · rcases List.mem_append.mp hm with hm | hm
      · exact backs m (h2 m hm)
      · rw [List.mem_singleton.mp hm]; exact backs n back
    · simpa [List.countP_append, hn] using h3

/-- R67: the notices of the end of the sweep, of which there is room. -/
theorem State.noticesExact.endSweep (h : s.noticesExact) (room : s.sweepDoneLoad ≤ 2048) : s.endSweep.noticesExact := by
  rw [State.noticesExact_iff, State.sweepDonePending_eq] at h ⊢
  obtain ⟨h1, h2, h3⟩ := h
  obtain ⟨added, hadded⟩ : ∃ added, added = s.rackUnit.sweep.waiting.map fun w => Notice.sweepDone w.1 w.2 := ⟨_, rfl⟩
  have hq : s.endSweep.port.notices = s.port.notices ++ added := by rw [hadded]; rfl
  have hdone : ∀ n ∈ added, n.isSweepDone = true ∧ n.slot = none ∧ ∀ m : Notice, m.sameKindAndSlot n = false := by
    intro n hn
    rw [hadded] at hn
    obtain ⟨w, -, rfl⟩ := List.mem_map.mp hn
    exact ⟨rfl, rfl, fun m => by cases m <;> rfl⟩
  rw [hq]
  refine ⟨List.pairwise_append.mpr ⟨h1, List.pairwise_iff_forall_sublist.mpr fun {x y} hxy => ?_, fun m _ n hn => (hdone n hn).2.2 m⟩,
    fun n hn => ?_, ?_⟩
  · exact (hdone y (hxy.mem (by simp))).2.2 x
  · rcases List.mem_append.mp hn with hn | hn
    · exact h2 n hn
    · intro a ha
      rw [(hdone n hn).2.1] at ha
      cases ha
  · rw [State.sweepDoneLoad, State.sweepDonePending_eq] at room
    rw [List.countP_append, List.countP_eq_length.mpr fun n hn => (hdone n hn).1, hadded, List.length_map]
    exact room

end Queue

end Sys2Proof.Machine

/-! What the operations of the part keep of the outstanding counts and of the Notice Queue, said once for both as a relation between
states. -/

namespace Sys2Proof.Machine

/-! ## What is kept -/

/-- From `s` to `t` the outstanding counts and the Notice Queue stay exact. -/
structure Tallies (s t : State) : Prop where
  outstanding : s.outstandingExact → t.outstandingExact
  notices : s.noticesExact → t.noticesExact

theorem Tallies.refl (s : State) : Tallies s s := ⟨id, id⟩

theorem Tallies.trans {s u t : State} (h : Tallies s u) (h' : Tallies u t) : Tallies s t :=
  ⟨h'.outstanding ∘ h.outstanding, h'.notices ∘ h.notices⟩

/-- R17: every OPEN context names a PULLING survivor of a record in FETCHING or PLAN_WAIT. -/
def State.ctxsNamed (s : State) : Prop :=
  ∀ tag c, s.ctxAt tag = some c → ∃ r, s.recAt c.slot = some r ∧ r.pullingAt c.pos ∧ (r.state = .fetching ∨ r.state = .planWait)

theorem State.contextsExact.named {s : State} (h : s.contextsExact) : s.ctxsNamed := fun tag c hc => by
  obtain ⟨r, v, hr, hv, hs, -, -, hst⟩ := h.1 tag c hc
  exact ⟨r, hr, ⟨v, hv, hs⟩, hst⟩

/-- From `s` to `t` the counts stay exact where the contexts name their survivors, and the queue where the lists are exact. -/
structure TalliesFrom (s t : State) : Prop where
  outstanding : s.ctxsNamed → s.outstandingExact → t.outstandingExact
  notices : s.listsExact → s.noticesExact → t.noticesExact

theorem Tallies.from {s t : State} (h : Tallies s t) : TalliesFrom s t := ⟨fun _ => h.outstanding, fun _ => h.notices⟩

theorem TalliesFrom.then {s u t : State} (h : TalliesFrom s u) (h' : Tallies u t) : TalliesFrom s t :=
  ⟨fun hn ho => h'.outstanding (h.outstanding hn ho), fun hl hn => h'.notices (h.notices hl hn)⟩

/-! ## Changes that end no context -/

section Views

variable {s t : State}

/-- The contexts stay at their places, each with its rack. -/
theorem State.outstandingExact.of_places (h : s.outstandingExact)
    (racks : ∀ k, (t.rackAt k).outstanding = (s.rackAt k).outstanding)
    (ctxs : ∀ tag, (t.ctxAt tag).map Ctx.place = (s.ctxAt tag).map Ctx.place)
    (places : ∀ tag c, s.ctxAt tag = some c → t.rackAtPlace c.place = s.rackAtPlace c.place) : t.outstandingExact := by
  refine h.of_same racks fun tag => ?_
  rw [State.rackOf_eq, State.rackOf_eq, ctxs]
  cases hc : s.ctxAt tag with
  | none => rfl
  | some c => exact places tag c hc

theorem State.rackAtPlace_congr {a : Slot} (h : (t.recAt a).map Record.racks = (s.recAt a).map Record.racks) (p : Nat) :
    t.rackAtPlace (a, p) = s.rackAtPlace (a, p) := by
  have key : ∀ u : State, u.rackAtPlace (a, p) = ((u.recAt a).map Record.racks).bind (·[p]?) := fun u => by
    simp [State.rackAtPlace, Option.bind_map]
  rw [key, key, h]

/-- Every survivor keeps its rack, every context its place and every notice its record. -/
theorem Tallies.of_views (places : ∀ a, (t.recAt a).map Record.racks = (s.recAt a).map Record.racks)
    (backs : ∀ n, s.backs n → t.backs n) (racks : ∀ k, (t.rackAt k).outstanding = (s.rackAt k).outstanding)
    (ctxs : ∀ tag, (t.ctxAt tag).map Ctx.place = (s.ctxAt tag).map Ctx.place) (queue : t.port.notices = s.port.notices) :
    Tallies s t :=
  ⟨fun h => h.of_places racks ctxs fun _ c _ => State.rackAtPlace_congr (places c.slot) c.pos,
    fun h => h.of_sublist (by rw [queue]) fun n _ => backs n⟩

theorem State.backs.congr {n : Notice} (h : s.backs n) (recs : ∀ a, t.recAt a = s.recAt a) : t.backs n := fun a ha => by
  rw [recs]
  exact h a ha

/-- A change of nothing that the counts and the queue look at. -/
theorem Tallies.of_fields (slots : t.table.slots = s.table.slots) (racks : t.rackUnit.racks = s.rackUnit.racks)
    (ctxs : t.fetch.ctxs = s.fetch.ctxs) (queue : t.port.notices = s.port.notices) : Tallies s t := by
  have recs : ∀ a, t.recAt a = s.recAt a := fun a => by simp only [State.recAt, slots]
  exact .of_views (fun a => by rw [recs]) (fun n h => h.congr recs) (fun k => by simp only [State.rackAt, racks])
    (fun tag => by simp only [State.ctxAt, ctxs]) queue

theorem SlotChange.racks {a : Slot} {r r' : Record} (h : SlotChange s t a (some r) (some r')) (hr : r'.racks = r.racks) (b : Slot) :
    (t.recAt b).map Record.racks = (s.recAt b).map Record.racks := by
  by_cases hb : b = a
  · rw [hb, h.before, h.after, Option.map_some, Option.map_some, hr]
  · rw [h.others b hb]

/-- R168: a notice agrees with its record after a change of one slot, unless the record had ended and changed its state. -/
theorem SlotChange.backs {a : Slot} {r r' : Record} (h : SlotChange s t a (some r) (some r'))
    (hs : r'.state = r.state ∨ r.terminal = false) {n : Notice} (hn : s.backs n) : t.backs n := fun b hb => by
  obtain ⟨x, hx, hst⟩ := hn b hb
  by_cases hba : b = a
  · subst hba
    obtain rfl := Option.some.inj (h.before.symm.trans hx)
    exact ⟨r', h.after, hst.of_state hs⟩
  · exact ⟨x, (h.others b hba).trans hx, hst⟩

/-- One record changes, its survivors on their racks, and keeps its state or has not ended. -/
theorem Tallies.of_rec {a : Slot} {r r' : Record} (slot : SlotChange s t a (some r) (some r')) (hr : r'.racks = r.racks)
    (hs : r'.state = r.state ∨ r.terminal = false) (racks : t.rackUnit.racks = s.rackUnit.racks) (ctxs : t.fetch.ctxs = s.fetch.ctxs)
    (queue : t.port.notices = s.port.notices) : Tallies s t :=
  .of_views (slot.racks hr) (fun _ => slot.backs hs) (fun k => by simp only [State.rackAt, racks])
    (fun tag => by simp only [State.ctxAt, ctxs]) queue

end Views

theorem Tallies.setRec {s : State} {a : Slot} {r r' : Record} (hr : s.recAt a = some r) (h : r'.racks = r.racks)
    (hs : r'.state = r.state ∨ r.terminal = false) : Tallies s (s.setRec a (some r')) := .of_rec (.setRec hr) h hs rfl rfl rfl

theorem Record.modSurv_racks (r : Record) (pos : Nat) {f : Survivor → Survivor} (hf : ∀ v, (f v).rack = v.rack) :
    (r.modSurv pos f).racks = r.racks := by
  cases h : r.survs[pos]? with
  | none => rw [Record.modSurv_none h]
  | some v => rw [Record.modSurv_eq h]; exact map_set_of_eq _ h (hf v)

theorem Tallies.modSurv (s : State) (a : Slot) (pos : Nat) {f : Survivor → Survivor} (hf : ∀ v, (f v).rack = v.rack) :
    Tallies s (s.modSurv a pos f) := by
  rw [State.modSurv, State.modRec]
  split
  · exact .refl s
  · exact .setRec ‹_› (Record.modSurv_racks _ pos hf) (.inl rfl)

theorem Tallies.emit (s : State) (o : List Output) : Tallies s (s.emit o) := .of_fields rfl rfl rfl rfl
theorem Tallies.clearVerify (s : State) (l : List Slab) : Tallies s (s.clearVerify l) :=
  .of_fields (by simp) (by simp) (by simp only [State.clearVerify]) (by simp)
theorem Tallies.delist (s : State) (a : Slot) : Tallies s (s.delist a) := .of_fields rfl rfl rfl rfl
theorem Tallies.enlist (s : State) (a : Slot) : Tallies s (s.enlist a) := .of_fields rfl rfl rfl rfl
theorem Tallies.releaseSlabs (s : State) (l : List Slab) : Tallies s (s.releaseSlabs l) :=
  .of_fields (by simp) (by simp) (by simp only [State.releaseSlabs, State.clearVerify]) (by simp)

theorem Tallies.relist (s : State) (a : Slot) : Tallies s (s.relist a) := by
  unfold State.relist
  split
  · exact .enlist s a
  · exact .refl s

theorem Tallies.setPort (s : State) (p : PortNo) (f : FabricPort) : Tallies s (s.setPort p f) := by
  cases p <;> exact .of_fields rfl rfl rfl rfl

/-- A rack's entry changes in other than its count. -/
theorem Tallies.of_rackEntries {s t : State} (table : t.table = s.table) (fetch : t.fetch = s.fetch)
    (racks : ∀ k, (t.rackAt k).outstanding = (s.rackAt k).outstanding) (queue : t.port.notices = s.port.notices) : Tallies s t :=
  .of_views (fun a => by rw [State.recAt_congr table]) (fun _ h => h.congr (State.recAt_congr table)) racks
    (fun tag => by rw [State.ctxAt_congr fetch]) queue

theorem Tallies.setRack (s : State) (k : RackId) {e : Rack} (h : e.outstanding = (s.rackAt k).outstanding) :
    Tallies s (s.setRack k e) := by
  refine .of_rackEntries rfl rfl (fun j => ?_) rfl
  by_cases hj : j = k
  · rw [hj, State.rackAt_setRack_same, h]
  · rw [State.rackAt_setRack_ne s e hj]

/-- R105 to R107: a context that goes on at its place. -/
theorem Tallies.setCtx {s : State} {tag : Tag} {c c' : Ctx} (hc : s.ctxAt tag = some c) (h : c'.place = c.place) :
    Tallies s (s.setCtx tag (some c')) := by
  refine .of_views (fun a => by rw [State.recAt_setCtx]) (fun _ h => h.congr fun a => State.recAt_setCtx s tag _ a)
    (fun k => by rw [State.rackAt_setCtx]) (fun u => ?_) rfl
  by_cases hu : u = tag
  · rw [hu, State.ctxAt_setCtx_same, hc, Option.map_some, Option.map_some, h]
  · rw [State.ctxAt_setCtx_ne s _ hu]

/-! ## Notices -/

theorem State.backs_of_recAt {s : State} {n : Notice} {a : Slot} {r : Record} (hn : n.slot = some a) (hr : s.recAt a = some r)
    (hs : n.suits r.state) : s.backs n := fun b hb => by
  obtain rfl := Option.some.inj (hn.symm.trans hb)
  exact ⟨r, hr, hs⟩

/-- R168: a notice is placed for a record that it agrees with. -/
theorem Tallies.notify {s : State} {n : Notice} {a : Slot} {r : Record} (hn : n.slot = some a) (hr : s.recAt a = some r)
    (hs : n.suits r.state) : Tallies s (s.notify n) where
  outstanding h := h.of_places (fun k => by rw [State.rackAt_notify]) (fun tag => by rw [State.ctxAt_notify])
    fun _ c _ => State.rackAtPlace_congr (by rw [State.recAt_notify]) _
  notices h := by
    refine h.of_placed (n := n) ?_ (by rw [State.notify_placed]) (s.recAt_notify n) (State.backs_of_recAt hn hr hs)
    cases n with
    | sweepDone => cases hn
    | planNeeded | delivered | faulted | lost | holdGranted => rfl

/-! ## Contexts that end -/

theorem State.ctxRack_congr {s t : State} (h : t.table = s.table) (c : Ctx) : t.ctxRack c = s.ctxRack c := by
  rw [State.ctxRack, State.ctxRack, State.recAt_congr h]

/-- R104: contexts that end take their part of the counts with them. -/
theorem Tallies.freeCtxs (s : State) (p : Ctx → Bool) : Tallies s (s.freeCtxs p) where
  outstanding h := by
    refine h.of_ended (fun tag => (s.ctxAt tag).any p) (fun k => ?_) fun tag => ?_
    · rw [State.rackAt_freeCtxs, ← State.ctxCount_eq]; rfl
    · rw [State.rackOf, State.ctxAt_freeCtxs, State.rackOf]
      cases s.ctxAt tag with
      | none => rfl
      | some c => cases hp : p c <;> simp [Option.filter, hp, State.ctxRack_congr (State.freeCtxs_table s p)]
  notices h := h.of_sublist (.refl _) fun _ _ hb => hb.congr (s.recAt_freeCtxs p)

/-- R104: the count of the rack on which the context lies falls by one. -/
theorem State.freeCtx_outstanding (s : State) (tag : Tag) (k : RackId) : ((s.freeCtx tag).rackAt k).outstanding
    = (s.rackAt k).outstanding - if s.rackOf tag = some k then 1 else 0 := by
  rcases s.freeCtx_cases tag with ⟨hn, e⟩ | ⟨c, hc, hk, e⟩ | ⟨c, j, hc, hj, e⟩ <;> rw [e]
  · simp [State.rackOf, hn]
  · simp [State.rackOf, hc, hk]
  · by_cases hkj : k = j
    · subst hkj
      simp [State.rackOf, hc, hj, Rack.freed]
    · rw [State.rackAt_setRack_ne _ _ hkj]
      simp [State.rackOf, hc, hj, Ne.symm hkj]

theorem Tallies.freeCtx (s : State) (tag : Tag) : Tallies s (s.freeCtx tag) where
  outstanding h := by
    refine h.of_ended (· == tag) (fun k => ?_) fun u => ?_
    · rw [State.freeCtx_outstanding]
      simp only [beq_iff_eq, Finset.filter_eq', State.mem_tagsOn]
      split <;> rfl
    · rw [State.rackOf, State.ctxAt_freeCtx, State.rackOf]
      by_cases hu : u = tag
      · simp [hu]
      · simp [hu, State.ctxRack_congr (State.freeCtx_table s tag)]
  notices h := h.of_sublist (by rw [State.freeCtx_port]) fun _ _ hb => hb.congr (s.recAt_freeCtx tag)

end Sys2Proof.Machine

/-! The outstanding counts and the Notice Queue through the shared operations and through what the part does of itself. -/

namespace Sys2Proof.Machine

/-! ## Margin and its outcome -/

theorem racks_of_map {r r' : Record} {f : Survivor → Survivor} (h : r'.survs = r.survs.map f) (hf : ∀ v, (f v).rack = v.rack) :
    r'.racks = r.racks := by
  rw [Record.racks, h]
  exact map_map_of_eq _ hf

theorem Tallies.enterLost {s : State} {a : Slot} {r : Record} (hr : s.recAt a = some r) (hl : r.live = true) (m : Int) :
    Tallies s (s.enterLost a r m) := by
  have hset : Tallies s ((s.freeCtxs fun c => c.slot == a).setRec a (some (r.asLost m))) :=
    (Tallies.freeCtxs s _).trans (.setRec (r := r) (by rw [State.recAt_freeCtxs, hr]) (racks_of_map rfl fun _ => rfl)
      (.inr (Record.terminal_of_live hl)))
  have hlisted := (hset.trans (.releaseSlabs _ r.slabs)).trans (.delist _ a)
  exact (hlisted.trans (.notify (n := .lost a) (r := r.asLost m) rfl (by simp) rfl)).trans (.of_fields rfl rfl rfl rfl)

theorem Tallies.enterPlanWait {s : State} {a : Slot} {r₀ r : Record} (hr : s.recAt a = some r₀) (hl : r₀.live = true)
    (h : r.racks = r₀.racks) : Tallies s (s.enterPlanWait a r) := by
  have hset : Tallies s (s.setRec a (some { r with state := .planWait, stall := none })) :=
    .setRec hr h (.inr (Record.terminal_of_live hl))
  exact (hset.trans (.delist _ a)).trans (.notify (n := .planNeeded a) (a := a) rfl
    (by rw [State.recAt_delist]; exact State.recAt_setRec_same _ _ _) trivial)

theorem Tallies.reckon (s : State) (a : Slot) (lostSelected : Bool) : Tallies s (s.reckon a lostSelected) := by
  rcases s.reckon_cases a lostSelected with ⟨-, e⟩ | ⟨r, hr, ⟨-, e⟩ | ⟨hl, -, e⟩ | ⟨hl, -, r', rfl, h⟩⟩
  · rw [e]; exact .refl s
  · rw [e]; exact .refl s
  · rw [e]; exact .enterLost hr hl _
  have hset : Tallies s (s.setRec a (some ({ r with margin := r.freshMargin } : Record).rescore)) := .setRec hr rfl (.inl rfl)
  rcases h with ⟨-, e⟩ | ⟨-, -, e⟩ | ⟨-, -, e⟩ <;> rw [e]
  · split
    · exact hset.trans (.notify (n := .planNeeded a) (a := a) rfl (State.recAt_setRec_same _ _ _) trivial)
    · exact hset
  · exact .enterPlanWait hr hl rfl
  · exact hset.trans (.relist _ _)

/-! ## Entry to COMBINING and the end of a pass -/

theorem Tallies.enterCombining {s : State} {a : Slot} {r : Record} (hr : s.recAt a = some r) (hf : r.state = .fetching)
    (hold : Hold) : Tallies s (s.enterCombining a { r with hold }) :=
  .of_rec (r' := { r with hold, state := .combining, stall := none }) ((SlotChange.setRec hr).congr fun b => State.recAt_congr rfl b)
    rfl (.inr (Record.terminal_of_live (r.live_iff.mpr (.inr (.inl hf))))) rfl rfl rfl

theorem Tallies.stagedIn (s : State) (a : Slot) : Tallies s (s.stagedIn a) := by
  unfold State.stagedIn
  split
  · exact .refl s
  rename_i r hr
  split
  · rename_i h
    split
    · exact .enterCombining hr h.1 r.hold
    · refine .setRec hr ?_ (.inl ?_) <;> split <;> rfl
  · exact .refl s

theorem Tallies.grantNotice {s : State} {a : Slot} {r : Record} (hr : s.recAt a = some r) (h : Hold) :
    Tallies s (s.grantNotice a h) := by
  cases h with
  | requested id => exact .notify (n := .holdGranted a id) rfl hr trivial
  | none => exact .refl s
  | granted => exact .refl s

/-- R143, R144: the record of a pass has not ended before it. -/
theorem TalliesFrom.endPass {s : State} {p : Pass} {r : Record} (hp : s.comb.pass = some p) (hr : s.recAt p.slot = some r)
    (checks : List Word) (d : Option FaultDetail) : TalliesFrom s (s.endPass p.slot r checks d) := by
  have hracks : (r.passed checks d).racks = r.racks := racks_of_map rfl fun _ => rfl
  have hslot : SlotChange s (s.setRec p.slot (some (r.passed checks d))) p.slot (some r) (some (r.passed checks d)) := .setRec hr
  have hset : TalliesFrom s (s.setRec p.slot (some (r.passed checks d))) := by
    refine ⟨fun _ ho => ho.of_places (fun k => by rw [State.rackAt_setRec]) (fun tag => by rw [State.ctxAt_setRec])
      fun _ c _ => State.rackAtPlace_congr (hslot.racks hracks c.slot) _, fun hl hn => hn.of_sublist (.refl _) fun n _ => ?_⟩
    have hcomb : r.state = .combining := (hl.combines_iff hr).mp (.inr ⟨p, hp, rfl⟩)
    exact hslot.backs (.inr (r.terminal_eq_false_iff.mpr (.inr (.inr (.inr hcomb)))))
  have hend : ∀ u : State, u.recAt p.slot = some (r.passed checks d) →
      Tallies u (u.notify (if d.isNone then .delivered p.slot else .faulted p.slot)) := fun u hu => by
    cases d with
    | none => exact .notify (n := .delivered p.slot) rfl hu rfl
    | some f => exact .notify (n := .faulted p.slot) rfl hu rfl
  have hfreed := hset.then (.releaseSlabs _ r.slabs)
  have hnoticed := hfreed.then (hend _ (by simp))
  exact (hnoticed.then (.grantNotice (r := r.passed checks d) (by simp) r.hold)).then (.of_fields rfl rfl rfl rfl)

/-! ## Slots that become FREE or occupied -/

theorem State.notices_freeSlot {s : State} (h : s.noticesExact) (a : Slot) : (s.freeSlot a).noticesExact := by
  refine h.of_sublist List.filter_sublist fun n hn hb b hs => ?_
  have hne : b ≠ a := fun e => ((s.freeSlot_notices a n).mp hn).2 (e ▸ hs)
  rw [State.recAt_freeSlot_ne _ hne]
  exact hb b hs

/-- No context names the slot. -/
def State.unnamed (s : State) (a : Slot) : Prop := ∀ tag c, s.ctxAt tag = some c → c.slot ≠ a

theorem Tallies.freeSlot {s : State} {a : Slot} (h : s.unnamed a) : Tallies s (s.freeSlot a) where
  outstanding ho := ho.of_places (fun k => by rw [State.rackAt_freeSlot]) (fun tag => by rw [State.ctxAt_freeSlot])
    fun tag c hc => State.rackAtPlace_congr (by rw [State.recAt_freeSlot_ne _ (h tag c hc)]) _
  notices hn := State.notices_freeSlot hn a

theorem Tallies.cancelRecord (s : State) (a : Slot) (r : Record) : Tallies s (s.cancelRecord a r) := by
  rw [State.cancelRecord_eq]
  refine Tallies.trans (.trans (.trans (.of_fields ?_ ?_ ?_ ?_) (.freeCtxs _ _)) (.releaseSlabs _ _)) (.freeSlot fun tag c hc hs => ?_)
  · rw [State.abortPass_rest]
  · rw [State.abortPass_rest]
  · rw [State.abortPass_rest]
  · rw [State.abortPass_rest]
  · simp only [State.ctxAt, State.releaseSlabs, State.clearVerify] at hc
    have hkept := (State.ctxAt_freeCtxs _ _ tag).symm.trans hc
    simp [Option.filter_eq_some_iff, hs] at hkept

/-- R24: an admission into a FREE slot, which no context and no notice names. -/
theorem TalliesFrom.admitAt {s : State} {a : Slot} (h : s.recAt a = none) (id : StripeId) (o : OpenBlock) :
    TalliesFrom s (s.admitAt a id o) := by
  have hslot := State.slotChange_admitAt h id o
  refine ⟨fun hn ho => ho.of_places (fun k => ?_) (fun tag => by rw [State.ctxAt_admitAt]) fun tag c hc => ?_,
    fun _ hx => hx.of_sublist ?_ fun n _ hb b hs => ?_⟩
  · simp only [State.admitAt, State.rackAt_enlist]; rfl
  · obtain ⟨r, hr, -⟩ := hn tag c hc
    have hne : c.slot ≠ a := fun e => by rw [e, h] at hr; cases hr
    exact State.rackAtPlace_congr (by rw [hslot.others _ hne]) _
  · simp only [State.admitAt, State.enlist_port]; exact .refl _
  · obtain ⟨r, hr, hst⟩ := hb b hs
    have hne : b ≠ a := fun e => by rw [e, h] at hr; cases hr
    exact ⟨r, (hslot.others b hne).trans hr, hst⟩

/-- R26: the slot of a terminal record, which no context names. -/
theorem TalliesFrom.retire {s : State} {a : Slot} {r : Record} (hr : s.recAt a = some r) (ht : r.terminal = true) :
    TalliesFrom s (s.freeSlot a) := by
  refine ⟨fun hn => (Tallies.freeSlot fun tag c hc e => ?_).outstanding, fun _ hx => State.notices_freeSlot hx a⟩
  obtain ⟨x, hx, -, hst⟩ := hn tag c hc
  obtain rfl := Option.some.inj (hr.symm.trans (e ▸ hx))
  rcases hst with e | e <;> simp [Record.terminal, e] at ht

/-! ## What the part does of itself -/

theorem State.granted_racks (r : Record) (slabs : List Slab) : (r.granted slabs).racks = r.racks := by
  refine map_mapIdx_of_eq _ fun p v => ?_
  cases r.plan.idxOf? p with
  | none => rfl
  | some i => cases h : slabs[i]? <;> simp [h]

/-- R47: the head of the Ready List is QUEUED, so no notice of an end names it. -/
theorem TalliesFrom.activate {s : State} {a : Slot} {r : Record} (h : s.headToActivate = some (a, r)) :
    TalliesFrom s (s.activate a r) := by
  obtain ⟨⟨rest, hready⟩, hr, -⟩ := State.headToActivate_some.mp h
  have hslot := s.slotChange_activate hr
  refine ⟨fun _ ho => ho.of_places (fun k => rfl) (fun tag => by rw [State.ctxAt_activate]) fun _ c _ =>
      State.rackAtPlace_congr (hslot.racks (State.granted_racks r _) c.slot) _,
    fun hl hx => hx.of_sublist (.refl _) fun n _ => hslot.backs (.inr ?_)⟩
  obtain ⟨hq, -⟩ := (hl.mem_ready hr).mp (by simp [hready])
  exact Record.terminal_of_live (r.live_iff.mpr (.inl hq))

theorem Tallies.passStarted (s : State) : Tallies s s.passStarted := by
  rcases s.passStarted_cases with ⟨-, e⟩ | ⟨_, _, -, -, -, e⟩ <;> rw [e]
  · exact .refl s
  · exact .of_fields rfl rfl rfl rfl

theorem State.rackAt_issueTo (s : State) (tag : Tag) (a : Slot) (r : Record) (pos : Nat) (v : Survivor) (k : RackId) :
    (s.issueTo tag a r pos v).rackAt k
      = (s.setRack v.rack ((s.rackAt v.rack).charged (r.length - (s.newCtx a pos v).start))).rackAt k := by
  refine State.rackAt_congr ?_ k
  simp only [State.issueTo, State.setPort]
  split <;> rfl

/-- R81: an issue opens a context and counts it on the rack of its survivor. -/
theorem Tallies.issueTo {s : State} {tag : Tag} {a : Slot} {r : Record} {pos : Nat} {v : Survivor}
    (h : s.decision = some (tag, a, r, pos, v)) : Tallies s (s.issueTo tag a r pos v) := by
  obtain ⟨-, htag, -, hr, hv⟩ := State.decision_some.mp h
  have hfree := State.lowestFreeTag_none htag
  have hslot : SlotChange s (s.issueTo tag a r pos v) a (some r) (some (r.modSurv pos fun v => { v with state := .pulling, holdoff := none })) :=
    (SlotChange.setRec hr).congr fun b => s.recAt_issueTo tag a r pos v b
  have hplace : ∀ x, (s.issueTo tag a r pos v).rackAtPlace x = s.rackAtPlace x := fun x =>
    State.rackAtPlace_congr (hslot.racks (Record.modSurv_racks r pos fun _ => rfl) x.1) x.2
  have hrack : s.rackAtPlace (a, pos) = some v.rack := by simp [State.rackAtPlace, hr, Record.racks, hv]
  refine ⟨fun ho => ho.of_opened (tag := tag) (k := v.rack) ?_ ?_ (fun u hu => ?_) ?_ fun j hj => ?_,
    fun hx => hx.of_sublist (by rw [State.issueTo_rest]) fun n _ => hslot.backs (.inl rfl)⟩
  · rw [State.rackOf, hfree]; rfl
  · rw [State.rackOf_eq, State.ctxAt_issueTo, State.ctxAt_setCtx_same]
    exact (hplace _).trans hrack
  · rw [State.rackOf_eq, State.ctxAt_issueTo, State.ctxAt_setCtx_ne s _ hu, State.rackOf_eq]
    cases s.ctxAt u with
    | none => rfl
    | some c => exact hplace _
  · rw [State.rackAt_issueTo, State.rackAt_setRack_same]; rfl
  · rw [State.rackAt_issueTo, State.rackAt_setRack_ne s _ hj]

/-- R47: an activation leaves a record with contexts in FETCHING, its survivors PULLING where they were. -/
theorem State.ctxsNamed.activate {s : State} {a : Slot} {r : Record} (hn : s.ctxsNamed) (hr : s.recAt a = some r) :
    (s.activate a r).ctxsNamed := by
  have hslot := s.slotChange_activate hr
  intro tag c hc
  rw [State.ctxAt_activate] at hc
  obtain ⟨x, hx, hp, hst⟩ := hn tag c hc
  by_cases hs : c.slot = a
  · rw [hs] at hx ⊢
    obtain rfl := Option.some.inj (hr.symm.trans hx)
    exact ⟨_, hslot.after, (granted_pullingAt r _ c.pos).mpr hp, .inl rfl⟩
  · exact ⟨x, (hslot.others _ hs).trans hx, hp, hst⟩

/-- R81: an issue opens its context for a survivor of a FETCHING record that becomes PULLING. -/
theorem State.ctxsNamed.issueTo {s : State} {tag : Tag} {a : Slot} {r : Record} {pos : Nat} {v : Survivor} (hn : s.ctxsNamed)
    (h : s.decision = some (tag, a, r, pos, v)) : (s.issueTo tag a r pos v).ctxsNamed := by
  obtain ⟨-, -, hfirst, hr, hv⟩ := State.decision_some.mp h
  have hfet : r.state = .fetching := by
    have hmay := State.firstIssue_issuable hfirst hr
    rw [State.issuable, Bool.and_eq_true] at hmay
    exact ((State.candidate_iff hv).mp hmay.1).1
  obtain ⟨r', hr'⟩ : ∃ r', r' = r.modSurv pos fun v => { v with state := .pulling, holdoff := none } := ⟨_, rfl⟩
  have hslot : SlotChange s (s.issueTo tag a r pos v) a (some r) (some r') := by
    rw [hr']
    exact (SlotChange.setRec hr).congr fun b => s.recAt_issueTo tag a r pos v b
  have hpull : ∀ q, r'.pullingAt q ↔ q = pos ∨ r.pullingAt q := fun q => by
    rw [hr', Record.modSurv_eq hv, pullingAt_set hv rfl]
    by_cases hq : q = pos <;> simp [hq]
  have hst : r'.state = .fetching := by rw [hr']; exact hfet
  intro u c hc
  rw [State.ctxAt_issueTo] at hc
  by_cases hu : u = tag
  · rw [hu, State.ctxAt_setCtx_same] at hc
    obtain rfl := Option.some.inj hc
    exact ⟨r', hslot.after, (hpull pos).mpr (.inl rfl), .inl hst⟩
  rw [State.ctxAt_setCtx_ne s _ hu] at hc
  obtain ⟨x, hx, hp, hxst⟩ := hn u c hc
  by_cases hs : c.slot = a
  · rw [hs] at hx ⊢
    obtain rfl := Option.some.inj (hr.symm.trans hx)
    exact ⟨r', hslot.after, (hpull c.pos).mpr (.inr hp), .inl hst⟩
  · exact ⟨x, (hslot.others _ hs).trans hx, hp, hxst⟩

theorem TalliesFrom.trans {s u t : State} (h : TalliesFrom s u) (named : s.ctxsNamed → u.ctxsNamed) (keeps : Keeps s u)
    (h' : TalliesFrom u t) : TalliesFrom s t :=
  ⟨fun hn ho => h'.outstanding (named hn) (h.outstanding hn ho), fun hl hx => h'.notices (keeps.lists hl) (h.notices hl hx)⟩

/-- R48, R81, R139: the arbiters keep the counts and the queue, and leave the contexts named. -/
theorem TalliesFrom.arbitersServed (s : State) :
    TalliesFrom s s.arbitersServed ∧ (s.ctxsNamed → s.arbitersServed.ctxsNamed) := by
  have key : TalliesFrom s s.arbitersServed ∧ (s.ctxsNamed → s.arbitersServed.ctxsNamed) ∧ Keeps s s.arbitersServed := by
    refine State.arbitersServed_induction
      (P := fun u => TalliesFrom s u ∧ (s.ctxsNamed → u.ctxsNamed) ∧ Keeps s u) ?_ ?_ ?_ ⟨(Tallies.refl s).from, id, .refl s⟩
    · rintro u a r ⟨h, hn, hk⟩ hu
      exact ⟨h.trans hn hk (.activate hu), fun hs => (hn hs).activate (State.headToActivate_some.mp hu).2.1, hk.trans (.activate hu)⟩
    · rintro u ⟨h, hn, hk⟩
      refine ⟨h.then (.passStarted u), fun hs => ?_, hk.trans (.passStarted u)⟩
      rcases u.passStarted_cases with ⟨-, e⟩ | ⟨_, _, -, -, -, e⟩ <;> rw [e] <;> exact hn hs
    · rintro u tag a r pos v ⟨h, hn, hk⟩ hu
      exact ⟨h.then (.issueTo hu), fun hs => (hn hs).issueTo hu, hk.trans (.issueTo hu)⟩
  exact ⟨key.1, key.2.1⟩

theorem Tallies.intakeBegun (s : State) : Tallies s s.intakeBegun := by
  rcases s.intakeBegun_cases with ⟨-, e⟩ | ⟨-, e⟩ <;> rw [e]
  · exact .refl s
  · exact .of_fields rfl rfl rfl rfl

theorem TalliesFrom.settled (s : State) : TalliesFrom s s.settled := (TalliesFrom.arbitersServed s).1.then (.intakeBegun _)

theorem State.ctxsNamed.settled {s : State} (h : s.ctxsNamed) : s.settled.ctxsNamed := by
  have hserved := (TalliesFrom.arbitersServed s).2 h
  rw [State.settled]
  rcases s.arbitersServed.intakeBegun_cases with ⟨-, e⟩ | ⟨-, e⟩ <;> rw [e] <;> exact hserved

end Sys2Proof.Machine

/-! Every command keeps the outstanding counts (O56) and the Notice Queue (O60) exact, and so does every step. -/

namespace Sys2Proof.Machine

/-! ## Resets and the register window -/

/-- A state with no context open, no rack's count above 0 and no notice pending. -/
theorem Tallies.of_fresh (s : State) {t : State} (ctxs : t.fetch.ctxs = Vector.replicate 256 none)
    (racks : ∃ depth, t.rackUnit = .fresh depth) (queue : t.port.notices = []) : Tallies s t where
  outstanding _ := by
    obtain ⟨depth, hd⟩ := racks
    have hctx : ∀ tag, t.ctxAt tag = none := fun tag => by simp [State.ctxAt, ctxs]
    have hrack : ∀ k, (t.rackAt k).outstanding = 0 := fun k => by simp [State.rackAt, hd, RackUnit.fresh, Rack.fresh]
    refine (State.outstandingExact_iff t).mpr fun k => ?_
    rw [hrack, eq_comm, Finset.card_eq_zero, Finset.eq_empty_iff_forall_notMem]
    intro tag
    simp [State.rackOf, hctx]
  notices _ := by
    rw [State.noticesExact_iff, State.sweepDonePending_eq, queue]
    exact ⟨.nil, by simp, by simp⟩

theorem Tallies.powerOn (s : State) : Tallies s s.powerOn := .of_fresh s rfl ⟨_, rfl⟩ rfl

theorem Tallies.writeControl (s : State) (value : Word) : Tallies s (s.writeControl value) := by
  unfold State.writeControl
  split
  · exact .of_fresh s rfl ⟨_, rfl⟩ rfl
  · exact .of_fields rfl rfl rfl rfl

theorem Tallies.placeRequestRing (s : State) (reg : RingReg) (value : Word) : Tallies s (s.placeRequestRing reg value) := by
  unfold State.placeRequestRing
  split
  · cases reg <;> exact .of_fields rfl rfl rfl rfl
  · exact .refl s

theorem Tallies.placeCompletionRing (s : State) (reg : RingReg) (value : Word) : Tallies s (s.placeCompletionRing reg value) := by
  unfold State.placeCompletionRing
  split
  · cases reg <;> exact .of_fields rfl rfl rfl rfl
  · exact .refl s

theorem Tallies.writeTail (s : State) (value : Word) : Tallies s (s.writeTail value) := .of_fields rfl rfl rfl rfl
theorem Tallies.writeCplHead (s : State) (value : Word) : Tallies s (s.writeCplHead value) := .of_fields rfl rfl rfl rfl

theorem Tallies.writeArm (s : State) (value : Word) : Tallies s (s.writeArm value) := by
  unfold State.writeArm
  split
  · split <;> exact .of_fields rfl rfl rfl rfl
  · exact .of_fields rfl rfl rfl rfl

theorem Tallies.writeRegister (s : State) (offset : BitVec 12) (value : Word) : Tallies s (s.writeRegister offset value) := by
  unfold State.writeRegister
  split
  · exact .writeControl s value
  · exact .placeRequestRing s _ value
  · exact .placeRequestRing s _ value
  · exact .placeRequestRing s _ value
  · exact .writeTail s value
  · exact .placeCompletionRing s _ value
  · exact .placeCompletionRing s _ value
  · exact .placeCompletionRing s _ value
  · exact .writeCplHead s value
  · exact .writeArm s value
  · exact .refl s

/-! ## The taking of a request -/

theorem Tallies.writeEntry (s : State) (c : CplEntry) (cw : Dma) : Tallies s (s.writeEntry c cw) := .of_fields rfl rfl rfl rfl

theorem Tallies.finishTaking (s : State) (e : Entry) (cw : Dma) (r : Reply) : Tallies s (s.finishTaking e cw r) :=
  .of_fields (by simp) (by simp) (by simp) (by simp)

theorem TalliesFrom.takeChanging {e : Entry} {body : State → State × Reply} (h : ∀ u, TalliesFrom u (body u).1) (op : Byte)
    (cw : Dma) (s : State) : TalliesFrom s (s.takeChanging e op cw body) := by
  unfold State.takeChanging
  dsimp only
  split
  · have hbody := (h s.clearQuiesce).then (.finishTaking _ e cw (body s.clearQuiesce).2)
    exact ⟨hbody.outstanding, hbody.notices⟩
  · exact (Tallies.refl s).from

theorem Tallies.takeReading {e : Entry} {body : State → State × Reply} (h : ∀ u, Tallies u (body u).1) (op : Byte) (cw : Dma)
    (s : State) : Tallies s (s.takeReading e op cw body) := by
  unfold State.takeReading
  split
  · exact (h s).trans (.finishTaking _ _ _ _)
  · exact .refl s

/-! ## The requests that change a record -/

theorem TalliesFrom.openBody (e : Entry) (block : List Byte) (s : State) : TalliesFrom s (openBody e block s).1 := by
  unfold Machine.openBody
  dsimp only
  split
  · exact (Tallies.emit s _).from
  · rename_i h
    obtain ⟨-, -, -, hfree, -⟩ := State.testOpen_ok h
    have hadmit := TalliesFrom.admitAt (State.lowestFreeSlot_none hfree) (stripeOf e) ‹OpenBlock›
    exact ⟨hadmit.outstanding, hadmit.notices⟩

theorem Tallies.cancelBody (e : Entry) (s : State) : Tallies s (cancelBody e s).1 := by
  unfold Machine.cancelBody
  split
  · exact .refl s
  · exact .cancelRecord s _ _

theorem TalliesFrom.retireBody (e : Entry) (s : State) : TalliesFrom s (retireBody e s).1 := by
  unfold Machine.retireBody
  split
  · exact (Tallies.refl s).from
  rename_i h
  split
  · exact .retire (State.lookup_some h).2 ‹_›
  · exact (Tallies.refl s).from

theorem Tallies.queryBody (e : Entry) (s : State) : Tallies s (queryBody e s).1 := by
  unfold Machine.queryBody
  split
  · exact .refl s
  · split <;> exact .refl s

theorem Record.withBoost_racks (r : Record) (boost : Nat) : (r.withBoost boost).racks = r.racks := by
  unfold Record.withBoost; split <;> rfl

theorem Tallies.reprioritizeBody (e : Entry) (s : State) : Tallies s (reprioritizeBody e s).1 := by
  unfold Machine.reprioritizeBody
  split
  · exact .refl s
  · rename_i h
    exact (Tallies.setRec (State.lookup_some h).2 (Record.withBoost_racks _ _) (.inl (Record.withBoost_keeps _ _).2)).trans (.relist _ _)

theorem Tallies.holdBody (e : Entry) (s : State) : Tallies s (holdBody e s).1 := by
  unfold Machine.holdBody
  split
  · exact .refl s
  rename_i a r h
  have hr := (State.lookup_some h).2
  split
  · exact .refl s
  split
  · exact .setRec hr rfl (.inl rfl)
  · have hset : Tallies s (s.setRec a (some { r with hold := .granted, stall := none })) := .setRec hr rfl (.inl rfl)
    dsimp only
    split
    · exact hset.trans (.delist _ a)
    · exact hset

theorem Tallies.releaseBody (e : Entry) (s : State) : Tallies s (releaseBody e s).1 := by
  unfold Machine.releaseBody
  split
  · exact .refl s
  rename_i a r h
  have hr := (State.lookup_some h).2
  split
  · exact .refl s
  rcases s.releaseRecord_cases (r := r) a with ⟨-, hf, -, e⟩ | ⟨-, -, -, e⟩ | ⟨-, hq, e⟩ | ⟨-, -, e⟩ <;> dsimp only <;> rw [e]
  · exact .enterCombining hr hf .none
  · exact .setRec hr rfl (.inl rfl)
  · refine Tallies.trans ?_ (.enlist _ a)
    exact .setRec hr rfl (.inl rfl)
  · exact .setRec hr rfl (.inl rfl)

/-- R132: the survivors that contexts name, being PULLING, are none that an AMEND adds or re-points. -/
theorem amendRecord_racks {s : State} {e : Entry} {r : Record} (ht : testAmend e r = none) {p : Nat} (hp : r.pullingAt p) :
    (s.amendRecord e r).racks[p]? = r.racks[p]? := by
  obtain ⟨v, hv, hs⟩ := hp
  obtain ⟨-, -, ⟨hpos, -⟩ | ⟨w, hlt, hw, hnp, -⟩⟩ := testAmend_none.mp ht
  · have hlt : p < r.survs.length := (List.getElem?_eq_some_iff.mp hv).1
    rw [State.amendRecord, if_pos hpos]
    rw [Record.racks, List.map_append, List.getElem?_append_left (by simpa using hlt), Record.racks]
  · have hne : p ≠ amendPosOf e := by
      rintro rfl
      obtain rfl := Option.some.inj (hv.symm.trans hw)
      exact hnp hs
    rw [State.amendRecord, if_neg hlt.ne, Record.modSurv_eq hw]
    simp [Record.racks, List.getElem?_set_ne (Ne.symm hne)]

theorem TalliesFrom.amendBody (e : Entry) (s : State) : TalliesFrom s (amendBody e s).1 := by
  unfold Machine.amendBody
  split
  · exact (Tallies.refl s).from
  rename_i a r h
  have hr := (State.lookup_some h).2
  split
  · exact (Tallies.refl s).from
  rename_i ht
  have hslot : SlotChange s (s.setRec a (some (s.amendRecord e r))) a (some r) (some (s.amendRecord e r)) := .setRec hr
  have hstate : (s.amendRecord e r).state = r.state := by unfold State.amendRecord; split <;> rfl
  have hset : TalliesFrom s (s.setRec a (some (s.amendRecord e r))) := by
    refine ⟨fun hn ho => ho.of_places (fun k => by rw [State.rackAt_setRec]) (fun tag => by rw [State.ctxAt_setRec])
      fun tag c hc => ?_, fun _ hx => hx.of_sublist (.refl _) fun n _ => hslot.backs (.inl hstate)⟩
    obtain ⟨x, hx, hp, -⟩ := hn tag c hc
    by_cases hs : c.slot = a
    · obtain rfl := Option.some.inj (hr.symm.trans (hs ▸ hx))
      simp only [State.rackAtPlace, Ctx.place, hs, hslot.after, hr]
      exact amendRecord_racks ht hp
    · exact State.rackAtPlace_congr (by rw [hslot.others _ hs]) _
  exact (hset.then (.clearVerify _ _)).then (.reckon _ _ _)

theorem Record.movedSurvivor_rack (r : Record) (plan : List Nat) (p : Nat) (v : Survivor) :
    (r.movedSurvivor plan p v).rack = v.rack := by
  unfold Record.movedSurvivor
  split
  · rfl
  · split
    · rfl
    · split <;> rfl

theorem Tallies.replanSlot {s : State} {a : Slot} {r : Record} (hr : s.recAt a = some r) (hl : r.live = true) (plan : List Nat)
    (rows : List (List Byte)) : Tallies s (s.replanSlot a r plan rows) := by
  have hended : Tallies s ((s.freeCtxs fun c => c.slot == a && (r.dropped plan).contains c.pos).clearVerify (r.givenUp plan)) :=
    (Tallies.freeCtxs s _).trans (.clearVerify _ _)
  have hset : ∀ r' : Record, r'.racks = (r.withPlan plan rows).racks → Tallies s
      (((s.freeCtxs fun c => c.slot == a && (r.dropped plan).contains c.pos).clearVerify (r.givenUp plan)).setRec a (some r')) :=
    fun r' h => hended.trans (.setRec (r := r) (by simpa using hr)
      (h.trans (map_mapIdx_of_eq _ fun p v => r.movedSurvivor_rack plan p v)) (.inr (Record.terminal_of_live hl)))
  unfold State.replanSlot
  dsimp only
  split
  · split
    · refine Tallies.trans ?_ (.enlist _ a)
      exact hset _ rfl
    · exact hset _ rfl
  · exact hset _ rfl

theorem Tallies.replanBody (e : Entry) (block : List Byte) (s : State) : Tallies s (replanBody e block s).1 := by
  unfold Machine.replanBody
  dsimp only
  split
  · exact .emit _ _
  split
  · exact .emit _ _
  · rename_i h
    obtain ⟨hlook, hlive, -⟩ := State.testReplan_ok h
    exact (Tallies.emit s _).trans (.replanSlot (State.lookup_some hlook).2 hlive _ _)

/-! ## The requests on racks and on the part -/

theorem Tallies.rackDownBody (e : Entry) (s : State) : Tallies s (rackDownBody e s).1 := by
  unfold Machine.rackDownBody
  dsimp only
  split
  · exact .refl s
  · refine Tallies.trans (u := s.setRack (rackOf e) { s.rackAt (rackOf e) with down := true }) ?_ (.of_fields rfl rfl rfl rfl)
    exact .setRack s _ rfl

theorem Tallies.rackUpBody (e : Entry) (s : State) : Tallies s (rackUpBody e s).1 := by
  unfold Machine.rackUpBody
  dsimp only
  split
  · exact .refl s
  · exact .setRack s _ rfl

theorem Tallies.rackClassBody (e : Entry) (s : State) : Tallies s (rackClassBody e s).1 := .setRack s _ rfl

theorem Tallies.quiesceBody (s : State) : Tallies s (quiesceBody s).1 := .of_fields rfl rfl rfl rfl

theorem Tallies.restartTimers (s : State) (code : Nat) : Tallies s (s.restartTimers code) := by
  refine .of_views (fun a => ?_) (fun n h a ha => ?_) (fun _ => rfl) (fun _ => rfl) rfl
  · rw [State.recAt_restartTimers, Option.map_map]; rfl
  · obtain ⟨r, hr, hs⟩ := h a ha
    exact ⟨r.restartStall code s.now, by rw [State.recAt_restartTimers, hr]; rfl, hs⟩

/-- R74: the credits under a lowered cap. -/
theorem Tallies.mapRacks (s : State) {f : Rack → Rack} (hf : ∀ e, (f e).outstanding = e.outstanding) :
    Tallies s { s with rackUnit := { s.rackUnit with racks := mapVec f s.rackUnit.racks } } :=
  .of_rackEntries rfl rfl (fun k => by simp only [State.rackAt, getElem_mapVec, hf]) rfl

theorem Tallies.storeSettings (s : State) (g : Settings) : Tallies s (s.storeSettings g) := by
  unfold State.storeSettings
  dsimp only
  generalize hs₁ : (if g.bucketDepth < s.settings.bucketDepth then _ else s : State) = s₁
  have h₁ : Tallies s s₁ := by
    rw [← hs₁]
    split
    · exact .mapRacks s fun _ => rfl
    · exact .refl s
  split
  · exact (h₁.trans (.restartTimers s₁ _)).trans (.of_fields rfl rfl rfl rfl)
  · exact h₁.trans (.of_fields rfl rfl rfl rfl)

theorem Tallies.setParamsBody (e : Entry) (block : List Byte) (s : State) : Tallies s (setParamsBody e block s).1 := by
  unfold Machine.setParamsBody
  dsimp only
  split
  · exact .emit _ _
  · exact (Tallies.emit s _).trans (.storeSettings _ _)

theorem Tallies.identifyBody (e : Entry) (s : State) : Tallies s (identifyBody e s).1 := by
  unfold Machine.identifyBody
  split <;> exact .refl s

theorem Tallies.reportBody (e : Entry) (s : State) : Tallies s (reportBody e s).1 := by
  unfold Machine.reportBody
  split
  · exact .refl s
  · split
    · exact .of_fields rfl rfl rfl rfl
    · exact .refl s

/-! ## The Request Port's own steps -/

theorem Tallies.bufferEnd (s : State) (job : BufferJob) (bw : Dma) : Tallies s (s.bufferEnd job bw) := by
  unfold State.bufferEnd
  dsimp only
  split
  · exact .of_fields rfl rfl rfl rfl
  · split <;> exact .of_fields rfl rfl rfl rfl

theorem Tallies.endSweep {s : State} (room : s.sweepDoneLoad ≤ 2048) : Tallies s s.endSweep where
  outstanding ho := ho.of_places (fun _ => rfl) (fun _ => rfl) fun _ _ _ => rfl
  notices hx := hx.endSweep room

theorem Tallies.writeNotice {s : State} {n : Notice} {rest : List Notice} (h : s.port.notices = n :: rest) (cw : Dma) :
    Tallies s (s.writeNotice n rest cw) where
  outstanding ho := ho.of_places (fun _ => rfl) (fun _ => rfl) fun _ _ _ => rfl
  notices hx := hx.of_sublist (h ▸ List.sublist_cons_self n rest) fun _ _ hb => hb.congr fun _ => rfl

theorem Tallies.headNoticeWritten (s : State) (cw : Dma) : Tallies s (s.headNoticeWritten cw) := by
  unfold State.headNoticeWritten
  split
  · exact .refl s
  rename_i n rest hq
  split
  · dsimp only
    split
    · rename_i h
      rw [Bool.and_eq_true, decide_eq_true_iff] at h
      exact (Tallies.writeNotice hq cw).trans (.endSweep h.2.2)
    · exact .writeNotice hq cw
  · exact .refl s

end Sys2Proof.Machine

namespace Sys2Proof.Machine

/-! ## The fabric and the sweep -/

theorem Tallies.passMark (s : State) (v : Survivor) (c : Ctx) : Tallies s (s.passMark v c) := by
  unfold State.passMark
  split
  · exact .refl s
  · exact .of_fields rfl rfl rfl rfl

theorem Tallies.backToAvailable (s : State) (c : Ctx) (v : Survivor) {f : Survivor → Survivor} (hf : ∀ v, (f v).rack = v.rack) :
    Tallies s (s.backToAvailable c v f) := (Tallies.passMark s v c).trans (.modSurv _ _ _ fun _ => hf _)

theorem Tallies.loseSurvivor (s : State) (c : Ctx) (v : Survivor) (st : SurvState) {f : Survivor → Survivor}
    (hf : ∀ v, (f v).rack = v.rack) : Tallies s (s.loseSurvivor c v st f) :=
  (Tallies.clearVerify s _).trans (.modSurv _ _ _ fun _ => hf _)

theorem Tallies.countRetry (s : State) (c : Ctx) (r : Record) (v : Survivor) : Tallies s (s.countRetry c r v) := by
  unfold State.countRetry
  dsimp only
  have hcount : Tallies s { s with counters := { s.counters with retries := satAdd s.counters.retries 1 } } :=
    .of_fields rfl rfl rfl rfl
  split
  · exact hcount.trans (.backToAvailable _ _ _ fun _ => rfl)
  · exact (hcount.trans (.loseSurvivor _ _ _ _ fun _ => rfl)).trans (.reckon _ _ _)

theorem Tallies.endArrives (s : State) (m : List Byte) (st : EndStatus) : Tallies s (s.endArrives m st) := by
  unfold State.endArrives
  split
  · exact .refl s
  split
  · exact .freeCtx s _
  refine (Tallies.freeCtx s (messageTag m)).trans ?_
  cases st with
  | ok => exact .countRetry _ _ _ _
  | busy =>
    rw [State.endOutcome]
    exact .backToAvailable _ _ _ (by intro; rfl)
  | notHeld =>
    rw [State.endOutcome]
    exact .trans (.loseSurvivor _ _ _ _ (by intro; rfl)) (.reckon _ _ _)
  | corrupt =>
    rw [State.endOutcome]
    exact .trans (.loseSurvivor _ _ _ _ (by intro; rfl)) (.reckon _ _ _)

theorem Tallies.expiryOutcome (s : State) (c : Ctx) (r : Record) (v : Survivor) : Tallies s (s.expiryOutcome c r v) := by
  unfold State.expiryOutcome
  split
  · exact .loseSurvivor _ _ _ _ fun _ => rfl
  split
  · exact .backToAvailable _ _ _ fun _ => rfl
  · exact .countRetry _ _ _ _

theorem Tallies.stage (s : State) (tag : Tag) (c : Ctx) (v : Survivor) : Tallies s (s.stage tag c v) :=
  .trans (.trans (.trans (.freeCtx s tag) (.modSurv _ _ _ (by intro; rfl))) (.clearVerify _ _)) (.stagedIn _ _)

theorem Tallies.writeSpan (s : State) (v : Survivor) (off : Nat) (payload : List Byte) : Tallies s (s.writeSpan v off payload) := by
  unfold State.writeSpan
  split
  · exact .refl s
  · exact .of_fields rfl rfl rfl rfl

theorem Tallies.acceptSpan {s : State} {tag : Tag} {c : Ctx} (hc : s.ctxAt tag = some c) (v : Survivor) (off : Nat)
    (payload : List Byte) : Tallies s (s.acceptSpan tag c v off payload) := by
  unfold State.acceptSpan
  dsimp only
  obtain ⟨s₁, hs₁⟩ : ∃ s₁, s₁ = (s.writeSpan v off payload).modSurv c.slot c.pos fun v => v.cover off payload.length := ⟨_, rfl⟩
  have h₁ : Tallies s s₁ := by
    rw [hs₁]
    exact (Tallies.writeSpan s v off payload).trans (.modSurv _ _ _ fun _ => rfl)
  have hc₁ : s₁.ctxAt tag = some c := by
    rw [hs₁, State.ctxAt_modSurv, State.ctxAt_congr (s.writeSpan_fields v off payload).2, hc]
  have h₂ := h₁.trans (.setCtx (c' := { c with deadline := s.now + s.settings.idleTimeout * 1000 }) hc₁ rfl)
  rw [← hs₁]
  split
  · refine Tallies.trans ?_ (.stage _ _ _ _)
    exact h₂.trans (.of_fields rfl rfl rfl rfl)
  · exact h₂.trans (.of_fields rfl rfl rfl rfl)

theorem Tallies.spanArrives (s : State) (m : List Byte) : Tallies s (s.spanArrives m) := by
  unfold State.spanArrives
  split
  · exact .of_fields rfl rfl rfl rfl
  rename_i c hm
  have hc := (State.matching_some.mp hm).1
  split
  · exact .of_fields rfl rfl rfl rfl
  split
  · exact .of_fields rfl rfl rfl rfl
  split
  · exact .of_fields rfl rfl rfl rfl
  split
  · exact (Tallies.setCtx (c' := { c with badCheck := true }) hc rfl).trans (.of_fields rfl rfl rfl rfl)
  · exact .acceptSpan hc _ _ _

theorem Sweep.touch_rack (w : Sweep) (v : Survivor) : (w.touch v).rack = v.rack := by
  unfold Sweep.touch; split <;> rfl

theorem Tallies.visit (s : State) (w : Sweep) (a : Slot) : Tallies s (s.visit w a) := by
  unfold State.visit
  split
  · exact .refl s
  rename_i r hr
  split
  · have hset : Tallies s ((s.freeCtxs fun c => c.slot == a && w.hitsAt r c.pos).setRec a (some { r with survs := r.survs.map w.touch })) :=
      (Tallies.freeCtxs s _).trans (.setRec (r := r) (by rw [State.recAt_freeCtxs, hr]) (racks_of_map rfl w.touch_rack) (.inl rfl))
    exact (hset.trans (.clearVerify _ _)).trans (.reckon _ _ _)
  · exact .refl s

/-! ## Every command and every step -/

/-- An event keeps what its own effect on the settled state keeps. -/
theorem TalliesFrom.event {s t : State} {f : State → State} (h : s.event f = .next t) (hf : ∀ u, TalliesFrom u (f u)) :
    TalliesFrom s t := by
  obtain rfl : f s.settled = t := by simpa using h
  exact (TalliesFrom.settled s).trans (fun hn => hn.settled) (.settled s) (hf _)

theorem Tallies.event {s t : State} {f : State → State} (h : s.event f = .next t) (hf : ∀ u, Tallies u (f u)) : TalliesFrom s t :=
  TalliesFrom.event h fun u => (hf u).from

theorem TalliesFrom.endsPass {u : State} {p : Pass} {r : Record} {g : Target} (h : u.passTarget = some (p, r, g))
    (o : List Output) (checks : List Word) (d : Option FaultDetail) : TalliesFrom u ((u.emit o).endPass p.slot r checks d) := by
  obtain ⟨hp, hr, -⟩ := State.passTarget_some.mp h
  have hend := TalliesFrom.endPass (s := u.emit o) hp ((u.recAt_emit o p.slot).trans hr) checks d
  exact ⟨hend.outstanding, hend.notices⟩

/-- A request whose rule keeps the counts and the queue from every state. -/
theorem Tallies.takeChanging {e : Entry} {body : State → State × Reply} (h : ∀ u, Tallies u (body u).1) (op : Byte) (cw : Dma)
    (s : State) : TalliesFrom s (s.takeChanging e op cw body) := TalliesFrom.takeChanging (fun u => (h u).from) op cw s

theorem TalliesFrom.exec {c : Instr} {s t : State} (h : exec c s = .next t) : TalliesFrom s t := by
  cases c with
  | powerOnReset =>
    unfold Machine.exec execPowerOnReset at h
    exact Tallies.event h .powerOn
  | functionLevelReset =>
    unfold Machine.exec execFunctionLevelReset at h
    exact Tallies.event h .powerOn
  | controllerReset value =>
    unfold Machine.exec execControllerReset at h
    exact Tallies.event h fun u => .writeControl u value
  | writeRun value =>
    unfold Machine.exec execWriteRun at h
    exact Tallies.event h fun u => .writeControl u value
  | writeRequestRingPlacement reg value =>
    unfold Machine.exec execWriteRequestRingPlacement at h
    exact Tallies.event h fun u => .placeRequestRing u reg value
  | writeCompletionRingPlacement reg value =>
    unfold Machine.exec execWriteCompletionRingPlacement at h
    exact Tallies.event h fun u => .placeCompletionRing u reg value
  | requestRingTail value =>
    unfold Machine.exec execRequestRingTail at h
    exact Tallies.event h fun u => .writeTail u value
  | completionRingHead value =>
    unfold Machine.exec execCompletionRingHead at h
    exact Tallies.event h fun u => .writeCplHead u value
  | attentionArm value =>
    unfold Machine.exec execAttentionArm at h
    exact Tallies.event h fun u => .writeArm u value
  | registerWrite offset value =>
    unfold Machine.exec execRegisterWrite at h
    exact Tallies.event h fun u => .writeRegister u offset value
  | portLinkChange port up =>
    unfold Machine.exec execPortLinkChange at h
    exact Tallies.event h fun u => .setPort u port _
  | intakeReservation =>
    obtain rfl : s.intakeBegun = t := by simpa [Machine.exec, execIntakeReservation] using h
    exact (Tallies.intakeBegun s).from
  | entryReadFault cw =>
    unfold Machine.exec execEntryReadFault at h
    refine Tallies.event h fun u => ?_
    split
    · exact .of_fields rfl rfl rfl rfl
    · exact .refl u
  | badRequest entry cw =>
    unfold Machine.exec execBadRequest at h
    refine Tallies.event h fun u => ?_
    split
    · exact .finishTaking _ _ _ _
    · exact .refl u
  | openRecord entry block cw =>
    unfold Machine.exec execOpen at h
    exact .event h (.takeChanging (.openBody entry block) _ cw)
  | cancel entry cw =>
    unfold Machine.exec execCancel at h
    exact .event h (Tallies.takeChanging (.cancelBody entry) _ cw)
  | retire entry cw =>
    unfold Machine.exec execRetire at h
    exact .event h (.takeChanging (.retireBody entry) _ cw)
  | query entry cw =>
    unfold Machine.exec execQuery at h
    exact Tallies.event h (.takeReading (.queryBody entry) _ cw)
  | reprioritize entry cw =>
    unfold Machine.exec execReprioritize at h
    exact .event h (Tallies.takeChanging (.reprioritizeBody entry) _ cw)
  | rackDown entry cw =>
    unfold Machine.exec execRackDown at h
    exact .event h (Tallies.takeChanging (.rackDownBody entry) _ cw)
  | rackUp entry cw =>
    unfold Machine.exec execRackUp at h
    exact .event h (Tallies.takeChanging (.rackUpBody entry) _ cw)
  | rackClass entry cw =>
    unfold Machine.exec execRackClass at h
    exact .event h (Tallies.takeChanging (.rackClassBody entry) _ cw)
  | hold entry cw =>
    unfold Machine.exec execHold at h
    exact .event h (Tallies.takeChanging (.holdBody entry) _ cw)
  | release entry cw =>
    unfold Machine.exec execRelease at h
    exact .event h (Tallies.takeChanging (.releaseBody entry) _ cw)
  | amend entry cw =>
    unfold Machine.exec execAmend at h
    exact .event h (.takeChanging (.amendBody entry) _ cw)
  | replan entry block cw =>
    unfold Machine.exec execReplan at h
    exact .event h (Tallies.takeChanging (.replanBody entry block) _ cw)
  | quiesce entry cw =>
    unfold Machine.exec execQuiesce at h
    exact Tallies.event h (.takeReading .quiesceBody _ cw)
  | setParams entry block cw =>
    unfold Machine.exec execSetParams at h
    exact .event h (Tallies.takeChanging (.setParamsBody entry block) _ cw)
  | identify entry cw =>
    unfold Machine.exec execIdentify at h
    exact Tallies.event h (.takeReading (.identifyBody entry) _ cw)
  | report entry cw =>
    unfold Machine.exec execReport at h
    exact Tallies.event h (.takeReading (.reportBody entry) _ cw)
  | bufferWriteDone bw cw =>
    unfold Machine.exec execBufferWriteDone at h
    refine Tallies.event h fun u => ?_
    split
    · exact (Tallies.bufferEnd u _ bw).trans (.writeEntry _ _ _)
    all_goals exact .refl u
  | noticeWrite cw =>
    obtain rfl : s.arbitersServed.headNoticeWritten cw = t := by simpa [Machine.exec, execNoticeWrite] using h
    exact (TalliesFrom.arbitersServed s).1.then (.headNoticeWritten _ cw)
  | activation =>
    simp only [Machine.exec, execActivation, Host.Outcome.next.injEq] at h
    subst h
    split
    · exact (Tallies.refl s).from
    · exact .activate ‹_›
  | issue =>
    simp only [Machine.exec, execIssue, Host.Outcome.next.injEq] at h
    subst h
    split
    · exact (Tallies.refl s).from
    · exact (Tallies.issueTo ‹_›).from
  | refill =>
    unfold Machine.exec execRefill at h
    refine Tallies.event h fun u => ?_
    split
    · exact (Tallies.mapRacks u (f := Rack.refilled u.settings.baseRate u.settings.cap) fun _ => rfl).trans (.of_fields rfl rfl rfl rfl)
    · exact .refl u
  | stallExpiry slot =>
    unfold Machine.exec execStallExpiry at h
    refine Tallies.event h fun u => ?_
    split
    · exact .refl u
    rename_i r hr
    split
    · refine Tallies.trans ?_ (.relist _ slot)
      exact .setRec hr rfl (.inl rfl)
    · exact .refl u
  | holdoffExpiry slot pos =>
    unfold Machine.exec execHoldoffExpiry at h
    exact Tallies.event h fun u => .modSurv u slot pos fun v => by split <;> rfl
  | idleExpiry tag =>
    unfold Machine.exec execIdleExpiry at h
    refine Tallies.event h fun u => ?_
    split
    · exact .refl u
    split
    · split
      · exact .freeCtx u tag
      · exact (Tallies.freeCtx u tag).trans (.expiryOutcome _ _ _ _)
    · exact .refl u
  | spanArrival port frame =>
    unfold Machine.exec execSpanArrival at h
    refine Tallies.event h fun u => ?_
    split
    · exact .spanArrives u _
    all_goals exact .refl u
  | endArrival port frame =>
    unfold Machine.exec execEndArrival at h
    refine Tallies.event h fun u => ?_
    split
    · split
      · exact .refl u
      · exact .endArrives u _ _
    all_goals exact .refl u
  | neighbourSolicitation port frame =>
    unfold Machine.exec execNeighbourSolicitation at h
    refine Tallies.event h fun u => ?_
    split
    · exact .emit u _
    all_goals exact .refl u
  | frameDiscard port frame =>
    unfold Machine.exec execFrameDiscard at h
    exact Tallies.event h .refl
  | sweepVisit =>
    unfold Machine.exec execSweepVisit at h
    refine Tallies.event h fun u => ?_
    split
    · dsimp only
      split
      · exact (Tallies.visit u _ _).trans (.of_fields rfl rfl rfl rfl)
      · exact .refl u
    · exact .refl u
  | sweepEnd =>
    unfold Machine.exec execSweepEnd at h
    refine Tallies.event h fun u => ?_
    split
    · rename_i h
      rw [Bool.and_eq_true, decide_eq_true_iff] at h
      exact .endSweep h.2
    · exact .refl u
  | passStart =>
    obtain rfl : s.passStarted = t := by simpa [Machine.exec, execPassStart] using h
    exact (Tallies.passStarted s).from
  | passEnd =>
    unfold Machine.exec execPassEnd at h
    refine TalliesFrom.event h fun u => ?_
    split
    · exact (Tallies.refl u).from
    split
    · exact .endsPass ‹_› _ _ _
    · exact (Tallies.refl u).from
  | landingFault =>
    unfold Machine.exec execLandingFault at h
    refine TalliesFrom.event h fun u => ?_
    split
    · exact (Tallies.refl u).from
    · exact .endsPass ‹_› _ _ _
  | landingWriteComplete =>
    unfold Machine.exec execLandingWriteComplete at h
    refine Tallies.event h fun u => ?_
    split
    · exact .refl u
    split
    · exact .of_fields rfl rfl rfl rfl
    · exact .refl u

theorem Tallies.sendOne (s : State) (p : PortNo) : Tallies s (s.sendOne p) := by
  unfold State.sendOne
  split
  · exact (Tallies.setPort s p _).trans (.emit _ _)
  · exact .refl s

theorem TalliesFrom.tick (s : State) : TalliesFrom s s.tick :=
  (((TalliesFrom.settled s).then (.sendOne _ .p0)).then (.sendOne _ .p1)).then (.of_fields rfl rfl rfl rfl)

theorem TalliesFrom.step {s t : State} (h : step s = .next t) : TalliesFrom s t := by
  rcases step_cases h with rfl | ⟨c, rest, -, hc⟩
  · exact .tick s
  · have hexec := TalliesFrom.exec hc
    exact ⟨hexec.outstanding, hexec.notices⟩

/-! ## The obligations -/

theorem State.ctxRack_eq_some (s : State) (c : Ctx) (k : RackId) :
    s.ctxRack c = some k ↔ ∃ r v, s.recAt c.slot = some r ∧ r.survs[c.pos]? = some v ∧ v.rack = k := by
  simp [State.ctxRack, Option.bind_eq_some_iff]

/-- Settles O56: a context is opened with its rack's count raised, and ends with it lowered; in between its survivor keeps its rack. -/
theorem stepKeepsTheOutstandingExact : Obligations.StepKeepsTheOutstandingExact := by
  refine ⟨fun s t h hc => (TalliesFrom.step h).outstanding hc.named, fun s => ⟨s.ctxRack_eq_some, fun p k => ?_⟩⟩
  rw [State.ctxCount, s.countP_ctxs fun c => p c && decide (s.ctxRack c = some k), List.countP_eq_length_filter]

theorem Notice.countP_isSweepDone (l : List Notice) : l.countP Notice.isSweepDone = (l.map fun n => match n with
    | .sweepDone _ _ => 1
    | _ => 0).sum := by
  induction l with
  | nil => rfl
  | cons n rest ih =>
    rw [List.countP_cons, List.map_cons, List.sum_cons, ih]
    cases n <;> simp [Notice.isSweepDone, Nat.add_comm]

/-- Settles O60: a notice is placed for the state that its record has just entered, and leaves with its slot. -/
theorem stepKeepsTheNoticesExact : Obligations.StepKeepsTheNoticesExact :=
  ⟨fun _ _ h => (TalliesFrom.step h).notices, Notice.sameKindAndSlot_iff, Notice.slot_some,
    fun s => s.sweepDonePending_eq.trans (Notice.countP_isSweepDone _)⟩

end Sys2Proof.Machine

/-! The resets (O5), the writing of notices (O14), the rack requests (O26, O27) and the end of the sweep (O45). -/

namespace Sys2Proof.Machine

/-! ## The resets (O5) -/

theorem State.passUndefined_of_none {s : State} (h : s.comb.pass = none) : s.passUndefined = [] := by
  rw [State.passUndefined, h]
  rfl

theorem State.passUndefined_of_pass {s : State} {p : Pass} (h : s.comb.pass = some p) :
    s.passUndefined = ((s.recAt p.slot).map Record.landingUndefined).getD [] := by
  rw [State.passUndefined, h]
  rfl

/-- R154: a write of Control with the RESET bit set is a controller reset. -/
theorem State.writeControl_reset {s : State} {value : Word} (h : value.getLsbD 1 = true) : s.writeControl value = s.controllerReset :=
  if_pos h

/-- Settles O5: the areas left undefined, by the pass and the buffer at the reset, and then the reset values block by block. -/
theorem resetCommands : Obligations.ResetCommands := by
  intro s₀ s links undefinedAreas fromReset
  have hareas : s.outputs ++ s.passUndefined ++ s.bufferUndefined = s.outputs ++ undefinedAreas := by
    rw [List.append_assoc]
    refine congrArg (s.outputs ++ ·) (congrArg₂ (· ++ ·) ?_ ?_)
    · cases hp : s.comb.pass with
      | none => exact State.passUndefined_of_none hp
      | some p =>
        rw [State.passUndefined_of_pass hp]
        dsimp only
        cases s.recAt p.slot <;> rfl
    · rw [State.bufferUndefined]
      cases s.port.intake <;> rfl
  have hpower : s.powerOn = fromReset := by
    rw [State.powerOn, hareas]
    rfl
  refine ⟨congrArg Host.Outcome.next hpower, congrArg Host.Outcome.next hpower, fun value hbit => congrArg Host.Outcome.next ?_⟩
  change s.writeControl value = _
  rw [State.writeControl_reset hbit, State.controllerReset, hareas]
  rfl

/-! ## The end of the sweep (O45) -/

/-- R63, R67: what `sweepAtEnd` tests. -/
theorem State.sweepAtEnd_iff (s : State) : s.sweepAtEnd = true ↔ s.rackUnit.sweep.running = true
    ∧ s.rackUnit.sweep.wrapMark = false ∧ s.rackUnit.sweep.position = s.rackUnit.sweep.endPoint := by
  simp [State.sweepAtEnd, and_assoc]

/-- Settles O45, by the two outcomes of the test for the end. -/
theorem sweepEndAnswersTheWaiting : Obligations.SweepEndAnswersTheWaiting := by
  intro s₀ s w atEnd load
  have htest : (s.sweepAtEnd && decide (s.sweepDoneLoad ≤ Config.sweepDoneRoom)) = true ↔ atEnd ∧ load ≤ 2048 := by
    rw [Bool.and_eq_true, decide_eq_true_iff, s.sweepAtEnd_iff]
    rfl
  refine ⟨fun hend hload => congrArg Host.Outcome.next (if_pos (htest.mpr ⟨hend, hload⟩)),
    fun h => congrArg Host.Outcome.next (if_neg fun ht => ?_)⟩
  obtain ⟨hend, hload⟩ := htest.mp ht
  exact h.elim (absurd hend) (Nat.not_lt.mpr hload)

/-! ## Notices as they are written (O14) -/

theorem State.recordNotice_of_rec {s : State} {slot : Slot} {r : Record} (h : s.recAt slot = some r) (kind : Byte) (id : ReqId)
    (results : Record → List Byte) : s.recordNotice kind slot id results =
      { kind, status := 0#8, reqId := id, ringPos := 0, slot := slot.val, stripe := r.stripe, results := results r } := by
  rw [State.recordNotice, h]
  rfl

/-- R170: with room the head notice is written, and the sweep ends when its load comes down to 2048 by that. -/
theorem State.headNoticeWritten_of_room {s : State} {n : Notice} {rest : List Notice} (h : s.port.notices = n :: rest)
    (hroom : 1 ≤ s.room) (cw : Dma) : s.headNoticeWritten cw =
      if s.sweepAtEnd = true ∧ 2048 < s.sweepDoneLoad ∧ (s.writeNotice n rest cw).sweepDoneLoad ≤ 2048 then
        (s.writeNotice n rest cw).endSweep
      else s.writeNotice n rest cw := by
  rw [State.headNoticeWritten, h]
  refine (if_pos hroom).trans (if_congr ?_ rfl rfl)
  rw [Bool.and_eq_true, decide_eq_true_iff]
  rfl

/-- R170: with no notice or no room nothing is written. -/
theorem State.headNoticeWritten_of_none {s : State} (h : s.port.notices = [] ∨ s.room = 0) (cw : Dma) : s.headNoticeWritten cw = s := by
  unfold State.headNoticeWritten
  split
  · rfl
  · rename_i n rest hn
    refine if_neg fun hroom => ?_
    rcases h with h | h
    · exact absurd (hn.symm.trans h) (List.cons_ne_nil _ _)
    · omega

theorem State.writeNotice_outputs (s : State) (n : Notice) (rest : List Notice) (cw : Dma) :
    (s.writeNotice n rest cw).outputs = s.outputs ++ s.entryOutputs (s.noticeEntry n) cw :=
  State.writeEntry_outputs _ _ _

/-- Settles O14: the entries by the record as it stands, the write by the test for the sweep's end. -/
theorem noticeWrite : Obligations.NoticeWrite := by
  refine ⟨fun s slot r hr => ⟨?_, ?_, ?_, ?_, fun id => ?_⟩, fun _ _ _ => rfl, ?_⟩
  · exact State.recordNotice_of_rec hr _ _ _
  · exact State.recordNotice_of_rec hr _ _ _
  · refine (State.recordNotice_of_rec hr _ _ _).trans ?_
    rcases r.fault with _ | _ | _ <;> rfl
  · exact State.recordNotice_of_rec hr _ _ _
  · exact State.recordNotice_of_rec hr _ _ _
  intro n rest cw s₀ s
  refine ⟨fun hn hroom => ?_, fun h => congrArg Host.Outcome.next (State.headNoticeWritten_of_none h cw)⟩
  refine ⟨_, congrArg Host.Outcome.next (State.headNoticeWritten_of_room hn hroom cw), ?_⟩
  have htest : (s.sweepAtEnd = true ∧ 2048 < s.sweepDoneLoad ∧ (s.writeNotice n rest cw).sweepDoneLoad ≤ 2048) ↔
      (s.rackUnit.sweep.running = true ∧ s.rackUnit.sweep.wrapMark = false
        ∧ s.rackUnit.sweep.position = s.rackUnit.sweep.endPoint
        ∧ 2048 < s.sweepDonePending + s.rackUnit.sweep.waiting.length
        ∧ { s with port := { s.port with notices := rest } }.sweepDonePending + s.rackUnit.sweep.waiting.length ≤ 2048) := by
    rw [s.sweepAtEnd_iff, and_assoc, and_assoc]
    rfl
  split
  · rename_i hend
    rw [if_pos (htest.mp hend)]
    exact ⟨s.writeNotice_outputs n rest cw, ⟨rfl, rfl⟩, rfl, rfl⟩
  · rename_i hend
    rw [if_neg fun h => hend (htest.mpr h)]
    exact ⟨s.writeNotice_outputs n rest cw, ⟨rfl, rfl⟩, rfl, rfl⟩

/-! ## The rack requests (O26, O27) -/

/-- R62: the sweep with a further rack, field by field. -/
theorem Sweep.join_eq (w : Sweep) (id : ReqId) (k : RackId) : w.join id k =
    { running := true, downSet := w.downSet ++ [k], position := if w.running then w.position else 0
      endPoint := if w.running then w.position else 2048, wrapMark := w.running, waiting := w.waiting ++ [(id, k)] } := by
  unfold Sweep.join
  cases w.running <;> simp

theorem rackDownBody_up {e : Entry} {s : State} (h : (s.rackAt (rackOf e)).down = false) :
    rackDownBody e s = (s.declareDown (reqIdOf e) (rackOf e), .deferred) := by
  simp [rackDownBody, h]

theorem rackDownBody_down {e : Entry} {s : State} (h : (s.rackAt (rackOf e)).down = true) :
    rackDownBody e s = (s, .answer (s.rackAnswer .ok (rackOf e))) := by
  simp [rackDownBody, h]

theorem State.rackAt_declareDown_same (s : State) (id : ReqId) (k : RackId) :
    (s.declareDown id k).rackAt k = { s.rackAt k with down := true } := s.rackAt_setRack_same k _

theorem State.rackAt_declareDown_ne (s : State) (id : ReqId) {j k : RackId} (h : j ≠ k) :
    (s.declareDown id k).rackAt j = s.rackAt j := s.rackAt_setRack_ne _ h

/-- Settles O26: the rack by the law of a rack written, the sweep by that of a rack that joins it. -/
theorem rackDownStartsOrLengthensTheSweep : Obligations.RackDownStartsOrLengthensTheSweep := by
  intro e cw s₀ s k h hup
  refine ⟨_, congrArg Host.Outcome.next (takeChanging_of_body (cw := cw) h (rackDownBody_up (s := s.clearQuiesce) hup)), ?_,
    fun j hj => ?_, ?_, rfl⟩
  · rw [State.rackAt_finishTaking]
    exact State.rackAt_declareDown_same _ _ _
  · rw [State.rackAt_finishTaking]
    exact State.rackAt_declareDown_ne _ _ hj
  · rw [State.finishTaking_rackUnit]
    exact Sweep.join_eq _ _ _

/-- R58: RACK_UP is refused while the sweep runs for the rack. -/
theorem rackUpBody_refused {e : Entry} {s : State}
    (h : s.rackUnit.sweep.running = true ∧ rackOf e ∈ s.rackUnit.sweep.downSet) :
    rackUpBody e s = (s, .answer (.plain .sweepActive [])) := by
  simp [rackUpBody, h.1, h.2]

theorem State.rackAnswer_setRack (s : State) (st : Status) (k : RackId) (x : Rack) :
    (s.setRack k x).rackAnswer st k = .plain st [k, x.stateCode, x.cls.code] := by
  rw [State.rackAnswer, State.rackAt_setRack_same]

theorem rackUpBody_up {e : Entry} {s : State}
    (h : ¬ (s.rackUnit.sweep.running = true ∧ rackOf e ∈ s.rackUnit.sweep.downSet)) :
    rackUpBody e s = (s.setRack (rackOf e) { s.rackAt (rackOf e) with down := false },
      .answer (.plain .ok [rackOf e, 0#8, (s.rackAt (rackOf e)).cls.code])) := by
  have htest : ¬ (s.rackUnit.sweep.running && s.rackUnit.sweep.downSet.contains (rackOf e)) = true := by simpa using h
  rw [rackUpBody]
  dsimp only
  rw [if_neg htest, State.rackAnswer_setRack]
  rfl

theorem rackClassBody_eq (e : Entry) (s : State) :
    rackClassBody e s = (s.setRack (rackOf e) { s.rackAt (rackOf e) with cls := .ofCode (operandOf e 25) },
      .answer (.plain .ok [rackOf e, (s.rackAt (rackOf e)).stateCode, (BudgetClass.ofCode (operandOf e 25)).code])) := by
  rw [rackClassBody]
  dsimp only
  rw [State.rackAnswer_setRack]
  rfl

/-- R59: the class that a code names has that code, and a code above 3 names class 3. -/
theorem BudgetClass.code_ofCode (c : Byte) : (BudgetClass.ofCode c).code = if c.toNat ≤ 3 then c else 3#8 := by
  revert c
  decide

/-- The taking of a rack request that writes one rack and answers at once. -/
theorem takeChanging_setRack {s : State} {e : Entry} {op : Byte} {cw : Dma} {body : State → State × Reply} {k : RackId} {x : Rack}
    {results : List Byte} (h : s.reading e op)
    (hb : body s.clearQuiesce = (s.clearQuiesce.setRack k x, .answer (.plain .ok results))) :
    let t := s.takeChanging e op cw body
    t.rackAt k = x ∧ OnlyRack s t k
      ∧ Answered s t [] ((Answer.plain .ok results).entry (reqIdOf e) s.port.reqHead) cw false
      ∧ t.port.notices = s.port.notices
      ∧ t = { s with port := t.port, outputs := t.outputs, rackUnit := { s.rackUnit with racks := t.rackUnit.racks } } := by
  dsimp only
  rw [takeChanging_of_body h hb]
  refine ⟨?_, fun j hj => ?_, State.answered_of_body rfl (List.append_nil _).symm, ?_, ?_⟩
  · rw [State.rackAt_finishTaking, State.rackAt_setRack_same]
  · rw [State.rackAt_finishTaking, State.rackAt_setRack_ne _ _ hj, State.rackAt_clearQuiesce]
  · rw [State.finishTaking_notices]
    rfl
  · conv_lhs => rw [State.finishTaking_rest]
    rw [State.finishTaking_rackUnit]
    rfl

/-- Settles O27: a rack that is DOWN or in the sweep is only read, and any other request writes its one rack. -/
theorem rackUpAndClass : Obligations.RackUpAndClass := by
  intro e cw s₀ s k ok inSweep
  refine ⟨fun h hdown => ?_, fun h hin => ?_, fun h hin => ?_, fun h => ?_⟩
  · refine ⟨_, congrArg Host.Outcome.next (takeChanging_of_body (cw := cw) h (rackDownBody_down (s := s.clearQuiesce) hdown)), ?_,
      State.finishTaking_notices _ _ _ _, State.finishTaking_rest _ _ _ _⟩
    have hanswer : s.clearQuiesce.rackAnswer .ok k = .plain .ok [k, 1#8, (s.rackAt k).cls.code] := by
      rw [State.rackAnswer, State.rackAt_clearQuiesce, Rack.stateCode, hdown]
      rfl
    exact hanswer ▸ State.answered_of_body rfl (List.append_nil _).symm
  · exact ⟨_, rfl, changing_refused h (rackUpBody_refused (s := s.clearQuiesce) hin)⟩
  · exact ⟨_, rfl, takeChanging_setRack h (rackUpBody_up (s := s.clearQuiesce) hin)⟩
  · exact ⟨_, _, rfl, BudgetClass.code_ofCode _, takeChanging_setRack h (rackClassBody_eq e s.clearQuiesce)⟩

end Sys2Proof.Machine

/-! The Issue Arbiter's choice (O36): the order of the candidates, the lowest FREE context, and what an issue leaves. -/

namespace Sys2Proof.Machine

/-! ## Who may be pulled -/

/-- R79: what the four rack gates ask. -/
theorem State.rackGates_iff (s : State) (k : RackId) : s.rackGates k = true ↔ (s.rackAt k).down = false
    ∧ (s.rackAt k).cls ≠ .halted ∧ 0 < (s.rackAt k).credit ∧ (s.rackAt k).outstanding < s.settings.outLimit := by
  simp [State.rackGates, and_assoc]

/-- R84: a holdoff bars nothing once its time has come. -/
theorem Survivor.heldOff_eq_false_iff (v : Survivor) (now : Nat) :
    v.heldOff now = false ↔ ∀ u, v.holdoff = some u → u ≤ now := by
  unfold Survivor.heldOff
  cases v.holdoff <;> simp

/-- R78, R79: a survivor may be pulled when the model's own tests of its candidacy and of its rack pass. -/
theorem State.mayPull_iff {s : State} {a : Slot} {r : Record} {pos : Nat} {v : Survivor} :
    s.MayPull a r pos v ↔ s.recAt a = some r ∧ r.survs[pos]? = some v ∧ s.issuable r pos = true := by
  refine and_congr_right fun _ => and_congr_right fun hv => ?_
  rw [State.issuable, Bool.and_eq_true, State.candidate_iff hv, hv, Option.any_some, s.rackGates_iff, v.heldOff_eq_false_iff]
  simp only [and_assoc]

/-- R78: a position that may be issued holds a survivor. -/
theorem State.mayPull_of_issuable {s : State} {a : Slot} {r : Record} {pos : Nat} (hr : s.recAt a = some r)
    (h : s.issuable r pos = true) : ∃ v, s.MayPull a r pos v := by
  obtain ⟨v, hv, -⟩ := (Option.any_eq_true _ _).mp (Bool.and_eq_true_iff.mp h).2
  exact ⟨v, State.mayPull_iff.mpr ⟨hr, hv, h⟩⟩

/-- R80: what a decision finds may be pulled. -/
theorem State.mayPull_of_decision {s : State} {tag : Tag} {a : Slot} {r : Record} {pos : Nat} {v : Survivor}
    (h : s.decision = some (tag, a, r, pos, v)) : s.MayPull a r pos v := by
  obtain ⟨-, -, hfirst, hr, hv⟩ := State.decision_some.mp h
  exact State.mayPull_iff.mpr ⟨hr, hv, State.firstIssue_issuable hfirst hr⟩

/-! ## The lowest FREE context -/

theorem State.lowestFreeTag_eq (s : State) :
    s.lowestFreeTag = ((List.finRange 256).find? fun i => (s.ctxAt (BitVec.ofFin i)).isNone).map BitVec.ofFin := by
  have h := congrArg (Option.map (BitVec.ofFin (w := 8))) (find?_listVec s.fetch.ctxs Option.isNone)
  rw [Option.map_map] at h
  exact h

/-- R102: the lowest-numbered FREE context. -/
theorem State.lowestFreeTag_eq_some {s : State} {tag : Tag} (hfree : s.ctxAt tag = none)
    (hlow : ∀ u, u < tag → s.ctxAt u ≠ none) : s.lowestFreeTag = some tag := by
  have hfind : (List.finRange 256).find? (fun i => (s.ctxAt (BitVec.ofFin i)).isNone) = some tag.toFin := by
    refine find?_finRange_eq_some.mpr ⟨by simp [hfree], fun j hj => ?_⟩
    simpa [Option.isSome_iff_ne_none] using hlow (BitVec.ofFin j) hj
  rw [s.lowestFreeTag_eq, hfind]
  rfl

/-! ## The record order -/

/-- R80: the order goes through the FETCHING records. -/
theorem State.mem_fetchOrder (s : State) (a : Slot) : a ∈ s.fetchOrder ↔ ∃ r, s.recAt a = some r ∧ r.state = .fetching := by
  have hmem : ∀ l : List Slot, a ∈ l.foldr (placeBy s.before) [] ↔ a ∈ l := fun l => by
    induction l with
    | nil => rfl
    | cons b rest ih => rw [List.foldr_cons, mem_placeBy, ih, List.mem_cons]
  rw [State.fetchOrder, hmem, listVec_eq]
  simp [State.recAt, Option.any_eq_true]

/-- Placing keeps a list free of pairs that stand the wrong way round, where no entry comes before one that comes before it. -/
theorem placeBy_noInversion {before : Slot → Slot → Bool} {a : Slot} {l : List Slot}
    (trans : ∀ x y z, before x y = true → before y z = true → before x z = true) (irrefl : ∀ x, before x x = false)
    (h : l.Pairwise fun x y => before y x = false) : (placeBy before a l).Pairwise fun x y => before y x = false := by
  induction l with
  | nil => exact List.pairwise_singleton _ a
  | cons b rest ih =>
    obtain ⟨hb, hrest⟩ := List.pairwise_cons.mp h
    unfold placeBy
    split
    · rename_i hab
      refine List.pairwise_cons.mpr ⟨fun c hc => Bool.eq_false_iff.mpr fun hca => ?_, h⟩
      have hcb : before c b = true := trans c a b hca hab
      rcases List.mem_cons.mp hc with rfl | hc
      · exact Bool.eq_false_iff.mp (irrefl c) hcb
      · exact Bool.eq_false_iff.mp (hb c hc) hcb
    · rename_i hab
      refine List.pairwise_cons.mpr ⟨fun c hc => ?_, ih hrest⟩
      rcases (mem_placeBy before a c rest).mp hc with rfl | hc
      · simpa using hab
      · exact hb c hc

theorem State.before_irrefl (s : State) (a : Slot) : s.before a a = false := by
  refine Bool.eq_false_iff.mpr fun h => ?_
  obtain ⟨x, y, hx, hy, hlt⟩ := (s.before_iff a a).mp h
  obtain rfl := Option.some.inj (hx.symm.trans hy)
  omega

/-- R80: in the order no record stands ahead of one that comes before it. -/
theorem State.fetchOrder_noInversion (s : State) : s.fetchOrder.Pairwise fun a b => s.before b a = false := by
  rw [State.fetchOrder]
  generalize (listVec s.table.slots).filterMap _ = slots
  induction slots with
  | nil => exact .nil
  | cons a rest ih => exact placeBy_noInversion s.before_trans s.before_irrefl ih

/-! ## The first candidate -/

/-- R80: with no survivor that may be pulled a decision finds none. -/
theorem State.firstIssue_eq_none {s : State} (h : ∀ a r pos v, ¬ s.MayPull a r pos v) : s.firstIssue = none := by
  refine List.findSome?_eq_none_iff.mpr fun a _ => Option.bind_eq_none_iff.mpr fun r hr => ?_
  refine Option.map_eq_none_iff.mpr (List.find?_eq_none.mpr fun pos _ hpos => ?_)
  obtain ⟨v, hv⟩ := State.mayPull_of_issuable hr hpos
  exact h a r pos v hv

/-- R80: the first position in plan order that may be pulled, of the record ahead of every other with such a position. -/
theorem State.firstIssue_eq_some {s : State} {a : Slot} {r : Record} {pos i : Nat} {v : Survivor} (h : s.MayPull a r pos v)
    (hi : r.plan[i]? = some pos) (hplan : ∀ (j q : Nat) w, j < i → r.plan[j]? = some q → ¬ s.MayPull a r q w)
    (hrec : ∀ b rb q w, s.MayPull b rb q w → b = a ∨ rb.score < r.score ∨ (rb.score = r.score ∧ r.order < rb.order)) :
    s.firstIssue = some (a, pos) := by
  obtain ⟨hr, -, hpos⟩ := State.mayPull_iff.mp h
  have hfind : r.plan.find? (fun q => s.issuable r q) = some pos := by
    obtain ⟨hlt, hget⟩ := List.getElem?_eq_some_iff.mp hi
    refine List.find?_eq_some_iff_getElem.mpr ⟨hpos, i, hlt, hget, fun j hj => ?_⟩
    rw [Bool.not_eq_true', Bool.eq_false_iff]
    intro hq
    obtain ⟨w, hw⟩ := State.mayPull_of_issuable hr hq
    exact hplan j _ w hj (List.getElem?_eq_getElem (hj.trans hlt)) hw
  obtain ⟨ahead, behind, horder, hnot⟩ := List.eq_append_cons_of_mem ((s.mem_fetchOrder a).mpr ⟨r, hr, h.2.2.1⟩)
  refine List.findSome?_eq_some_iff.mpr ⟨ahead, a, behind, horder, by simp [hr, hfind], fun b hb => ?_⟩
  have hsorted := s.fetchOrder_noInversion
  rw [horder] at hsorted
  have hab : s.before a b = false := (List.pairwise_append.mp hsorted).2.2 b hb a List.mem_cons_self
  refine Option.bind_eq_none_iff.mpr fun rb hrb => Option.map_eq_none_iff.mpr (List.find?_eq_none.mpr fun q _ hq => ?_)
  obtain ⟨w, hw⟩ := State.mayPull_of_issuable hrb hq
  rcases hrec b rb q w hw with rfl | hlt
  · exact hnot hb
  · exact Bool.eq_false_iff.mp hab ((s.before_iff a b).mpr ⟨r, rb, hr, hrb, hlt.imp_right fun ⟨he, ho⟩ => ⟨he.symm, ho⟩⟩)

/-! ## The PULL and its port -/

/-- R79: what the part's gates ask. -/
theorem State.partGates_iff (s : State) : s.partGates = true ↔ s.port.quiesce = false ∧ s.lowestFreeTag.isSome = true
    ∧ (s.fetch.port0.linkUp = true ∨ s.fetch.port1.linkUp = true) := by
  simp [State.partGates, and_assoc]

/-- R90: the port of the rack's parity where its link is up, and the other where it is not. -/
theorem State.portFor_eq (s : State) (k : RackId) : s.portFor k =
    if k.toNat % 2 = 0 then (if s.fetch.port0.linkUp then .p0 else .p1) else (if s.fetch.port1.linkUp then .p1 else .p0) := by
  unfold State.portFor preferredPort
  split <;> rfl

/-- R33: danger 3 is margin 0. -/
theorem Record.danger_eq_three (r : Record) : (r.danger == 3) = decide (r.margin = 0) := by
  rw [Bool.eq_iff_iff, beq_iff_eq, decide_eq_true_iff, Record.danger]
  omega

/-- R87: the PULL joins the queue of its port, and the other port keeps its queue. -/
theorem State.portAt_issueTo (s : State) (tag : Tag) (a : Slot) (r : Record) (pos : Nat) (v : Survivor) (q : PortNo) :
    (s.issueTo tag a r pos v).portAt q = (s.setPort (s.portFor v.rack) { s.portAt (s.portFor v.rack) with
      queue := (s.portAt (s.portFor v.rack)).queue ++ [(s.newCtx a pos v).pull tag r v] }).portAt q := by
  have hport : (s.newCtx a pos v).port = s.portFor v.rack := rfl
  unfold State.issueTo
  dsimp only
  rw [hport]
  cases s.portFor v.rack <;> cases q <;> rfl

/-- R81: what an issue changes of the Fetch Engine. -/
theorem State.issueTo_fetch (s : State) (tag : Tag) (a : Slot) (r : Record) (pos : Nat) (v : Survivor) :
    (s.issueTo tag a r pos v).fetch = { s.fetch with
      ctxs := (s.issueTo tag a r pos v).fetch.ctxs, pullSerial := s.fetch.pullSerial + 1
      port0 := (s.issueTo tag a r pos v).fetch.port0, port1 := (s.issueTo tag a r pos v).fetch.port1 } := by
  simp only [State.issueTo, State.setPort]
  split <;> rfl

/-- Settles O36: the decision by the first candidate, its effects table by table, and the waiting by the gates. -/
theorem issuePullsTheFirstCandidateOrWaits : Obligations.IssuePullsTheFirstCandidateOrWaits := by
  refine ⟨?_, fun s hwait => ?_⟩
  · intro s tag slot r pos i v hquiesce hlinks hfree hlow hmay hi hplan hrec port start verify
    obtain ⟨hr, hv, -⟩ := State.mayPull_iff.mp hmay
    have htag := State.lowestFreeTag_eq_some hfree hlow
    have hdec : s.decision = some (tag, slot, r, pos, v) := State.decision_some.mpr
      ⟨s.partGates_iff.mpr ⟨hquiesce, by rw [htag]; rfl, hlinks⟩, htag, State.firstIssue_eq_some hmay hi hplan hrec, hr, hv⟩
    have hport : s.portFor v.rack = port := s.portFor_eq v.rack
    have hctx : s.newCtx slot pos v = { slot, pos, port, serial := s.fetch.pullSerial, start, span := s.settings.spanCode * 512, verify
                                        badCheck := false, deadline := s.now + s.settings.idleTimeout * 1000 } := by
      rw [← hport]
      simp only [start, verify, State.newCtx, Survivor.start, Survivor.lowestUncovered, Survivor.slab]
      cases v.staging <;> rfl
    clear_value port start verify
    have hslot := (SlotChange.setRec hr).congr fun b => s.recAt_issueTo tag slot r pos v b
    refine ⟨s.issueTo tag slot r pos v, ?_, ?_, hslot.others, fun u => ?_, ?_, fun k hk => ?_, ?_, fun q hq => ?_, ?_⟩
    · rw [exec_issue_eq, State.nextIssue, hdec]
      rfl
    · rw [hslot.after, Record.modSurv_eq hv]
    · rw [State.ctxAt_issueTo, hctx]
      split
      · rename_i hu
        rw [hu, State.ctxAt_setCtx_same]
      · exact State.ctxAt_setCtx_ne s _ ‹_›
    · rw [State.rackAt_issueTo, State.rackAt_setRack_same, hctx]
      rfl
    · rw [State.rackAt_issueTo, State.rackAt_setRack_ne s _ hk]
    · rw [State.portAt_issueTo, hport, State.portAt_setPort_same, Ctx.pull, hctx, r.danger_eq_three]
    · rw [State.portAt_issueTo, hport, State.portAt_setPort_ne s _ hq]
    · conv_lhs => rw [State.issueTo_rest, State.issueTo_fetch]
  · refine exec_issue_of_none (Option.eq_none_iff_forall_ne_some.mpr fun ⟨tag, a, r, pos, v⟩ hdec => ?_)
    obtain ⟨hgates, htag, -⟩ := State.decision_some.mp hdec
    obtain ⟨hquiesce, -, hlinks⟩ := s.partGates_iff.mp hgates
    rcases hwait with h | h | ⟨h0, h1⟩ | h
    · exact Bool.false_ne_true (hquiesce.symm.trans h)
    · exact h tag (State.lowestFreeTag_none htag)
    · simp [h0, h1] at hlinks
    · exact h a r pos v (State.mayPull_of_decision hdec)

end Sys2Proof.Machine

/-! The pacing of PULLs: at a refill every credit rises (O37), and every step keeps the settings in range and every credit bounded
(O51). -/

namespace Sys2Proof.Machine

/-! ## The refill (O37) -/

/-- R72: a rack's entry after a refill, its share spelled out by class. -/
theorem Rack.refilled_eq (base depth : Nat) (e : Rack) : e.refilled base (depth * 32) = { e with
    credit := min (e.credit + (base * (match e.cls with
      | .full => 32
      | .reduced => 8
      | .trickle => 1
      | .halted => 0) : Nat)) (depth * 32) } := by
  rw [Rack.refilled]
  cases e.cls <;> rfl

/-- A function applied to every rack's entry. -/
theorem State.rackAt_of_mapVec {s t : State} {f : Rack → Rack} (racks : t.rackUnit.racks = mapVec f s.rackUnit.racks) (k : RackId) :
    t.rackAt k = f (s.rackAt k) := by
  simp only [State.rackAt, racks, getElem_mapVec]

/-- Settles O37: the racks one by one, the rest as the event leaves it. -/
theorem refillRaisesEveryCredit : Obligations.RefillRaisesEveryCredit := by
  intro s₀ s hdue
  refine ⟨_, congrArg Host.Outcome.next (if_pos hdue), fun k => ?_, rfl⟩
  exact (State.rackAt_of_mapVec (s := s) rfl k).trans (Rack.refilled_eq _ _ _)

/-! ## What the bounds look at -/

/-- What the bounds of settings and credits look at: the settings and every rack's credit. -/
def State.pacing (s : State) : Settings × (RackId → Int) := (s.settings, fun k => (s.rackAt k).credit)

/-- R70, R161: the settings are in range and the credits bounded. -/
def State.paced (s : State) : Prop := s.settings.inRange ∧ s.creditBounded

/-- R70: the bounds of one credit. -/
def Settings.allows (g : Settings) (credit : Int) : Prop := -8191 ≤ credit ∧ credit ≤ g.bucketDepth * 32

theorem State.paced_iff (s : State) : s.paced ↔ s.pacing.1.inRange ∧ ∀ k, s.pacing.1.allows (s.pacing.2 k) := .rfl

section Pacing

variable {s t : State}

theorem State.paced.congr (h : s.paced) (e : t.pacing = s.pacing) : t.paced := by
  rw [State.paced_iff] at h ⊢
  rwa [e]

theorem State.pacing_of_credits (settings : t.settings = s.settings) (credits : ∀ k, (t.rackAt k).credit = (s.rackAt k).credit) :
    t.pacing = s.pacing := Prod.ext settings (funext credits)

theorem State.pacing_of_racks (settings : t.settings = s.settings) (racks : t.rackUnit.racks = s.rackUnit.racks) :
    t.pacing = s.pacing := State.pacing_of_credits settings fun k => by simp only [State.rackAt, racks]

theorem State.pacing_of_rackUnit (settings : t.settings = s.settings) (rackUnit : t.rackUnit = s.rackUnit) :
    t.pacing = s.pacing := State.pacing_of_racks settings (by rw [rackUnit])

end Pacing

/-! ## Updates that leave settings and credits as they are -/

section Updates

variable (s : State)

@[simp] theorem State.setRec_pacing (a : Slot) (o : Option Record) : (s.setRec a o).pacing = s.pacing := rfl
@[simp] theorem State.clearVerify_pacing (l : List Slab) : (s.clearVerify l).pacing = s.pacing :=
  State.pacing_of_rackUnit (by simp) (by simp)
@[simp] theorem State.setPort_pacing (p : PortNo) (f : FabricPort) : (s.setPort p f).pacing = s.pacing :=
  State.pacing_of_rackUnit (by simp) (by simp)
@[simp] theorem State.emit_pacing (o : List Output) : (s.emit o).pacing = s.pacing := rfl
@[simp] theorem State.readsBlock_pacing (header : Nat) (size : List Byte → Nat) (e : Entry) (block : List Byte) :
    (s.readsBlock header size e block).pacing = s.pacing := rfl
@[simp] theorem State.enlist_pacing (a : Slot) : (s.enlist a).pacing = s.pacing := rfl
@[simp] theorem State.relist_pacing (a : Slot) : (s.relist a).pacing = s.pacing :=
  State.pacing_of_rackUnit (by simp) (by simp)
@[simp] theorem State.notify_pacing (n : Notice) : (s.notify n).pacing = s.pacing :=
  State.pacing_of_rackUnit (by simp) (by simp)
@[simp] theorem State.modSurv_pacing (a : Slot) (pos : Nat) (f : Survivor → Survivor) : (s.modSurv a pos f).pacing = s.pacing :=
  State.pacing_of_rackUnit (by simp) (by simp)
@[simp] theorem State.finishTaking_pacing (e : Entry) (cw : Dma) (r : Reply) : (s.finishTaking e cw r).pacing = s.pacing :=
  State.pacing_of_rackUnit (by simp) (by simp)
@[simp] theorem State.enterPlanWait_pacing (a : Slot) (r : Record) : (s.enterPlanWait a r).pacing = s.pacing :=
  State.pacing_of_rackUnit (by simp) (by simp)
@[simp] theorem State.enterCombining_pacing (a : Slot) (r : Record) : (s.enterCombining a r).pacing = s.pacing := rfl

/-- A rack's entry written with the credit that it has. -/
theorem State.setRack_pacing {k : RackId} {e : Rack} (h : e.credit = (s.rackAt k).credit) : (s.setRack k e).pacing = s.pacing := by
  refine State.pacing_of_credits rfl fun j => ?_
  by_cases hj : j = k
  · rw [hj, State.rackAt_setRack_same, h]
  · rw [State.rackAt_setRack_ne s e hj]

/-- R104: a context that ends gives no credit back. -/
@[simp] theorem State.freeCtx_pacing (tag : Tag) : (s.freeCtx tag).pacing = s.pacing := by
  rcases s.freeCtx_cases tag with ⟨-, e⟩ | ⟨_, -, -, e⟩ | ⟨_, k, -, -, e⟩ <;> rw [e]
  · rfl
  · exact (s.setCtx tag none).setRack_pacing rfl

@[simp] theorem State.freeCtxs_pacing (p : Ctx → Bool) : (s.freeCtxs p).pacing = s.pacing :=
  State.pacing_of_credits rfl fun k => by rw [State.rackAt_freeCtxs]; rfl

@[simp] theorem State.enterLost_pacing (a : Slot) (r : Record) (m : Int) : (s.enterLost a r m).pacing = s.pacing := by
  rw [State.enterLost_rest]
  exact s.freeCtxs_pacing _

@[simp] theorem State.reckon_pacing (a : Slot) (lostSelected : Bool) : (s.reckon a lostSelected).pacing = s.pacing := by
  rcases s.reckon_cases a lostSelected with ⟨-, e⟩ | ⟨r, -, ⟨-, e⟩ | ⟨-, -, e⟩ | ⟨-, -, r', -, h⟩⟩
  · rw [e]
  · rw [e]
  · rw [e, State.enterLost_pacing]
  rcases h with ⟨-, e⟩ | ⟨-, -, e⟩ | ⟨-, -, e⟩ <;> rw [e]
  · split <;> simp
  · simp
  · simp

/-! ### The fabric, the sweep and the passes -/

@[simp] theorem State.backToAvailable_pacing (c : Ctx) (v : Survivor) (f : Survivor → Survivor) :
    (s.backToAvailable c v f).pacing = s.pacing := by
  rw [State.backToAvailable, State.modSurv_pacing, State.passMark_rest]
  rfl

@[simp] theorem State.loseSurvivor_pacing (c : Ctx) (v : Survivor) (st : SurvState) (f : Survivor → Survivor) :
    (s.loseSurvivor c v st f).pacing = s.pacing := by
  simp [State.loseSurvivor]

@[simp] theorem State.countRetry_pacing (c : Ctx) (r : Record) (v : Survivor) : (s.countRetry c r v).pacing = s.pacing := by
  unfold State.countRetry
  dsimp only
  split
  · rw [State.backToAvailable_pacing]; rfl
  · rw [State.reckon_pacing, State.loseSurvivor_pacing]; rfl

theorem State.endArrives_pacing (m : List Byte) (st : EndStatus) : (s.endArrives m st).pacing = s.pacing := by
  unfold State.endArrives
  split
  · rfl
  split
  · exact s.freeCtx_pacing _
  · cases st <;> simp [State.endOutcome]

@[simp] theorem State.expiryOutcome_pacing (c : Ctx) (r : Record) (v : Survivor) : (s.expiryOutcome c r v).pacing = s.pacing := by
  unfold State.expiryOutcome
  split
  · simp
  · split <;> simp

@[simp] theorem State.stagedIn_pacing (a : Slot) : (s.stagedIn a).pacing = s.pacing := by
  unfold State.stagedIn
  split
  · rfl
  split
  · split <;> simp
  · rfl

@[simp] theorem State.stage_pacing (tag : Tag) (c : Ctx) (v : Survivor) : (s.stage tag c v).pacing = s.pacing := by
  simp [State.stage]

@[simp] theorem State.writeSpan_pacing (v : Survivor) (off : Nat) (payload : List Byte) :
    (s.writeSpan v off payload).pacing = s.pacing := by
  unfold State.writeSpan
  split <;> rfl

theorem State.acceptSpan_pacing (tag : Tag) (c : Ctx) (v : Survivor) (off : Nat) (payload : List Byte) :
    (s.acceptSpan tag c v off payload).pacing = s.pacing := by
  have hspan := ((s.writeSpan v off payload).modSurv_pacing c.slot c.pos fun v => v.cover off payload.length).trans
    (s.writeSpan_pacing v off payload)
  unfold State.acceptSpan
  dsimp only
  split
  · rw [State.stage_pacing]; exact hspan
  · exact hspan

theorem State.spanArrives_pacing (m : List Byte) : (s.spanArrives m).pacing = s.pacing := by
  unfold State.spanArrives
  split
  · rfl
  split
  · rfl
  split
  · rfl
  split
  · rfl
  split
  · rfl
  · exact s.acceptSpan_pacing _ _ _ _ _

theorem State.visit_pacing (w : Sweep) (a : Slot) : (s.visit w a).pacing = s.pacing := by
  unfold State.visit State.visitRecord
  split
  · rfl
  · split <;> simp

theorem State.endPass_pacing (a : Slot) (r : Record) (checks : List Word) (d : Option FaultDetail) :
    (s.endPass a r checks d).pacing = s.pacing := by
  rw [State.endPass_rest]
  rfl

/-! ### The register window and the Request Port -/

theorem State.placeRequestRing_pacing (reg : RingReg) (value : Word) : (s.placeRequestRing reg value).pacing = s.pacing := by
  unfold State.placeRequestRing
  split <;> rfl

theorem State.placeCompletionRing_pacing (reg : RingReg) (value : Word) : (s.placeCompletionRing reg value).pacing = s.pacing := by
  unfold State.placeCompletionRing
  split <;> rfl

theorem State.writeArm_pacing (value : Word) : (s.writeArm value).pacing = s.pacing := by
  unfold State.writeArm
  split
  · split <;> rfl
  · rfl

theorem State.bufferEnd_pacing (job : BufferJob) (bw : Dma) : (s.bufferEnd job bw).pacing = s.pacing := by
  unfold State.bufferEnd
  dsimp only
  split
  · rfl
  · split <;> rfl

theorem State.headNoticeWritten_pacing (cw : Dma) : (s.headNoticeWritten cw).pacing = s.pacing := by
  unfold State.headNoticeWritten
  split
  · rfl
  split
  · dsimp only
    split <;> rfl
  · rfl

theorem State.sendOne_pacing (p : PortNo) : (s.sendOne p).pacing = s.pacing := by
  unfold State.sendOne
  split <;> simp

end Updates

/-! ### The requests -/

section Requests

variable (e : Entry) (s : State)

theorem openBody_pacing (block : List Byte) : (openBody e block s).1.pacing = s.pacing := by
  unfold openBody
  dsimp only
  split <;> rfl

theorem cancelBody_pacing : (cancelBody e s).1.pacing = s.pacing := by
  unfold cancelBody
  split
  · rfl
  · rename_i a r _
    refine (State.pacing_of_rackUnit (s := s.freeCtxs fun c => c.slot == a) ?_ (s.cancelRecord_fetch a r).2).trans
      (s.freeCtxs_pacing _)
    rw [State.cancelRecord_rest]
    rfl

theorem retireBody_pacing : (retireBody e s).1.pacing = s.pacing := by
  unfold retireBody
  split
  · rfl
  · split <;> rfl

theorem queryBody_pacing : (queryBody e s).1.pacing = s.pacing := by
  unfold queryBody
  split
  · rfl
  · split <;> rfl

theorem reprioritizeBody_pacing : (reprioritizeBody e s).1.pacing = s.pacing := by
  unfold reprioritizeBody
  split <;> simp

theorem rackDownBody_pacing : (rackDownBody e s).1.pacing = s.pacing := by
  unfold rackDownBody
  dsimp only
  split
  · rfl
  · exact s.setRack_pacing (k := rackOf e) (e := { s.rackAt (rackOf e) with down := true }) rfl

theorem rackUpBody_pacing : (rackUpBody e s).1.pacing = s.pacing := by
  unfold rackUpBody
  dsimp only
  split
  · rfl
  · exact s.setRack_pacing rfl

theorem rackClassBody_pacing : (rackClassBody e s).1.pacing = s.pacing := s.setRack_pacing rfl

theorem holdBody_pacing : (holdBody e s).1.pacing = s.pacing := by
  unfold holdBody
  split
  · rfl
  split
  · rfl
  split
  · rfl
  · dsimp only
    split <;> rfl

theorem releaseBody_pacing : (releaseBody e s).1.pacing = s.pacing := by
  unfold releaseBody
  split
  · rfl
  split
  · rfl
  · dsimp only
    rw [State.releaseRecord_rest]
    rfl

theorem amendBody_pacing : (amendBody e s).1.pacing = s.pacing := by
  unfold amendBody
  split
  · rfl
  · split <;> simp [State.amendSlot]

theorem replanBody_pacing (block : List Byte) : (replanBody e block s).1.pacing = s.pacing := by
  unfold replanBody
  dsimp only
  split
  · rfl
  split
  · rfl
  · unfold State.replanSlot
    dsimp only
    split
    · split <;> simp
    · simp

theorem reportBody_pacing : (reportBody e s).1.pacing = s.pacing := by
  unfold reportBody
  split
  · rfl
  · split <;> rfl

theorem identifyBody_pacing : (identifyBody e s).1.pacing = s.pacing := by
  unfold identifyBody
  split <;> rfl

end Requests

/-! ## Changes of settings and credits -/

/-- R75, R21: no PULL costs more than a whole fragment of 1 MiB. -/
theorem pullCost_le {r : Record} {bytes : Nat} (h : bytes ≤ r.length) : pullCost bytes ≤ 8192 := by
  have hlen : r.length ≤ 256 * 4096 := by
    have hbyte : r.lcode.toNat < 256 := r.lcode.isLt
    unfold Record.length fragLength
    split <;> omega
  unfold pullCost
  omega

section Paced

variable {s : State} (h : s.paced)

include h

/-- R70, R76, R81: an issue takes the whole cost from a credit above 0. -/
theorem State.paced.issueTo {tag : Tag} {a : Slot} {r : Record} {pos : Nat} {v : Survivor}
    (hd : s.decision = some (tag, a, r, pos, v)) : (s.issueTo tag a r pos v).paced := by
  have hset : (s.issueTo tag a r pos v).settings = s.settings := by rw [State.issueTo_rest]
  have hopen : 0 < (s.rackAt v.rack).credit := by
    obtain ⟨-, -, -, -, -, -, -, -, -, hcredit, -⟩ := State.mayPull_of_decision hd
    exact hcredit
  have hcost := pullCost_le (r := r) (Nat.sub_le r.length (s.newCtx a pos v).start)
  refine ⟨by rw [hset]; exact h.1, fun k => ?_⟩
  rw [hset, State.rackAt_issueTo]
  by_cases hk : k = v.rack
  · have hbounds := h.2 v.rack
    rw [hk, State.rackAt_setRack_same, Rack.charged]
    dsimp only
    omega
  · rw [State.rackAt_setRack_ne s _ hk]
    exact h.2 k

theorem State.paced.passStarted : s.passStarted.paced := by
  refine h.congr ?_
  rcases s.passStarted_cases with ⟨-, e⟩ | ⟨_, _, -, -, -, e⟩ <;> rw [e]
  rfl

/-- R48, R81, R82, R139: of what the arbiters do only the issues move a credit. -/
theorem State.paced.arbitersServed : s.arbitersServed.paced := by
  refine State.arbitersServed_induction (P := State.paced) (fun u a r hu _ => hu.congr ?_) (fun _ hu => hu.passStarted)
    (fun _ _ _ _ _ _ hu hd => hu.issueTo hd) h
  rw [State.activate_rest]
  rfl

theorem State.paced.intakeBegun : s.intakeBegun.paced := by
  refine h.congr ?_
  rcases s.intakeBegun_cases with ⟨-, e⟩ | ⟨-, e⟩ <;> rw [e]
  rfl

theorem State.paced.settled : s.settled.paced := h.arbitersServed.intakeBegun

/-- R72: a refill raises a credit to the cap at most. -/
theorem State.paced.refilled {t : State} (settings : t.settings = s.settings)
    (racks : t.rackUnit.racks = mapVec (Rack.refilled s.settings.baseRate s.settings.cap) s.rackUnit.racks) : t.paced := by
  refine ⟨by rw [settings]; exact h.1, fun k => ?_⟩
  have hbounds := h.2 k
  rw [settings, State.rackAt_of_mapVec racks, Rack.refilled, Settings.cap]
  generalize s.settings.baseRate * (s.rackAt k).cls.multiplier = share
  dsimp only
  omega

/-- R74, R161: a lowered bucket depth clamps every credit to its cap, which is above 0. -/
theorem State.paced.storeSettings {g : Settings} (hg : g.inRange) : (s.storeSettings g).paced := by
  have hset : (s.storeSettings g).settings = g := by rw [State.storeSettings_rest]
  refine ⟨by rw [hset]; exact hg, fun k => ?_⟩
  obtain ⟨-, -, -, -, -, -, -, -, -, -, hdepth, -⟩ := hg
  have hbounds := h.2 k
  rw [hset, State.rackAt_storeSettings]
  dsimp only
  split <;> omega

/-! ### Resets -/

theorem State.paced.controllerReset : s.controllerReset.paced := by
  refine ⟨h.1, fun k => ?_⟩
  have hrack : s.controllerReset.rackAt k = .fresh s.settings.bucketDepth := by
    simp [State.rackAt, State.controllerReset, RackUnit.fresh]
  rw [hrack]
  exact ⟨by simp only [Rack.fresh]; omega, le_rfl⟩

theorem State.paced.writeControl (value : Word) : (s.writeControl value).paced := by
  unfold State.writeControl
  split
  · exact h.controllerReset
  · exact h

theorem State.paced.writeRegister (offset : BitVec 12) (value : Word) : (s.writeRegister offset value).paced := by
  unfold State.writeRegister
  split
  · exact h.writeControl value
  · exact h.congr (s.placeRequestRing_pacing _ _)
  · exact h.congr (s.placeRequestRing_pacing _ _)
  · exact h.congr (s.placeRequestRing_pacing _ _)
  · exact h
  · exact h.congr (s.placeCompletionRing_pacing _ _)
  · exact h.congr (s.placeCompletionRing_pacing _ _)
  · exact h.congr (s.placeCompletionRing_pacing _ _)
  · exact h
  · exact h.congr (s.writeArm_pacing _)
  · exact h

/-! ### The taking of a request -/

theorem State.paced.takeChanging {e : Entry} {body : State → State × Reply} (hbody : ∀ u, u.paced → (body u).1.paced) (op : Byte)
    (cw : Dma) : (s.takeChanging e op cw body).paced := by
  unfold State.takeChanging
  dsimp only
  split
  · exact (hbody s.clearQuiesce h).congr (State.finishTaking_pacing _ _ _ _)
  · exact h

/-- A request whose rule leaves settings and credits as they are. -/
theorem State.paced.takeChanging_of_same {e : Entry} {body : State → State × Reply} (hbody : ∀ u, (body u).1.pacing = u.pacing)
    (op : Byte) (cw : Dma) : (s.takeChanging e op cw body).paced := h.takeChanging (fun u hu => hu.congr (hbody u)) op cw

theorem State.paced.takeReading {e : Entry} {body : State → State × Reply} (hbody : ∀ u, (body u).1.pacing = u.pacing)
    (op : Byte) (cw : Dma) : (s.takeReading e op cw body).paced := by
  unfold State.takeReading
  split
  · exact h.congr ((State.finishTaking_pacing _ _ _ _).trans (hbody s))
  · exact h

end Paced

/-- R153: settings and credits are those of the state after power-on reset. -/
theorem State.powerOn_paced (s : State) : s.powerOn.paced := by
  obtain ⟨-, hrange, hcredit, -⟩ := resetMeetsTheInvariants
  exact State.paced.congr ⟨hrange, hcredit⟩ (State.pacing_of_rackUnit rfl rfl)

/-- R161: every setting is in its range once brought into it. -/
theorem Settings.clamped_inRange (g : Settings) : g.clamped.inRange := by
  simp only [Settings.inRange, Settings.clamped, clampTo]
  omega

theorem State.paced.setParamsBody {s : State} (h : s.paced) (e : Entry) (block : List Byte) : (setParamsBody e block s).1.paced := by
  have hread : (s.readsBlock 80 (fun _ => 80) e block).paced := h.congr (s.readsBlock_pacing _ _ _ _)
  unfold Machine.setParamsBody
  dsimp only
  split
  · exact hread
  · exact hread.storeSettings (Settings.clamped_inRange _)

/-! ## Every command and every step -/

/-- Every command, whatever the state it meets, answers a state with settings in range and credits bounded if that state is such
a one. -/
theorem exec_paced (c : Instr) {s : State} (h : s.paced) : ∃ t, exec c s = .next t ∧ t.paced := by
  have hu := h.settled
  cases c with
  | powerOnReset => exact ⟨_, rfl, State.powerOn_paced _⟩
  | functionLevelReset => exact ⟨_, rfl, State.powerOn_paced _⟩
  | controllerReset value => exact ⟨_, rfl, hu.writeControl value⟩
  | writeRun value => exact ⟨_, rfl, hu.writeControl value⟩
  | writeRequestRingPlacement reg value => exact ⟨_, rfl, hu.congr (State.placeRequestRing_pacing _ reg value)⟩
  | writeCompletionRingPlacement reg value => exact ⟨_, rfl, hu.congr (State.placeCompletionRing_pacing _ reg value)⟩
  | requestRingTail value => exact ⟨_, rfl, hu⟩
  | completionRingHead value => exact ⟨_, rfl, hu⟩
  | attentionArm value => exact ⟨_, rfl, hu.congr (State.writeArm_pacing _ value)⟩
  | registerWrite offset value => exact ⟨_, rfl, hu.writeRegister offset value⟩
  | portLinkChange port up => exact ⟨_, rfl, hu.congr (State.setPort_pacing _ port _)⟩
  | intakeReservation => exact ⟨_, rfl, h.intakeBegun⟩
  | entryReadFault cw =>
    refine ⟨_, rfl, ?_⟩
    dsimp only
    split <;> exact hu
  | badRequest entry cw =>
    refine ⟨_, rfl, ?_⟩
    dsimp only
    split <;> exact hu
  | openRecord entry block cw => exact ⟨_, rfl, hu.takeChanging_of_same (openBody_pacing entry · block) _ cw⟩
  | cancel entry cw => exact ⟨_, rfl, hu.takeChanging_of_same (cancelBody_pacing entry) _ cw⟩
  | retire entry cw => exact ⟨_, rfl, hu.takeChanging_of_same (retireBody_pacing entry) _ cw⟩
  | query entry cw => exact ⟨_, rfl, hu.takeReading (queryBody_pacing entry) _ cw⟩
  | reprioritize entry cw => exact ⟨_, rfl, hu.takeChanging_of_same (reprioritizeBody_pacing entry) _ cw⟩
  | rackDown entry cw => exact ⟨_, rfl, hu.takeChanging_of_same (rackDownBody_pacing entry) _ cw⟩
  | rackUp entry cw => exact ⟨_, rfl, hu.takeChanging_of_same (rackUpBody_pacing entry) _ cw⟩
  | rackClass entry cw => exact ⟨_, rfl, hu.takeChanging_of_same (rackClassBody_pacing entry) _ cw⟩
  | hold entry cw => exact ⟨_, rfl, hu.takeChanging_of_same (holdBody_pacing entry) _ cw⟩
  | release entry cw => exact ⟨_, rfl, hu.takeChanging_of_same (releaseBody_pacing entry) _ cw⟩
  | amend entry cw => exact ⟨_, rfl, hu.takeChanging_of_same (amendBody_pacing entry) _ cw⟩
  | replan entry block cw => exact ⟨_, rfl, hu.takeChanging_of_same (replanBody_pacing entry · block) _ cw⟩
  | quiesce entry cw => exact ⟨_, rfl, hu.takeReading (fun _ => rfl) _ cw⟩
  | setParams entry block cw => exact ⟨_, rfl, hu.takeChanging (fun _ hv => hv.setParamsBody entry block) _ cw⟩
  | identify entry cw => exact ⟨_, rfl, hu.takeReading (identifyBody_pacing entry) _ cw⟩
  | report entry cw => exact ⟨_, rfl, hu.takeReading (reportBody_pacing entry) _ cw⟩
  | bufferWriteDone bw cw =>
    refine ⟨_, rfl, ?_⟩
    dsimp only
    split
    · exact hu.congr (State.bufferEnd_pacing _ _ bw)
    all_goals exact hu
  | noticeWrite cw => exact ⟨_, rfl, h.arbitersServed.congr (State.headNoticeWritten_pacing _ cw)⟩
  | activation =>
    refine ⟨_, rfl, ?_⟩
    split
    · exact h
    · exact h.congr (by rw [State.activate_rest]; rfl)
  | issue =>
    refine ⟨_, rfl, ?_⟩
    split
    · exact h
    · exact h.issueTo ‹_›
  | refill =>
    refine ⟨_, rfl, ?_⟩
    dsimp only
    split
    · exact hu.refilled rfl rfl
    · exact hu
  | stallExpiry slot =>
    refine ⟨_, rfl, ?_⟩
    dsimp only
    split
    · exact hu
    split
    · exact hu.congr (State.relist_pacing _ _)
    · exact hu
  | holdoffExpiry slot pos => exact ⟨_, rfl, hu.congr (State.modSurv_pacing _ slot pos _)⟩
  | idleExpiry tag =>
    refine ⟨_, rfl, ?_⟩
    dsimp only
    split
    · exact hu
    split
    · split <;> exact hu.congr (by simp)
    · exact hu
  | spanArrival port frame =>
    refine ⟨_, rfl, ?_⟩
    dsimp only
    split
    · exact hu.congr (State.spanArrives_pacing _ _)
    all_goals exact hu
  | endArrival port frame =>
    refine ⟨_, rfl, ?_⟩
    dsimp only
    split
    · split
      · exact hu
      · exact hu.congr (State.endArrives_pacing _ _ _)
    all_goals exact hu
  | neighbourSolicitation port frame =>
    refine ⟨_, rfl, ?_⟩
    dsimp only
    split <;> exact hu
  | frameDiscard port frame => exact ⟨_, rfl, hu⟩
  | sweepVisit =>
    refine ⟨_, rfl, ?_⟩
    dsimp only
    split
    · split
      · exact hu.congr (State.visit_pacing _ _ _)
      · exact hu
    · exact hu
  | sweepEnd =>
    refine ⟨_, rfl, ?_⟩
    dsimp only
    split <;> exact hu
  | passStart => exact ⟨_, rfl, h.passStarted⟩
  | passEnd =>
    refine ⟨_, rfl, ?_⟩
    dsimp only
    split
    · exact hu
    split
    · exact hu.congr (State.endPass_pacing _ _ _ _ _)
    · exact hu
  | landingFault =>
    refine ⟨_, rfl, ?_⟩
    dsimp only
    split
    · exact hu
    · exact hu.congr (State.endPass_pacing _ _ _ _ _)
  | landingWriteComplete =>
    refine ⟨_, rfl, ?_⟩
    dsimp only
    split
    · exact hu
    split <;> exact hu

theorem State.paced.tick {s : State} (h : s.paced) : s.tick.paced :=
  h.settled.congr ((State.sendOne_pacing _ .p1).trans (State.sendOne_pacing _ .p0))

/-- Settles O51: credits fall by issues from above 0, rise by refills to the cap at most, and follow the cap where it falls. -/
theorem stepKeepsCreditBounded : Obligations.StepKeepsCreditBounded := by
  intro s t h hrange hcredit
  have hs : s.paced := ⟨hrange, hcredit⟩
  rcases step_cases h with rfl | ⟨c, rest, -, hc⟩
  · exact hs.tick
  · obtain ⟨t', ht', hpaced⟩ := exec_paced c (s := { s with pending := rest }) hs
    obtain rfl := Host.Outcome.next.inj (hc.symm.trans ht')
    exact hpaced

end Sys2Proof.Machine

/-! The frames that the ports send (O18, O43): the places of the headers' fields, the checksums, and the fields of a PULL. -/

namespace Sys2Proof.Machine

/-! ## Network-order fields of a concatenation -/

theorem beAt_append_of_le {a b : List Byte} {off len : Nat} (h : a.length ≤ off) :
    beAt (a ++ b) off len = beAt b (off - a.length) len := congrArg beValue (field_append_of_le h)

@[simp] theorem beAt_cons_succ (x : Byte) (l : List Byte) (off len : Nat) : beAt (x :: l) (off + 1) len = beAt l off len :=
  congrArg beValue (field_cons_succ x l off len)

/-- A number written in `len` bytes in network order is read back, whatever follows. -/
theorem beAt_beBytes_append {len x : Nat} (hx : x < 256 ^ len) (b : List Byte) : beAt (beBytes len x ++ b) 0 len = x := by
  rw [beAt, field_append_left (by simp), field_self (length_beBytes len x), beValue_beBytes, Nat.mod_eq_of_lt hx]

/-- A word written in as many bytes as it has is read back, whatever follows. -/
theorem beAt_word_append {len w : Nat} (x : BitVec w) (hw : 2 ^ w = 256 ^ len) (b : List Byte) :
    beAt (beBytes len x.toNat ++ b) 0 len = x.toNat := beAt_beBytes_append (hw ▸ x.isLt) b

theorem beAt_drop (l : List Byte) (n off len : Nat) : beAt (l.drop n) off len = beAt l (n + off) len :=
  congrArg beValue (List.map_congr_left fun i _ => (byteAt_drop l n (off + i)).trans (by rw [← Nat.add_assoc]; rfl))

/-- A word as wide as a field is the one the field spells. -/
theorem ofNat_beAt_eq_iff {w off len : Nat} {f : List Byte} (x : BitVec w) (hw : 256 ^ len = 2 ^ w) :
    BitVec.ofNat w (beAt f off len) = x ↔ beAt f off len = x.toNat := by
  rw [← BitVec.toNat_inj, toNat_ofNat_of_lt (hw ▸ beAt_lt f off len)]

/-! ## The one's complement sum -/

theorem wordSum_append {a : List Byte} (b : List Byte) (h : a.length % 2 = 0) : wordSum (a ++ b) = wordSum a + wordSum b := by
  induction a using wordSum.induct with
  | case1 => simp [wordSum]
  | case2 x => simp at h
  | case3 x y rest ih =>
    have hrest : rest.length % 2 = 0 := by simpa [Nat.add_assoc] using h
    simp only [List.cons_append, wordSum, ih hrest]
    omega

theorem wordSum_beBytes_two (x : Nat) : wordSum (beBytes 2 x) = x % 65536 := by
  have h : beBytes 2 x = [BitVec.ofNat 8 (x / 256), BitVec.ofNat 8 x] := rfl
  simp only [h, wordSum, BitVec.toNat_ofNat]
  omega

theorem beAt_two (l : List Byte) : beAt l 0 2 = (byteAt l 0).toNat * 256 + (byteAt l 1).toNat := by
  have h : beAt l 0 2 = (byteAt l 1).toNat + 256 * ((byteAt l 0).toNat + 256 * 0) := rfl
  omega

/-- The sum runs over the 16-bit words in network order, an odd last byte padded with zero. -/
theorem wordSum_eq_sum (l : List Byte) : wordSum l = ∑ i ∈ Finset.range ((l.length + 1) / 2), beAt l (2 * i) 2 := by
  induction l using wordSum.induct with
  | case1 => rfl
  | case2 x => simp [wordSum, beAt_two, byteAt_of_length_le]
  | case3 x y rest ih =>
    have hlen : ((x :: y :: rest).length + 1) / 2 = (rest.length + 1) / 2 + 1 := by
      simp only [List.length_cons]
      omega
    have hnext : ∀ i, beAt (x :: y :: rest) (2 * (i + 1)) 2 = beAt rest (2 * i) 2 := fun i => by
      rw [Nat.mul_succ, beAt_cons_succ, beAt_cons_succ]
    simp only [hlen, Finset.sum_range_succ', hnext, wordSum, ih, Nat.mul_zero, beAt_two, byteAt_cons_zero, byteAt_cons_succ]
    omega

theorem inetChecksum_lt (l : List Byte) : inetChecksum l < 65536 := by
  rw [inetChecksum]
  omega

/-- R87, R88: the checksum brings the one's complement sum to 0. -/
theorem wordSum_add_inetChecksum (l : List Byte) : (wordSum l + inetChecksum l) % 0xFFFF = 0 := by
  simp only [inetChecksum]
  split <;> omega

/-- A checksum in the place of the two zero bytes over which it was computed. -/
theorem wordSum_checked {a : List Byte} (b : List Byte) {c : Nat} (ha : a.length % 2 = 0) (hc : c < 65536)
    (h : (wordSum (a ++ (zeros 2 ++ b)) + c) % 0xFFFF = 0) : wordSum (a ++ (beBytes 2 c ++ b)) % 0xFFFF = 0 := by
  have hzero : wordSum (zeros 2) = 0 := rfl
  rw [wordSum_append _ ha, wordSum_append _ (by simp), hzero] at h
  rw [wordSum_append _ ha, wordSum_append _ (by simp), wordSum_beBytes_two, Nat.mod_eq_of_lt hc]
  omega

/-! ## The headers -/

theorem pseudoHeader_length (src dst : NetAddr) (len next : Nat) : (pseudoHeader src dst len next).length = 40 := by
  simp [pseudoHeader]

theorem pseudoHeader_fields (src dst : NetAddr) {len next : Nat} (hl : len < 2 ^ 32) (hn : next < 256) :
    let h := pseudoHeader src dst len next
    beAt h 0 16 = src.toNat ∧ beAt h 16 16 = dst.toNat ∧ beAt h 32 4 = len ∧ beAt h 36 4 = next := by
  intro h
  have hlast : zeros 3 ++ [numByte next] = beBytes 4 next ++ [] := by
    simp [zeros, numByte, beBytes, leBytes, Nat.div_eq_of_lt hn]
  have heq : h = beBytes 16 src.toNat ++ (beBytes 16 dst.toNat ++ (beBytes 4 len ++ (beBytes 4 next ++ []))) := by
    simp only [h, pseudoHeader, ← hlast, List.append_assoc]
  refine ⟨?_, ?_, ?_, ?_⟩ <;> rw [heq]
  · exact beAt_word_append src (by norm_num) _
  · simp [beAt_append_of_le, beAt_word_append]
  · simpa [beAt_append_of_le] using beAt_beBytes_append (len := 4) hl _
  · simpa [beAt_append_of_le] using beAt_beBytes_append (len := 4) (x := next) (by omega) []

/-- R87, R88: the fields of an Ethernet frame of IPv6 type, behind which its payload stands. -/
theorem ipv6Frame_fields (g : PortSettings) (dst : NetAddr) {next hopLimit : Nat} {payload : List Byte} (hn : next < 256)
    (hp : payload.length < 65536) : let f := ipv6Frame g dst next hopLimit payload
    frameDst f = g.nextHop ∧ beAt f 6 6 = g.link.toNat ∧ isIPv6 f = true ∧ field f 14 4 = [0x60#8, 0#8, 0#8, 0#8]
    ∧ beAt f 18 2 = payload.length ∧ nextHeader f = next ∧ byteAt f 21 = numByte hopLimit ∧ ipSrc f = g.net ∧ ipDst f = dst
    ∧ f.drop 54 = payload ∧ f.length = 54 + payload.length := by
  intro f
  refine ⟨?_, ?_, ?_, ?_, ?_, ?_, ?_, ?_, ?_, List.drop_left' (by simp), ?_⟩
  · rw [frameDst, ofNat_beAt_eq_iff _ (by norm_num)]
    simp [f, ipv6Frame, beAt_word_append]
  · simp [f, ipv6Frame, beAt_append_of_le, beAt_word_append]
  · simp [isIPv6, f, ipv6Frame, beAt_append_of_le, beAt_two]
  · simp [f, ipv6Frame, field_append_of_le]
    rfl
  · simp [f, ipv6Frame, beAt_append_of_le, beAt_beBytes_append, hp]
  · simp [nextHeader, f, ipv6Frame, byteAt_append_of_le, numByte, hn]
  · simp [f, ipv6Frame, byteAt_append_of_le]
  · rw [ipSrc, ofNat_beAt_eq_iff _ (by norm_num)]
    simp [f, ipv6Frame, beAt_append_of_le, beAt_word_append]
  · rw [ipDst, ofNat_beAt_eq_iff _ (by norm_num)]
    simp [f, ipv6Frame, beAt_append_of_le, beAt_word_append]
  · simp only [f, ipv6Frame, List.length_append, length_beBytes, List.length_cons, List.length_nil]

/-! ## The frame that carries a PULL (O18) -/

/-- R92, R175: the fields of a PULL. -/
theorem pullMessage_fields (tag : Tag) (serial : BitVec 16) (stripe : StripeId) {frag start length span : Nat}
    (urgent verify : Bool) (hstart : start < 2 ^ 32) (hlength : length < 2 ^ 32) (hspan : span < 65536) :
    let m := pullMessage tag serial stripe frag start length span urgent verify
    m.length = 28 ∧ byteAt m 0 = 1#8 ∧ byteAt m 1 = 1#8 ∧ byteAt m 2 = tag ∧ beAt m 4 2 = serial.toNat
    ∧ (byteAt m 3).getLsbD 0 = urgent ∧ (byteAt m 3).getLsbD 1 = verify ∧ (byteAt m 3) >>> 2 = 0#8
    ∧ beAt m 6 2 = 0 ∧ beAt m 8 8 = stripe.toNat ∧ beAt m 16 4 = start ∧ beAt m 20 4 = length ∧ beAt m 24 2 = span
    ∧ byteAt m 26 = BitVec.ofNat 8 frag ∧ byteAt m 27 = 0#8 := by
  intro m
  have hflags : byteAt m 3 = numByte ((if urgent then 1 else 0) + (if verify then 2 else 0)) := rfl
  obtain ⟨hurgent, hverify, hpad⟩ : (byteAt m 3).getLsbD 0 = urgent ∧ (byteAt m 3).getLsbD 1 = verify ∧ (byteAt m 3) >>> 2 = 0#8 := by
    rw [hflags]
    cases urgent <;> cases verify <;> decide
  have hzeros : zeros 2 = beBytes 2 0 := rfl
  refine ⟨?_, rfl, rfl, rfl, ?_, hurgent, hverify, hpad, ?_, ?_, ?_, ?_, ?_, rfl, rfl⟩
  · simp [m, pullMessage]
  · simp [m, pullMessage, beAt_word_append]
  · simp [m, pullMessage, hzeros, beAt_append_of_le, beAt_beBytes_append]
  · simp [m, pullMessage, beAt_append_of_le, beAt_word_append]
  · simp [m, pullMessage, beAt_append_of_le, beAt_beBytes_append (len := 4) hstart]
  · simp [m, pullMessage, beAt_append_of_le, beAt_beBytes_append (len := 4) hlength]
  · simp [m, pullMessage, beAt_append_of_le, beAt_beBytes_append (len := 2) hspan]

theorem messageSerial_toNat (m : List Byte) : (messageSerial m).toNat = beAt m 4 2 := toNat_ofNat_of_lt (beAt_lt m 4 2)

/-- R87: the UDP header before its checksum. -/
def udpPorts (g : PortSettings) (q : QueuedPull) : List Byte :=
  beBytes 2 g.svc.toNat ++ beBytes 2 q.svc.toNat ++ beBytes 2 (8 + q.message.length)

/-- R87: the bytes over which the UDP checksum is computed, with zeros in its place. -/
def udpCovered (g : PortSettings) (q : QueuedPull) : List Byte :=
  pseudoHeader g.net q.addr (8 + q.message.length) 17 ++ udpPorts g q ++ (zeros 2 ++ q.message)

/-- R87: the datagram holds a checksum that brings the sum to 0: that 0 is carried as 0xFFFF changes no sum. -/
theorem udpDatagram_has_checksum (g : PortSettings) (q : QueuedPull) : ∃ c < 65536,
    udpDatagram g q = udpPorts g q ++ (beBytes 2 c ++ q.message) ∧ (wordSum (udpCovered g q) + c) % 0xFFFF = 0 := by
  have hlt := inetChecksum_lt (udpCovered g q)
  have hsum := wordSum_add_inetChecksum (udpCovered g q)
  refine ⟨if inetChecksum (udpCovered g q) = 0 then 0xFFFF else inetChecksum (udpCovered g q), by split <;> omega, ?_, ?_⟩
  · simp [udpDatagram, udpPorts, udpCovered]
  · split <;> omega

theorem udpDatagram_length (g : PortSettings) (q : QueuedPull) : (udpDatagram g q).length = 8 + q.message.length := by
  simp [udpDatagram]
  omega

/-- R87: the fields of the UDP datagram, and its payload behind them. -/
theorem udpDatagram_fields (g : PortSettings) (q : QueuedPull) (hm : 8 + q.message.length < 65536) : let d := udpDatagram g q
    beAt d 0 2 = g.svc.toNat ∧ beAt d 2 2 = q.svc.toNat ∧ beAt d 4 2 = 8 + q.message.length ∧ d.drop 8 = q.message := by
  intro d
  refine ⟨?_, ?_, ?_, List.drop_left' (by simp)⟩
  · simp [d, udpDatagram, beAt_word_append]
  · simp [d, udpDatagram, beAt_append_of_le, beAt_word_append]
  · simp [d, udpDatagram, beAt_append_of_le, beAt_beBytes_append, hm]

/-- R87: the one's complement sum over the pseudo-header and the datagram is 0. -/
theorem udpDatagram_checked (g : PortSettings) (q : QueuedPull) :
    wordSum (pseudoHeader g.net q.addr (8 + q.message.length) 17 ++ udpDatagram g q) % 0xFFFF = 0 := by
  obtain ⟨c, hc, hd, hsum⟩ := udpDatagram_has_checksum g q
  rw [hd, ← List.append_assoc]
  exact wordSum_checked q.message (by simp [pseudoHeader_length, udpPorts]) hc hsum

/-- Settles O18: the frame by its headers, the checksum by the sum it completes, and the PULL by its bytes. -/
theorem pullFrameCarriesThePull : Obligations.PullFrameCarriesThePull := by
  refine ⟨wordSum_eq_sum, fun src dst len next hl hn => ⟨pseudoHeader_length src dst len next, pseudoHeader_fields src dst hl hn⟩,
    fun m => ⟨rfl, messageSerial_toNat m⟩, ?_⟩
  intro g addr svc tag serial stripe frag start length span urgent verify _ hstart hlength hspan m f
  obtain ⟨hm, h0, h1, h2, h4, hfields⟩ := pullMessage_fields tag serial stripe (frag := frag) urgent verify hstart hlength hspan
  have hmlen : m.length = 28 := hm
  have hdlen : (udpDatagram g { addr, svc, message := m }).length = 36 := by rw [udpDatagram_length, hmlen]
  obtain ⟨hdst, hsrc, hv6, hclass, hplen, hnext, hhop, hips, hipd, hpay, hlen⟩ :=
    ipv6Frame_fields g addr (next := 17) (hopLimit := 64) (payload := udpDatagram g { addr, svc, message := m }) (by norm_num) (by rw [hdlen]; norm_num)
  have hd : f.drop 54 = udpDatagram g { addr, svc, message := m } := hpay
  obtain ⟨hsvc, hto, hulen, hdrop⟩ := udpDatagram_fields g { addr, svc, message := m } (by rw [hmlen]; norm_num)
  have hsum := udpDatagram_checked g { addr, svc, message := m }
  rw [hdlen] at hplen hlen
  rw [hmlen] at hulen hsum
  rw [← hd] at hsvc hto hulen hdrop hsum
  rw [beAt_drop] at hsvc hto hulen
  rw [List.drop_drop] at hdrop
  refine ⟨hdst, hsrc, hv6, hclass, hplen, hnext, hhop, hips, hipd, hsvc, hto, hulen, hsum, ?_, hlen, h0, h1, h2, ?_, h2, h4, hfields⟩
  · rw [udpPayload, hdrop, hulen]
    exact List.take_of_length_le (by rw [hmlen])
  · exact BitVec.eq_of_toNat_eq ((messageSerial_toNat m).trans h4)

end Sys2Proof.Machine

/-! What the ports take and what they answer (O43, O39), and what they send in an idle step (O3, O11). -/

namespace Sys2Proof.Machine

/-! ## The tests of a received frame (O43) -/

theorem frameDst_eq_iff {f : List Byte} (x : LinkAddr) : frameDst f = x ↔ beAt f 0 6 = x.toNat :=
  ofNat_beAt_eq_iff x (by norm_num)

theorem ipDst_eq_iff {f : List Byte} (x : NetAddr) : ipDst f = x ↔ beAt f 38 16 = x.toNat :=
  ofNat_beAt_eq_iff x (by norm_num)

/-- The next header is a byte, so a number that fits one is compared as a byte. -/
theorem nextHeader_eq_iff {f : List Byte} (b : Byte) : nextHeader f = b.toNat ↔ byteAt f 20 = b := BitVec.toNat_inj

/-- R88: the tests of a protocol message, field by field. -/
theorem isMessage_iff {g : PortSettings} {f : List Byte} : isMessage g f = true ↔ beAt f 0 6 = g.link.toNat ∧ beAt f 12 2 = 0x86DD
    ∧ byteAt f 20 = 17#8 ∧ beAt f 38 16 = g.net.toNat ∧ beAt f 56 2 = g.svc.toNat ∧ 8 ≤ (udpPayload f).length
    ∧ byteAt (udpPayload f) 0 = 1#8 := by
  have hnext : nextHeader f = 17 ↔ byteAt f 20 = 17#8 := nextHeader_eq_iff 17#8
  have hsvc := ofNat_beAt_eq_iff (off := 56) (len := 2) (f := f) g.svc (by norm_num)
  simp only [isMessage, isIPv6, Bool.and_eq_true, beq_iff_eq, decide_eq_true_eq, frameDst_eq_iff, ipDst_eq_iff, hnext, hsvc,
    and_assoc]

/-- R88: the tests of a neighbour solicitation, field by field. -/
theorem isSolicitation_iff {g : PortSettings} {f : List Byte} : isSolicitation g f = true ↔ 78 ≤ f.length
    ∧ (frameDst f = g.link ∨ frameDst f = solicitedLink g.net) ∧ beAt f 12 2 = 0x86DD ∧ byteAt f 20 = 58#8
    ∧ (ipDst f = g.net ∨ ipDst f = solicitedNode g.net) ∧ byteAt f 54 = 135#8 ∧ byteAt f 55 = 0#8
    ∧ beAt f 62 16 = g.net.toNat := by
  have hnext : nextHeader f = 58 ↔ byteAt f 20 = 58#8 := nextHeader_eq_iff 58#8
  have htarget := ofNat_beAt_eq_iff (off := 62) (len := 16) (f := f) g.net (by norm_num)
  simp only [isSolicitation, isIPv6, Bool.and_eq_true, Bool.or_eq_true, beq_iff_eq, decide_eq_true_eq, hnext, htarget, and_assoc]

/-- R88: no solicitation is a protocol message, its next header being another. -/
theorem isMessage_of_isSolicitation {g : PortSettings} {f : List Byte} (h : isSolicitation g f = true) : isMessage g f = false := by
  obtain ⟨-, -, -, hnext, -⟩ := isSolicitation_iff.mp h
  refine Bool.eq_false_iff.mpr fun hm => ?_
  obtain ⟨-, -, hother, -⟩ := isMessage_iff.mp hm
  exact absurd (hnext.symm.trans hother) (by decide)

section Receive

variable {s : State} {p : PortNo} {f m : List Byte}

/-- R88, R89: the tests decide in turn; a message of neither type is no solicitation either. -/
theorem State.receive_eq : s.receive p f =
    if (s.portAt p).linkUp = true then
      if isMessage (s.portSettings p) f = true then
        if byteAt (udpPayload f) 1 = 2#8 then .span (udpPayload f)
        else if byteAt (udpPayload f) 1 = 3#8 then .fin (udpPayload f)
        else .discarded
      else if isSolicitation (s.portSettings p) f = true then .solicitation
      else .discarded
    else .discarded := by
  rw [State.receive, classify]
  cases hm : isMessage (s.portSettings p) f with
  | false => simp
  | true =>
    have hs : isSolicitation (s.portSettings p) f = false := Bool.eq_false_iff.mpr fun h =>
      Bool.false_ne_true ((isMessage_of_isSolicitation h).symm.trans hm)
    simp [hs]

/-- R88, R89: what a port takes as a SPAN. -/
theorem State.receive_eq_span : s.receive p f = .span m ↔ ((s.portAt p).linkUp = true ∧ isMessage (s.portSettings p) f = true
    ∧ byteAt (udpPayload f) 1 = 2#8) ∧ udpPayload f = m := by
  rw [State.receive_eq]
  split_ifs <;> simp [*]

/-- R88, R89: what a port takes as an END. -/
theorem State.receive_eq_fin : s.receive p f = .fin m ↔ ((s.portAt p).linkUp = true ∧ isMessage (s.portSettings p) f = true
    ∧ byteAt (udpPayload f) 1 = 3#8) ∧ udpPayload f = m := by
  rw [State.receive_eq]
  split_ifs <;> simp [*]

/-- R88, R89: what a port takes as a neighbour solicitation. -/
theorem State.receive_eq_solicitation : s.receive p f = .solicitation ↔
    (s.portAt p).linkUp = true ∧ isSolicitation (s.portSettings p) f = true := by
  rw [State.receive_eq]
  have hother := isMessage_of_isSolicitation (g := s.portSettings p) (f := f)
  split_ifs <;> simp_all

/-- A SPAN_ARRIVAL of a frame that is no SPAN does nothing. -/
theorem exec_spanArrival_of_not (h : ∀ m, s.settled.receive p f ≠ .span m) : exec (.spanArrival p f) s = .next s.settled := by
  show execSpanArrival p f s = _
  rw [execSpanArrival, State.event_eq]
  split
  · exact absurd ‹_› (h _)
  all_goals rfl

/-- An END_ARRIVAL of a frame that is no END does nothing. -/
theorem exec_endArrival_of_not (h : ∀ m, s.settled.receive p f ≠ .fin m) : exec (.endArrival p f) s = .next s.settled := by
  show execEndArrival p f s = _
  rw [execEndArrival, State.event_eq]
  split
  · exact absurd ‹_› (h _)
  all_goals rfl

/-- R88: a NEIGHBOUR_SOLICITATION sends one advertisement, or does nothing. -/
theorem exec_neighbourSolicitation_eq : exec (.neighbourSolicitation p f) s = .next (
    if s.settled.receive p f = .solicitation then
      s.settled.emit [.frame p (advertisementFrame (s.settled.portSettings p) f)]
    else s.settled) := by
  show execNeighbourSolicitation p f s = _
  rw [execNeighbourSolicitation, State.event_eq]
  cases s.settled.receive p f <;> rfl

end Receive

/-! ## The advertisement that answers (O43) -/

/-- R88: the part of an advertisement behind its checksum. -/
def advertisementTail (g : PortSettings) (dst : NetAddr) : List Byte :=
  [if dst = allNodes then 0x20#8 else 0x60#8] ++ zeros 3 ++ beBytes 16 g.net.toNat ++ [2#8, 1#8] ++ beBytes 6 g.link.toNat

/-- R88: the fields of an advertisement, and its checksum, which brings the one's complement sum to 0. -/
theorem advertisement_fields (g : PortSettings) (dst : NetAddr) : let a := advertisement g dst
    a.length = 32 ∧ byteAt a 0 = 136#8 ∧ byteAt a 1 = 0#8
    ∧ wordSum (pseudoHeader g.net dst 32 58 ++ a) % 0xFFFF = 0
    ∧ byteAt a 4 = (if dst = allNodes then 0x20#8 else 0x60#8) ∧ beAt a 5 3 = 0 ∧ beAt a 8 16 = g.net.toNat
    ∧ byteAt a 24 = 2#8 ∧ byteAt a 25 = 1#8 ∧ beAt a 26 6 = g.link.toNat := by
  intro a
  have hcheck : wordSum (pseudoHeader g.net dst 32 58 ++ a) % 0xFFFF = 0 := by
    have h := wordSum_checked (a := pseudoHeader g.net dst 32 58 ++ [136#8, 0#8]) (advertisementTail g dst)
      (by simp [pseudoHeader_length]) (inetChecksum_lt _) (wordSum_add_inetChecksum _)
    simpa [a, advertisement, advertisementTail, zeros, List.replicate] using h
  have hzeros : zeros 3 = beBytes 3 0 := rfl
  have hlink := beAt_word_append (len := 6) g.link (by norm_num) []
  refine ⟨?_, rfl, rfl, hcheck, rfl, ?_, ?_, rfl, rfl, ?_⟩
  · simp [a, advertisement]
  · simp [a, advertisement, hzeros, beAt_append_of_le, beAt_beBytes_append]
  · simp [a, advertisement, beAt_append_of_le, beAt_word_append]
  · simpa [a, advertisement, beAt_append_of_le] using hlink

/-- R88: the frame that answers a solicitation: its headers, and the advertisement behind them. -/
theorem advertisementFrame_fields (g : PortSettings) (f : List Byte) :
    let a := advertisementFrame g f
    let dst := advertisementTo (ipSrc f)
    a.length = 86 ∧ frameDst a = g.nextHop ∧ beAt a 6 6 = g.link.toNat ∧ isIPv6 a = true
    ∧ field a 14 4 = [0x60#8, 0#8, 0#8, 0#8] ∧ beAt a 18 2 = 32 ∧ nextHeader a = 58 ∧ byteAt a 21 = 255#8
    ∧ ipSrc a = g.net ∧ ipDst a = dst ∧ a.drop 54 = advertisement g dst := by
  intro a dst
  obtain ⟨hlen, -⟩ := advertisement_fields g dst
  obtain ⟨hto, hfrom, hv6, hclass, hplen, hnext, hhop, hips, hipd, hpay, halen⟩ :=
    ipv6Frame_fields g dst (next := 58) (hopLimit := 255) (payload := advertisement g dst) (by norm_num) (by rw [hlen]; norm_num)
  rw [hlen] at hplen halen
  exact ⟨halen, hto, hfrom, hv6, hclass, hplen, hnext, hhop, hips, hipd, hpay⟩

/-- Settles O43: the frames taken by the tests field by field, the answer by the fields of an advertisement. -/
theorem framesAreTakenByTheirTests : Obligations.FramesAreTakenByTheirTests := by
  refine ⟨fun _ _ _ => rfl, fun _ => ⟨rfl, rfl⟩, ?_⟩
  intro p f s₀ s g m taken solicits
  have htaken : ∀ type, taken type ↔
      (s.portAt p).linkUp = true ∧ isMessage g f = true ∧ byteAt (udpPayload f) 1 = type := fun type => by
    rw [isMessage_iff]
    simp only [taken, and_assoc]
    rfl
  have hsolicits : solicits ↔ s.receive p f = .solicitation := by
    rw [State.receive_eq_solicitation, isSolicitation_iff]
    rfl
  refine ⟨fun h => State.receive_eq_span.mpr ⟨(htaken _).mp h, rfl⟩, fun h => exec_spanArrival_of_not fun _ hm => ?_,
    fun h => State.receive_eq_fin.mpr ⟨(htaken _).mp h, rfl⟩, fun h => exec_endArrival_of_not fun _ hm => ?_, fun h => ?_,
    toNat_ofNat_of_lt (beAt_lt f 0 6), toNat_ofNat_of_lt (beAt_lt f 22 16), toNat_ofNat_of_lt (beAt_lt f 38 16), rfl, rfl,
    fun h => ?_⟩
  · exact h ((htaken _).mpr (State.receive_eq_span.mp hm).1)
  · exact h ((htaken _).mpr (State.receive_eq_fin.mp hm).1)
  · rw [exec_neighbourSolicitation_eq, if_neg fun hr => h (hsolicits.mpr hr)]
  · obtain ⟨hlen, hto, hfrom, hv6, hclass, hplen, hnext, hhop, hips, hipd, hpay⟩ := advertisementFrame_fields g f
    obtain ⟨-, h0, h1, hsum, hflags, hzero, htarget, hopt, hoptLen, hlink⟩ := advertisement_fields g (advertisementTo (ipSrc f))
    rw [← hpay, byteAt_drop] at h0 h1 hflags hopt hoptLen
    rw [← hpay, beAt_drop] at hzero htarget hlink
    rw [← hpay, ← hipd] at hsum
    rw [← hipd] at hflags
    refine ⟨advertisementFrame g f, ?_, hlen, hto, hfrom, hv6, hclass, hplen, hnext, hhop, hips, hipd, h0, h1, hsum, hflags, hzero,
      htarget, hopt, hoptLen, hlink⟩
    rw [exec_neighbourSolicitation_eq, if_pos (hsolicits.mp h)]
    rfl

/-! ## The three tests of a SPAN (O39) -/

/-- A SPAN_ARRIVAL of a frame taken as a SPAN. -/
theorem exec_spanArrival_of_span {s : State} {p : PortNo} {f m : List Byte} (h : s.settled.receive p f = .span m) :
    exec (.spanArrival p f) s = .next (s.settled.spanArrives m) := by
  show execSpanArrival p f s = _
  rw [execSpanArrival, State.event_eq, h]

section Tests

variable {s : State} {m : List Byte} {c : Ctx} {r : Record} {v : Survivor}

/-- R105: a SPAN that matches no OPEN context is stale. -/
theorem State.spanArrives_of_unmatched (h : s.matching m = none) : s.spanArrives m = s.countStale := by
  rw [State.spanArrives, h]

/-- R105 to R107: the tests of a SPAN that matches a context of a survivor that the table holds. -/
theorem State.spanArrives_of_matched (hc : s.matching m = some c) (hr : s.recAt c.slot = some r) (hv : r.survs[c.pos]? = some v) :
    s.spanArrives m = if (s.rackAt v.rack).down = true then s.countStale
      else if spanMalformed m r.length = true then s.countMalformed
      else if check (spanPayload m) ≠ spanCheck m then s.badSpan (messageTag m) c
      else s.acceptSpan (messageTag m) c v (spanOffset m) (spanPayload m) := by
  rw [State.spanArrives, hc]
  dsimp only
  rw [State.ctxSurvivor_some.mpr ⟨hr, hv⟩]

theorem State.matching_none : s.matching m = none ↔ ∀ c, s.ctxAt (messageTag m) = some c → c.serial ≠ messageSerial m := by
  simp [Option.eq_none_iff_forall_ne_some, State.matching_some]

/-- R105: a SPAN from a rack that is DOWN is stale, be its serial the context's or not. -/
theorem State.spanArrives_of_down (hc : s.ctxAt (messageTag m) = some c) (hr : s.recAt c.slot = some r)
    (hv : r.survs[c.pos]? = some v) (hdown : (s.rackAt v.rack).down = true) : s.spanArrives m = s.countStale := by
  by_cases hser : c.serial = messageSerial m
  · rw [State.spanArrives_of_matched (State.matching_some.mpr ⟨hc, hser⟩) hr hv, if_pos hdown]
  · refine State.spanArrives_of_unmatched (State.matching_none.mpr fun c' hc' => ?_)
    rwa [Option.some.inj (hc'.symm.trans hc)]

/-- R106, R175: the payload is what stands behind the 20 bytes of the header. -/
theorem spanMalformed_iff {L : Nat} : spanMalformed m L = true ↔ m.length < 20 ∨ beAt m 12 2 ≠ m.length - 20 ∨ beAt m 12 2 % 512 ≠ 0
    ∨ beAt m 12 2 < 512 ∨ 8192 < beAt m 12 2 ∨ beAt m 8 4 % 512 ≠ 0 ∨ L < beAt m 8 4 + beAt m 12 2 := by
  rw [spanMalformed, decide_eq_true_iff, spanPayload, List.length_drop]
  rfl

/-- R107: the check field, compared as a number. -/
theorem check_eq_spanCheck_iff : check (spanPayload m) = spanCheck m ↔ (check (m.drop 20)).toNat = beAt m 16 4 := by
  rw [eq_comm, spanCheck, ofNat_beAt_eq_iff _ (by norm_num), eq_comm, spanPayload]

theorem State.ctxAt_badSpan (tag u : Tag) : (s.badSpan tag c).ctxAt u
    = if u = tag then some { c with badCheck := true } else s.ctxAt u := by
  split
  · rename_i h
    rw [h]
    exact State.ctxAt_setCtx_same s tag _
  · rename_i h
    exact State.ctxAt_setCtx_ne s _ h

end Tests

/-- Settles O39, by the tests in their order. -/
theorem spanTestsDiscard : Obligations.SpanTestsDiscard := by
  intro p f m s₀ s hm
  have hex : exec (.spanArrival p f) s₀ = .next (s.spanArrives m) := exec_spanArrival_of_span hm
  constructor
  · intro hstale
    have hcount : s.spanArrives m = s.countStale := by
      rcases hstale with hnone | ⟨c, hc, hser⟩ | ⟨c, r, v, hc, hr, hv, hdown⟩
      · exact State.spanArrives_of_unmatched (State.matching_none.mpr fun c hc => by simp [hnone] at hc)
      · exact State.spanArrives_of_unmatched (State.matching_none.mpr fun c' hc' => by rwa [Option.some.inj (hc'.symm.trans hc)])
      · exact State.spanArrives_of_down hc hr hv hdown
    rw [hex, hcount]
    rfl
  · intro c r v hc hser hr hv hup len bad
    rw [State.spanArrives_of_matched (State.matching_some.mpr ⟨hc, hser⟩) hr hv, if_neg (by simp [hup])] at hex
    refine ⟨fun hbad => ?_, fun hgood hcrc => ?_⟩
    · rw [hex, if_pos (spanMalformed_iff.mpr hbad)]
      rfl
    · rw [if_neg fun h => hgood (spanMalformed_iff.mp h), if_pos fun h => hcrc (check_eq_spanCheck_iff.mp h)] at hex
      exact ⟨_, hex, State.ctxAt_badSpan _, rfl⟩

/-! ## The PULLs that leave (O3), and a link that changes (O11) -/

/-- R87: a port after it has sent its oldest PULL, if it may and has one. -/
def FabricPort.sent (f : FabricPort) : FabricPort := { f with queue := if f.linkUp then f.queue.tail else f.queue }

/-- R87: the frame that a port sends in an idle µs, if any. -/
def State.sending (s : State) (p : PortNo) : List Output :=
  if (s.portAt p).linkUp then (s.portAt p).queue.head?.toList.map fun q => .frame p (pullFrame (s.portSettings p) q) else []

theorem FabricPort.sent_eq_self {f : FabricPort} (h : f.linkUp = true → f.queue = []) : f.sent = f := by
  rcases f with ⟨up, queue⟩
  cases up with
  | false => rfl
  | true =>
    obtain rfl : queue = [] := h rfl
    rfl

theorem State.sending_eq_nil {s : State} {p : PortNo} (h : (s.portAt p).linkUp = true → (s.portAt p).queue = []) :
    s.sending p = [] := by
  rw [State.sending]
  split
  · rw [h ‹_›]
    rfl
  · rfl

theorem State.setPort_self (s : State) (p : PortNo) : s.setPort p (s.portAt p) = s := by cases p <;> rfl

/-- R87: what a port sends leaves the part, and its queue. -/
theorem State.sendOne_eq (s : State) (p : PortNo) : s.sendOne p = (s.setPort p (s.portAt p).sent).emit (s.sending p) := by
  unfold State.sendOne
  split
  · rename_i q rest hup hq
    simp [FabricPort.sent, State.sending, hup, hq]
  · rename_i hnone
    have hempty : (s.portAt p).linkUp = true → (s.portAt p).queue = [] := fun hup => by
      cases hq : (s.portAt p).queue with
      | nil => rfl
      | cons q rest => exact absurd hq (hnone q rest hup)
    rw [FabricPort.sent_eq_self hempty, State.sending_eq_nil hempty, State.setPort_self, State.emit_nil]

/-- R87: the two ports send independently of each other, port 0 first. -/
theorem State.sendBoth_eq (s : State) : (s.sendOne .p0).sendOne .p1 = { s with
    outputs := s.outputs ++ [PortNo.p0, PortNo.p1].flatMap s.sending
    fetch := { s.fetch with port0 := s.fetch.port0.sent, port1 := s.fetch.port1.sent } } := by
  have hnext : (s.sendOne .p0).sending .p1 = s.sending .p1 := by rw [State.sendOne_eq]; rfl
  have hport : (s.sendOne .p0).portAt .p1 = s.portAt .p1 := by rw [State.sendOne_eq]; rfl
  rw [State.sendOne_eq (s.sendOne .p0), hnext, hport, State.sendOne_eq]
  simp [State.emit, State.setPort, State.portAt]

/-- Settles O3: the tick sends from both ports, and the time goes on. -/
theorem idleStepSendsAndAdvancesTime : Obligations.IdleStepSendsAndAdvancesTime := by
  intro s₀ s hidle
  have hstep : step s₀ = .next s₀.tick := by rw [step, hidle]
  have htick : s₀.tick = { s with
      now := s.now + 1, outputs := s.outputs ++ [PortNo.p0, PortNo.p1].flatMap s.sending
      fetch := { s.fetch with port0 := s.fetch.port0.sent, port1 := s.fetch.port1.sent } } := by
    rw [State.tick, State.sendBoth_eq]
  refine ⟨_, hstep, fun p => ?_, ?_, ?_⟩ <;> rw [htick]
  · cases p <;> rfl
  · rfl
  · rfl

/-- Settles O11, by the laws of a port written. -/
theorem portLinkChange : Obligations.PortLinkChange := by
  intro p up s₀ s
  refine ⟨s.linkChange p up, rfl, State.portAt_setPort_same s p _, fun q hq => State.portAt_setPort_ne s _ hq, ?_⟩
  cases p <;> rfl

end Sys2Proof.Machine

/-! The tests of AMEND and of REPLAN (O33): the model's own tests give the status of the first that fails. The bytes of a target
and their check (O47). -/

namespace Sys2Proof.Machine

/-! ## The tests of AMEND (O33) -/

theorem Record.live_eq_false_iff (r : Record) :
    r.live = false ↔ r.state ≠ .queued ∧ r.state ≠ .fetching ∧ r.state ≠ .planWait := by
  rw [← Bool.not_eq_true, r.live_iff, not_or, not_or]

/-- R131: the first test that an AMEND fails. -/
theorem testAmend_some {e : Entry} {r : Record} {st : Status}
    (h : (if r.hold ≠ .granted then some Status.notHeld
      else if r.state ≠ .queued ∧ r.state ≠ .fetching ∧ r.state ≠ .planWait then some .wrongState
      else if r.s < amendPosOf e ∨ (amendPosOf e = r.s ∧ ¬ r.s < r.n - r.t) then some .badShape
      else if amendPosOf e = r.s ∧ (r.n ≤ (operandOf e 25).toNat ∨ (∃ v ∈ r.survs, v.frag = (operandOf e 25).toNat)
          ∨ (∃ g ∈ r.targets, g.frag = (operandOf e 25).toNat)) then some .badShape
      else if ∃ v, r.survs[amendPosOf e]? = some v ∧ (v.state = .pulling ∨ v.state = .staged) then some .wrongState
      else none) = some st) : testAmend e r = some st := by
  unfold testAmend
  dsimp only
  split_ifs at h with hhold hstate hpos hfrag hfetched
  · rw [if_pos hhold, h]
  · rw [if_neg hhold, if_pos (r.live_eq_false_iff.mpr hstate), h]
  · rw [if_neg hhold, if_neg (mt r.live_eq_false_iff.mp hstate), if_pos (by simpa using hpos), h]
  · rw [if_neg hhold, if_neg (mt r.live_eq_false_iff.mp hstate), if_neg (by simpa using hpos), if_pos hfrag.1,
      if_pos (by simpa using hfrag.2), h]
  · obtain ⟨v, hv, hvs⟩ := hfetched
    have hlt : amendPosOf e < r.s := (List.getElem?_eq_some_iff.mp hv).1
    rw [if_neg hhold, if_neg (mt r.live_eq_false_iff.mp hstate), if_neg (by simpa using hpos), if_neg hlt.ne, hv]
    exact (if_pos hvs).trans h

/-! ## The tests of REPLAN (O33) -/

/-- R21, R122: a request whose tests begin with those of its block's reading fails one of these, or it reads the block and fails
a later test. -/
theorem readBlock_error_or_later {header len : Nat} {size : List Byte → Nat} {block : List Byte} {later : Option Status}
    {st : Status} (h : (if len < header then some Status.badShape
      else if block.length < header then some .hostFault
      else if len < size block then some .badShape
      else if block.length < size block then some .hostFault
      else later) = some st) : readBlock header size len block = .error st
      ∨ readBlock header size len block = .ok (block.take (size block)) ∧ later = some st := by
  unfold readBlock
  split_ifs at h ⊢
  case neg => exact .inr ⟨rfl, h⟩
  all_goals exact .inl (congrArg Except.error (Option.some.inj h))

/-- R122: the first test that a REPLAN fails once its block is read. -/
theorem State.testReplan_error {s : State} {e : Entry} {b : List Byte} {a : Slot} {r : Record} {st : Status}
    (hlook : s.lookup (stripeOf e) = some (a, r))
    (h : (if r.state ≠ .queued ∧ r.state ≠ .fetching ∧ r.state ≠ .planWait then some Status.wrongState
      else if (byteAt b 0).toNat ≠ r.k ∨ (byteAt b 1).toNat ≠ r.t then some .badShape
      else if ¬ ((readPositions b 8 r.k).Nodup ∧ ∀ p ∈ readPositions b 8 r.k, ∃ v, r.survs[p]? = some v ∧ v.usable = true) then
        some .badPlan
      else none) = some st) : s.testReplan e b = .error st := by
  rw [State.testReplan, hlook]
  dsimp only
  split_ifs at h with hstate hkt hplan
  · rw [if_pos (r.live_eq_false_iff.mpr hstate), Option.some.inj h]
  · rw [if_neg (mt r.live_eq_false_iff.mp hstate), if_pos hkt, Option.some.inj h]
  · rw [if_neg (mt r.live_eq_false_iff.mp hstate), if_neg hkt, if_pos (by rwa [← Bool.not_eq_true, planOk_iff]),
      Option.some.inj h]

/-- R122: a REPLAN fails a test of its block's reading, or reads the block and fails a later test. -/
theorem replanBody_refused {s : State} {e : Entry} {block : List Byte} {st : Status}
    (h : readBlock 8 planBlockSize (lengthOf e) block = .error st
      ∨ ∃ b, readBlock 8 planBlockSize (lengthOf e) block = .ok b ∧ s.testReplan e b = .error st) :
    replanBody e block s = (s.readsBlock 8 planBlockSize e block, .answer (s.refusal st (stripeOf e))) := by
  rw [replanBody]
  rcases h with h | ⟨b, h, ht⟩
  · rw [h]
    rfl
  · have ht' : (s.readsBlock 8 planBlockSize e block).testReplan e b = .error st := ht
    rw [h]
    dsimp only
    rw [ht']
    rfl

/-- Settles O33: the tests of AMEND, and those of REPLAN in the two parts in which the model makes them. -/
theorem amendAndReplanRefusals : Obligations.AmendAndReplanRefusals := by
  refine ⟨fun b => rfl, fun e cw s₀ slot r st => ?_, fun e block cw s₀ slot r st => ?_⟩
  · intro s pos frag h hlook hst
    refine ⟨_, rfl, changing_refused h ?_⟩
    rw [amendBody, State.lookup_clearQuiesce, hlook]
    dsimp only
    rw [testAmend_some hst]
    dsimp only
    rw [State.refusal_clearQuiesce, State.refusal_of_lookup hlook]
  · intro s b plan h hlook hst
    refine ⟨_, rfl, changing_refused_after h ?_⟩
    rw [← blockReads_eq (header_le_planBlockSize block), replanBody_refused (st := st), State.refusal_clearQuiesce,
      State.refusal_of_lookup hlook]
    · rfl
    rcases readBlock_error_or_later hst with hread | ⟨hread, hlater⟩
    · exact .inl hread
    · exact .inr ⟨b, hread, State.testReplan_error hlook hlater⟩

/-! ## The bytes of a target (O47) -/

/-- R136: the columns of a record whose selected survivors hold the slabs listed, in plan order. -/
theorem Record.columns_eq_map_some {r : Record} {slabs : List Slab} (hlen : slabs.length = r.plan.length)
    (h : ∀ (i p : Nat) (x : Slab), r.plan[i]? = some p → slabs[i]? = some x → ∃ v, r.survs[p]? = some v ∧ v.slab = some x) :
    r.columns = slabs.map some := by
  refine List.ext_getElem (by simp [Record.columns, hlen]) fun i h₁ h₂ => ?_
  have hp : i < r.plan.length := by simpa [Record.columns] using h₁
  have hx : i < slabs.length := hlen ▸ hp
  obtain ⟨v, hv, hslab⟩ := h i _ _ (List.getElem?_eq_getElem hp) (List.getElem?_eq_getElem hx)
  simp [Record.columns, hv, hslab]

/-- R136: where every column has a slab, the byte is the sum of the products, column by column. -/
theorem State.targetByte_map_some (s : State) (row : List Byte) (slabs : List Slab) (off : Nat) :
    s.targetByte row (slabs.map some) off
      = ((row.zip slabs).map fun e => gfMul e.1 (Memory.read s.dram (slabAddr e.2 off))).foldl (· ^^^ ·) 0#8 := by
  rw [State.targetByte, List.zip_map_right, List.foldl_map, List.foldl_map]
  rfl

theorem State.length_targetBytes (s : State) (r : Record) (j : Nat) : (s.targetBytes r j).length = r.length := by
  simp [State.targetBytes]

theorem State.getElem?_targetBytes {s : State} {r : Record} {j off : Nat} {row : List Byte} (hrow : r.rows[j]? = some row)
    (hoff : off < r.length) : (s.targetBytes r j)[off]? = some (s.targetByte row r.columns off) := by
  simp [State.targetBytes, List.getD_eq_getElem?_getD, hrow, hoff]

/-! ## The check (O47) -/

/-- R137: the register behind a check is the check's complement. -/
theorem not_check (l : List Byte) : ~~~ check l = l.foldl crcByte 0xFFFFFFFF#32 := by
  rw [check, show (0xFFFFFFFF#32 : Word) = BitVec.allOnes 32 from rfl, BitVec.xor_allOnes, BitVec.not_not]

/-- R137: a byte enters the register by exclusive-or and is shifted out bit by bit. -/
theorem not_check_append (l : List Byte) (b : Byte) : ~~~ check (l ++ [b]) = crcBit^[8] (~~~ check l ^^^ b.setWidth 32) := by
  rw [not_check, not_check, List.foldl_append]
  rfl

/-- Settles O47: a target's bytes column by column, the check byte by byte. -/
theorem targetBytesAndTheirCheck : Obligations.TargetBytesAndTheirCheck := by
  refine ⟨fun s r j off row slabs hrow _ hplan hslabs hsel => ⟨s.length_targetBytes r j, fun hoff => ?_⟩, ?_, rfl,
    not_check_append⟩
  · rw [State.getElem?_targetBytes hrow hoff, Record.columns_eq_map_some (hslabs.trans hplan.symm) hsel,
      State.targetByte_map_some]
    rfl
  · simp [check, crcByte, crcBit]

end Sys2Proof.Machine

/-! ## The field of the Combine Engine: GF(2^8) (O46)

Multiplication by 0x02 (`gfDouble`) is additive, and the product is additive in both factors and commutes with `gfDouble` in
both. Every byte comes from 0x01 by `gfDouble` and exclusive-or (`gfInduction`), so each law of the product reduces to the
case of 0x01. -/

namespace Sys2Proof.Machine

/-! ### The product with 0x02 -/

/-- A term present under either of two flags, but not under both, is the sum of the two terms. -/
theorem ite_xor_ite (p q : Bool) (x : Byte) :
    (if p ^^ q then x else 0#8) = (if p then x else 0#8) ^^^ (if q then x else 0#8) := by
  cases p <;> cases q <;> simp

theorem gfDouble_eq_xor (a : Byte) : gfDouble a = (a <<< 1) ^^^ (if a.msb then 0x1D#8 else 0#8) := by
  cases h : a.msb <;> simp [gfDouble, h]

@[simp] theorem gfDouble_zero : gfDouble 0#8 = 0#8 := rfl

theorem gfDouble_xor (a b : Byte) : gfDouble (a ^^^ b) = gfDouble a ^^^ gfDouble b := by
  simp only [gfDouble_eq_xor, BitVec.shiftLeft_xor_distrib, BitVec.msb_xor, ite_xor_ite]
  ac_rfl

theorem gfDouble_ite (p : Prop) [Decidable p] (a : Byte) : gfDouble (if p then a else 0#8) = if p then gfDouble a else 0#8 := by
  split <;> rfl

/-- The bit shifted out of a byte is bit 8 of the 9-bit shifted value. -/
theorem setWidth_shiftLeft_one (a : Byte) : a.setWidth 9 <<< 1 = BitVec.cons a.msb (a <<< 1) := by
  refine BitVec.eq_of_getLsbD_eq fun i hi => ?_
  rw [BitVec.getLsbD_cons]
  split
  · next h => subst h; simp [BitVec.msb_eq_getLsbD_last]
  · next h =>
    have hlow : i < 8 ∧ i - 1 < 9 := by omega
    simp only [BitVec.getLsbD_shiftLeft, BitVec.getLsbD_setWidth, hi, hlow, decide_true, Bool.true_and]

theorem setWidth_eq_cons_false (a : Byte) : a.setWidth 9 = BitVec.cons false a := by
  simp [BitVec.setWidth_succ]

/-- R135: in nine bits, the product with 0x02 is the shifted value, reduced by 0x11D when bit 7 was set. -/
theorem setWidth_gfDouble (a : Byte) : (gfDouble a).setWidth 9 =
    if a.getLsbD 7 then (a.setWidth 9 <<< 1) ^^^ 0x11D#9 else a.setWidth 9 <<< 1 := by
  have hmsb : a.getLsbD 7 = a.msb := rfl
  rw [setWidth_eq_cons_false, setWidth_shiftLeft_one, hmsb, gfDouble]
  cases a.msb
  · rfl
  · calc BitVec.cons false (a <<< 1 ^^^ 0x1D#8)
        = BitVec.cons true (a <<< 1) ^^^ BitVec.cons true 0x1D#8 := by rw [BitVec.cons_xor_cons]; rfl
      _ = BitVec.cons true (a <<< 1) ^^^ 0x11D#9 := rfl

/-- Bit 0 and the rest: a byte is the double of its upper bits, with bit 0 added. -/
theorem gfDouble_ushiftRight_one (a : Byte) : gfDouble (a >>> 1) ^^^ (if a.getLsbD 0 then 1#8 else 0#8) = a := by
  have hmsb : (a >>> 1).msb = false := by simp [BitVec.msb_ushiftRight]
  ext i hi
  cases i with
  | zero => cases h : a.getLsbD 0 <;> simp_all [gfDouble]
  | succ i => cases a.getLsbD 0 <;> simp [gfDouble, hmsb, Nat.add_comm, BitVec.getLsbD_eq_getElem hi]

/-- Every byte comes from 0x01 by products with 0x02 and exclusive-or. -/
theorem gfInduction {P : Byte → Prop} (one : P 1#8) (double : ∀ a, P a → P (gfDouble a))
    (xor : ∀ a b, P a → P b → P (a ^^^ b)) (a : Byte) : P a := by
  have zero : P 0#8 := xor _ _ one one
  induction h : a.toNat using Nat.strong_induction_on generalizing a with
  | _ n ih =>
    by_cases ha : a = 0#8
    · exact ha ▸ zero
    · have hlt : (a >>> 1).toNat < n := by
        have : a.toNat ≠ 0 := fun h0 => ha (BitVec.eq_of_toNat_eq h0)
        simp [Nat.shiftRight_eq_div_pow]
        omega
      rw [← gfDouble_ushiftRight_one a]
      refine xor _ _ (double _ (ih _ hlt _ rfl)) ?_
      split
      · exact one
      · exact zero

/-! ### The product -/

theorem gfMulFrom_zero_left (n b : Nat) (a : Byte) : gfMulFrom 0#8 n b a = 0#8 := by
  induction n generalizing b a with
  | zero => rfl
  | succ n ih => simp [gfMulFrom, ih]

theorem gfMulFrom_xor_left (c d : Byte) (n b : Nat) (a : Byte) :
    gfMulFrom (c ^^^ d) n b a = gfMulFrom c n b a ^^^ gfMulFrom d n b a := by
  induction n generalizing b a with
  | zero => simp [gfMulFrom]
  | succ n ih =>
    simp only [gfMulFrom, ih, BitVec.getLsbD_xor, ite_xor_ite]
    ac_rfl

theorem gfMulFrom_xor_right (c : Byte) (n b : Nat) (x y : Byte) :
    gfMulFrom c n b (x ^^^ y) = gfMulFrom c n b x ^^^ gfMulFrom c n b y := by
  induction n generalizing b x y with
  | zero => simp [gfMulFrom]
  | succ n ih =>
    simp only [gfMulFrom, gfDouble_xor, ih]
    split
    · ac_rfl
    · simp

theorem gfMulFrom_gfDouble (c : Byte) (n b : Nat) (a : Byte) :
    gfMulFrom c n b (gfDouble a) = gfDouble (gfMulFrom c n b a) := by
  induction n generalizing b a with
  | zero => simp [gfMulFrom]
  | succ n ih => rw [gfMulFrom, gfMulFrom, gfDouble_xor, gfDouble_ite, ih]

/-- The topmost of the bits added up, taken apart. -/
theorem gfMulFrom_succ (c : Byte) (n b : Nat) (a : Byte) :
    gfMulFrom c (n + 1) b a = gfMulFrom c n b a ^^^ (if c.getLsbD (b + n) then gfDouble^[n] a else 0#8) := by
  induction n generalizing b a with
  | zero => simp [gfMulFrom]
  | succ n ih =>
    rw [gfMulFrom, ih, gfMulFrom, BitVec.xor_assoc, Function.iterate_succ_apply, Nat.succ_add_eq_add_succ]

theorem gfMulFrom_shiftLeft_one {n b : Nat} (h : b + n < 8) (c a : Byte) :
    gfMulFrom (c <<< 1) n (b + 1) a = gfMulFrom c n b a := by
  induction n generalizing b a with
  | zero => rfl
  | succ n ih =>
    have hbit : (c <<< 1).getLsbD (b + 1) = c.getLsbD b := by simp; omega
    rw [gfMulFrom, gfMulFrom, ih (by omega), hbit]

@[simp] theorem gfMul_zero_left (a : Byte) : gfMul 0#8 a = 0#8 := gfMulFrom_zero_left ..

@[simp] theorem gfMul_one_left (a : Byte) : gfMul 1#8 a = a := by simp [gfMul, gfMulFrom]

theorem gfMul_xor_left (c d a : Byte) : gfMul (c ^^^ d) a = gfMul c a ^^^ gfMul d a := gfMulFrom_xor_left ..

theorem gfMul_xor_right (c a b : Byte) : gfMul c (a ^^^ b) = gfMul c a ^^^ gfMul c b := gfMulFrom_xor_right ..

theorem gfMul_gfDouble_right (c a : Byte) : gfMul c (gfDouble a) = gfDouble (gfMul c a) := gfMulFrom_gfDouble ..

/-- R135: the reduction, x^8 = x^4 + x^3 + x^2 + 1. -/
theorem gfDouble_iterate_eight (a : Byte) : gfDouble^[8] a = gfMul 0x1D#8 a := by
  induction a using gfInduction with
  | one => rfl
  | double a ih => rw [← Function.iterate_succ_apply, Function.iterate_succ_apply', ih, gfMul_gfDouble_right]
  | xor a b iha ihb =>
    rw [gfMul_xor_right, ← iha, ← ihb]
    simp [gfDouble_xor]

theorem gfMul_shiftLeft_one (c a : Byte) : gfMul (c <<< 1) a = gfDouble (gfMulFrom c 7 0 a) := by
  rw [gfMul, gfMulFrom, gfMulFrom_shiftLeft_one (by omega), gfMulFrom_gfDouble]
  simp

theorem gfMul_gfDouble_left (c a : Byte) : gfMul (gfDouble c) a = gfDouble (gfMul c a) := by
  have hmsb : c.getLsbD (0 + 7) = c.msb := rfl
  have hreduce : gfMul (if c.msb then 0x1D#8 else 0#8) a = if c.msb then gfDouble^[8] a else 0#8 := by
    cases c.msb <;> simp [gfDouble_iterate_eight]
  calc gfMul (gfDouble c) a
      = gfDouble (gfMulFrom c 7 0 a) ^^^ (if c.msb then gfDouble^[8] a else 0#8) := by
        rw [gfDouble_eq_xor, gfMul_xor_left, gfMul_shiftLeft_one, hreduce]
    _ = gfDouble (gfMul c a) := by
        rw [gfMul, gfMulFrom_succ c 7, gfDouble_xor, gfDouble_ite, hmsb,
          Function.iterate_succ_apply' gfDouble 7]

theorem gfMul_two_left (a : Byte) : gfMul 0x02#8 a = gfDouble a := by
  calc gfMul 0x02#8 a = gfMul (gfDouble 1#8) a := rfl
    _ = gfDouble a := by rw [gfMul_gfDouble_left, gfMul_one_left]

@[simp] theorem gfMul_one_right (a : Byte) : gfMul a 1#8 = a := by
  induction a using gfInduction with
  | one => rfl
  | double a ih => rw [gfMul_gfDouble_left, ih]
  | xor a b iha ihb => rw [gfMul_xor_left, iha, ihb]

theorem gfMul_comm (a b : Byte) : gfMul a b = gfMul b a := by
  induction a using gfInduction with
  | one => simp
  | double a ih => rw [gfMul_gfDouble_left, ih, gfMul_gfDouble_right]
  | xor a₁ a₂ ih₁ ih₂ => rw [gfMul_xor_left, ih₁, ih₂, gfMul_xor_right]

theorem gfMul_assoc (a b c : Byte) : gfMul (gfMul a b) c = gfMul a (gfMul b c) := by
  induction a using gfInduction with
  | one => simp
  | double a ih => simp only [gfMul_gfDouble_left, ih]
  | xor a₁ a₂ ih₁ ih₂ => simp only [gfMul_xor_left, ih₁, ih₂]

/-- Settles O46: the laws of the product, each from the case of 0x01. -/
theorem fieldLaws : Obligations.FieldLaws :=
  ⟨gfMul_comm, gfMul_assoc, gfMul_xor_right, fun a => ⟨gfMul_zero_left a, gfMul_one_left a⟩,
    fun a => gfMul_two_left a ▸ setWidth_gfDouble a⟩

end Sys2Proof.Machine

/-! The Request Port through every command: what it leaves as it is outside the Request Port's own steps, the time and the waiting
commands (O2), and the registers of the window (O52). -/

namespace Sys2Proof.Machine

/-! ## What only the Request Port's own steps change -/

/-- The Request Port but for its Notice Queue, the part's time, and the waiting commands. -/
def State.standing (s : State) : RequestPort × Nat × List Instr := ({ s.port with notices := [] }, s.now, s.pending)

theorem State.standing_of_fields {s t : State} (port : t.port = s.port) (now : t.now = s.now) (pending : t.pending = s.pending) :
    t.standing = s.standing := by
  simp only [State.standing, port, now, pending]

section Updates

variable (s : State)

@[simp] theorem State.setRec_standing (a : Slot) (o : Option Record) : (s.setRec a o).standing = s.standing := rfl
@[simp] theorem State.setRack_standing (k : RackId) (e : Rack) : (s.setRack k e).standing = s.standing := rfl
@[simp] theorem State.clearVerify_standing (l : List Slab) : (s.clearVerify l).standing = s.standing :=
  State.standing_of_fields (by simp) (by simp) (by simp)
@[simp] theorem State.emit_standing (o : List Output) : (s.emit o).standing = s.standing := rfl
@[simp] theorem State.freeCtxs_standing (p : Ctx → Bool) : (s.freeCtxs p).standing = s.standing := rfl
@[simp] theorem State.enlist_standing (a : Slot) : (s.enlist a).standing = s.standing := rfl
@[simp] theorem State.delist_standing (a : Slot) : (s.delist a).standing = s.standing := rfl
@[simp] theorem State.enterCombining_standing (a : Slot) (r : Record) : (s.enterCombining a r).standing = s.standing := rfl

@[simp] theorem State.setPort_standing (p : PortNo) (f : FabricPort) : (s.setPort p f).standing = s.standing := by cases p <;> rfl
@[simp] theorem State.relist_standing (a : Slot) : (s.relist a).standing = s.standing := by rw [State.relist_rest]; rfl
@[simp] theorem State.notify_standing (n : Notice) : (s.notify n).standing = s.standing := by rw [State.notify_rest]; rfl
@[simp] theorem State.enterPlanWait_standing (a : Slot) (r : Record) : (s.enterPlanWait a r).standing = s.standing := by
  rw [State.enterPlanWait_rest]; rfl
@[simp] theorem State.enterLost_standing (a : Slot) (r : Record) (m : Int) : (s.enterLost a r m).standing = s.standing := by
  rw [State.enterLost_rest]; rfl
@[simp] theorem State.freeCtx_standing (tag : Tag) : (s.freeCtx tag).standing = s.standing :=
  State.standing_of_fields (by simp) (by simp) (by simp)
@[simp] theorem State.modSurv_standing (a : Slot) (pos : Nat) (f : Survivor → Survivor) : (s.modSurv a pos f).standing = s.standing :=
  State.standing_of_fields (by simp) (by simp) (by simp)

@[simp] theorem State.reckon_standing (a : Slot) (lostSelected : Bool) : (s.reckon a lostSelected).standing = s.standing := by
  rcases s.reckon_cases a lostSelected with ⟨-, e⟩ | ⟨r, -, ⟨-, e⟩ | ⟨-, -, e⟩ | ⟨-, -, r', -, h⟩⟩
  · rw [e]
  · rw [e]
  · rw [e, State.enterLost_standing]
  rcases h with ⟨-, e⟩ | ⟨-, -, e⟩ | ⟨-, -, e⟩ <;> rw [e]
  · split <;> simp
  · simp
  · simp

/-! ### The fabric, the sweep and the passes -/

@[simp] theorem State.backToAvailable_standing (c : Ctx) (v : Survivor) (f : Survivor → Survivor) :
    (s.backToAvailable c v f).standing = s.standing := by
  rw [State.backToAvailable, State.modSurv_standing, State.passMark_rest]
  rfl

@[simp] theorem State.loseSurvivor_standing (c : Ctx) (v : Survivor) (st : SurvState) (f : Survivor → Survivor) :
    (s.loseSurvivor c v st f).standing = s.standing := by
  simp [State.loseSurvivor]

@[simp] theorem State.countRetry_standing (c : Ctx) (r : Record) (v : Survivor) : (s.countRetry c r v).standing = s.standing := by
  unfold State.countRetry
  dsimp only
  split
  · rw [State.backToAvailable_standing]; rfl
  · rw [State.reckon_standing, State.loseSurvivor_standing]; rfl

theorem State.endArrives_standing (m : List Byte) (st : EndStatus) : (s.endArrives m st).standing = s.standing := by
  unfold State.endArrives
  split
  · rfl
  split
  · exact s.freeCtx_standing _
  · cases st <;> simp [State.endOutcome]

@[simp] theorem State.expiryOutcome_standing (c : Ctx) (r : Record) (v : Survivor) : (s.expiryOutcome c r v).standing = s.standing := by
  unfold State.expiryOutcome
  split
  · simp
  · split <;> simp

@[simp] theorem State.stagedIn_standing (a : Slot) : (s.stagedIn a).standing = s.standing := by
  unfold State.stagedIn
  split
  · rfl
  split
  · split <;> simp
  · rfl

theorem State.acceptSpan_standing (tag : Tag) (c : Ctx) (v : Survivor) (off : Nat) (payload : List Byte) :
    (s.acceptSpan tag c v off payload).standing = s.standing := by
  have hwrite : (s.writeSpan v off payload).standing = s.standing := by
    unfold State.writeSpan
    split <;> rfl
  have hspan := ((s.writeSpan v off payload).modSurv_standing c.slot c.pos fun v => v.cover off payload.length).trans hwrite
  unfold State.acceptSpan
  dsimp only
  split
  · rw [State.stage, State.stagedIn_standing, State.clearVerify_standing, State.modSurv_standing, State.freeCtx_standing]
    exact hspan
  · exact hspan

theorem State.spanArrives_standing (m : List Byte) : (s.spanArrives m).standing = s.standing := by
  unfold State.spanArrives
  split
  · rfl
  split
  · rfl
  split
  · rfl
  split
  · rfl
  split
  · rfl
  · exact s.acceptSpan_standing _ _ _ _ _

theorem State.visit_standing (w : Sweep) (a : Slot) : (s.visit w a).standing = s.standing := by
  unfold State.visit State.visitRecord
  split
  · rfl
  · split <;> simp

theorem State.endPass_standing (a : Slot) (r : Record) (checks : List Word) (d : Option FaultDetail) :
    (s.endPass a r checks d).standing = s.standing := by
  rw [State.endPass_rest]
  rfl

/-! ### What the part does of itself -/

theorem State.passStarted_standing : s.passStarted.standing = s.standing := by
  rcases s.passStarted_cases with ⟨-, e⟩ | ⟨_, _, -, -, -, e⟩ <;> rw [e]
  rfl

theorem State.issueTo_standing (tag : Tag) (a : Slot) (r : Record) (pos : Nat) (v : Survivor) :
    (s.issueTo tag a r pos v).standing = s.standing := by
  rw [State.issueTo_rest]
  rfl

theorem State.arbitersServed_standing : s.arbitersServed.standing = s.standing := by
  rw [State.arbitersServed_rest]
  rfl

end Updates

/-! ## The rules of the requests -/

/-- The outcome of a request's rule that ends the taking: the rule leaves the standing of the part as it is, and what it answers
begins no buffer. -/
structure Closes (u : State) (x : State × Reply) : Prop where
  standing : x.1.standing = u.standing
  noBuffer : ∀ job, x.2 ≠ .buffer job

theorem Closes.answer {u v : State} {a : Answer} (h : v.standing = u.standing) : Closes u (v, .answer a) := ⟨h, nofun⟩

theorem Closes.deferred {u v : State} (h : v.standing = u.standing) : Closes u (v, .deferred) := ⟨h, nofun⟩

section Rules

variable (e : Entry) (block : List Byte) (u : State)

theorem openBody_closes : Closes u (openBody e block u) := by
  unfold openBody
  dsimp only
  split <;> exact .answer rfl

theorem cancelBody_closes : Closes u (cancelBody e u) := by
  unfold cancelBody
  split
  · exact .answer rfl
  · exact .answer (by rw [State.cancelRecord_rest]; rfl)

theorem retireBody_closes : Closes u (retireBody e u) := by
  unfold retireBody
  split
  · exact .answer rfl
  · split <;> exact .answer rfl

theorem reprioritizeBody_closes : Closes u (reprioritizeBody e u) := by
  unfold reprioritizeBody
  split
  · exact .answer rfl
  · exact .answer (by simp)

theorem rackDownBody_closes : Closes u (rackDownBody e u) := by
  unfold rackDownBody
  dsimp only
  split
  · exact .answer rfl
  · exact .deferred rfl

theorem rackUpBody_closes : Closes u (rackUpBody e u) := by
  unfold rackUpBody
  dsimp only
  split <;> exact .answer rfl

theorem rackClassBody_closes : Closes u (rackClassBody e u) := .answer rfl

theorem holdBody_closes : Closes u (holdBody e u) := by
  unfold holdBody
  split
  · exact .answer rfl
  split
  · exact .answer rfl
  split
  · exact .deferred rfl
  · dsimp only
    split <;> exact .answer rfl

theorem releaseBody_closes : Closes u (releaseBody e u) := by
  unfold releaseBody
  split
  · exact .answer rfl
  split
  · exact .answer rfl
  · exact .answer (by rw [State.releaseRecord_rest]; rfl)

theorem amendBody_closes : Closes u (amendBody e u) := by
  unfold amendBody
  split
  · exact .answer rfl
  · split
    · exact .answer rfl
    · exact .answer (by simp [State.amendSlot])

theorem State.replanSlot_standing (a : Slot) (r : Record) (plan : List Nat) (rows : List (List Byte)) :
    (u.replanSlot a r plan rows).standing = u.standing := by
  unfold State.replanSlot
  dsimp only
  split
  · split <;> rfl
  · rfl

theorem replanBody_closes : Closes u (replanBody e block u) := by
  unfold replanBody
  dsimp only
  split
  · exact .answer rfl
  split
  · exact .answer rfl
  · exact .answer (State.replanSlot_standing _ _ _ _ _)

theorem setParamsBody_closes : Closes u (setParamsBody e block u) := by
  unfold setParamsBody
  dsimp only
  split
  · exact .answer rfl
  · exact .answer (by rw [State.storeSettings_rest]; rfl)

theorem queryBody_standing : (queryBody e u).1.standing = u.standing := by
  unfold queryBody
  split
  · rfl
  · split <;> rfl

theorem identifyBody_standing : (identifyBody e u).1.standing = u.standing := by
  unfold identifyBody
  split <;> rfl

theorem reportBody_standing : (reportBody e u).1.standing = u.standing := by
  unfold reportBody
  split
  · rfl
  · split <;> rfl

end Rules

/-! ## The rings -/

/-- R149: what one ring's base, size code and two positions can be. -/
structure RingLegal (base : BitVec 64) (size p q : Nat) : Prop where
  aligned : base.toNat % 4096 = 0
  size_ge : 6 ≤ size
  size_le : size ≤ 12
  first : p < 2 ^ size
  second : q < 2 ^ size

theorem State.windowLegal_iff (s : State) : s.windowLegal
    ↔ RingLegal s.port.reqBase s.port.reqSize s.port.reqTail s.port.reqHead
      ∧ RingLegal s.port.cplBase s.port.cplSize s.port.producer s.port.cplHead := by
  constructor
  · rintro ⟨hreq, hcpl, hr6, hr12, hc6, hc12, htail, hhead, hprod, hchead⟩
    exact ⟨⟨hreq, hr6, hr12, htail, hhead⟩, ⟨hcpl, hc6, hc12, hprod, hchead⟩⟩
  · rintro ⟨⟨hreq, hr6, hr12, htail, hhead⟩, ⟨hcpl, hc6, hc12, hprod, hchead⟩⟩
    exact ⟨hreq, hcpl, hr6, hr12, hc6, hc12, htail, hhead, hprod, hchead⟩

section Ring

variable {base base' : BitVec 64} {size p q : Nat}

/-- A position of any size lies in its ring once taken modulo the size. -/
theorem RingLegal.wrapFirst (h : RingLegal base size p q) (x : Nat) : RingLegal base size (x % 2 ^ size) q :=
  { h with first := Nat.mod_lt x (by positivity) }

theorem RingLegal.wrapSecond (h : RingLegal base size p q) (x : Nat) : RingLegal base size p (x % 2 ^ size) :=
  { h with second := Nat.mod_lt x (by positivity) }

/-- Both positions of a ring placed anew are 0. -/
theorem RingLegal.rewound (h : RingLegal base size p q) (aligned : base'.toNat % 4096 = 0) : RingLegal base' size 0 0 :=
  { h with aligned, first := by positivity, second := by positivity }

theorem RingLegal.resized (h : RingLegal base size p q) (value : Word) : RingLegal base (sizeCodeOf value) 0 0 where
  aligned := h.aligned
  size_ge := by unfold sizeCodeOf clampTo; omega
  size_le := by unfold sizeCodeOf clampTo; omega
  first := by positivity
  second := by positivity

end Ring

/-! ### The words of a base -/

/-- The low word of a base, as the window reads it. -/
def lowWord (base : BitVec 64) : Word := base.setWidth 32

/-- The high word of a base, as the window reads it. -/
def highWord (base : BitVec 64) : Word := (base >>> 32).setWidth 32

theorem toNat_lowWord_add (base : BitVec 64) : (lowWord base).toNat + 2 ^ 32 * (highWord base).toNat = base.toNat := by
  have hlt := base.isLt
  simp only [lowWord, highWord, BitVec.toNat_setWidth, BitVec.toNat_ushiftRight, Nat.shiftRight_eq_div_pow]
  omega

@[simp] theorem lowWord_append (high low : Word) : lowWord (high ++ low) = low := BitVec.setWidth_append_eq_right

@[simp] theorem highWord_append (high low : Word) : highWord (high ++ low) = high := by
  apply BitVec.eq_of_getLsbD_eq
  intro i hi
  rw [highWord, BitVec.getLsbD_setWidth, BitVec.getLsbD_ushiftRight, BitVec.getLsbD_append]
  simp [hi]

theorem withLowWord_eq (base : BitVec 64) (value : Word) : withLowWord base value = highWord base ++ (value &&& 0xFFFFF000#32) := by
  have hhigh : base.extractLsb' 32 32 = highWord base := by
    apply BitVec.eq_of_getLsbD_eq
    intro i hi
    rw [highWord, BitVec.getLsbD_extractLsb', BitVec.getLsbD_setWidth, BitVec.getLsbD_ushiftRight]
  rw [withLowWord, hhigh]

theorem withHighWord_eq (base : BitVec 64) (value : Word) : withHighWord base value = value ++ lowWord base := by
  rw [withHighWord, lowWord, BitVec.setWidth_eq_extractLsb' (by omega)]

/-- The low 12 bits of a base are those of its low word. -/
theorem toNat_mod_4096 (base : BitVec 64) : base.toNat % 4096 = (lowWord base).toNat % 4096 := by
  have h := toNat_lowWord_add base
  omega

/-- R149: the low 12 bits of a base's low word are ignored. -/
theorem withLowWord_aligned (base : BitVec 64) (value : Word) : (withLowWord base value).toNat % 4096 = 0 := by
  rw [toNat_mod_4096, withLowWord_eq, lowWord_append, BitVec.toNat_and]
  exact (Nat.and_mod_two_pow (n := 12)).trans (Nat.and_zero _)

theorem withHighWord_aligned {base : BitVec 64} (h : base.toNat % 4096 = 0) (value : Word) :
    (withHighWord base value).toNat % 4096 = 0 := by
  rw [toNat_mod_4096, withHighWord_eq, lowWord_append, ← toNat_mod_4096, h]

/-! ## What every command upholds -/

/-- From `s` to `t` the registers of the window stay legal, and the time and the waiting commands stay as they are. -/
structure Upholds (s t : State) : Prop where
  window : s.windowLegal → t.windowLegal
  now : t.now = s.now
  pending : t.pending = s.pending

section Upholds

variable {s t u : State}

theorem Upholds.refl (s : State) : Upholds s s := ⟨id, rfl, rfl⟩

theorem Upholds.trans (h : Upholds s u) (h' : Upholds u t) : Upholds s t :=
  ⟨h'.window ∘ h.window, h'.now.trans h.now, h'.pending.trans h.pending⟩

theorem Upholds.of_standing (h : t.standing = s.standing) : Upholds s t := by
  simp only [State.standing, Prod.mk.injEq] at h
  obtain ⟨hport, hnow, hpending⟩ := h
  refine ⟨fun hs => ?_, hnow, hpending⟩
  have hlegal : ({ t with port := { s.port with notices := [] } } : State).windowLegal := hs
  rw [← hport] at hlegal
  exact hlegal

/-- A change of the Request Port that keeps each of its rings legal. -/
theorem Upholds.of_rings (now : t.now = s.now) (pending : t.pending = s.pending)
    (req : RingLegal s.port.reqBase s.port.reqSize s.port.reqTail s.port.reqHead
      → RingLegal t.port.reqBase t.port.reqSize t.port.reqTail t.port.reqHead)
    (cpl : RingLegal s.port.cplBase s.port.cplSize s.port.producer s.port.cplHead
      → RingLegal t.port.cplBase t.port.cplSize t.port.producer t.port.cplHead) : Upholds s t where
  window hs := by
    obtain ⟨hreq, hcpl⟩ := s.windowLegal_iff.mp hs
    exact t.windowLegal_iff.mpr ⟨req hreq, cpl hcpl⟩
  now := now
  pending := pending

end Upholds

section Steps

variable (s : State)

theorem Upholds.intakeBegun : Upholds s s.intakeBegun := by
  rcases s.intakeBegun_cases with ⟨-, e⟩ | ⟨-, e⟩ <;> rw [e]
  · exact .refl s
  · exact .of_rings rfl rfl id id

theorem Upholds.settled : Upholds s s.settled := (Upholds.of_standing s.arbitersServed_standing).trans (.intakeBegun _)

/-! ### Resets and the register window -/

theorem Upholds.powerOn : Upholds s s.powerOn := by
  obtain ⟨-, -, -, hreset, -⟩ := resetMeetsTheInvariants
  exact ⟨fun _ => hreset, rfl, rfl⟩

theorem Upholds.controllerReset : Upholds s s.controllerReset :=
  .of_rings rfl rfl (fun h => h.rewound h.aligned) (fun h => h.rewound h.aligned)

theorem Upholds.writeControl (value : Word) : Upholds s (s.writeControl value) := by
  unfold State.writeControl
  split
  · exact .controllerReset s
  · exact .of_rings rfl rfl id id

theorem Upholds.placeRequestRing (reg : RingReg) (value : Word) : Upholds s (s.placeRequestRing reg value) := by
  unfold State.placeRequestRing
  split
  · cases reg with
    | baseLow => exact .of_rings rfl rfl (·.rewound (withLowWord_aligned _ value)) id
    | baseHigh => exact .of_rings rfl rfl (fun h => h.rewound (withHighWord_aligned h.aligned value)) id
    | sizeCode => exact .of_rings rfl rfl (·.resized value) id
  · exact .refl s

theorem Upholds.placeCompletionRing (reg : RingReg) (value : Word) : Upholds s (s.placeCompletionRing reg value) := by
  unfold State.placeCompletionRing
  split
  · cases reg with
    | baseLow => exact .of_rings rfl rfl id (·.rewound (withLowWord_aligned _ value))
    | baseHigh => exact .of_rings rfl rfl id (fun h => h.rewound (withHighWord_aligned h.aligned value))
    | sizeCode => exact .of_rings rfl rfl id (·.resized value)
  · exact .refl s

theorem Upholds.writeTail (value : Word) : Upholds s (s.writeTail value) := .of_rings rfl rfl (·.wrapFirst _) id
theorem Upholds.writeCplHead (value : Word) : Upholds s (s.writeCplHead value) := .of_rings rfl rfl id (·.wrapSecond _)

theorem Upholds.writeArm (value : Word) : Upholds s (s.writeArm value) := by
  unfold State.writeArm
  split
  · split <;> exact .of_rings rfl rfl id id
  · exact .of_rings rfl rfl id id

theorem Upholds.writeRegister (offset : BitVec 12) (value : Word) : Upholds s (s.writeRegister offset value) := by
  unfold State.writeRegister
  split
  · exact .writeControl s value
  · exact .placeRequestRing s _ value
  · exact .placeRequestRing s _ value
  · exact .placeRequestRing s _ value
  · exact .writeTail s value
  · exact .placeCompletionRing s _ value
  · exact .placeCompletionRing s _ value
  · exact .placeCompletionRing s _ value
  · exact .writeCplHead s value
  · exact .writeArm s value
  · exact .refl s

/-! ### The intake and the Completion Ring -/

theorem Upholds.writeEntry (c : CplEntry) (cw : Dma) : Upholds s (s.writeEntry c cw) :=
  .of_rings rfl rfl id (·.wrapFirst _)

theorem Upholds.advanceHead (intake : Intake) : Upholds s (s.advanceHead intake) :=
  .of_rings rfl rfl (·.wrapSecond _) id

theorem Upholds.finishTaking (e : Entry) (cw : Dma) (r : Reply) : Upholds s (s.finishTaking e cw r) := by
  cases r with
  | answer a => exact (Upholds.advanceHead s .idle).trans (.writeEntry _ _ cw)
  | deferred => exact .advanceHead s .idle
  | buffer job => exact .advanceHead s (.writing job)

theorem Upholds.takeChanging {e : Entry} {body : State → State × Reply} (h : ∀ u, Closes u (body u)) (op : Byte) (cw : Dma) :
    Upholds s (s.takeChanging e op cw body) := by
  unfold State.takeChanging
  dsimp only
  split
  · have hclear : Upholds s s.clearQuiesce := .of_rings rfl rfl id id
    exact (hclear.trans (.of_standing (h _).standing)).trans (.finishTaking _ e cw _)
  · exact .refl s

theorem Upholds.takeReading {e : Entry} {body : State → State × Reply} (h : ∀ u, Upholds u (body u).1) (op : Byte) (cw : Dma) :
    Upholds s (s.takeReading e op cw body) := by
  unfold State.takeReading
  split
  · exact (h s).trans (.finishTaking _ e cw _)
  · exact .refl s

theorem Upholds.bufferEnd (job : BufferJob) (bw : Dma) : Upholds s (s.bufferEnd job bw) := by
  unfold State.bufferEnd
  dsimp only
  split
  · exact .of_rings rfl rfl id id
  · split <;> exact .of_rings rfl rfl id id

theorem Upholds.endSweep : Upholds s s.endSweep := .of_rings rfl rfl id id

theorem Upholds.headNoticeWritten (cw : Dma) : Upholds s (s.headNoticeWritten cw) := by
  unfold State.headNoticeWritten
  split
  · exact .refl s
  rename_i n rest _
  have hwrite : Upholds s (s.writeNotice n rest cw) := .of_rings rfl rfl id (·.wrapFirst _)
  split
  · dsimp only
    split
    · exact hwrite.trans (.endSweep _)
    · exact hwrite
  · exact .refl s

end Steps

/-! ## Every command and every step -/

/-- Every command answers a next state, whatever the state it meets. -/
theorem exec_upholds (c : Instr) (s : State) : ∃ t, exec c s = .next t ∧ Upholds s t := by
  have hu := Upholds.settled s
  cases c with
  | powerOnReset => exact ⟨_, rfl, hu.trans (.powerOn _)⟩
  | functionLevelReset => exact ⟨_, rfl, hu.trans (.powerOn _)⟩
  | controllerReset value => exact ⟨_, rfl, hu.trans (.writeControl _ value)⟩
  | writeRun value => exact ⟨_, rfl, hu.trans (.writeControl _ value)⟩
  | writeRequestRingPlacement reg value => exact ⟨_, rfl, hu.trans (.placeRequestRing _ reg value)⟩
  | writeCompletionRingPlacement reg value => exact ⟨_, rfl, hu.trans (.placeCompletionRing _ reg value)⟩
  | requestRingTail value => exact ⟨_, rfl, hu.trans (.writeTail _ value)⟩
  | completionRingHead value => exact ⟨_, rfl, hu.trans (.writeCplHead _ value)⟩
  | attentionArm value => exact ⟨_, rfl, hu.trans (.writeArm _ value)⟩
  | registerWrite offset value => exact ⟨_, rfl, hu.trans (.writeRegister _ offset value)⟩
  | portLinkChange port up => exact ⟨_, rfl, hu.trans (.of_standing (State.setPort_standing _ port _))⟩
  | intakeReservation => exact ⟨_, rfl, .intakeBegun s⟩
  | entryReadFault cw =>
    refine ⟨_, rfl, hu.trans ?_⟩
    dsimp only
    split
    · exact (Upholds.advanceHead _ .idle).trans (.writeEntry _ _ cw)
    · exact .refl _
  | badRequest entry cw =>
    refine ⟨_, rfl, hu.trans ?_⟩
    dsimp only
    split
    · exact .finishTaking _ entry cw _
    · exact .refl _
  | openRecord entry block cw => exact ⟨_, rfl, hu.trans (.takeChanging _ (openBody_closes entry block) _ cw)⟩
  | cancel entry cw => exact ⟨_, rfl, hu.trans (.takeChanging _ (cancelBody_closes entry) _ cw)⟩
  | retire entry cw => exact ⟨_, rfl, hu.trans (.takeChanging _ (retireBody_closes entry) _ cw)⟩
  | query entry cw => exact ⟨_, rfl, hu.trans (.takeReading _ (fun u => .of_standing (queryBody_standing entry u)) _ cw)⟩
  | reprioritize entry cw => exact ⟨_, rfl, hu.trans (.takeChanging _ (reprioritizeBody_closes entry) _ cw)⟩
  | rackDown entry cw => exact ⟨_, rfl, hu.trans (.takeChanging _ (rackDownBody_closes entry) _ cw)⟩
  | rackUp entry cw => exact ⟨_, rfl, hu.trans (.takeChanging _ (rackUpBody_closes entry) _ cw)⟩
  | rackClass entry cw => exact ⟨_, rfl, hu.trans (.takeChanging _ (rackClassBody_closes entry) _ cw)⟩
  | hold entry cw => exact ⟨_, rfl, hu.trans (.takeChanging _ (holdBody_closes entry) _ cw)⟩
  | release entry cw => exact ⟨_, rfl, hu.trans (.takeChanging _ (releaseBody_closes entry) _ cw)⟩
  | amend entry cw => exact ⟨_, rfl, hu.trans (.takeChanging _ (amendBody_closes entry) _ cw)⟩
  | replan entry block cw => exact ⟨_, rfl, hu.trans (.takeChanging _ (replanBody_closes entry block) _ cw)⟩
  | quiesce entry cw => exact ⟨_, rfl, hu.trans (.takeReading _ (fun u => .of_rings rfl rfl id id) _ cw)⟩
  | setParams entry block cw => exact ⟨_, rfl, hu.trans (.takeChanging _ (setParamsBody_closes entry block) _ cw)⟩
  | identify entry cw => exact ⟨_, rfl, hu.trans (.takeReading _ (fun u => .of_standing (identifyBody_standing entry u)) _ cw)⟩
  | report entry cw => exact ⟨_, rfl, hu.trans (.takeReading _ (fun u => .of_standing (reportBody_standing entry u)) _ cw)⟩
  | bufferWriteDone bw cw =>
    refine ⟨_, rfl, hu.trans ?_⟩
    dsimp only
    split
    · exact (Upholds.bufferEnd _ _ bw).trans (.writeEntry _ _ cw)
    all_goals exact .refl _
  | noticeWrite cw => exact ⟨_, rfl, (Upholds.of_standing s.arbitersServed_standing).trans (.headNoticeWritten _ cw)⟩
  | activation =>
    refine ⟨_, rfl, ?_⟩
    split
    · exact .refl s
    · exact .of_standing rfl
  | issue =>
    refine ⟨_, rfl, ?_⟩
    split
    · exact .refl s
    · exact .of_standing (s.issueTo_standing _ _ _ _ _)
  | refill =>
    refine ⟨_, rfl, hu.trans ?_⟩
    dsimp only
    split <;> exact .of_standing rfl
  | stallExpiry slot =>
    refine ⟨_, rfl, hu.trans (.of_standing ?_)⟩
    dsimp only
    split
    · rfl
    · split <;> simp
  | holdoffExpiry slot pos => exact ⟨_, rfl, hu.trans (.of_standing (State.modSurv_standing _ slot pos _))⟩
  | idleExpiry tag =>
    refine ⟨_, rfl, hu.trans (.of_standing ?_)⟩
    dsimp only
    split
    · rfl
    split
    · split <;> simp
    · rfl
  | spanArrival port frame =>
    refine ⟨_, rfl, hu.trans (.of_standing ?_)⟩
    dsimp only
    split
    · exact State.spanArrives_standing _ _
    all_goals rfl
  | endArrival port frame =>
    refine ⟨_, rfl, hu.trans (.of_standing ?_)⟩
    dsimp only
    split
    · split
      · rfl
      · exact State.endArrives_standing _ _ _
    all_goals rfl
  | neighbourSolicitation port frame =>
    refine ⟨_, rfl, hu.trans (.of_standing ?_)⟩
    dsimp only
    split <;> rfl
  | frameDiscard port frame => exact ⟨_, rfl, hu⟩
  | sweepVisit =>
    refine ⟨_, rfl, hu.trans (.of_standing ?_)⟩
    dsimp only
    split
    · split
      · exact State.visit_standing _ _ _
      · rfl
    · rfl
  | sweepEnd =>
    refine ⟨_, rfl, hu.trans ?_⟩
    dsimp only
    split
    · exact .endSweep _
    · exact .refl _
  | passStart => exact ⟨_, rfl, .of_standing s.passStarted_standing⟩
  | passEnd =>
    refine ⟨_, rfl, hu.trans (.of_standing ?_)⟩
    dsimp only
    split
    · rfl
    split
    · exact (State.endPass_standing _ _ _ _ _).trans (State.emit_standing _ _)
    · rfl
  | landingFault =>
    refine ⟨_, rfl, hu.trans (.of_standing ?_)⟩
    dsimp only
    split
    · rfl
    · exact (State.endPass_standing _ _ _ _ _).trans (State.emit_standing _ _)
  | landingWriteComplete =>
    refine ⟨_, rfl, hu.trans (.of_standing ?_)⟩
    dsimp only
    split
    · rfl
    split <;> rfl

/-- R87: a PULL that leaves a port changes nothing of the Request Port. -/
theorem State.sendOne_standing (s : State) (p : PortNo) : (s.sendOne p).standing = s.standing := by
  unfold State.sendOne
  split
  · simp
  · rfl

/-- Settles O52: positions are stored modulo their rings' sizes, and only writes and resets place a ring. -/
theorem stepKeepsTheWindowLegal : Obligations.StepKeepsTheWindowLegal := by
  intro s t h hs
  rcases step_cases h with rfl | ⟨c, rest, -, hc⟩
  · have hsent : ((s.settled.sendOne .p0).sendOne .p1).standing = s.settled.standing :=
      (State.sendOne_standing _ .p1).trans (State.sendOne_standing _ .p0)
    exact (Upholds.of_standing hsent).window ((Upholds.settled s).window hs)
  · obtain ⟨t', ht', hup⟩ := exec_upholds c { s with pending := rest }
    obtain rfl := Host.Outcome.next.inj (hc.symm.trans ht')
    exact hup.window hs

/-- Settles O2: no command's own effect touches the time or the waiting commands. -/
theorem everyCommandCompletes : Obligations.EveryCommandCompletes := fun c s =>
  have ⟨t, ht, hup⟩ := exec_upholds c s
  ⟨t, ht, hup.pending, hup.now⟩

/-- Settles O1: the front command is the one that a step on such a queue matches. -/
theorem stepTakesTheFrontCommand : Obligations.StepTakesTheFrontCommand := fun _ _ _ => rfl

end Sys2Proof.Machine

/-! The register window (O6 to O9), the ends of an intake (O12) and the quiesce flag (O28). -/

namespace Sys2Proof.Machine

/-! ## Status (O7) -/

/-- R151: the Status register, bit by bit from bit 0 on. -/
theorem State.status_eq (s : State) : s.status = BitVec.ofNat 32 ([s.runningBit, s.port.quiesce, s.rackUnit.sweep.running,
    s.fetch.port0.linkUp, s.fetch.port1.linkUp].foldr Nat.bit 0) := by
  have hbit : ∀ (b : Bool) (w : Nat), (if b then w else 0) = w * b.toNat := fun b w => by cases b <;> simp
  simp only [State.status, hbit, List.foldr_cons, List.foldr_nil, Nat.bit_val]
  congr 1
  omega

/-- Settles O7: each of the five bits, and the bits past them. -/
theorem statusShowsFiveConditions : Obligations.StatusShowsFiveConditions := by
  intro s i
  have hread : s.readRegister 0x004#12 = s.status := rfl
  rw [hread, State.status_eq, BitVec.getLsbD_ofNat, testBit_foldr_bit]
  match i with
  | 0 => simp [State.runningBit]
  | 1 => simp
  | 2 => simp
  | 3 => simp
  | 4 => simp
  | i + 5 => simp

/-! ## Writes of the window (O6, O8, O9) -/

/-- R149: a write at an offset that holds no written register is ignored. -/
theorem State.writeRegister_ignored (s : State) {offset : BitVec 12} (value : Word) (h : offset ∉ [0x000#12, 0x008#12, 0x00C#12,
    0x010#12, 0x014#12, 0x020#12, 0x024#12, 0x028#12, 0x030#12, 0x034#12]) : s.writeRegister offset value = s := by
  simp only [List.mem_cons, List.not_mem_nil, or_false, not_or, ← BitVec.toNat_inj, BitVec.toNat_ofNat] at h
  unfold State.writeRegister
  split
  case h_11 => rfl
  all_goals omega

/-- Settles O6: a write of RUN, and one that finds no register to write. -/
theorem writeRunAndIgnoredWrites : Obligations.WriteRunAndIgnoredWrites := by
  refine ⟨?_, fun offset value s₀ h => ?_⟩
  · intro value s₀ s h
    exact ⟨_, congrArg Host.Outcome.next (if_neg (Bool.eq_false_iff.mp h)), rfl, rfl⟩
  · exact congrArg Host.Outcome.next (s₀.settled.writeRegister_ignored value h)

/-- R152: what opens the placement of the rings. -/
theorem State.placementOpen_iff (s : State) : s.placementOpen = true ↔ s.port.run = false ∧ s.port.intake = .idle := by
  simp [State.placementOpen, State.runningBit]

theorem lowWord_withLowWord (base : BitVec 64) (value : Word) : lowWord (withLowWord base value) = value &&& 0xFFFFF000#32 := by
  rw [withLowWord_eq, lowWord_append]

theorem highWord_withLowWord (base : BitVec 64) (value : Word) : highWord (withLowWord base value) = highWord base := by
  rw [withLowWord_eq, highWord_append]

theorem lowWord_withHighWord (base : BitVec 64) (value : Word) : lowWord (withHighWord base value) = lowWord base := by
  rw [withHighWord_eq, lowWord_append]

theorem highWord_withHighWord (base : BitVec 64) (value : Word) : highWord (withHighWord base value) = value := by
  rw [withHighWord_eq, highWord_append]

theorem sizeCodeOf_eq (value : Word) :
    sizeCodeOf value = if value.toNat < 6 then 6 else if 12 < value.toNat then 12 else value.toNat := clampTo_eq (by omega) _

/-- Settles O8: either ring is placed where the placement is open, and only there. -/
theorem ringPlacementWrites : Obligations.RingPlacementWrites := by
  have hclosed {s : State} (h : s.port.run = true ∨ s.port.intake ≠ .idle) : ¬ s.placementOpen = true := by
    rw [State.placementOpen_iff]
    rintro ⟨hrun, hidle⟩
    rcases h with h | h
    · rw [hrun] at h; cases h
    · exact h hidle
  refine ⟨?request, ?completion, fun s => ⟨toNat_lowWord_add _, toNat_lowWord_add _, rfl, rfl⟩⟩
  case request | completion =>
    intro value s₀ s
    refine ⟨fun hrun hidle => ?_, fun h reg => congrArg Host.Outcome.next (if_neg (hclosed h))⟩
    have hopen := s.placementOpen_iff.mpr ⟨hrun, hidle⟩
    refine ⟨⟨_, congrArg Host.Outcome.next (if_pos hopen), lowWord_withLowWord _ value, highWord_withLowWord _ value, rfl⟩,
      ⟨_, congrArg Host.Outcome.next (if_pos hopen), lowWord_withHighWord _ value, highWord_withHighWord _ value, rfl⟩, ?_⟩
    rw [← sizeCodeOf_eq]
    exact congrArg Host.Outcome.next (if_pos hopen)

theorem ringFill_lt (c head tail : Nat) : ringFill c head tail < 2 ^ c := Nat.mod_lt _ (by positivity)

/-- R155, R165: the fill leads from the head to the tail. -/
theorem head_add_ringFill {c tail : Nat} (head : Nat) (h : tail < 2 ^ c) : (head + ringFill c head tail) % 2 ^ c = tail := by
  have hhead : head % 2 ^ c < 2 ^ c := Nat.mod_lt _ (by positivity)
  calc (head + ringFill c head tail) % 2 ^ c
      = (head % 2 ^ c + (tail + 2 ^ c - head % 2 ^ c)) % 2 ^ c := by rw [ringFill, Nat.add_mod_mod, Nat.mod_add_mod]
    _ = (tail + 2 ^ c) % 2 ^ c := by rw [Nat.add_sub_cancel' (by omega)]
    _ = tail := by rw [Nat.add_mod_right, Nat.mod_eq_of_lt h]

/-- Settles O9: the writes as they are stored, the fill by its arithmetic. -/
theorem ringPositionsWrap : Obligations.RingPositionsWrap :=
  ⟨fun _ _ => ⟨rfl, rfl⟩, fun s h => ⟨ringFill_lt _ _ _, head_add_ringFill s.port.cplHead h, rfl⟩,
    fun _ => ⟨rfl, rfl, rfl, rfl⟩⟩

/-! ## The beginning and the ends of an intake (O12) -/

/-- R156: what an intake takes to begin. -/
theorem State.mayReserve_iff (s : State) : s.mayReserve = true
    ↔ s.port.run = true ∧ s.port.reqHead ≠ s.port.reqTail ∧ s.port.intake = .idle ∧ 1 ≤ s.room := by
  simp [State.mayReserve, and_assoc]

/-- R166: the intake that begins reserves an entry. -/
theorem State.room_beginIntake {s : State} (h : s.port.intake = .idle) : s.beginIntake.room = s.room - 1 := by
  have hbefore : s.reserved = 0 := if_pos h
  have hafter : s.beginIntake.room = 2 ^ s.port.cplSize - 1 - s.fill - 1 := rfl
  rw [hafter, State.room, hbefore, Nat.sub_zero]

/-- Settles O12: the beginning by its conditions, and the two ends by what they answer. -/
theorem intakesBeginAndFaultsEndThem : Obligations.IntakesBeginAndFaultsEndThem := by
  refine ⟨fun s => ⟨fun hrun hring hidle hroom => ?_, fun h => ?_⟩, ?_⟩
  · have hmay := s.mayReserve_iff.mpr ⟨hrun, hring, hidle, hroom⟩
    exact ⟨s.beginIntake, congrArg Host.Outcome.next (if_pos hmay), rfl, State.room_beginIntake hidle⟩
  · refine congrArg Host.Outcome.next (if_neg fun hmay => ?_)
    obtain ⟨hrun, hring, hidle, hroom⟩ := s.mayReserve_iff.mp hmay
    rcases h with h | h | h | h
    · rw [hrun] at h; cases h
    · exact hring h
    · exact h hidle
    · omega
  · intro e cw s₀ s h
    refine ⟨?_, fun hop => ?_⟩
    · refine ⟨_, congrArg Host.Outcome.next (if_pos h), ⟨rfl, ?_⟩, rfl, rfl⟩
      rw [State.writeEntry_outputs, List.append_nil]
      rfl
    · have hunknown : s.takesUnknown e = true := by
        rw [State.takesUnknown, h]
        simpa [knownOpcodes] using hop
      obtain ⟨hanswer, hrest, hnotices⟩ := refused_of_body (s := s) (u := s) (e := e) (cw := cw) (a := .plain .badRequest [])
        (q := s.port.quiesce) (before := []) (by simp)
      exact ⟨_, congrArg Host.Outcome.next (if_pos hunknown), hanswer, hnotices, hrest⟩

/-! ## The quiesce flag (O28) -/

/-- R160: a state-changing request whose rule closes leaves the flag clear and no intake under way. -/
theorem State.takeChanging_closed {s : State} {e : Entry} {op : Byte} {body : State → State × Reply} (h : s.reading e op)
    (hbody : ∀ u, Closes u (body u)) (cw : Dma) :
    (s.takeChanging e op cw body).port.quiesce = false ∧ (s.takeChanging e op cw body).port.intake = .idle := by
  rw [State.takeChanging_reading h]
  obtain ⟨hstand, hreply⟩ := hbody s.clearQuiesce
  generalize body s.clearQuiesce = x at hstand hreply
  have hquiesce : x.1.port.quiesce = false := congrArg (fun y => y.1.quiesce) hstand
  obtain ⟨u, r⟩ := x
  cases r with
  | answer a => exact ⟨hquiesce, rfl⟩
  | deferred => exact ⟨hquiesce, rfl⟩
  | buffer job => exact absurd rfl (hreply job)

/-- R160: a request that is not state-changing leaves the flag as it is. -/
theorem State.takeReading_quiesce {e : Entry} {body : State → State × Reply} (hbody : ∀ u, (body u).1.standing = u.standing)
    (op : Byte) (cw : Dma) (s : State) : (s.takeReading e op cw body).port.quiesce = s.port.quiesce := by
  have hquiesce : (body s).1.port.quiesce = s.port.quiesce := congrArg (fun y => y.1.quiesce) (hbody s)
  unfold State.takeReading
  split
  · cases (body s).2 <;> exact hquiesce
  · rfl

/-- Settles O28: QUIESCE by its answer, the others request by request. -/
theorem quiesceFlag : Obligations.QuiesceFlag := by
  intro e block cw s₀ s
  refine ⟨fun h => ?_, fun c op hm h => ?_, fun c op hm _ => ?_⟩
  · refine ⟨_, congrArg Host.Outcome.next (State.takeReading_reading h cw quiesceBody), State.answered_of_body rfl ?_, rfl, rfl⟩
    exact (List.append_nil _).symm
  · simp only [List.mem_cons, Prod.mk.injEq, List.not_mem_nil, or_false] at hm
    rcases hm with ⟨rfl, rfl⟩ | ⟨rfl, rfl⟩ | ⟨rfl, rfl⟩ | ⟨rfl, rfl⟩ | ⟨rfl, rfl⟩ | ⟨rfl, rfl⟩ | ⟨rfl, rfl⟩ | ⟨rfl, rfl⟩
      | ⟨rfl, rfl⟩ | ⟨rfl, rfl⟩ | ⟨rfl, rfl⟩ | ⟨rfl, rfl⟩ <;> refine ⟨_, rfl, State.takeChanging_closed h ?_ cw⟩
    · exact openBody_closes e block
    · exact cancelBody_closes e
    · exact retireBody_closes e
    · exact reprioritizeBody_closes e
    · exact rackDownBody_closes e
    · exact rackUpBody_closes e
    · exact rackClassBody_closes e
    · exact holdBody_closes e
    · exact releaseBody_closes e
    · exact amendBody_closes e
    · exact replanBody_closes e block
    · exact setParamsBody_closes e block
  · simp only [List.mem_cons, Prod.mk.injEq, List.not_mem_nil, or_false] at hm
    rcases hm with ⟨rfl, rfl⟩ | ⟨rfl, rfl⟩ | ⟨rfl, rfl⟩ <;> refine ⟨_, rfl, State.takeReading_quiesce ?_ _ cw s⟩
    · exact queryBody_standing e
    · exact identifyBody_standing e
    · exact reportBody_standing e

end Sys2Proof.Machine

/-! The formats of chapter 11: the blocks that the part writes (O15), and the Settings Block that it reads and writes (O17). -/

namespace Sys2Proof.Machine

/-! ## Byte orders as sums -/

theorem field_succ (l : List Byte) (off len : Nat) : field l off (len + 1) = field l off len ++ [l.getD (off + len) 0#8] := by
  simp only [field, List.range_succ, List.map_append, List.map_cons, List.map_nil]

theorem field_succ_left (l : List Byte) (off len : Nat) : field l off (len + 1) = l.getD off 0#8 :: field l (off + 1) len := by
  simp only [field, List.range_succ_eq_map, List.map_cons, List.map_map, Nat.add_zero]
  congr 1
  exact List.map_congr_left fun i _ => by rw [Function.comp_apply, Nat.succ_eq_add_one, Nat.add_assoc, Nat.add_comm 1 i]

/-- R173: the first byte of a little-endian field counts once. -/
theorem leAt_eq_sum (l : List Byte) (off len : Nat) :
    leAt l off len = ∑ i ∈ Finset.range len, (l.getD (off + i) 0#8).toNat * 256 ^ i := by
  induction len generalizing off with
  | zero => rfl
  | succ len ih =>
    have hstep : leAt l off (len + 1) = (l.getD off 0#8).toNat + 256 * leAt l (off + 1) len := by
      rw [leAt, field_succ_left]; rfl
    rw [hstep, ih, Finset.sum_range_succ', Finset.mul_sum, Nat.add_zero, pow_zero, Nat.mul_one, Nat.add_comm]
    refine congrArg (· + _) (Finset.sum_congr rfl fun i _ => ?_)
    rw [show off + (i + 1) = off + 1 + i by omega, pow_succ]
    ring

/-- R173: the last byte of a network-order field counts once. -/
theorem beAt_eq_sum (l : List Byte) (off len : Nat) :
    beAt l off len = ∑ i ∈ Finset.range len, (l.getD (off + i) 0#8).toNat * 256 ^ (len - 1 - i) := by
  induction len with
  | zero => rfl
  | succ len ih =>
    have hstep : beAt l off (len + 1) = (l.getD (off + len) 0#8).toNat + 256 * beAt l off len := by
      rw [beAt, field_succ, beValue, List.reverse_append]; rfl
    rw [hstep, ih, Finset.sum_range_succ, Finset.mul_sum, Nat.add_sub_cancel, Nat.sub_self, pow_zero, Nat.mul_one, Nat.add_comm]
    refine congrArg (· + _) (Finset.sum_congr rfl fun i hi => ?_)
    have hlt := Finset.mem_range.mp hi
    rw [show len - i = len - 1 - i + 1 by omega, pow_succ]
    ring

/-! ## Little-endian fields of a concatenation -/

theorem leAt_append_of_le {a b : List Byte} {off len : Nat} (h : a.length ≤ off) :
    leAt (a ++ b) off len = leAt b (off - a.length) len := congrArg leValue (field_append_of_le h)

@[simp] theorem leAt_cons_succ (x : Byte) (l : List Byte) (off len : Nat) : leAt (x :: l) (off + 1) len = leAt l off len :=
  congrArg leValue (field_cons_succ x l off len)

/-- A number written in `len` bytes is read back modulo their width, whatever follows. -/
theorem leAt_leBytes_append (len x : Nat) (b : List Byte) : leAt (leBytes len x ++ b) 0 len = x % 256 ^ len := by
  rw [leAt, field_append_left (by simp), field_self (length_leBytes len x), leValue_leBytes]

theorem leAt_word_append {len w : Nat} (x : BitVec w) (hw : 2 ^ w = 256 ^ len) (b : List Byte) :
    leAt (leBytes len x.toNat ++ b) 0 len = x.toNat := by
  rw [leAt_leBytes_append, ← hw, Nat.mod_eq_of_lt x.isLt]

theorem leAt_zeros_append (len : Nat) (b : List Byte) : leAt (zeros len ++ b) 0 len = 0 := by
  have hzeros : zeros len = leBytes len 0 := by
    induction len with
    | zero => rfl
    | succ len ih => rw [leBytes, Nat.zero_div, ← ih]; rfl
  rw [hzeros, leAt_leBytes_append, Nat.zero_mod]

/-! ## Completion Ring entries -/

/-- The 16 bytes of a Completion Ring entry ahead of its results. -/
def CplEntry.header (c : CplEntry) : List Byte :=
  [c.kind, c.status] ++ (leBytes 2 c.reqId.toNat ++ (leBytes 2 c.ringPos ++ (leBytes 2 c.slot ++ leBytes 8 c.stripe.toNat)))

theorem CplEntry.bytes_eq (c : CplEntry) : c.bytes = c.header ++ padTo 16 c.results := by
  simp only [CplEntry.bytes, CplEntry.header, List.append_assoc]

theorem CplEntry.length_header (c : CplEntry) : c.header.length = 16 := by simp [CplEntry.header]

/-- Section 11.2: the fields of a Completion Ring entry. -/
theorem CplEntry.bytes_fields (c : CplEntry) : c.bytes.length = 32
    ∧ byteAt c.bytes 0 = c.kind ∧ byteAt c.bytes 1 = c.status ∧ leAt c.bytes 2 2 = c.reqId.toNat
    ∧ leAt c.bytes 4 2 = c.ringPos % 65536 ∧ leAt c.bytes 6 2 = c.slot % 65536 ∧ leAt c.bytes 8 8 = c.stripe.toNat
    ∧ ∀ i, i < 16 → byteAt c.bytes (16 + i) = c.results.getD i 0#8 := by
  refine ⟨?_, rfl, rfl, ?_, ?_, ?_, ?_, fun i hi => ?_⟩
  · rw [CplEntry.bytes_eq, List.length_append, CplEntry.length_header, length_padTo]
  · simp [CplEntry.bytes, leAt_word_append]
  · simp [CplEntry.bytes, leAt_append_of_le, leAt_leBytes_append]
  · simp [CplEntry.bytes, leAt_append_of_le, leAt_leBytes_append]
  · simp [CplEntry.bytes, leAt_append_of_le, leAt_word_append]
  · have hresults := byteAt_append_right c.header (padTo 16 c.results) i
    rw [c.length_header] at hresults
    rw [CplEntry.bytes_eq, hresults, byteAt_padTo hi]
    rfl

/-! ## The Settings Block -/

theorem PortSettings.length_bytes (g : PortSettings) : g.bytes.length = 32 := by simp [PortSettings.bytes]

/-- The bytes of the Settings Block ahead of the ports' parts. -/
def Settings.header (g : Settings) : List Byte :=
  [numByte g.spanCode, numByte g.idleTimeout, numByte g.retryLimit, numByte g.stallCode, numByte g.baseRate,
    numByte g.outLimit] ++ leBytes 2 g.bucketDepth ++ leBytes 2 g.reserve ++ [numByte g.busyFloor] ++ zeros 5

theorem Settings.bytes_eq (g : Settings) : g.bytes = g.header ++ (g.port0.bytes ++ g.port1.bytes) := by
  simp only [Settings.bytes, Settings.header, List.append_assoc]

theorem Settings.length_header (g : Settings) : g.header.length = 16 := by simp [Settings.header]

theorem Settings.length_bytes (g : Settings) : g.bytes.length = 80 := by
  simp only [Settings.bytes_eq, List.length_append, Settings.length_header, PortSettings.length_bytes]

/-! ## The REPORT block -/

theorem Counters.length_bytes (c : Counters) : c.bytes.length = 36 := by simp [Counters.bytes]

/-- The nine counters in REPORT's order. -/
def Counters.words (c : Counters) : List Word :=
  [c.pullsSent, c.accepted, c.stale, c.badCheck, c.malformed, c.retries, c.delivered, c.faulted, c.lost]

theorem Counters.bytes_eq (c : Counters) : c.bytes = c.words.flatMap fun x => leBytes 4 x.toNat := by
  simp [Counters.bytes, Counters.words]

/-- Words of four bytes each, one behind the other, are read back at their places. -/
theorem leAt_flatMap_words {l : List Word} {j : Nat} {x : Word} (h : l[j]? = some x) (b : List Byte) :
    leAt ((l.flatMap fun x => leBytes 4 x.toNat) ++ b) (4 * j) 4 = x.toNat := by
  induction l generalizing j with
  | nil => cases h
  | cons w rest ih =>
    rw [List.flatMap_cons, List.append_assoc]
    cases j with
    | zero =>
      obtain rfl := Option.some.inj h
      exact leAt_word_append w (by norm_num) _
    | succ j =>
      rw [leAt_append_of_le (by simp), length_leBytes, Nat.mul_succ, Nat.add_sub_cancel]
      exact ih h

/-- R159: the OPEN contexts are the tags whose context is not FREE. -/
theorem State.openCtxs_eq (s : State) : s.openCtxs = ((List.range 256).filter fun i => s.ctxAt (BitVec.ofNat 8 i) ≠ none).length := by
  have h := s.countP_ctxs fun _ => true
  simp only [Option.any_true] at h
  rw [State.openCtxs, h, List.countP_eq_length_filter]
  refine congrArg List.length (List.filter_congr fun i _ => ?_)
  cases s.ctxAt (BitVec.ofNat 8 i) <;> rfl

theorem State.openCtxs_le (s : State) : s.openCtxs ≤ 256 := by
  have h := List.countP_le_length (p := Option.isSome) (l := s.fetch.ctxs.toList)
  rwa [Vector.length_toList] at h

/-- R164: the places of the REPORT block. -/
theorem State.reportBlock_fields (s : State) : s.reportBlock.length = 128
    ∧ leAt s.reportBlock 0 4 = s.counters.pullsSent.toNat ∧ leAt s.reportBlock 4 4 = s.counters.accepted.toNat
    ∧ leAt s.reportBlock 8 4 = s.counters.stale.toNat ∧ leAt s.reportBlock 12 4 = s.counters.badCheck.toNat
    ∧ leAt s.reportBlock 16 4 = s.counters.malformed.toNat ∧ leAt s.reportBlock 20 4 = s.counters.retries.toNat
    ∧ leAt s.reportBlock 24 4 = s.counters.delivered.toNat ∧ leAt s.reportBlock 28 4 = s.counters.faulted.toNat
    ∧ leAt s.reportBlock 32 4 = s.counters.lost.toNat ∧ leAt s.reportBlock 36 4 = 0
    ∧ field s.reportBlock 40 80 = s.settings.bytes
    ∧ leAt s.reportBlock 120 2 = s.act.free.length % 65536 ∧ leAt s.reportBlock 122 2 = s.openCtxs
    ∧ byteAt s.reportBlock 124 = BitVec.ofNat 8 ((if s.comb.pass.isSome then 1 else 0) + (if s.port.quiesce then 2 else 0))
    ∧ leAt s.reportBlock 125 3 = 0 := by
  have hopen : s.openCtxs < 65536 := lt_of_le_of_lt s.openCtxs_le (by norm_num)
  have hcounter {j : Nat} {x : Word} (hx : s.counters.words[j]? = some x) : leAt s.reportBlock (4 * j) 4 = x.toNat := by
    simp only [State.reportBlock, Counters.bytes_eq, List.append_assoc]
    exact leAt_flatMap_words hx _
  refine ⟨?_, hcounter (j := 0) rfl, hcounter (j := 1) rfl, hcounter (j := 2) rfl, hcounter (j := 3) rfl, hcounter (j := 4) rfl,
    hcounter (j := 5) rfl, hcounter (j := 6) rfl, hcounter (j := 7) rfl, hcounter (j := 8) rfl, ?_, ?_, ?_, ?_, ?_, ?_⟩
  · simp [State.reportBlock, Counters.length_bytes, Settings.length_bytes]
  · simp [State.reportBlock, Counters.length_bytes, leAt_append_of_le, leAt_zeros_append]
  · simp [State.reportBlock, Counters.length_bytes, Settings.length_bytes, field_append_of_le, field_append_left, field_self]
  · simp [State.reportBlock, Counters.length_bytes, Settings.length_bytes, leAt_append_of_le, leAt_leBytes_append]
  · simp [State.reportBlock, Counters.length_bytes, Settings.length_bytes, leAt_append_of_le, leAt_leBytes_append,
      Nat.mod_eq_of_lt hopen]
  · simp [State.reportBlock, Counters.length_bytes, Settings.length_bytes, byteAt_append_of_le, numByte]
  · have h := leAt_zeros_append 3 []
    rw [List.append_nil] at h
    simp [State.reportBlock, Counters.length_bytes, Settings.length_bytes, leAt_append_of_le, h]

theorem length_pullMessage (tag : Tag) (serial : BitVec 16) (stripe : StripeId) (frag start length span : Nat) (urgent verify : Bool) :
    (pullMessage tag serial stripe frag start length span urgent verify).length = 28 := by simp [pullMessage]

/-- Settles O15: the codes by their values, the blocks by their places. -/
theorem writtenBlocks : Obligations.WrittenBlocks := by
  refine ⟨fun l off len => ⟨rfl, leAt_eq_sum l off len, beAt_eq_sum l off len⟩, fun len x => ⟨length_leBytes len x, ?_⟩,
    rfl, rfl, fun _ => rfl, fun _ => rfl, rfl, rfl, fun _ => rfl, rfl, rfl, CplEntry.bytes_fields, rfl, Settings.length_bytes,
    length_pullMessage, fun s => ⟨s.openCtxs_eq, s.reportBlock_fields⟩⟩
  rw [leAt, field_self (length_leBytes len x), leValue_leBytes]

/-! ## The Settings Block read back (O17) -/

theorem clampTo_of_mem {lo hi x : Nat} (h1 : lo ≤ x) (h2 : x ≤ hi) : clampTo lo hi x = x := by
  unfold clampTo
  omega

/-- R161: settings in range are brought nowhere. -/
theorem Settings.inRange.clamped {g : Settings} (h : g.inRange) : g.clamped = g := by
  obtain ⟨hspan, hspan', hidle, hidle', hretry, hstall, hrate, hrate', hout, hout', hdepth, hdepth', hreserve, hfloor, hfloor'⟩ := h
  rw [Settings.clamped, clampTo_of_mem hspan hspan', clampTo_of_mem hidle hidle', clampTo_of_mem (Nat.zero_le _) hretry,
    clampTo_of_mem (Nat.zero_le _) hstall, clampTo_of_mem hrate hrate', clampTo_of_mem hout hout', clampTo_of_mem hdepth hdepth',
    clampTo_of_mem (Nat.zero_le _) hreserve, clampTo_of_mem hfloor hfloor']

theorem ofNat_beAt_word {b : List Byte} {off len w : Nat} (x : BitVec w) (h : beAt b off len = x.toNat) :
    BitVec.ofNat w (beAt b off len) = x := by
  rw [h, BitVec.ofNat_toNat, BitVec.setWidth_eq]

/-- Section 11.3: a port's part of the block is read back, whatever follows. -/
theorem readPortSettings_bytes (g : PortSettings) (b : List Byte) : readPortSettings (g.bytes ++ b) 0 = g := by
  have hlink : beAt (g.bytes ++ b) 0 6 = g.link.toNat := by simp [PortSettings.bytes, beAt_word_append]
  have hsvc : beAt (g.bytes ++ b) 6 2 = g.svc.toNat := by simp [PortSettings.bytes, beAt_append_of_le, beAt_word_append]
  have hnet : beAt (g.bytes ++ b) 8 16 = g.net.toNat := by simp [PortSettings.bytes, beAt_append_of_le, beAt_word_append]
  have hnext : beAt (g.bytes ++ b) 24 6 = g.nextHop.toNat := by simp [PortSettings.bytes, beAt_append_of_le, beAt_word_append]
  simp only [readPortSettings, Nat.zero_add, ofNat_beAt_word _ hlink, ofNat_beAt_word _ hsvc, ofNat_beAt_word _ hnet,
    ofNat_beAt_word _ hnext]

theorem readPortSettings_append (a b : List Byte) : readPortSettings (a ++ b) a.length = readPortSettings b 0 := by
  simp [readPortSettings, beAt_append_of_le]

theorem numByte_toNat {x : Nat} (h : x < 256) : (numByte x).toNat = x := toNat_ofNat_of_lt h

/-- Section 11.3: no bit of a Settings Block of settings in range is dropped. -/
theorem Settings.inRange.readSettings_bytes {g : Settings} (h : g.inRange) : readSettings g.bytes = g := by
  obtain ⟨-, hspan, -, hidle, hretry, hstall, -, hrate, -, hout, -, hdepth, hreserve, -, hfloor⟩ := h
  have hport0 : readPortSettings g.bytes 16 = g.port0 := by
    rw [Settings.bytes_eq, ← g.length_header, readPortSettings_append, readPortSettings_bytes]
  have hport1 : readPortSettings g.bytes 48 = g.port1 := by
    have hlen : (g.header ++ g.port0.bytes).length = 48 := by
      rw [List.length_append, Settings.length_header, PortSettings.length_bytes]
    have hlast := readPortSettings_bytes g.port1 []
    rw [List.append_nil] at hlast
    rw [Settings.bytes_eq, ← List.append_assoc, ← hlen, readPortSettings_append, hlast]
  have hdepth' : leAt g.bytes 6 2 = g.bucketDepth := by
    have hlt : g.bucketDepth < 65536 := by omega
    simp [Settings.bytes, leAt_leBytes_append, Nat.mod_eq_of_lt hlt]
  have hreserve' : leAt g.bytes 8 2 = g.reserve := by
    have hlt : g.reserve < 65536 := by omega
    simp [Settings.bytes, leAt_append_of_le, leAt_leBytes_append, Nat.mod_eq_of_lt hlt]
  have hfloor' : byteAt g.bytes 10 = numByte g.busyFloor := rfl
  obtain ⟨h0, h1, h2, h3, h4, h5⟩ : byteAt g.bytes 0 = numByte g.spanCode ∧ byteAt g.bytes 1 = numByte g.idleTimeout
    ∧ byteAt g.bytes 2 = numByte g.retryLimit ∧ byteAt g.bytes 3 = numByte g.stallCode ∧ byteAt g.bytes 4 = numByte g.baseRate
    ∧ byteAt g.bytes 5 = numByte g.outLimit := ⟨rfl, rfl, rfl, rfl, rfl, rfl⟩
  rw [readSettings, hport0, hport1, hdepth', hreserve', hfloor', h0, h1, h2, h3, h4, h5]
  simp (disch := omega) only [numByte_toNat]

/-- R174: the padding of the Settings Block. -/
theorem Settings.bytes_padding (g : Settings) : field g.bytes 11 5 = List.replicate 5 0#8 ∧ field g.bytes 46 2 = [0#8, 0#8]
    ∧ field g.bytes 78 2 = [0#8, 0#8] :=
  ⟨rfl, rfl, rfl⟩

/-- R161: SET_PARAMS stores the settings that its block gives, brought into range. -/
theorem exec_setParams_settings {e : Entry} {block : List Byte} (cw : Dma) {s₀ : State} (h : s₀.settled.reading e 0x11#8)
    (hlen : 80 ≤ lengthOf e) (hblock : 80 ≤ block.length) :
    ∃ t, exec (.setParams e block cw) s₀ = .next t ∧ t.settings = (readSettings (block.take 80)).clamped := by
  refine ⟨_, congrArg Host.Outcome.next (State.takeChanging_reading h cw (setParamsBody e block)), ?_⟩
  rw [State.finishTaking_settings, setParamsBody, readBlock_of_le hlen hlen hblock le_rfl]
  dsimp only
  rw [State.storeSettings_rest]

/-- Settles O17: the places as they are read, and what is written at each. -/
theorem settingsBlockRoundTrips : Obligations.SettingsBlockRoundTrips := by
  refine ⟨fun b => ⟨rfl, rfl, rfl, rfl, rfl, rfl, rfl, rfl, rfl, fun p off hp => ?_⟩, fun g => ?_⟩
  · have hport : p = readPortSettings b off := by
      simp only [List.mem_cons, Prod.mk.injEq, List.not_mem_nil, or_false] at hp
      rcases hp with ⟨rfl, rfl⟩ | ⟨rfl, rfl⟩ <;> rfl
    rw [hport]
    exact ⟨toNat_ofNat_of_lt (beAt_lt b off 6), toNat_ofNat_of_lt (beAt_lt b (off + 6) 2),
      toNat_ofNat_of_lt (beAt_lt b (off + 8) 16), toNat_ofNat_of_lt (beAt_lt b (off + 24) 6)⟩
  · obtain ⟨h11, h46, h78⟩ := g.bytes_padding
    refine ⟨h11, h46, h78, fun h => ⟨h.readSettings_bytes, h.clamped, fun e cw s₀ hread hlen => ?_⟩⟩
    obtain ⟨t, ht, hset⟩ := exec_setParams_settings (block := g.bytes) cw hread hlen g.length_bytes.ge
    refine ⟨t, ht, hset.trans ?_⟩
    rw [List.take_of_length_le g.length_bytes.le, h.readSettings_bytes, h.clamped]

end Sys2Proof.Machine

/-! Attention (O10): what a write of Attention Arm does, by its three cases. -/

namespace Sys2Proof.Machine

section AttentionArm
variable {s : State} {value : Word}

/-- R172: a write of 1 while completions wait raises its MSI and leaves the arm state alone. -/
theorem State.writeArm_of_producer_ne (hset : value.getLsbD 0 = true) (hne : s.port.producer ≠ s.port.cplHead) :
    s.writeArm value = { s with outputs := s.outputs ++ [.msi] } := by
  rw [State.writeArm, if_pos hset, if_pos hne]
  rfl

/-- R172: a write of 1 while the Completion Ring is empty arms. -/
theorem State.writeArm_of_producer_eq (hset : value.getLsbD 0 = true) (heq : s.port.producer = s.port.cplHead) :
    s.writeArm value = { s with port := { s.port with armed := true } } := by
  rw [State.writeArm, if_pos hset, if_neg (not_not_intro heq)]

/-- R172: a write of 0 disarms, whatever the Completion Ring holds. -/
theorem State.writeArm_of_clear (hclear : value.getLsbD 0 = false) :
    s.writeArm value = { s with port := { s.port with armed := false } } := by
  rw [State.writeArm, if_neg (Bool.eq_false_iff.mp hclear)]

end AttentionArm

theorem exec_attentionArm_eq (value : Word) (s : State) :
    exec (.attentionArm value) s = .next (s.settled.writeArm value) := rfl

theorem State.readRegister_attentionArm (s : State) : s.readRegister 0x034#12 = if s.port.armed then 1 else 0 := rfl

/-- Settles O10: the three cases of the write on the settled state, and the register's read. -/
theorem attentionArmWrite : Obligations.AttentionArmWrite := by
  intro value s₀ s
  rw [exec_attentionArm_eq]
  refine ⟨fun hset hne => ?differ, fun hset heq => ?empty, fun hclear => ?clear, s.readRegister_attentionArm⟩
  case differ => exact congrArg Host.Outcome.next (State.writeArm_of_producer_ne hset hne)
  case empty => exact congrArg Host.Outcome.next (State.writeArm_of_producer_eq hset heq)
  case clear => exact congrArg Host.Outcome.next (State.writeArm_of_clear hclear)

end Sys2Proof.Machine
